-- ==== Sys2Proof/Word.lean ====
section
/-! DEFINITION. The word types of the Maryulo M7: 32-bit registers (R209), bytes, 57-bit virtual addresses (R253),
the seven-bit register field (R36) and the 32 lanes of a group (R9). -/
namespace Sys2Proof

/-- A 32-bit register value (R209). -/
abbrev Word := BitVec 32
/-- A byte of memory. -/
abbrev Byte := BitVec 8
/-- A 57-bit virtual address; bits [63:57] of an address operand are ignored (R253). -/
abbrev VA := BitVec 57
/-- A seven-bit register field value (Table 2-5). -/
abbrev Reg := BitVec 7
/-- One bit per lane of a group, lane `l` at bit `l`. -/
abbrev Mask := BitVec 32
/-- One value per lane of a group. -/
abbrev Lanes (α : Type) := Vector α 32
/-- A finite table: an association list in strictly rising key order. -/
abbrev Tab (α : Type) := List (Nat × α)

end Sys2Proof
end

