-- ==== Sys2Proof/Config.lean ====
section
/-! DEFINITION. What one M7 fixes and the manual leaves open: constants without a value (free values), applied to a
counter of the state or to operands, so that no proof can see what they are. -/
namespace Sys2Proof.Config

/-- The nanoseconds of device time that pass before step `n` (R4; the manual bounds no duration from below). Free. -/
opaque elapsed : Nat → Nat
/-- The choice the machine makes at step `n` among its enabled moves (R177: any order within its promises). Free. -/
opaque pick : Nat → Nat
/-- An unspecified 32-bit word (R182, R283, R381), a fresh one for each index. Free. -/
opaque freeWord : Nat → Word
/-- Whether a special function's exact value rounds as the upper end of the interval of `Machine/Special.lean`, asked
only where the two ends round apart: the function's code, the operand and the rounding mode (R244). Free. -/
opaque specialUpper : Nat → Word → BitVec 2 → Bool
/-- Byte `i` of a part of a signed report and certificate that the manual does not lay out (R399). Free. -/
opaque attestByte : Nat → Nat → Byte
/-- The length in bytes of such a part (R399: not given). Free. -/
opaque attestLength : Nat → BitVec 16
/-- The cycles between halt assertion and a unit's stop, within the bounds of Table 4-7 (R94 SKID). Free. -/
opaque skid : Nat → BitVec 32
/-- The silicon stepping (R400: firmware sets it; 0xB0 for B0 and later on, R1). Free. -/
opaque stepping : Byte
/-- The module serial number (R400). Free. -/
opaque serial : BitVec 64
/-- The fused minimum security version before any image is accepted (R398). Free. -/
opaque fusedMinimum : Byte
/-- A firmware-log byte of the fatal dump (Table 18-6). Free. -/
opaque logByte : Nat → Byte
/-- The number of firmware-log bytes of the fatal dump. Free. -/
opaque logLength : Nat
/-- The quadrant-cycles of a context that pass without an issue during step `n` (R391; cycles are timing). Free. -/
opaque idleCycles : Nat → Nat

end Sys2Proof.Config
end

