-- ==== Sys2Proof/Syntax.lean ====
section
/-! DEFINITION. The abstract syntax of the M7: one constructor for each row of the opcode table. The instructions
of Table 2-8 carry their encoded fields (Table 2-2); the rows that have no encoding are the events of the manual's
event tables, and carry the names of the objects they act on. -/
namespace Sys2Proof

/-- What a remote access does to the home module's memory (R375, R376). -/
inductive PeerOp where
  /-- A load of `size` bytes. -/
  | load (size : Nat)
  /-- A store of the given bytes. -/
  | store (data : List Byte)
  /-- An ATOM with operation `op` (R291). -/
  | atom (op : BitVec 3) (v : Word)
  /-- A global CAS (R292). -/
  | cas (cmp new : Word)
  /-- A barrier update with arrival count `da` and byte count `db` (R297). -/
  | update (da : Nat) (db : Int)
  /-- A BINIT with its configuration word (R307). -/
  | binit (cfg : Word)
deriving DecidableEq, Repr

/-- A remote access as it reaches this module's home directory: the party's module and identity, the page size of its
translation (0 is 4 KiB, 1 is 64 KiB, 2 is 2 MiB), the device physical address and the operation (R374, R375). -/
structure PeerAccess where
  party : Word
  pageSize : Nat
  pa : Nat
  op : PeerOp
deriving DecidableEq, Repr

/-- What the start-up firmware finds of one image of a stage, and of the start tests when it runs that image (R395, R398). -/
structure FirmwareImage where
  sigOk : Bool
  svn : BitVec 8
  level : BitVec 16
  digest : BitVec 256
  testReason : BitVec 8
deriving DecidableEq, Repr

/-- The two images of a stage (R398). -/
structure StageImages where
  primary : FirmwareImage
  backup : FirmwareImage
deriving DecidableEq, Repr

/-- Whose operation, transfer or command met an error (R401): an instruction or a long-latency operation of a group, a copy with its
engine and tag, the command of a matrix engine, command `n` of host queue `q`, or none of them. -/
inductive Victim where
  | none
  | group (g : Nat) (op : Option Nat)
  | copy (engine tag : Nat)
  | engine (e : Nat)
  | command (q n : Nat)
deriving DecidableEq, Repr

/-- A detected error: the bank it is recorded in and the fields of Table 18-5, with the context charged, what met it, and whether an
error outside the DRAM is that of a line of memory (R401 to R403). -/
structure ErrorReport where
  bank : Nat
  sev : BitVec 2
  code : BitVec 8
  ctx : Nat
  unit : BitVec 8
  addr : BitVec 64
  met : Victim
  poisonLine : Bool
deriving DecidableEq, Repr

/-- One constructor per row of the opcode table; the rows without an operand come last. A management request carries
no operand: the firmware takes it from the request ring (R109). -/
inductive Instr where
  /-- CLAUSE_ISSUE, R23. -/
  | clauseIssue (g : Nat) (lane : Nat)
  /-- LONG_LATENCY_COMPLETION, R40. -/
  | longLatencyCompletion (g : Nat) (n : Nat)
  /-- G_ROW_READBACK, R182. -/
  | gRowReadback (g : Nat) (row : Nat)
  /-- HALT_LINE_ASSERT, R92. -/
  | haltLineAssert (part : Nat)
  /-- UNIT_STOP, R92. -/
  | unitStop (unit : Nat)
  /-- GROUP_STOP_RECORD, R93. -/
  | groupStopRecord (g : Nat)
  /-- CONTEXT_HALTED, R83. -/
  | contextHalted (ctx : Nat)
  /-- PREEMPT_REQUEST, R97. -/
  | preemptRequest (ctx : Nat)
  /-- GRACE_PERIOD_EXPIRY, R97. -/
  | gracePeriodExpiry (g : Nat)
  /-- GROUP_SAVE, R102. -/
  | groupSave (g : Nat)
  /-- TEAM_SAVE, R98. -/
  | teamSave (team : Nat)
  /-- PARTITION_GRANT, R83. -/
  | partitionGrant (ctx : Nat) (part : Nat)
  /-- TEAM_RESTORE, R99. -/
  | teamRestore (team : Nat) (core : Nat)
  /-- TIME_SLICE_END, R87. -/
  | timeSliceEnd (ctx : Nat)
  /-- CONTEXT_FREED, R83. -/
  | contextFreed (ctx : Nat)
  /-- MRQTAIL_WRITE, R109. -/
  | mrqtailWrite (v : Word)
  /-- MCQCONS_WRITE, R109. -/
  | mcqconsWrite (v : Word)
  /-- HQTAIL_WRITE, R120. -/
  | hqtailWrite (q : Nat) (v : Word)
  /-- HQ_EN_WRITE, R116. -/
  | hqEnWrite (q : Nat) (en : Bool)
  /-- HQ_CLR_WRITE, R122. -/
  | hqClrWrite (q : Nat)
  /-- LAUNCH, R121. -/
  | launch (q : Nat) (n : Nat)
  /-- COPY, R422. -/
  | copy (q : Nat) (n : Nat)
  /-- SIGNAL, R121. -/
  | signal (q : Nat) (n : Nat)
  /-- WAIT, R121. -/
  | wait (q : Nat) (n : Nat)
  /-- WAIT_SATISFIED, R422. -/
  | waitSatisfied (q : Nat) (n : Nat)
  /-- WAIT_TIMEOUT, R122. -/
  | waitTimeout (q : Nat) (n : Nat)
  /-- SELFTEST, R405. -/
  | selftest (q : Nat) (n : Nat)
  /-- MARK, R121. -/
  | mark (q : Nat) (n : Nat)
  /-- COMMAND_COMPLETE, R121. -/
  | commandComplete (q : Nat) (n : Nat)
  /-- LAUNCH_COMPLETE, R151. -/
  | launchComplete (launch : Nat)
  /-- EVCONS_WRITE, R153. -/
  | evconsWrite (ctx : Nat) (v : Word)
  /-- EVENT_IEN_WRITE, R155. -/
  | eventIenWrite (ctx : Nat) (en : Bool)
  /-- COALESCE_TIMER_EXPIRY, R155. -/
  | coalesceTimerExpiry (ctx : Nat)
  /-- REGISTER_WRITE, R5. -/
  | registerWrite (off : Nat) (wide : Bool) (v : BitVec 64)
  /-- BIND_RECORD_WRITE, R148. -/
  | bindRecordWrite (core : Nat) (slot : Nat) (rec : BitVec 128)
  /-- TEAM_START, R149. -/
  | teamStart (core : Nat) (tslot : Nat)
  /-- CARVE_OUT_CHANGE, R149. -/
  | carveOutChange (core : Nat)
  /-- GROUP_RETIRE, R150. -/
  | groupRetire (g : Nat)
  /-- ENGINE_RELEASE, R144. -/
  | engineRelease (eng : Nat)
  /-- GATHER_TIMER_EXPIRY, R124. -/
  | gatherTimerExpiry (ctx : Nat) (die : Nat)
  /-- TASK_GROUP_POP, R125. -/
  | taskGroupPop (ctx : Nat) (core : Nat)
  /-- BLOCKED_PORT_RESUME, R128. -/
  | blockedPortResume (g : Nat)
  /-- SLEEP_EXPIRY, R200. -/
  | sleepExpiry (g : Nat)
  /-- MIGRATE_MOVE, R207. -/
  | migrateMove (g : Nat)
  /-- BWAIT_SATISFIED, R302. -/
  | bwaitSatisfied (g : Nat)
  /-- BARRIER_TIMEOUT, R301. -/
  | barrierTimeout (g : Nat) (lane : Nat)
  /-- HOME_ACCESS_ACCEPT, R280. -/
  | homeAccessAccept (g : Nat)
  /-- RECALL, R271. -/
  | recallUnit (unit : Nat) (gran : Nat)
  /-- DRAIN_POINT, R271. -/
  | drainPoint (unit : Nat) (gran : Nat)
  /-- DRAIN_ACK, R270. -/
  | drainAck (unit : Nat) (gran : Nat)
  /-- QUIET_EXPIRY, R269. -/
  | quietExpiry (gran : Nat)
  /-- PAGE_WALK, R256. -/
  | pageWalk (die : Nat) (ctx : Nat) (va : VA)
  /-- HOST_ACCESS, R272. -/
  | hostAccess (store : Bool) (pa : Nat) (size : Nat) (data : List Byte)
  /-- BIRSP_RECEIVE, R272. -/
  | birspReceive (line : Nat) (data : List Byte)
  /-- HOST_COMPLETION_RECEIVE, R367. -/
  | hostCompletionReceive (g : Nat)
  /-- PEER_ACCESS, R375. -/
  | peerAccess (a : PeerAccess)
  /-- COPY_UNIT, R286. -/
  | copyUnit (id : Nat)
  /-- COPY_COMPLETE, R286. -/
  | copyComplete (id : Nat)
  /-- ENGINE_TAKE_COMMAND, R325. -/
  | engineTakeCommand (eng : Nat)
  /-- ENGINE_COMMAND_START, R318. -/
  | engineCommandStart (eng : Nat)
  /-- ENGINE_COMMAND_COMPLETE, R315. -/
  | engineCommandComplete (eng : Nat)
  /-- STREAM_SLOT_GRANT, R345. -/
  | streamSlotGrant (core : Nat)
  /-- STRAIT_FLIT_RECEIVE, R369. -/
  | straitFlitReceive (link : Nat) (seq : Word) (fec : Bool) (crcOk : Bool)
  /-- REPLAY_REQUEST, R369. -/
  | replayRequest (link : Nat) (seq : Word)
  /-- LINK_REPLAY_TIMEOUT, R369. -/
  | linkReplayTimeout (link : Nat)
  /-- RETRAIN, R372. -/
  | retrain (link : Nat)
  /-- LINK_TRAINED, R372. -/
  | linkTrained (link : Nat) (port : BitVec 6)
  /-- REMOTE_REQUEST_TIMEOUT, R377. -/
  | remoteRequestTimeout (g : Nat)
  /-- COHERENCE_TIMEOUT, R378. -/
  | coherenceTimeout (gran : Nat)
  /-- PTMEN_WRITE, R379. -/
  | ptmenWrite (en : Bool)
  /-- PTM_DIALOGUE, R379. -/
  | ptmDialogue (ok : Bool) (offset : Int)
  /-- PC_SAMPLE, R390. -/
  | pcSample (core : Nat) (quadrant : Nat)
  /-- MODULE_RESET, R395. -/
  | moduleReset (byHost : Bool)
  /-- STAGE_ADVANCE, R395. -/
  | stageAdvance (images : StageImages)
  /-- ERROR_DETECTED, R402. -/
  | errorDetected (e : ErrorReport)
  /-- TRIAGE_SELFTEST, R404. -/
  | triageSelftest (bank : Nat) (pass : Bool)
  /-- SELFTEST_CORE_END, R405. -/
  | selftestCoreEnd (core : Nat) (pass : Bool)
  /-- POWER_CLOCK_STEP, R19. -/
  | powerClockStep (watts : Nat)
  /-- IADD, R216. -/
  | iadd (d : Reg) (a : Reg) (b : Reg) (m : BitVec 3)
  /-- IADDC, R217. -/
  | iaddc (d : Reg) (a : Reg) (b : Reg) (p : BitVec 3)
  /-- ISUB, R216. -/
  | isub (d : Reg) (a : Reg) (b : Reg) (m : BitVec 3)
  /-- ISUBB, R217. -/
  | isubb (d : Reg) (a : Reg) (b : Reg) (p : BitVec 3)
  /-- IMUL, R218. -/
  | imul (d : Reg) (a : Reg) (b : Reg) (m : BitVec 3)
  /-- IMULH, R218. -/
  | imulh (d : Reg) (a : Reg) (b : Reg) (m : BitVec 3)
  /-- IMAD, R218. -/
  | imad (d : Reg) (a : Reg) (b : Reg) (m : BitVec 3)
  /-- IMIN, R219. -/
  | imin (d : Reg) (a : Reg) (b : Reg) (m : BitVec 3)
  /-- IMAX, R219. -/
  | imax (d : Reg) (a : Reg) (b : Reg) (m : BitVec 3)
  /-- IABS, R219. -/
  | iabs (d : Reg) (a : Reg) (m : BitVec 3)
  /-- AND, R220. -/
  | and (d : Reg) (a : Reg) (b : Reg)
  /-- OR, R220. -/
  | or (d : Reg) (a : Reg) (b : Reg)
  /-- XOR, R220. -/
  | xor (d : Reg) (a : Reg) (b : Reg)
  /-- ANDN, R220. -/
  | andn (d : Reg) (a : Reg) (b : Reg)
  /-- SHL, R220. -/
  | shl (d : Reg) (a : Reg) (b : Reg) (m : BitVec 3)
  /-- SHR, R220. -/
  | shr (d : Reg) (a : Reg) (b : Reg) (m : BitVec 3)
  /-- SAR, R220. -/
  | sar (d : Reg) (a : Reg) (b : Reg) (m : BitVec 3)
  /-- ROTL, R220. -/
  | rotl (d : Reg) (a : Reg) (b : Reg)
  /-- BFX, R221. -/
  | bfx (d : Reg) (a : Reg) (b : Reg) (m : BitVec 3)
  /-- BFI, R221. -/
  | bfi (d : Reg) (a : Reg) (b : Reg)
  /-- POPC, R222. -/
  | popc (d : Reg) (a : Reg)
  /-- CLZ, R222. -/
  | clz (d : Reg) (a : Reg)
  /-- CTZ, R222. -/
  | ctz (d : Reg) (a : Reg)
  /-- BREV, R222. -/
  | brev (d : Reg) (a : Reg)
  /-- ISET, R223. -/
  | iset (c : BitVec 4) (p : BitVec 3) (a : Reg) (b : Reg) (m : BitVec 3)
  /-- SEL, R224. -/
  | sel (d : Reg) (a : Reg) (b : Reg) (s : BitVec 3)
  /-- PLOG, R224. -/
  | plog (t : BitVec 4) (p : BitVec 3) (a : BitVec 3) (b : BitVec 3)
  /-- PMOV_TO_REG, R225. -/
  | pmovToReg (d : Reg)
  /-- PMOV_TO_PRED, R225. -/
  | pmovToPred (a : Reg)
  /-- CLMUL, R226. -/
  | clmul (d : Reg) (a : Reg) (b : Reg)
  /-- CLMULH, R226. -/
  | clmulh (d : Reg) (a : Reg) (b : Reg)
  /-- PADD2, R227. -/
  | padd2 (d : Reg) (a : Reg) (b : Reg) (m : BitVec 3)
  /-- PSUB2, R227. -/
  | psub2 (d : Reg) (a : Reg) (b : Reg) (m : BitVec 3)
  /-- PMAC2, R228. -/
  | pmac2 (d : Reg) (a : Reg) (b : Reg) (m : BitVec 3)
  /-- PDOT4, R228. -/
  | pdot4 (d : Reg) (a : Reg) (b : Reg) (m : BitVec 3)
  /-- PDOT8, R228. -/
  | pdot8 (d : Reg) (a : Reg) (b : Reg) (m : BitVec 3)
  /-- PSHR2, R229. -/
  | pshr2 (d : Reg) (a : Reg) (b : Reg) (m : BitVec 3)
  /-- PSAT2, R230. -/
  | psat2 (d : Reg) (a : Reg) (b : Reg) (m : BitVec 3)
  /-- PPACK, R231. -/
  | ppack (d : Reg) (a : Reg) (b : Reg) (m : BitVec 3)
  /-- PUNPK, R232. -/
  | punpk (d : Reg) (a : Reg) (b : Reg) (m : BitVec 3)
  /-- PMIN2, R227. -/
  | pmin2 (d : Reg) (a : Reg) (b : Reg) (m : BitVec 3)
  /-- PMAX2, R227. -/
  | pmax2 (d : Reg) (a : Reg) (b : Reg) (m : BitVec 3)
  /-- ADDI, R233. -/
  | addi (d : Reg) (a : Reg) (i : BitVec 10)
  /-- ANDI, R233. -/
  | andi (d : Reg) (a : Reg) (i : BitVec 10)
  /-- ORI, R233. -/
  | ori (d : Reg) (a : Reg) (i : BitVec 10)
  /-- XORI, R233. -/
  | xori (d : Reg) (a : Reg) (i : BitVec 10)
  /-- SHLI, R220. -/
  | shli (d : Reg) (a : Reg) (n : BitVec 5)
  /-- SHRI, R220. -/
  | shri (d : Reg) (a : Reg) (n : BitVec 5)
  /-- SARI, R220. -/
  | sari (d : Reg) (a : Reg) (n : BitVec 5)
  /-- ISETI, R223. -/
  | iseti (c : BitVec 4) (p : BitVec 3) (a : Reg) (i : BitVec 10)
  /-- MOVI, R34. -/
  | movi (d : Reg) (i : BitVec 17)
  /-- LUI, R34. -/
  | lui (d : Reg) (i : BitVec 17)
  /-- ORL, R34. -/
  | orl (d : Reg) (i : BitVec 17)
  /-- FADD, R239. -/
  | fadd (d : Reg) (a : Reg) (b : Reg) (m : BitVec 3)
  /-- FSUB, R239. -/
  | fsub (d : Reg) (a : Reg) (b : Reg) (m : BitVec 3)
  /-- FMUL, R239. -/
  | fmul (d : Reg) (a : Reg) (b : Reg) (m : BitVec 3)
  /-- FFMA, R239. -/
  | ffma (d : Reg) (a : Reg) (b : Reg) (m : BitVec 3)
  /-- FMIN, R240. -/
  | fmin (d : Reg) (a : Reg) (b : Reg) (m : BitVec 3)
  /-- FMAX, R240. -/
  | fmax (d : Reg) (a : Reg) (b : Reg) (m : BitVec 3)
  /-- FSET, R241. -/
  | fset (c : BitVec 4) (p : BitVec 3) (a : Reg) (b : Reg) (m : BitVec 3)
  /-- FRCP, R244. -/
  | frcp (d : Reg) (a : Reg) (m : BitVec 3)
  /-- FRSQ, R244. -/
  | frsq (d : Reg) (a : Reg) (m : BitVec 3)
  /-- FSQRT, R244. -/
  | fsqrt (d : Reg) (a : Reg) (m : BitVec 3)
  /-- FEX2, R244. -/
  | fex2 (d : Reg) (a : Reg) (m : BitVec 3)
  /-- FLG2, R244. -/
  | flg2 (d : Reg) (a : Reg) (m : BitVec 3)
  /-- FSIN, R244. -/
  | fsin (d : Reg) (a : Reg) (m : BitVec 3)
  /-- FCOS, R244. -/
  | fcos (d : Reg) (a : Reg) (m : BitVec 3)
  /-- FRND, R242. -/
  | frnd (d : Reg) (a : Reg) (m : BitVec 3)
  /-- FCLS, R243. -/
  | fcls (d : Reg) (a : Reg)
  /-- HADD2, R245. -/
  | hadd2 (d : Reg) (a : Reg) (b : Reg) (m : BitVec 3)
  /-- HMUL2, R245. -/
  | hmul2 (d : Reg) (a : Reg) (b : Reg) (m : BitVec 3)
  /-- HFMA2, R245. -/
  | hfma2 (d : Reg) (a : Reg) (b : Reg) (m : BitVec 3)
  /-- FCVT, R248. -/
  | fcvt (d : Reg) (a : Reg) (b : Reg) (m : BitVec 3)
  /-- F2I, R248. -/
  | f2i (d : Reg) (a : Reg) (b : Reg) (m : BitVec 3)
  /-- I2F, R248. -/
  | i2f (d : Reg) (a : Reg) (b : Reg) (m : BitVec 3)
  /-- QCVT, R248. -/
  | qcvt (d : Reg) (a : Reg) (b : Reg) (m : BitVec 3)
  /-- QDEQ, R248. -/
  | qdeq (d : Reg) (a : Reg) (b : Reg) (m : BitVec 3)
  /-- FPXR, R250. -/
  | fpxr (d : Reg)
  /-- FPXC, R251. -/
  | fpxc (d : Reg) (a : Reg) (m : BitVec 3)
  /-- FRM, R252. -/
  | frm (d : Reg) (a : Reg)
  /-- LD8, R289. -/
  | ld8 (d : Reg) (a : Reg) (o : BitVec 7) (m : BitVec 3)
  /-- LD16, R289. -/
  | ld16 (d : Reg) (a : Reg) (o : BitVec 7) (m : BitVec 3)
  /-- LD32, R289. -/
  | ld32 (d : Reg) (a : Reg) (o : BitVec 7) (m : BitVec 3)
  /-- LD64, R289. -/
  | ld64 (d : Reg) (a : Reg) (o : BitVec 7) (m : BitVec 3)
  /-- LD128, R289. -/
  | ld128 (d : Reg) (a : Reg) (o : BitVec 7) (m : BitVec 3)
  /-- ST8, R289. -/
  | st8 (s : Reg) (a : Reg) (o : BitVec 7) (m : BitVec 3)
  /-- ST16, R289. -/
  | st16 (s : Reg) (a : Reg) (o : BitVec 7) (m : BitVec 3)
  /-- ST32, R289. -/
  | st32 (s : Reg) (a : Reg) (o : BitVec 7) (m : BitVec 3)
  /-- ST64, R289. -/
  | st64 (s : Reg) (a : Reg) (o : BitVec 7) (m : BitVec 3)
  /-- ST128, R289. -/
  | st128 (s : Reg) (a : Reg) (o : BitVec 7) (m : BitVec 3)
  /-- LDS, R290. -/
  | lds (d : Reg) (a : Reg) (o : BitVec 7) (m : BitVec 3)
  /-- STS, R290. -/
  | sts (s : Reg) (a : Reg) (o : BitVec 7) (m : BitVec 3)
  /-- LDP, R290. -/
  | ldp (d : Reg) (a : Reg) (o : BitVec 7) (m : BitVec 3)
  /-- STP, R290. -/
  | stp (s : Reg) (a : Reg) (o : BitVec 7) (m : BitVec 3)
  /-- LDC, R285. -/
  | ldc (d : Reg) (a : Reg) (o : BitVec 7) (m : BitVec 3)
  /-- ATOM, R291. -/
  | atom (d : Reg) (a : Reg) (b : Reg) (m : BitVec 3)
  /-- ATOMS, R291. -/
  | atoms (d : Reg) (a : Reg) (b : Reg) (m : BitVec 3)
  /-- CAS, R292. -/
  | cas (d : Reg) (a : Reg) (b : Reg) (m : BitVec 3)
  /-- PREF, R293. -/
  | pref (a : Reg) (o : BitVec 7) (m : BitVec 3)
  /-- CPY, R294. -/
  | cpy (d : Reg) (a : Reg) (b : Reg) (m : BitVec 3)
  /-- CPYR, R340. -/
  | cpyr (d : Reg) (a : Reg) (b : Reg) (m : BitVec 3)
  /-- BRA, R193. -/
  | bra (c : BitVec 4) (o : BitVec 20)
  /-- BRX, R194. -/
  | brx (a : Reg)
  /-- CALL, R195. -/
  | call (s : BitVec 7) (i : BitVec 17)
  /-- CALLX, R195. -/
  | callx (s : BitVec 7) (a : Reg)
  /-- MEET, R193. -/
  | meet (c : BitVec 4) (o : BitVec 20)
  /-- WBASE, R197. -/
  | wbase (i : BitVec 10)
  /-- SLEEP, R200. -/
  | sleep (a : Reg) (n : BitVec 10)
  /-- LSHFL, R201. -/
  | lshfl (d : Reg) (a : Reg) (b : Reg) (m : BitVec 3)
  /-- LSLIDE, R201. -/
  | lslide (d : Reg) (a : Reg) (b : Reg) (m : BitVec 3)
  /-- LBCAST, R201. -/
  | lbcast (d : Reg) (a : Reg) (b : Reg) (m : BitVec 3)
  /-- VOTE, R202. -/
  | vote (d : Reg) (a : Reg) (m : BitVec 3)
  /-- LREDUCE, R203. -/
  | lreduce (d : Reg) (a : Reg) (b : Reg) (m : BitVec 3)
  /-- LSCAN, R203. -/
  | lscan (d : Reg) (a : Reg) (b : Reg) (m : BitVec 3)
  /-- SHAPE, R204. -/
  | shape (d : Reg) (a : Reg)
  /-- EXPAND, R204. -/
  | expand (d : Reg)
  /-- RWRITE, R205. -/
  | rwrite (d : Reg) (a : Reg) (b : Reg)
  /-- RWAIT, R206. -/
  | rwait (a : Reg)
  /-- RWAIT_ID, R206. -/
  | rwaitId (d : Reg)
  /-- RWAIT_CNT, R206. -/
  | rwaitCnt (d : Reg)
  /-- MIGRATE, R207. -/
  | migrate (a : Reg)
  /-- QBIND, R132. -/
  | qbind (d : Reg) (a : Reg) (m : BitVec 3)
  /-- QCLOSE, R133. -/
  | qclose (a : Reg)
  /-- QSTAT, R134. -/
  | qstat (d : Reg) (a : Reg)
  /-- QTRY, R135. -/
  | qtry (d : Reg) (a : Reg)
  /-- TSPAWN, R136. -/
  | tspawn (a : Reg) (b : Reg) (m : BitVec 3)
  /-- KLAUNCH, R156. -/
  | klaunch (d : Reg) (a : Reg)
  /-- BINCNT, R137. -/
  | bincnt (d : Reg) (a : Reg) (b : Reg) (m : BitVec 3)
  /-- BINPATCH, R138. -/
  | binpatch (a : Reg) (b : Reg) (m : BitVec 3)
  /-- BINIT, R307. -/
  | binit (d : Reg) (a : Reg) (b : Reg) (m : BitVec 3)
  /-- BARV, R308. -/
  | barv (d : Reg) (a : Reg) (b : Reg) (m : BitVec 3)
  /-- BEXP, R308. -/
  | bexp (d : Reg) (a : Reg) (b : Reg) (m : BitVec 3)
  /-- BWAIT, R309. -/
  | bwait (a : Reg) (b : Reg) (m : BitVec 3)
  /-- BTEST, R310. -/
  | btest (d : Reg) (a : Reg) (b : Reg) (m : BitVec 3)
  /-- MMA, R335. -/
  | mma (a : Reg) (b : Reg) (m : BitVec 3)
  /-- MDRAIN, R336. -/
  | mdrain (d : Reg) (a : Reg) (b : Reg) (m : BitVec 3)
  /-- MZERO, R337. -/
  | mzero (b : Reg)
  /-- MRESTART, R338. -/
  | mrestart (a : Reg)
  /-- RINGSET, R339. -/
  | ringset (d : Reg) (a : Reg)
  /-- SGEN, R354. -/
  | sgen (d : Reg) (a : Reg) (b : Reg) (m : BitVec 3)
  /-- SAND, R355. -/
  | sand (d : Reg) (a : Reg) (b : Reg)
  /-- SXNOR, R355. -/
  | sxnor (d : Reg) (a : Reg) (b : Reg)
  /-- SMUX, R356. -/
  | smux (d : Reg) (a : Reg) (b : Reg)
  /-- SNOT, R357. -/
  | snot (d : Reg) (a : Reg)
  /-- SCNT, R358. -/
  | scnt (d : Reg) (a : Reg) (m : BitVec 3)
  /-- SREGEN, R359. -/
  | sregen (d : Reg) (a : Reg) (b : Reg) (m : BitVec 3)
  /-- SLEN, R360. -/
  | slen (m : BitVec 3)
  /-- SCLS, R361. -/
  | scls (d : Reg) (a : Reg)
  /-- SLD, R362. -/
  | sld (d : Reg) (a : Reg) (m : BitVec 3)
  /-- SST, R362. -/
  | sst (s : Reg) (a : Reg)
  /-- SMOV, R363. -/
  | smov (d : Reg) (a : Reg)
  /-- TRAP, R103. -/
  | trap (i : BitVec 17)
  /-- PHINT, R105. -/
  | phint (i : BitVec 17)
  /-- SYSR, R106. -/
  | sysr (d : Reg) (i : BitVec 10)
  /-- SYSW, R106. -/
  | sysw (a : Reg) (i : BitVec 10)
  /-- TIME, R107. -/
  | time (d : Reg)
  /-- BKPT, R393. -/
  | bkpt (i : BitVec 17)
  /-- TMARK, R394. -/
  | tmark (a : Reg) (i : BitVec 10)
  /-- CREATE, R141. -/
  | create
  /-- KILL, R112. -/
  | kill
  /-- RESUME, R96. -/
  | resume
  /-- DEBUG_HALT, R388. -/
  | debugHalt
  /-- ASSIGN, R111. -/
  | assign
  /-- PARTITION, R85. -/
  | partition
  /-- QASSIGN, R111. -/
  | qassign
  /-- INVAL, R260. -/
  | inval
  /-- UNCLASS, R274. -/
  | unclass
  /-- PIN, R274. -/
  | pin
  /-- UNPIN, R274. -/
  | unpin
  /-- BIAS, R273. -/
  | bias
  /-- CLASSQ, R274. -/
  | classq
  /-- LREC, R378. -/
  | lrec
  /-- RETLIST, R404. -/
  | retlist
  /-- DBGSET, R381. -/
  | dbgset
  /-- DBGREAD, R392. -/
  | dbgread
  /-- MCREAD, R403. -/
  | mcread
  /-- ATTEST, R399. -/
  | attest
  /-- POWER, R19. -/
  | power
  /-- SETPARAM, R111. -/
  | setparam
  /-- DOMAIN, R373. -/
  | domain
  /-- START_TIMEOUT, R396. -/
  | startTimeout
  /-- DUMPV_WRITE, R400. -/
  | dumpvWrite
  /-- RET, R196. -/
  | ret
  /-- EXIT, R198. -/
  | exit
  /-- YIELD, R199. -/
  | yield
  /-- NOP, R199. -/
  | nop
  /-- TSYNC, R304. -/
  | tsync
  /-- TRET, R104. -/
  | tret
deriving DecidableEq, Repr

end Sys2Proof
end

