-- ==== Sys2Proof/WellFormed.lean ====
section
/-! DEFINITION. Which instruction words are legal beyond their opcode row: register fields, spans, ports, m values,
condition codes and the differences of the encodings N1, N2 and N3 (R35 to R39, R47, R142). The encoding is the ENC
code of Table 6-1: 1 N1, 2 N2, 3 N3. -/
namespace Sys2Proof

/-- The names that field values 0 to 119 may reach under an encoding (Table 6-3). -/
def nameLimit (e : Nat) : Nat := if e = 1 then 64 else if e = 2 then 96 else 120
/-- The field value names a queue port (Table 2-5). -/
def isPort (r : Reg) : Bool := decide (120 ≤ r.toNat) && decide (r.toNat < 126)
/-- A register field value that the encoding admits (Table 6-3). -/
def srcOk (e : Nat) (r : Reg) : Bool := decide (r.toNat < nameLimit e) || decide (120 ≤ r.toNat)
/-- A destination: not 126 (Table 2-5). -/
def dstOk (e : Nat) (r : Reg) : Bool := srcOk e r && r != 126
/-- A destination that may not name a queue port (R37, R288). -/
def plainDstOk (e : Nat) (r : Reg) : Bool := dstOk e r && !isPort r
/-- An operand of `k` consecutive names (R38). -/
def spanOk (e k : Nat) (r : Reg) : Bool :=
  r == 127 || (decide (r.toNat % k = 0) && decide (r.toNat + k - 1 ≤ 119) && decide (r.toNat < nameLimit e))
/-- A field that names a stream register (R353). -/
def streamOk (r : Reg) : Bool := decide (r.toNat < 8)
/-- The m values that an instruction lists (R35). -/
def mIn (l : List Nat) (m : BitVec 3) : Bool := l.contains m.toNat
/-- The encoding has the majors that only N3 has (Table 6-3). -/
def onlyN3 (e : Nat) : Bool := decide (e = 3)
/-- The destination of LSHFL, LSLIDE and LBCAST: under `.old` it is also read, so it may not name a port (R201). -/
def fillDstOk (e : Nat) (d : Reg) (m : BitVec 3) : Bool := dstOk e d && !(m.extractLsb' 0 2 == 2 && isPort d)
/-- The m values of the operations of Table 8-6. -/
def reduceMOk (op : Nat) (m : BitVec 3) : Bool :=
  if op < 8 then m == 0 else if op = 8 then true else decide (op < 11) && decide (m.toNat ≤ 1)
/-- The operation field of LREDUCE (R203). -/
def reduceOk (b : Reg) (m : BitVec 3) : Bool := decide (b.toNat < 16) && reduceMOk b.toNat m
/-- The operation field of LSCAN, with `.excl` in bit 4 (R203). -/
def scanOk (b : Reg) (m : BitVec 3) : Bool := decide (b.toNat < 32) && reduceMOk (b.toNat % 16) m
/-- The numbers of Table 4-3 that are assigned (R88). -/
def sysNumOk (i : BitVec 10) : Bool :=
  let n := i.toNat
  decide (n ≤ 0x00C) || (decide (0x010 ≤ n) && decide (n ≤ 0x019)) || (decide (0x020 ≤ n) && decide (n ≤ 0x041))

/-- Legal under encoding `e`. An event has no encoding, and nothing to check. -/
def wellFormed (e : Nat) : Instr → Bool
  | .clauseIssue _ _ => true
  | .longLatencyCompletion _ _ => true
  | .gRowReadback _ _ => true
  | .haltLineAssert _ => true
  | .unitStop _ => true
  | .groupStopRecord _ => true
  | .contextHalted _ => true
  | .preemptRequest _ => true
  | .gracePeriodExpiry _ => true
  | .groupSave _ => true
  | .teamSave _ => true
  | .partitionGrant _ _ => true
  | .teamRestore _ _ => true
  | .timeSliceEnd _ => true
  | .contextFreed _ => true
  | .mrqtailWrite _ => true
  | .mcqconsWrite _ => true
  | .create => true
  | .kill => true
  | .resume => true
  | .debugHalt => true
  | .assign => true
  | .partition => true
  | .qassign => true
  | .inval => true
  | .unclass => true
  | .pin => true
  | .unpin => true
  | .bias => true
  | .classq => true
  | .lrec => true
  | .retlist => true
  | .dbgset => true
  | .dbgread => true
  | .mcread => true
  | .attest => true
  | .power => true
  | .setparam => true
  | .domain => true
  | .hqtailWrite _ _ => true
  | .hqEnWrite _ _ => true
  | .hqClrWrite _ => true
  | .launch _ _ => true
  | .copy _ _ => true
  | .signal _ _ => true
  | .wait _ _ => true
  | .waitSatisfied _ _ => true
  | .waitTimeout _ _ => true
  | .selftest _ _ => true
  | .mark _ _ => true
  | .commandComplete _ _ => true
  | .launchComplete _ => true
  | .evconsWrite _ _ => true
  | .eventIenWrite _ _ => true
  | .coalesceTimerExpiry _ => true
  | .registerWrite _ _ _ => true
  | .bindRecordWrite _ _ _ => true
  | .teamStart _ _ => true
  | .carveOutChange _ => true
  | .groupRetire _ => true
  | .engineRelease _ => true
  | .gatherTimerExpiry _ _ => true
  | .taskGroupPop _ _ => true
  | .blockedPortResume _ => true
  | .sleepExpiry _ => true
  | .migrateMove _ => true
  | .bwaitSatisfied _ => true
  | .barrierTimeout _ _ => true
  | .homeAccessAccept _ => true
  | .recallUnit _ _ => true
  | .drainPoint _ _ => true
  | .drainAck _ _ => true
  | .quietExpiry _ => true
  | .pageWalk _ _ _ => true
  | .hostAccess _ _ _ _ => true
  | .birspReceive _ _ => true
  | .hostCompletionReceive _ => true
  | .peerAccess _ => true
  | .copyUnit _ => true
  | .copyComplete _ => true
  | .engineTakeCommand _ => true
  | .engineCommandStart _ => true
  | .engineCommandComplete _ => true
  | .streamSlotGrant _ => true
  | .straitFlitReceive _ _ _ _ => true
  | .replayRequest _ _ => true
  | .linkReplayTimeout _ => true
  | .retrain _ => true
  | .linkTrained _ _ => true
  | .remoteRequestTimeout _ => true
  | .coherenceTimeout _ => true
  | .ptmenWrite _ => true
  | .ptmDialogue _ _ => true
  | .pcSample _ _ => true
  | .moduleReset _ => true
  | .stageAdvance _ => true
  | .startTimeout => true
  | .errorDetected _ => true
  | .triageSelftest _ _ => true
  | .selftestCoreEnd _ _ => true
  | .dumpvWrite => true
  | .powerClockStep _ => true
  | .iadd d a b m => dstOk e d && srcOk e a && srcOk e b && mIn [0, 1, 2] m
  | .iaddc d a b _ => dstOk e d && srcOk e a && srcOk e b
  | .isub d a b m => dstOk e d && srcOk e a && srcOk e b && mIn [0, 1, 2] m
  | .isubb d a b _ => dstOk e d && srcOk e a && srcOk e b
  | .imul d a b m => dstOk e d && srcOk e a && srcOk e b && mIn [0, 1] m
  | .imulh d a b m => dstOk e d && srcOk e a && srcOk e b && mIn [0, 1, 2] m
  | .imad d a b m => plainDstOk e d && srcOk e a && srcOk e b && mIn [0, 1] m
  | .imin d a b m => dstOk e d && srcOk e a && srcOk e b && mIn [0, 1] m
  | .imax d a b m => dstOk e d && srcOk e a && srcOk e b && mIn [0, 1] m
  | .iabs d a m => dstOk e d && srcOk e a && mIn [0, 1] m
  | .and d a b => dstOk e d && srcOk e a && srcOk e b
  | .or d a b => dstOk e d && srcOk e a && srcOk e b
  | .xor d a b => dstOk e d && srcOk e a && srcOk e b
  | .andn d a b => dstOk e d && srcOk e a && srcOk e b
  | .shl d a b m => dstOk e d && srcOk e a && srcOk e b && mIn [0, 1] m
  | .shr d a b m => dstOk e d && srcOk e a && srcOk e b && mIn [0, 1] m
  | .sar d a b m => dstOk e d && srcOk e a && srcOk e b && mIn [0, 1] m
  | .rotl d a b => dstOk e d && srcOk e a && srcOk e b
  | .bfx d a b m => dstOk e d && srcOk e a && srcOk e b && mIn [0, 1] m
  | .bfi d a b => plainDstOk e d && srcOk e a && srcOk e b
  | .popc d a => dstOk e d && srcOk e a
  | .clz d a => dstOk e d && srcOk e a
  | .ctz d a => dstOk e d && srcOk e a
  | .brev d a => dstOk e d && srcOk e a
  | .iset c _ a b m => decide (c.toNat < 12) && srcOk e a && srcOk e b && mIn [0, 1, 2] m
  | .sel d a b _ => dstOk e d && srcOk e a && srcOk e b
  | .plog _ _ _ _ => true
  | .pmovToReg d => dstOk e d
  | .pmovToPred a => srcOk e a
  | .clmul d a b => dstOk e d && srcOk e a && srcOk e b
  | .clmulh d a b => dstOk e d && srcOk e a && srcOk e b
  | .padd2 d a b m => dstOk e d && srcOk e a && srcOk e b && mIn [0, 1, 2] m
  | .psub2 d a b m => dstOk e d && srcOk e a && srcOk e b && mIn [0, 1, 2] m
  | .pmac2 d a b m => plainDstOk e d && srcOk e a && srcOk e b && mIn [0, 1] m
  | .pdot4 d a b m => plainDstOk e d && srcOk e a && srcOk e b && mIn [0, 1, 2, 4, 5, 6] m
  | .pdot8 d a b m => plainDstOk e d && srcOk e a && srcOk e b && mIn [0, 1, 2, 4, 5, 6] m
  | .pshr2 d a b m => dstOk e d && spanOk e 2 a && srcOk e b && mIn [0, 1, 2, 4, 5, 6] m
  | .psat2 d a b m => dstOk e d && srcOk e a && srcOk e b && mIn [0, 1] m
  | .ppack d a b m => dstOk e d && srcOk e a && srcOk e b && mIn [0, 1, 2, 4, 5, 6] m
  | .punpk d a b m => dstOk e d && srcOk e a && srcOk e b && mIn [0, 1, 2, 3, 4, 5] m
  | .pmin2 d a b m => dstOk e d && srcOk e a && srcOk e b && mIn [0, 1] m
  | .pmax2 d a b m => dstOk e d && srcOk e a && srcOk e b && mIn [0, 1] m
  | .addi d a _ => dstOk e d && srcOk e a
  | .andi d a _ => dstOk e d && srcOk e a
  | .ori d a _ => dstOk e d && srcOk e a
  | .xori d a _ => dstOk e d && srcOk e a
  | .shli d a _ => dstOk e d && srcOk e a
  | .shri d a _ => dstOk e d && srcOk e a
  | .sari d a _ => dstOk e d && srcOk e a
  | .iseti c _ a _ => decide (c.toNat < 12) && srcOk e a
  | .movi d _ => dstOk e d
  | .lui d _ => dstOk e d
  | .orl d _ => plainDstOk e d
  | .fadd d a b _ => dstOk e d && srcOk e a && srcOk e b
  | .fsub d a b _ => dstOk e d && srcOk e a && srcOk e b
  | .fmul d a b _ => dstOk e d && srcOk e a && srcOk e b
  | .ffma d a b _ => plainDstOk e d && srcOk e a && srcOk e b
  | .fmin d a b m => dstOk e d && srcOk e a && srcOk e b && mIn [0, 1] m
  | .fmax d a b m => dstOk e d && srcOk e a && srcOk e b && mIn [0, 1] m
  | .fset c _ a b m => decide (c.toNat < 8) && srcOk e a && srcOk e b && mIn [0, 1, 2, 3, 4, 5] m
  | .frcp d a _ => dstOk e d && srcOk e a
  | .frsq d a _ => dstOk e d && srcOk e a
  | .fsqrt d a _ => dstOk e d && srcOk e a
  | .fex2 d a _ => dstOk e d && srcOk e a
  | .flg2 d a _ => dstOk e d && srcOk e a
  | .fsin d a _ => dstOk e d && srcOk e a
  | .fcos d a _ => dstOk e d && srcOk e a
  | .frnd d a _ => dstOk e d && srcOk e a
  | .fcls d a => dstOk e d && srcOk e a
  | .hadd2 d a b _ => dstOk e d && srcOk e a && srcOk e b
  | .hmul2 d a b _ => dstOk e d && srcOk e a && srcOk e b
  | .hfma2 d a b _ => plainDstOk e d && srcOk e a && srcOk e b
  | .fcvt d a b _ => plainDstOk e d && srcOk e a && srcOk e b
  | .f2i d a b _ => plainDstOk e d && srcOk e a && srcOk e b
  | .i2f d a b _ => plainDstOk e d && srcOk e a && srcOk e b
  | .qcvt d a b _ => plainDstOk e d && srcOk e a && srcOk e b
  | .qdeq d a b _ => dstOk e d && srcOk e a && srcOk e b
  | .fpxr d => dstOk e d
  | .fpxc d a m => dstOk e d && srcOk e a && mIn [0, 1] m
  | .frm d a => dstOk e d && srcOk e a
  | .ld8 d a _ _ => plainDstOk e d && srcOk e a
  | .ld16 d a _ _ => plainDstOk e d && srcOk e a
  | .ld32 d a _ _ => plainDstOk e d && srcOk e a
  | .ld64 d a _ _ => spanOk e 2 d && srcOk e a
  | .ld128 d a _ _ => spanOk e 4 d && srcOk e a
  | .st8 s a _ _ => srcOk e s && srcOk e a
  | .st16 s a _ _ => srcOk e s && srcOk e a
  | .st32 s a _ _ => srcOk e s && srcOk e a
  | .st64 s a _ _ => spanOk e 2 s && srcOk e a
  | .st128 s a _ _ => spanOk e 4 s && srcOk e a
  | .lds d a _ _ => plainDstOk e d && srcOk e a
  | .sts s a _ _ => srcOk e s && srcOk e a
  | .ldp d a _ _ => plainDstOk e d && srcOk e a
  | .stp s a _ _ => srcOk e s && srcOk e a
  | .ldc d a _ _ => plainDstOk e d && srcOk e a
  | .atom d a b _ => plainDstOk e d && srcOk e a && srcOk e b
  | .atoms d a b _ => plainDstOk e d && srcOk e a && srcOk e b
  | .cas d a b m => plainDstOk e d && srcOk e a && spanOk e 2 b && mIn [0, 1] m
  | .pref a _ m => srcOk e a && mIn [0, 4, 6] m
  | .cpy d a b m => plainDstOk e d && spanOk e 4 a && spanOk e 4 b && (onlyN3 e || !m.getLsbD 1)
  | .cpyr d a b m => plainDstOk e d && spanOk e 4 a && spanOk e 4 b && mIn [0, 1, 2, 3] m && (onlyN3 e || !m.getLsbD 1)
  | .bra _ _ => true
  | .brx a => spanOk e 2 a
  | .call s _ => decide (s.toNat < 120)
  | .callx s a => decide (s.toNat < 120) && spanOk e 2 a
  | .ret => true
  | .meet _ _ => true
  | .exit => true
  | .wbase _ => true
  | .yield => true
  | .nop => true
  | .sleep a _ => srcOk e a
  | .lshfl d a b m => fillDstOk e d m && srcOk e a && srcOk e b && mIn [0, 1, 2, 4, 5, 6] m
  | .lslide d a b m => fillDstOk e d m && srcOk e a && srcOk e b && mIn [0, 1, 2, 4, 5, 6] m
  | .lbcast d a b m => fillDstOk e d m && srcOk e a && srcOk e b && mIn [0, 1, 2] m
  | .vote d a m => dstOk e d && srcOk e a && mIn [0, 1, 2, 3] m
  | .lreduce d a b m => dstOk e d && srcOk e a && reduceOk b m
  | .lscan d a b m => dstOk e d && srcOk e a && scanOk b m
  | .shape d a => onlyN3 e && dstOk e d && (srcOk e a && !isPort a)
  | .expand d => onlyN3 e && plainDstOk e d
  | .rwrite d a b => onlyN3 e && decide (d.toNat < 120) && srcOk e a && srcOk e b
  | .rwait a => onlyN3 e && srcOk e a
  | .rwaitId d => onlyN3 e && dstOk e d
  | .rwaitCnt d => onlyN3 e && dstOk e d
  | .migrate a => onlyN3 e && spanOk e 2 a
  | .qbind d a m => isPort d && (srcOk e a && !isPort a) && mIn [0, 1] m
  | .qclose a => isPort a
  | .qstat d a => dstOk e d && isPort a
  | .qtry d a => spanOk e 2 d && isPort a
  | .tspawn a b m => onlyN3 e && spanOk e 2 a && spanOk e 2 b && mIn [0, 1] m
  | .klaunch d a => dstOk e d && spanOk e 2 a
  | .bincnt d a b m => onlyN3 e && dstOk e d && srcOk e a && srcOk e b && mIn [0, 1] m
  | .binpatch a b m => onlyN3 e && srcOk e a && srcOk e b && mIn [0, 1] m
  | .binit d a b m => plainDstOk e d && srcOk e a && srcOk e b && mIn [0, 1] m
  | .barv d a b m => plainDstOk e d && srcOk e a && srcOk e b && mIn [0, 1] m
  | .bexp d a b m => plainDstOk e d && srcOk e a && srcOk e b && mIn [0, 1] m
  | .bwait a b m => srcOk e a && srcOk e b && mIn [0, 1] m
  | .btest d a b m => plainDstOk e d && srcOk e a && srcOk e b && mIn [0, 1] m
  | .tsync => true
  | .mma a b m => srcOk e a && srcOk e b && mIn [0, 1] m && (onlyN3 e || (!m.getLsbD 0 && a == 127))
  | .mdrain d a b m => plainDstOk e d && spanOk e 4 a && srcOk e b && mIn [0, 1] m
  | .mzero b => srcOk e b
  | .mrestart a => spanOk e 2 a
  | .ringset d a => plainDstOk e d && srcOk e a
  | .sgen d a b m => onlyN3 e && streamOk d && srcOk e a && spanOk e 2 b && mIn [0, 1, 2, 4, 5, 6] m
  | .sand d a b => onlyN3 e && streamOk d && streamOk a && streamOk b
  | .sxnor d a b => onlyN3 e && streamOk d && streamOk a && streamOk b
  | .smux d a b => onlyN3 e && streamOk d && streamOk a && streamOk b
  | .snot d a => onlyN3 e && streamOk d && streamOk a
  | .scnt d a m => onlyN3 e && plainDstOk e d && streamOk a && mIn [0, 1, 2, 3] m
  | .sregen d a b m => onlyN3 e && streamOk d && streamOk a && spanOk e 2 b && mIn [0, 1, 2] m
  | .slen m => onlyN3 e && mIn [1, 2, 3] m
  | .scls d a => onlyN3 e && plainDstOk e d && streamOk a
  | .sld d a m => onlyN3 e && streamOk d && spanOk e 2 a && mIn [0, 1] m
  | .sst s a => onlyN3 e && streamOk s && spanOk e 2 a
  | .smov d a => onlyN3 e && streamOk d && streamOk a
  | .trap _ => true
  | .tret => true
  | .phint _ => true
  | .sysr d i => dstOk e d && sysNumOk i
  | .sysw a i => srcOk e a && sysNumOk i
  | .time d => spanOk e 2 d
  | .bkpt _ => true
  | .tmark a _ => srcOk e a

end Sys2Proof
end

