-- ==== Sys2Proof/Decode.lean ====
section
/-! DEFINITION. The decoder of instruction words and clause headers (Tables 2-1, 2-2, 2-8, 6-3), total and rejecting
by name, and the encoder written from the same tables. -/
namespace Sys2Proof

/-- Why a word is not a legal instruction or header. -/
inductive DecodeError where
  /-- The major is unassigned (Table 2-8): fault 0x20. -/
  | unassignedMajor
  /-- A field that the instruction leaves unused does not hold its fixed value (R39): fault 0x20. -/
  | unusedField
  /-- A register field, span, port, m value or code that the instruction does not accept: fault 0x20. -/
  | illFormed
  /-- The header breaks R27 or Table 6-3: fault 0x21. -/
  | illegalHeader
deriving DecidableEq, Repr

/-! ## Fields (Table 2-2) -/

/-- Bits `[lo + n - 1 : lo]` of a word. -/
def bitsOf (n lo : Nat) (w : Word) : BitVec n := BitVec.ofNat n (w.toNat / 2 ^ lo)
def major (w : Word) : Nat := w.toNat / 2 ^ 24
def fd (w : Word) : BitVec 7 := bitsOf 7 17 w
def fa (w : Word) : BitVec 7 := bitsOf 7 10 w
def fb (w : Word) : BitVec 7 := bitsOf 7 3 w
def fm (w : Word) : BitVec 3 := bitsOf 3 0 w
def fc (w : Word) : BitVec 4 := bitsOf 4 20 w
def fpd (w : Word) : BitVec 3 := bitsOf 3 17 w
def fpa (w : Word) : BitVec 3 := bitsOf 3 10 w
def fpb (w : Word) : BitVec 3 := bitsOf 3 3 w
def fi10 (w : Word) : BitVec 10 := bitsOf 10 0 w
def fn5 (w : Word) : BitVec 5 := bitsOf 5 0 w
def fi17 (w : Word) : BitVec 17 := bitsOf 17 0 w
def fo20 (w : Word) : BitVec 20 := bitsOf 20 0 w

/-- The bits of the word under the mask that an opcode row fixes hold the row's value. -/
def fixedBits (mask val : Nat) (w : Word) : Bool := w.toNat &&& mask == val

/-- Accept an instruction when its unused fields hold their fixed values. -/
def accept (ok : Bool) (i : Instr) : Except DecodeError Instr := if ok then .ok i else .error .unusedField

/-- Row 0x0 of Table 2-8, by the low digit of the major. -/
def decodeRow0 (w : Word) : Nat → Except DecodeError Instr
  | 0x0 => accept true (.iadd (fd w) (fa w) (fb w) (fm w))
  | 0x1 => accept true (.iaddc (fd w) (fa w) (fb w) (fm w))
  | 0x2 => accept true (.isub (fd w) (fa w) (fb w) (fm w))
  | 0x3 => accept true (.isubb (fd w) (fa w) (fb w) (fm w))
  | 0x4 => accept true (.imul (fd w) (fa w) (fb w) (fm w))
  | 0x5 => accept true (.imulh (fd w) (fa w) (fb w) (fm w))
  | 0x6 => accept true (.imad (fd w) (fa w) (fb w) (fm w))
  | 0x7 => accept true (.imin (fd w) (fa w) (fb w) (fm w))
  | 0x8 => accept true (.imax (fd w) (fa w) (fb w) (fm w))
  | 0x9 => accept (fixedBits 0xFF0003F8 0x090003F8 w) (.iabs (fd w) (fa w) (fm w))
  | 0xA => accept (fixedBits 0xFF000007 0x0A000000 w) (.and (fd w) (fa w) (fb w))
  | 0xB => accept (fixedBits 0xFF000007 0x0B000000 w) (.or (fd w) (fa w) (fb w))
  | 0xC => accept (fixedBits 0xFF000007 0x0C000000 w) (.xor (fd w) (fa w) (fb w))
  | 0xD => accept (fixedBits 0xFF000007 0x0D000000 w) (.andn (fd w) (fa w) (fb w))
  | 0xE => accept true (.shl (fd w) (fa w) (fb w) (fm w))
  | 0xF => accept true (.shr (fd w) (fa w) (fb w) (fm w))
  | _ => .error .unassignedMajor

/-- Row 0x1 of Table 2-8, by the low digit of the major. -/
def decodeRow1 (w : Word) : Nat → Except DecodeError Instr
  | 0x0 => accept true (.sar (fd w) (fa w) (fb w) (fm w))
  | 0x1 => accept (fixedBits 0xFF000007 0x11000000 w) (.rotl (fd w) (fa w) (fb w))
  | 0x2 => accept true (.bfx (fd w) (fa w) (fb w) (fm w))
  | 0x3 => accept (fixedBits 0xFF000007 0x13000000 w) (.bfi (fd w) (fa w) (fb w))
  | 0x4 => accept (fixedBits 0xFF0003FF 0x140003F8 w) (.popc (fd w) (fa w))
  | 0x5 => accept (fixedBits 0xFF0003FF 0x150003F8 w) (.clz (fd w) (fa w))
  | 0x6 => accept (fixedBits 0xFF0003FF 0x160003F8 w) (.ctz (fd w) (fa w))
  | 0x7 => accept (fixedBits 0xFF0003FF 0x170003F8 w) (.brev (fd w) (fa w))
  | 0x8 => accept true (.iset (fc w) (fpd w) (fa w) (fb w) (fm w))
  | 0x9 => accept true (.sel (fd w) (fa w) (fb w) (fm w))
  | 0xA => accept (fixedBits 0xFF01E3C7 0x1A000000 w) (.plog (fc w) (fpd w) (fpa w) (fpb w))
  | 0xB => if (fixedBits 0xFF01FFFF 0x1B01FFF8 w) then .ok (.pmovToReg (fd w)) else if (fixedBits 0xFFFE03FF 0x1BFE03F9 w) then .ok (.pmovToPred (fa w)) else .error .unusedField
  | 0xC => accept (fixedBits 0xFF000007 0x1C000000 w) (.clmul (fd w) (fa w) (fb w))
  | 0xD => accept (fixedBits 0xFF000007 0x1D000000 w) (.clmulh (fd w) (fa w) (fb w))
  | _ => .error .unassignedMajor

/-- Row 0x2 of Table 2-8, by the low digit of the major. -/
def decodeRow2 (w : Word) : Nat → Except DecodeError Instr
  | 0x0 => accept true (.padd2 (fd w) (fa w) (fb w) (fm w))
  | 0x1 => accept true (.psub2 (fd w) (fa w) (fb w) (fm w))
  | 0x2 => accept true (.pmac2 (fd w) (fa w) (fb w) (fm w))
  | 0x3 => accept true (.pdot4 (fd w) (fa w) (fb w) (fm w))
  | 0x4 => accept true (.pdot8 (fd w) (fa w) (fb w) (fm w))
  | 0x5 => accept true (.pshr2 (fd w) (fa w) (fb w) (fm w))
  | 0x6 => accept true (.psat2 (fd w) (fa w) (fb w) (fm w))
  | 0x7 => accept true (.ppack (fd w) (fa w) (fb w) (fm w))
  | 0x8 => accept true (.punpk (fd w) (fa w) (fb w) (fm w))
  | 0x9 => accept true (.pmin2 (fd w) (fa w) (fb w) (fm w))
  | 0xA => accept true (.pmax2 (fd w) (fa w) (fb w) (fm w))
  | _ => .error .unassignedMajor

/-- Row 0x3 of Table 2-8, by the low digit of the major. -/
def decodeRow3 (w : Word) : Nat → Except DecodeError Instr
  | 0x0 => accept true (.addi (fd w) (fa w) (fi10 w))
  | 0x1 => accept true (.andi (fd w) (fa w) (fi10 w))
  | 0x2 => accept true (.ori (fd w) (fa w) (fi10 w))
  | 0x3 => accept true (.xori (fd w) (fa w) (fi10 w))
  | 0x4 => accept (fixedBits 0xFF0003E0 0x34000000 w) (.shli (fd w) (fa w) (fn5 w))
  | 0x5 => accept (fixedBits 0xFF0003E0 0x35000000 w) (.shri (fd w) (fa w) (fn5 w))
  | 0x6 => accept (fixedBits 0xFF0003E0 0x36000000 w) (.sari (fd w) (fa w) (fn5 w))
  | 0x7 => accept true (.iseti (fc w) (fpd w) (fa w) (fi10 w))
  | 0x8 => accept true (.movi (fd w) (fi17 w))
  | 0x9 => accept true (.lui (fd w) (fi17 w))
  | 0xA => accept true (.orl (fd w) (fi17 w))
  | _ => .error .unassignedMajor

/-- Row 0x4 of Table 2-8, by the low digit of the major. -/
def decodeRow4 (w : Word) : Nat → Except DecodeError Instr
  | 0x0 => accept true (.fadd (fd w) (fa w) (fb w) (fm w))
  | 0x1 => accept true (.fsub (fd w) (fa w) (fb w) (fm w))
  | 0x2 => accept true (.fmul (fd w) (fa w) (fb w) (fm w))
  | 0x3 => accept true (.ffma (fd w) (fa w) (fb w) (fm w))
  | 0x4 => accept true (.fmin (fd w) (fa w) (fb w) (fm w))
  | 0x5 => accept true (.fmax (fd w) (fa w) (fb w) (fm w))
  | 0x6 => accept true (.fset (fc w) (fpd w) (fa w) (fb w) (fm w))
  | 0x7 => accept (fixedBits 0xFF0003F8 0x470003F8 w) (.frcp (fd w) (fa w) (fm w))
  | 0x8 => accept (fixedBits 0xFF0003F8 0x480003F8 w) (.frsq (fd w) (fa w) (fm w))
  | 0x9 => accept (fixedBits 0xFF0003F8 0x490003F8 w) (.fsqrt (fd w) (fa w) (fm w))
  | 0xA => accept (fixedBits 0xFF0003F8 0x4A0003F8 w) (.fex2 (fd w) (fa w) (fm w))
  | 0xB => accept (fixedBits 0xFF0003F8 0x4B0003F8 w) (.flg2 (fd w) (fa w) (fm w))
  | 0xC => accept (fixedBits 0xFF0003F8 0x4C0003F8 w) (.fsin (fd w) (fa w) (fm w))
  | 0xD => accept (fixedBits 0xFF0003F8 0x4D0003F8 w) (.fcos (fd w) (fa w) (fm w))
  | 0xE => accept (fixedBits 0xFF0003F8 0x4E0003F8 w) (.frnd (fd w) (fa w) (fm w))
  | 0xF => accept (fixedBits 0xFF0003FF 0x4F0003F8 w) (.fcls (fd w) (fa w))
  | _ => .error .unassignedMajor

/-- Row 0x5 of Table 2-8, by the low digit of the major. -/
def decodeRow5 (w : Word) : Nat → Except DecodeError Instr
  | 0x0 => accept true (.hadd2 (fd w) (fa w) (fb w) (fm w))
  | 0x1 => accept true (.hmul2 (fd w) (fa w) (fb w) (fm w))
  | 0x2 => accept true (.hfma2 (fd w) (fa w) (fb w) (fm w))
  | 0x3 => accept true (.fcvt (fd w) (fa w) (fb w) (fm w))
  | 0x4 => accept true (.f2i (fd w) (fa w) (fb w) (fm w))
  | 0x5 => accept true (.i2f (fd w) (fa w) (fb w) (fm w))
  | 0x6 => accept true (.qcvt (fd w) (fa w) (fb w) (fm w))
  | 0x7 => accept true (.qdeq (fd w) (fa w) (fb w) (fm w))
  | 0x8 => accept (fixedBits 0xFF01FFFF 0x5801FFF8 w) (.fpxr (fd w))
  | 0x9 => accept (fixedBits 0xFF0003F8 0x590003F8 w) (.fpxc (fd w) (fa w) (fm w))
  | 0xA => accept (fixedBits 0xFF0003FF 0x5A0003F8 w) (.frm (fd w) (fa w))
  | _ => .error .unassignedMajor

/-- Row 0x6 of Table 2-8, by the low digit of the major. -/
def decodeRow6 (w : Word) : Nat → Except DecodeError Instr
  | 0x0 => accept true (.ld8 (fd w) (fa w) (fb w) (fm w))
  | 0x1 => accept true (.ld16 (fd w) (fa w) (fb w) (fm w))
  | 0x2 => accept true (.ld32 (fd w) (fa w) (fb w) (fm w))
  | 0x3 => accept true (.ld64 (fd w) (fa w) (fb w) (fm w))
  | 0x4 => accept true (.ld128 (fd w) (fa w) (fb w) (fm w))
  | 0x5 => accept true (.st8 (fd w) (fa w) (fb w) (fm w))
  | 0x6 => accept true (.st16 (fd w) (fa w) (fb w) (fm w))
  | 0x7 => accept true (.st32 (fd w) (fa w) (fb w) (fm w))
  | 0x8 => accept true (.st64 (fd w) (fa w) (fb w) (fm w))
  | 0x9 => accept true (.st128 (fd w) (fa w) (fb w) (fm w))
  | 0xA => accept true (.lds (fd w) (fa w) (fb w) (fm w))
  | 0xB => accept true (.sts (fd w) (fa w) (fb w) (fm w))
  | 0xC => accept true (.ldp (fd w) (fa w) (fb w) (fm w))
  | 0xD => accept true (.stp (fd w) (fa w) (fb w) (fm w))
  | 0xE => accept true (.ldc (fd w) (fa w) (fb w) (fm w))
  | 0xF => accept true (.atom (fd w) (fa w) (fb w) (fm w))
  | _ => .error .unassignedMajor

/-- Row 0x7 of Table 2-8, by the low digit of the major. -/
def decodeRow7 (w : Word) : Nat → Except DecodeError Instr
  | 0x0 => accept true (.atoms (fd w) (fa w) (fb w) (fm w))
  | 0x1 => accept true (.cas (fd w) (fa w) (fb w) (fm w))
  | 0x2 => accept (fixedBits 0xFFFE0000 0x72FE0000 w) (.pref (fa w) (fb w) (fm w))
  | 0x3 => accept true (.cpy (fd w) (fa w) (fb w) (fm w))
  | 0x4 => accept true (.cpyr (fd w) (fa w) (fb w) (fm w))
  | _ => .error .unassignedMajor

/-- Row 0x8 of Table 2-8, by the low digit of the major. -/
def decodeRow8 (w : Word) : Nat → Except DecodeError Instr
  | 0x0 => accept true (.bra (fc w) (fo20 w))
  | 0x1 => accept (fixedBits 0xFFFE03FF 0x81FE03F8 w) (.brx (fa w))
  | 0x2 => accept true (.call (fd w) (fi17 w))
  | 0x3 => accept (fixedBits 0xFF0003FF 0x830003F8 w) (.callx (fd w) (fa w))
  | 0x4 => accept (fixedBits 0xFFFFFFFF 0x84FFFFF8 w) .ret
  | 0x5 => accept true (.meet (fc w) (fo20 w))
  | 0x6 => accept (fixedBits 0xFFFFFFFF 0x86FFFFF8 w) .exit
  | 0x7 => accept (fixedBits 0xFFFFFC00 0x87FFFC00 w) (.wbase (fi10 w))
  | 0x8 => accept (fixedBits 0xFFFFFFFF 0x88FFFFF8 w) .yield
  | 0x9 => accept (fixedBits 0xFFFFFFFF 0x89FFFFF8 w) .nop
  | 0xA => accept (fixedBits 0xFFFE0000 0x8AFE0000 w) (.sleep (fa w) (fi10 w))
  | _ => .error .unassignedMajor

/-- Row 0x9 of Table 2-8, by the low digit of the major. -/
def decodeRow9 (w : Word) : Nat → Except DecodeError Instr
  | 0x0 => accept true (.lshfl (fd w) (fa w) (fb w) (fm w))
  | 0x1 => accept true (.lslide (fd w) (fa w) (fb w) (fm w))
  | 0x2 => accept true (.lbcast (fd w) (fa w) (fb w) (fm w))
  | 0x3 => accept (fixedBits 0xFF0003F8 0x930003F8 w) (.vote (fd w) (fa w) (fm w))
  | 0x4 => accept true (.lreduce (fd w) (fa w) (fb w) (fm w))
  | 0x5 => accept true (.lscan (fd w) (fa w) (fb w) (fm w))
  | 0x6 => accept (fixedBits 0xFF0003FF 0x960003F8 w) (.shape (fd w) (fa w))
  | 0x7 => accept (fixedBits 0xFF01FFFF 0x9701FFF8 w) (.expand (fd w))
  | 0x8 => accept (fixedBits 0xFF000007 0x98000000 w) (.rwrite (fd w) (fa w) (fb w))
  | 0x9 => if (fixedBits 0xFFFE03FF 0x99FE03F8 w) then .ok (.rwait (fa w)) else if (fixedBits 0xFF01FFFF 0x9901FFF9 w) then .ok (.rwaitId (fd w)) else if (fixedBits 0xFF01FFFF 0x9901FFFA w) then .ok (.rwaitCnt (fd w)) else .error .unusedField
  | 0xA => accept (fixedBits 0xFFFE03FF 0x9AFE03F8 w) (.migrate (fa w))
  | _ => .error .unassignedMajor

/-- Row 0xA of Table 2-8, by the low digit of the major. -/
def decodeRowA (w : Word) : Nat → Except DecodeError Instr
  | 0x0 => accept (fixedBits 0xFF0003F8 0xA00003F8 w) (.qbind (fd w) (fa w) (fm w))
  | 0x1 => accept (fixedBits 0xFFFE03FF 0xA1FE03F8 w) (.qclose (fa w))
  | 0x2 => accept (fixedBits 0xFF0003FF 0xA20003F8 w) (.qstat (fd w) (fa w))
  | 0x3 => accept (fixedBits 0xFF0003FF 0xA30003F8 w) (.qtry (fd w) (fa w))
  | 0x4 => accept (fixedBits 0xFFFE0000 0xA4FE0000 w) (.tspawn (fa w) (fb w) (fm w))
  | 0x5 => accept (fixedBits 0xFF0003FF 0xA50003F8 w) (.klaunch (fd w) (fa w))
  | 0x6 => accept true (.bincnt (fd w) (fa w) (fb w) (fm w))
  | 0x7 => accept (fixedBits 0xFFFE0000 0xA7FE0000 w) (.binpatch (fa w) (fb w) (fm w))
  | 0x8 => accept true (.binit (fd w) (fa w) (fb w) (fm w))
  | 0x9 => accept true (.barv (fd w) (fa w) (fb w) (fm w))
  | 0xA => accept true (.bexp (fd w) (fa w) (fb w) (fm w))
  | 0xB => accept (fixedBits 0xFFFE0000 0xABFE0000 w) (.bwait (fa w) (fb w) (fm w))
  | 0xC => accept true (.btest (fd w) (fa w) (fb w) (fm w))
  | 0xD => accept (fixedBits 0xFFFFFFFF 0xADFFFFF8 w) .tsync
  | _ => .error .unassignedMajor

/-- Row 0xB of Table 2-8, by the low digit of the major. -/
def decodeRowB (w : Word) : Nat → Except DecodeError Instr
  | 0x0 => accept (fixedBits 0xFFFE0000 0xB0FE0000 w) (.mma (fa w) (fb w) (fm w))
  | 0x1 => accept true (.mdrain (fd w) (fa w) (fb w) (fm w))
  | 0x2 => accept (fixedBits 0xFFFFFC07 0xB2FFFC00 w) (.mzero (fb w))
  | 0x3 => accept (fixedBits 0xFFFE03FF 0xB3FE03F8 w) (.mrestart (fa w))
  | 0x4 => accept (fixedBits 0xFF0003FF 0xB40003F8 w) (.ringset (fd w) (fa w))
  | _ => .error .unassignedMajor

/-- Row 0xC of Table 2-8, by the low digit of the major. -/
def decodeRowC (w : Word) : Nat → Except DecodeError Instr
  | 0x0 => accept true (.sgen (fd w) (fa w) (fb w) (fm w))
  | 0x1 => accept (fixedBits 0xFF000007 0xC1000000 w) (.sand (fd w) (fa w) (fb w))
  | 0x2 => accept (fixedBits 0xFF000007 0xC2000000 w) (.sxnor (fd w) (fa w) (fb w))
  | 0x3 => accept (fixedBits 0xFF000007 0xC3000000 w) (.smux (fd w) (fa w) (fb w))
  | 0x4 => accept (fixedBits 0xFF0003FF 0xC40003F8 w) (.snot (fd w) (fa w))
  | 0x5 => accept (fixedBits 0xFF0003F8 0xC50003F8 w) (.scnt (fd w) (fa w) (fm w))
  | 0x6 => accept true (.sregen (fd w) (fa w) (fb w) (fm w))
  | 0x7 => accept (fixedBits 0xFFFFFFF8 0xC7FFFFF8 w) (.slen (fm w))
  | 0x8 => accept (fixedBits 0xFF0003FF 0xC80003F8 w) (.scls (fd w) (fa w))
  | 0x9 => accept (fixedBits 0xFF0003F8 0xC90003F8 w) (.sld (fd w) (fa w) (fm w))
  | 0xA => accept (fixedBits 0xFF0003FF 0xCA0003F8 w) (.sst (fd w) (fa w))
  | 0xB => accept (fixedBits 0xFF0003FF 0xCB0003F8 w) (.smov (fd w) (fa w))
  | _ => .error .unassignedMajor

/-- Row 0xD of Table 2-8, by the low digit of the major. -/
def decodeRowD (w : Word) : Nat → Except DecodeError Instr
  | 0x0 => accept (fixedBits 0xFFFE0000 0xD0FE0000 w) (.trap (fi17 w))
  | 0x1 => accept (fixedBits 0xFFFFFFFF 0xD1FFFFF8 w) .tret
  | 0x2 => accept (fixedBits 0xFFFE0000 0xD2FE0000 w) (.phint (fi17 w))
  | 0x3 => accept (fixedBits 0xFF01FC00 0xD301FC00 w) (.sysr (fd w) (fi10 w))
  | 0x4 => accept (fixedBits 0xFFFE0000 0xD4FE0000 w) (.sysw (fa w) (fi10 w))
  | 0x5 => accept (fixedBits 0xFF01FFFF 0xD501FFF8 w) (.time (fd w))
  | 0x6 => accept (fixedBits 0xFFFE0000 0xD6FE0000 w) (.bkpt (fi17 w))
  | 0x7 => accept (fixedBits 0xFFFE0000 0xD7FE0000 w) (.tmark (fa w) (fi10 w))
  | _ => .error .unassignedMajor

/-- The row of Table 2-8 that the word's major names, with its unused fields checked. -/
def decodeRow (w : Word) : Except DecodeError Instr :=
  match major w / 16 with
  | 0x0 => decodeRow0 w (major w % 16)
  | 0x1 => decodeRow1 w (major w % 16)
  | 0x2 => decodeRow2 w (major w % 16)
  | 0x3 => decodeRow3 w (major w % 16)
  | 0x4 => decodeRow4 w (major w % 16)
  | 0x5 => decodeRow5 w (major w % 16)
  | 0x6 => decodeRow6 w (major w % 16)
  | 0x7 => decodeRow7 w (major w % 16)
  | 0x8 => decodeRow8 w (major w % 16)
  | 0x9 => decodeRow9 w (major w % 16)
  | 0xA => decodeRowA w (major w % 16)
  | 0xB => decodeRowB w (major w % 16)
  | 0xC => decodeRowC w (major w % 16)
  | 0xD => decodeRowD w (major w % 16)
  | _ => .error .unassignedMajor

/-- The decoder under encoding `e` (R47, R142). -/
def decode (e : Nat) (w : Word) : Except DecodeError Instr :=
  match decodeRow w with
  | .error r => .error r
  | .ok i => if wellFormed e i then .ok i else .error .illFormed

/-! ## Clause headers -/

/-- A decoded clause header (Table 2-1): wait mask, the flags FA and FB name, count, guard and yield hint. -/
structure Header where
  wait : BitVec 12
  fa : Option Nat
  fb : Option Nat
  len : Nat
  guard : Option (Nat × Bool)
  yield : Bool
deriving DecidableEq, Repr

/-- A flag field: 15 names none, and a value from `lim` to 14 is reserved. -/
def flagField (lim v : Nat) : Except DecodeError (Option Nat) :=
  if v = 15 then .ok none else if v < lim then .ok (some v) else .error .illegalHeader

/-- R26, R27; under N1 the layout of Table 6-3. -/
def decodeHeader (e : Nat) (w : Word) : Except DecodeError Header :=
  let n := w.toNat
  if e = 1 then
    if n % 2 ^ 12 ≠ 0 ∨ n / 2 ^ 12 % 16 = 0 then .error .illegalHeader
    else match flagField 8 (n / 2 ^ 20 % 16), flagField 8 (n / 2 ^ 16 % 16) with
      | .ok a, .ok b => .ok ⟨BitVec.ofNat 12 (n / 2 ^ 24), a, b, n / 2 ^ 12 % 16, none, false⟩
      | _, _ => .error .illegalHeader
  else
    if n % 4 ≠ 0 ∨ n / 2 ^ 8 % 16 = 0 then .error .illegalHeader
    else match flagField 12 (n / 2 ^ 16 % 16), flagField 12 (n / 2 ^ 12 % 16) with
      | .ok a, .ok b =>
        .ok ⟨BitVec.ofNat 12 (n / 2 ^ 20), a, b, n / 2 ^ 8 % 16,
          if n / 2 ^ 7 % 2 = 1 then some (n / 2 ^ 4 % 8, n / 2 ^ 3 % 2 == 1) else none, n / 2 ^ 2 % 2 == 1⟩
      | _, _ => .error .illegalHeader

/-- R22. -/
def clauseTerminal : Instr → Bool
  | .bra .. | .brx _ | .call .. | .callx .. | .ret | .exit | .tret | .migrate _ => true
  | _ => false

/-! ## Encoder -/

/-- R format. -/
def encR (mj : Nat) (d a b : Reg) (m : BitVec 3) : Word :=
  BitVec.ofNat 32 (mj * 2 ^ 24 + d.toNat * 2 ^ 17 + a.toNat * 2 ^ 10 + b.toNat * 2 ^ 3 + m.toNat)
/-- I format. -/
def encI (mj : Nat) (d a : Reg) (i : BitVec 10) : Word :=
  BitVec.ofNat 32 (mj * 2 ^ 24 + d.toNat * 2 ^ 17 + a.toNat * 2 ^ 10 + i.toNat)
/-- L format. -/
def encL (mj : Nat) (d : Reg) (i : BitVec 17) : Word :=
  BitVec.ofNat 32 (mj * 2 ^ 24 + d.toNat * 2 ^ 17 + i.toNat)
/-- B format. -/
def encB (mj : Nat) (c : BitVec 4) (o : BitVec 20) : Word :=
  BitVec.ofNat 32 (mj * 2 ^ 24 + c.toNat * 2 ^ 20 + o.toNat)
/-- A predicate code in a seven-bit field: four bits of code above three of predicate (Table 9-1). -/
def codeField (c : BitVec 4) (p : BitVec 3) : Reg := BitVec.ofNat 7 (c.toNat * 8 + p.toNat)

/-- The word of an instruction, from the encoding tables; an event has none. -/
def encode : Instr → Option Word
  | .clauseIssue _ _ => none
  | .longLatencyCompletion _ _ => none
  | .gRowReadback _ _ => none
  | .haltLineAssert _ => none
  | .unitStop _ => none
  | .groupStopRecord _ => none
  | .contextHalted _ => none
  | .preemptRequest _ => none
  | .gracePeriodExpiry _ => none
  | .groupSave _ => none
  | .teamSave _ => none
  | .partitionGrant _ _ => none
  | .teamRestore _ _ => none
  | .timeSliceEnd _ => none
  | .contextFreed _ => none
  | .mrqtailWrite _ => none
  | .mcqconsWrite _ => none
  | .create => none
  | .kill => none
  | .resume => none
  | .debugHalt => none
  | .assign => none
  | .partition => none
  | .qassign => none
  | .inval => none
  | .unclass => none
  | .pin => none
  | .unpin => none
  | .bias => none
  | .classq => none
  | .lrec => none
  | .retlist => none
  | .dbgset => none
  | .dbgread => none
  | .mcread => none
  | .attest => none
  | .power => none
  | .setparam => none
  | .domain => none
  | .hqtailWrite _ _ => none
  | .hqEnWrite _ _ => none
  | .hqClrWrite _ => none
  | .launch _ _ => none
  | .copy _ _ => none
  | .signal _ _ => none
  | .wait _ _ => none
  | .waitSatisfied _ _ => none
  | .waitTimeout _ _ => none
  | .selftest _ _ => none
  | .mark _ _ => none
  | .commandComplete _ _ => none
  | .launchComplete _ => none
  | .evconsWrite _ _ => none
  | .eventIenWrite _ _ => none
  | .coalesceTimerExpiry _ => none
  | .registerWrite _ _ _ => none
  | .bindRecordWrite _ _ _ => none
  | .teamStart _ _ => none
  | .carveOutChange _ => none
  | .groupRetire _ => none
  | .engineRelease _ => none
  | .gatherTimerExpiry _ _ => none
  | .taskGroupPop _ _ => none
  | .blockedPortResume _ => none
  | .sleepExpiry _ => none
  | .migrateMove _ => none
  | .bwaitSatisfied _ => none
  | .barrierTimeout _ _ => none
  | .homeAccessAccept _ => none
  | .recallUnit _ _ => none
  | .drainPoint _ _ => none
  | .drainAck _ _ => none
  | .quietExpiry _ => none
  | .pageWalk _ _ _ => none
  | .hostAccess _ _ _ _ => none
  | .birspReceive _ _ => none
  | .hostCompletionReceive _ => none
  | .peerAccess _ => none
  | .copyUnit _ => none
  | .copyComplete _ => none
  | .engineTakeCommand _ => none
  | .engineCommandStart _ => none
  | .engineCommandComplete _ => none
  | .streamSlotGrant _ => none
  | .straitFlitReceive _ _ _ _ => none
  | .replayRequest _ _ => none
  | .linkReplayTimeout _ => none
  | .retrain _ => none
  | .linkTrained _ _ => none
  | .remoteRequestTimeout _ => none
  | .coherenceTimeout _ => none
  | .ptmenWrite _ => none
  | .ptmDialogue _ _ => none
  | .pcSample _ _ => none
  | .moduleReset _ => none
  | .stageAdvance _ => none
  | .startTimeout => none
  | .errorDetected _ => none
  | .triageSelftest _ _ => none
  | .selftestCoreEnd _ _ => none
  | .dumpvWrite => none
  | .powerClockStep _ => none
  | .iadd d a b m => some (encR 0x00 d a b m)
  | .iaddc d a b p => some (encR 0x01 d a b p)
  | .isub d a b m => some (encR 0x02 d a b m)
  | .isubb d a b p => some (encR 0x03 d a b p)
  | .imul d a b m => some (encR 0x04 d a b m)
  | .imulh d a b m => some (encR 0x05 d a b m)
  | .imad d a b m => some (encR 0x06 d a b m)
  | .imin d a b m => some (encR 0x07 d a b m)
  | .imax d a b m => some (encR 0x08 d a b m)
  | .iabs d a m => some (encR 0x09 d a 127 m)
  | .and d a b => some (encR 0x0A d a b 0)
  | .or d a b => some (encR 0x0B d a b 0)
  | .xor d a b => some (encR 0x0C d a b 0)
  | .andn d a b => some (encR 0x0D d a b 0)
  | .shl d a b m => some (encR 0x0E d a b m)
  | .shr d a b m => some (encR 0x0F d a b m)
  | .sar d a b m => some (encR 0x10 d a b m)
  | .rotl d a b => some (encR 0x11 d a b 0)
  | .bfx d a b m => some (encR 0x12 d a b m)
  | .bfi d a b => some (encR 0x13 d a b 0)
  | .popc d a => some (encR 0x14 d a 127 0)
  | .clz d a => some (encR 0x15 d a 127 0)
  | .ctz d a => some (encR 0x16 d a 127 0)
  | .brev d a => some (encR 0x17 d a 127 0)
  | .iset c p a b m => some (encR 0x18 (codeField c p) a b m)
  | .sel d a b s => some (encR 0x19 d a b s)
  | .plog t p a b => some (encR 0x1A (codeField t p) (a.setWidth 7) (b.setWidth 7) 0)
  | .pmovToReg d => some (encR 0x1B d 127 127 0)
  | .pmovToPred a => some (encR 0x1B 127 a 127 1)
  | .clmul d a b => some (encR 0x1C d a b 0)
  | .clmulh d a b => some (encR 0x1D d a b 0)
  | .padd2 d a b m => some (encR 0x20 d a b m)
  | .psub2 d a b m => some (encR 0x21 d a b m)
  | .pmac2 d a b m => some (encR 0x22 d a b m)
  | .pdot4 d a b m => some (encR 0x23 d a b m)
  | .pdot8 d a b m => some (encR 0x24 d a b m)
  | .pshr2 d a b m => some (encR 0x25 d a b m)
  | .psat2 d a b m => some (encR 0x26 d a b m)
  | .ppack d a b m => some (encR 0x27 d a b m)
  | .punpk d a b m => some (encR 0x28 d a b m)
  | .pmin2 d a b m => some (encR 0x29 d a b m)
  | .pmax2 d a b m => some (encR 0x2A d a b m)
  | .addi d a i => some (encI 0x30 d a i)
  | .andi d a i => some (encI 0x31 d a i)
  | .ori d a i => some (encI 0x32 d a i)
  | .xori d a i => some (encI 0x33 d a i)
  | .shli d a n => some (encI 0x34 d a (n.setWidth 10))
  | .shri d a n => some (encI 0x35 d a (n.setWidth 10))
  | .sari d a n => some (encI 0x36 d a (n.setWidth 10))
  | .iseti c p a i => some (encI 0x37 (codeField c p) a i)
  | .movi d i => some (encL 0x38 d i)
  | .lui d i => some (encL 0x39 d i)
  | .orl d i => some (encL 0x3A d i)
  | .fadd d a b m => some (encR 0x40 d a b m)
  | .fsub d a b m => some (encR 0x41 d a b m)
  | .fmul d a b m => some (encR 0x42 d a b m)
  | .ffma d a b m => some (encR 0x43 d a b m)
  | .fmin d a b m => some (encR 0x44 d a b m)
  | .fmax d a b m => some (encR 0x45 d a b m)
  | .fset c p a b m => some (encR 0x46 (codeField c p) a b m)
  | .frcp d a m => some (encR 0x47 d a 127 m)
  | .frsq d a m => some (encR 0x48 d a 127 m)
  | .fsqrt d a m => some (encR 0x49 d a 127 m)
  | .fex2 d a m => some (encR 0x4A d a 127 m)
  | .flg2 d a m => some (encR 0x4B d a 127 m)
  | .fsin d a m => some (encR 0x4C d a 127 m)
  | .fcos d a m => some (encR 0x4D d a 127 m)
  | .frnd d a m => some (encR 0x4E d a 127 m)
  | .fcls d a => some (encR 0x4F d a 127 0)
  | .hadd2 d a b m => some (encR 0x50 d a b m)
  | .hmul2 d a b m => some (encR 0x51 d a b m)
  | .hfma2 d a b m => some (encR 0x52 d a b m)
  | .fcvt d a b m => some (encR 0x53 d a b m)
  | .f2i d a b m => some (encR 0x54 d a b m)
  | .i2f d a b m => some (encR 0x55 d a b m)
  | .qcvt d a b m => some (encR 0x56 d a b m)
  | .qdeq d a b m => some (encR 0x57 d a b m)
  | .fpxr d => some (encR 0x58 d 127 127 0)
  | .fpxc d a m => some (encR 0x59 d a 127 m)
  | .frm d a => some (encR 0x5A d a 127 0)
  | .ld8 d a o m => some (encR 0x60 d a o m)
  | .ld16 d a o m => some (encR 0x61 d a o m)
  | .ld32 d a o m => some (encR 0x62 d a o m)
  | .ld64 d a o m => some (encR 0x63 d a o m)
  | .ld128 d a o m => some (encR 0x64 d a o m)
  | .st8 s a o m => some (encR 0x65 s a o m)
  | .st16 s a o m => some (encR 0x66 s a o m)
  | .st32 s a o m => some (encR 0x67 s a o m)
  | .st64 s a o m => some (encR 0x68 s a o m)
  | .st128 s a o m => some (encR 0x69 s a o m)
  | .lds d a o m => some (encR 0x6A d a o m)
  | .sts s a o m => some (encR 0x6B s a o m)
  | .ldp d a o m => some (encR 0x6C d a o m)
  | .stp s a o m => some (encR 0x6D s a o m)
  | .ldc d a o m => some (encR 0x6E d a o m)
  | .atom d a b m => some (encR 0x6F d a b m)
  | .atoms d a b m => some (encR 0x70 d a b m)
  | .cas d a b m => some (encR 0x71 d a b m)
  | .pref a o m => some (encR 0x72 127 a o m)
  | .cpy d a b m => some (encR 0x73 d a b m)
  | .cpyr d a b m => some (encR 0x74 d a b m)
  | .bra c o => some (encB 0x80 c o)
  | .brx a => some (encR 0x81 127 a 127 0)
  | .call s i => some (encL 0x82 s i)
  | .callx s a => some (encR 0x83 s a 127 0)
  | .ret => some (encR 0x84 127 127 127 0)
  | .meet c o => some (encB 0x85 c o)
  | .exit => some (encR 0x86 127 127 127 0)
  | .wbase i => some (encI 0x87 127 127 i)
  | .yield => some (encR 0x88 127 127 127 0)
  | .nop => some (encR 0x89 127 127 127 0)
  | .sleep a n => some (encI 0x8A 127 a n)
  | .lshfl d a b m => some (encR 0x90 d a b m)
  | .lslide d a b m => some (encR 0x91 d a b m)
  | .lbcast d a b m => some (encR 0x92 d a b m)
  | .vote d a m => some (encR 0x93 d a 127 m)
  | .lreduce d a b m => some (encR 0x94 d a b m)
  | .lscan d a b m => some (encR 0x95 d a b m)
  | .shape d a => some (encR 0x96 d a 127 0)
  | .expand d => some (encR 0x97 d 127 127 0)
  | .rwrite d a b => some (encR 0x98 d a b 0)
  | .rwait a => some (encR 0x99 127 a 127 0)
  | .rwaitId d => some (encR 0x99 d 127 127 1)
  | .rwaitCnt d => some (encR 0x99 d 127 127 2)
  | .migrate a => some (encR 0x9A 127 a 127 0)
  | .qbind d a m => some (encR 0xA0 d a 127 m)
  | .qclose a => some (encR 0xA1 127 a 127 0)
  | .qstat d a => some (encR 0xA2 d a 127 0)
  | .qtry d a => some (encR 0xA3 d a 127 0)
  | .tspawn a b m => some (encR 0xA4 127 a b m)
  | .klaunch d a => some (encR 0xA5 d a 127 0)
  | .bincnt d a b m => some (encR 0xA6 d a b m)
  | .binpatch a b m => some (encR 0xA7 127 a b m)
  | .binit d a b m => some (encR 0xA8 d a b m)
  | .barv d a b m => some (encR 0xA9 d a b m)
  | .bexp d a b m => some (encR 0xAA d a b m)
  | .bwait a b m => some (encR 0xAB 127 a b m)
  | .btest d a b m => some (encR 0xAC d a b m)
  | .tsync => some (encR 0xAD 127 127 127 0)
  | .mma a b m => some (encR 0xB0 127 a b m)
  | .mdrain d a b m => some (encR 0xB1 d a b m)
  | .mzero b => some (encR 0xB2 127 127 b 0)
  | .mrestart a => some (encR 0xB3 127 a 127 0)
  | .ringset d a => some (encR 0xB4 d a 127 0)
  | .sgen d a b m => some (encR 0xC0 d a b m)
  | .sand d a b => some (encR 0xC1 d a b 0)
  | .sxnor d a b => some (encR 0xC2 d a b 0)
  | .smux d a b => some (encR 0xC3 d a b 0)
  | .snot d a => some (encR 0xC4 d a 127 0)
  | .scnt d a m => some (encR 0xC5 d a 127 m)
  | .sregen d a b m => some (encR 0xC6 d a b m)
  | .slen m => some (encR 0xC7 127 127 127 m)
  | .scls d a => some (encR 0xC8 d a 127 0)
  | .sld d a m => some (encR 0xC9 d a 127 m)
  | .sst s a => some (encR 0xCA s a 127 0)
  | .smov d a => some (encR 0xCB d a 127 0)
  | .trap i => some (encL 0xD0 127 i)
  | .tret => some (encR 0xD1 127 127 127 0)
  | .phint i => some (encL 0xD2 127 i)
  | .sysr d i => some (encI 0xD3 d 127 i)
  | .sysw a i => some (encI 0xD4 127 a i)
  | .time d => some (encR 0xD5 d 127 127 0)
  | .bkpt i => some (encL 0xD6 127 i)
  | .tmark a i => some (encI 0xD7 127 a i)

/-- The instruction that the decoder reads from a word of the opcode table: every instruction is one 32-bit word
(R20), read under N3. -/
def decodeTableWord (nbits w : Nat) : Option Instr :=
  if nbits ≤ 32 then
    match decode 3 (BitVec.ofNat 32 w) with
    | .ok i => some i
    | .error _ => none
  else none

end Sys2Proof
end

