-- ==== Sys2Proof/Machine/State.lean ====
section
/-! DEFINITION. The state of the M7 as plain data: every register, memory, queue and engine that the manual names,
and the machine right after module reset. Unit numbers follow R94 throughout: group slot `s` of core `k = 48d + c` is
`64k + s`, copy engine `n` of die `d` is `12288 + 8d + n`, matrix engine `e` is `12320 + e`, the stream engine of core
`k` is `12352 + k`. -/
namespace Sys2Proof.Machine

/-! ## Threads and groups (R172) -/

/-- One row of a register stack: its shape tag and its value or values (R179). -/
inductive Row where
  /-- Uniform: every lane reads `u`. -/
  | u (u : Word)
  /-- Affine: lane `l` reads `base + l * stride` modulo 2^32. -/
  | a (base stride : Word)
  /-- General: 32 independent words. -/
  | g (w : Lanes Word)
deriving DecidableEq, Repr

/-- Where a thread stands in its code: a clause header, how many of the clause's instructions it has passed (0 means
that the clause has not issued for it) and the guard value it had at the original issue (R24, R90). -/
structure CodePos where
  hdr : VA
  pos : Nat
  guard : Bool
deriving DecidableEq, Repr

/-- A stream register: its tag (Table 15-1) and its data bits (R341). -/
structure StreamReg where
  tag : BitVec 64
  data : BitVec 1024
deriving DecidableEq, Repr

/-- Why a live thread does not issue (R97, R174). -/
inductive Wait where
  | none
  /-- SLEEP until device time `wake`, with the threads of `set` (R200). -/
  | sleep (wake : Nat) (set : Mask)
  /-- Blocked on a queue port at the instruction `word` (R128). -/
  | port (word : Word)
  /-- BWAIT on the barrier at `addr` for `phase`, issued when the context had run `start` ns; `done` once the lane's
  load has performed; `set` is the issue it belongs to, `word` its instruction word (R301, R302, R309). -/
  | bwait (addr : VA) (phase : Word) (start : Nat) (done : Bool) (set : Mask) (word : Word)
  /-- RWAIT for the counter to reach `v` (R206). -/
  | rwait (v : BitVec 16)
  /-- TSYNC (R304). -/
  | tsync
  /-- Stalled for a stream slot (R345). -/
  | streamSlot
  /-- MIGRATE blocked for a landing slot of die `die` (R207). -/
  | landing (die : Nat)
deriving DecidableEq, Repr

/-- The root command of a tile task (R382): KLAUNCH or host queue, its queue number or DIEID, and its sequence number. -/
structure RootCmd where
  klaunch : Bool
  qnum : Nat
  seq : Word
deriving DecidableEq, Repr

/-- A thread (R172): program position, meeting register, predicates, FPX flags and mode (Table 3-5), window base and
residence (R185), stack limit, handler state (R90, R186), arrival counter (R190) and stream state (R341, R344). -/
structure Thread where
  present : Bool
  exited : Bool
  at_ : CodePos
  /-- While the thread waits: its position once the instruction that it waits in is done. -/
  after : CodePos
  meeting : VA
  held : Bool
  wait : Wait
  preds : BitVec 8
  fpx : BitVec 7
  rm : BitVec 2
  wb : Word
  wres : Word
  stacklim : Word
  inHandler : Bool
  hwb : Int
  /-- ResumeState (R90): the instruction that trapped, and the position after it, where TRET goes for cause 0x0A (R104). -/
  resume : CodePos
  resumeNext : CodePos
  tpcWritten : Bool
  tcause : BitVec 8
  tpc : VA
  tval : BitVec 64
  counter : BitVec 16
  /-- Clauses that the group has issued for other sets while this thread's set has stayed runnable (R177). -/
  waited : Nat
  dlen : BitVec 2
  streams : Vector StreamReg 8
  root : RootCmd
  /-- The die (times 2^32) and slot of the task that the lane runs (R123). -/
  taskSlot : Option Nat
  /-- The launch that a task of a LAUNCH with TASKS belongs to (R151). -/
  taskLaunch : Option Nat
deriving DecidableEq, Repr

/-- Where a name of a thread is stored: nowhere (vz), a stack position, or a row of the handler bank (R36, R91). -/
inductive RowRef where
  | nowhere
  | stack (p : Nat)
  | bank (n : Nat)
deriving DecidableEq, Repr

/-- The barrier operations of a thread (R306 to R310). -/
inductive BarOp where
  | binit (cfg : Word)
  | barv (n : Word)
  | bexp (n : Word)
  | btest (p : Word)
deriving DecidableEq, Repr

/-- What one memory event does (R276, R289 to R294, R297, R136). -/
inductive AccOp where
  | load
  | store (data : List Byte)
  | atom (op : BitVec 3) (v : Word)
  | cas (cmp new : Word)
  | bar (op : BarOp)
  /-- TSPAWN: load the 64-byte record and push a task with this entry address to the queue of die `die`, or to the one
  of the die that homes the record. `passed` are the data comparators that do not stop the push, nor count it: the exempt ones
  (R386) and those that have counted the issue (R383). -/
  | spawn (entry : VA) (die : Option Nat) (passed : List Nat)
  /-- KLAUNCH: load the 64-byte command and accept or refuse it; the status goes to the row of the operation, or to the
  port that the destination field names (R156). -/
  | klaunch (dst : Reg) (act : Mask) (die : Nat)
deriving DecidableEq, Repr

/-- One memory access of one lane that has not performed yet: its virtual address, size, operation, and whether it
needs W whatever the operation (private memory, R261). -/
structure Acc where
  lane : Nat
  va : VA
  size : Nat
  op : AccOp
  needW : Bool
deriving DecidableEq, Repr

/-- An outstanding operation of a group: a long-latency one (R40 to R42), or with `fixed` an ordered instruction that
holds its group until it has performed (R306, R136). It keeps the flag it counts on, the lanes it was issued for, its
destination rows, the accesses still to perform in lane order, the values bound so far, and
what else it waits for. `once` marks one event for every lane (R276, R306); `full` and `uni` fix the shape of its
result (R181, Table 8-1); `lost` marks one of which a status has been abandoned (R93); `again` are the accesses with which an
SLD begins. -/
structure Op where
  id : Nat
  word : Word
  flag : Option Nat
  lanes : Mask
  dest : List (Lanes RowRef)
  full : Bool
  uni : Bool
  once : Bool
  fixed : Bool
  left : List Acc
  again : List Acc
  got : List (Nat × List Word)
  fpxPending : Bool
  fflags : Lanes (BitVec 7)
  stream : Option Nat
  streamGot : List (Nat × StreamReg)
  copies : Nat
  drain : Bool
  lost : Bool
deriving DecidableEq, Repr

/-- A clause in issue for one convergence set (R23): its header, its words, the index of the next instruction, the
set, the admitted lanes, and how far the instruction in progress has come: `op` is its operation while its ordered
accesses perform, `voted` the compand table that an MMA read at its vote (R324), `taken` says that its issue has had its cycle. -/
structure Issue where
  hdr : VA
  header : Word
  words : List Word
  pos : Nat
  set : Mask
  guard : Mask
  depCounted : Bool
  checked : Bool
  op : Option Nat
  voted : Option (List Word)
  taken : Bool
deriving DecidableEq, Repr

/-- The two ends of a queue that a port can hold (R127). -/
structure Port where
  /-- Unique number of the queue instance the port is bound to. -/
  inst : Nat
  /-- The 32-bit queue identity (Table 5-1). -/
  ident : Word
  producer : Bool
deriving DecidableEq, Repr

/-- What a unit that raised a fault puts into its stop record (Table 4-6, Table 4-8). -/
structure FaultInfo where
  cause : BitVec 8
  flanes : Mask
  value : BitVec 64
  word : Word
deriving DecidableEq, Repr

/-- How far a group is on its way to a save, a halt or a retirement (R93, R97). -/
inductive GroupPhase where
  | running
  /-- Issue has ended under the halt line. -/
  | stopped
  /-- Stopped at the end of the grace period, or saving at a PHINT under the entry named. -/
  | saving (entry : Option Nat)
  /-- The image is written (R102). -/
  | saved (entry : Option Nat)
  /-- A discard has abandoned a status that the group waited for: it issues nothing until its forced save (R331, R418,
  R419). -/
  | drained
deriving DecidableEq, Repr

/-- An entry that a blocking instruction at `pos`, issued by the threads of `set`, has popped from queue instance `inst`:
it goes back when the instruction stops before its effect (R93, R97). -/
structure Popped where
  set : Mask
  pos : CodePos
  inst : Nat
  entry : List Word
deriving DecidableEq, Repr

/-- A group of 32 threads (R172): identity, code image, window rows keyed by on-chip entry (R182), handler bank,
completion flags (R40), ports (R127), outstanding operations and the clause in issue. -/
structure Group where
  ctx : Nat
  team : Nat
  gid : Nat
  image : Nat
  enc : Nat
  budget : Nat
  pbase : VA
  privb : Nat
  threads : Lanes Thread
  rows : Tab Row
  bank : Tab Row
  evicted : List Nat
  use : Tab Nat
  flags : Vector Nat 12
  ports : Vector (Option Port) 6
  ops : List Op
  nextOp : Nat
  issue : Option Issue
  lastExit : VA
  phase : GroupPhase
  fault : Option FaultInfo
  preempt : Option Nat
  touched : List Nat
  streamSlot : Bool
  depEvents : Nat
  skipCmp : List (Nat × Mask)
  haltTime : Nat
  abandoned : Nat
  popped : List Popped
  /-- SLDs that have faulted after their issue, which a RESUME executes again (R96). -/
  redo : List Op
  /-- Words of evicted rows that have left for other modules and are not answered: the entry, the module and the granule (R377). -/
  leaving : List (Nat × Nat × Nat)
deriving DecidableEq, Repr

/-! ## Teams, launches, queues and tasks -/

/-- What a held command waits to do (R130). -/
inductive HeldCmd where
  /-- A CPY of lane `lane`: source, destination (scratchpad when `sp`), length, barrier. -/
  | cpy (g lane op : Nat) (src dst : VA) (sp : Bool) (n : Nat) (bar : VA) (word : Word)
  /-- A CPYR into ring `ring`. -/
  | cpyr (g lane op : Nat) (src : VA) (ring : Nat) (n : Nat) (bar : VA) (word : Word)
  /-- An MMA with its two operand words, the compand table of its vote and its instruction word. -/
  | mma (fmt cmd : Word) (table : List Word) (word : Word)
deriving DecidableEq, Repr

/-- Table 6-6; a Waiting team stands in the slot tables as bind records, and an Unbound or Discarded one nowhere. -/
inductive TeamState where
  | resident | saved | stopped | retired
deriving DecidableEq, Repr

/-- The state a saved group leaves in the context image (Table 4-10): the slot it left, the group as data, the liveness
entry it was saved under (none for a forced save) with its scratchpad ranges (R98), the stack positions and the stream registers that
the image stores, and the image's bytes, which system software may change (R96). -/
structure SavedGroup where
  slot : Nat
  group : Group
  entry : Option Nat
  names : List Nat
  streams : List Nat
  bytes : List Byte
  ranges : List (Nat × Nat)
deriving DecidableEq, Repr

/-- A team (R149, R150): its place in the launch, its core, its groups' unit numbers, scratchpad, bin table (R129),
held list (R130), team barrier (R303), restarts, label and engine (R330). A task group is a team of its own (R126). -/
structure Team where
  ctx : Nat
  launch : Nat
  task : Bool
  stage : Nat
  x : Nat
  y : Nat
  z : Nat
  core : Nat
  tslot : Nat
  groups : List Nat
  state : TeamState
  scratch : Tab Byte
  scratchLen : Nat
  bins : Tab Word
  held : Tab HeldCmd
  tph : Bool
  arrived : Mask
  tw : Mask
  tt : Mask
  restarts : Word
  label : Option VA
  engineTeam : Bool
  /-- The label in force when the engine state was discarded (R331). -/
  discarded : Option VA
  engine : Option Nat
  saved : List SavedGroup
deriving DecidableEq, Repr

/-- A queue descriptor of a launch's queue table (Table 5-2). -/
structure QDesc where
  kind : Nat
  pstage : Nat
  cstage : Nat
  depth : Nat
  uni : Bool
deriving DecidableEq, Repr

/-- An argument entry (Table 6-4). -/
structure ArgEntry where
  affine : Bool
  base : Word
  stride : Word
  gstep : Word
deriving DecidableEq, Repr

/-- The states of a queue, coded 0 to 5 in the order of Table 5-3. -/
inductive QState where
  | unbound | bound | open_ | draining | closed | orphaned
deriving DecidableEq, Repr

/-- An instance of a stage or result queue (R114 to R118); `reserved` counts entries an engine has reserved (R327). -/
structure QueueInst where
  launch : Nat
  index : Nat
  inst : Nat
  desc : QDesc
  state : QState
  producers : Nat
  consumers : Nat
  lost : Bool
  entries : List (List Word)
  reserved : Nat
  live : Bool
deriving DecidableEq, Repr

/-- A launch of a kernel (R143, R151), from a LAUNCH command or KLAUNCH. -/
structure Launch where
  ctx : Nat
  image : Nat
  dx : Nat
  dy : Nat
  dz : Nat
  args : List ArgEntry
  qtab : List QDesc
  prio : Nat
  tasks : Bool
  taskCount : Nat
  tasksDone : Nat
  /-- Next team to place, as an index over the ordinary stages' teams. -/
  placed : List Nat
  retired : Nat
  total : Nat
  status : BitVec 8
  root : RootCmd
  tag : Word
  rec_ : Bool
  bar : VA
  die : Nat
  rings : List (Nat × Nat × Nat)
  /-- The real time since when a team of it could have been bound (R131). -/
  since : Option Nat
  /-- The tick at which it was accepted: launches of one priority are bound in this order (R131). -/
  order : Nat
deriving DecidableEq, Repr

/-- A task in a die task queue (R123, R124). -/
structure Task where
  slot : Nat
  entry : VA
  root : RootCmd
  launch : Option Nat
  since : Nat
deriving DecidableEq, Repr

/-- A die task queue of one context (R123 to R126): the tasks not yet taken, oldest first; the groups formed and not
yet popped; the slots in use; how many pop requests wait. -/
structure TaskQueue where
  queued : List Task
  formed : List (List Task)
  used : List Nat
  tail : Nat
  requests : List Nat
  oldestSince : Nat
  /-- The real time since when a core could have started the first formed group (R131). -/
  since : Option Nat
deriving DecidableEq, Repr

/-! ## Contexts -/

/-- The states of a context, coded 0 to 9 in the order of Table 4-1. -/
inductive CtxState where
  | free | loading | ready | running | halting | halted | saving | saved | restoring | killed
deriving DecidableEq, Repr

/-- An accepted kernel image: the fields of its header (Table 6-1) and its liveness entries (Table 4-11). -/
structure Image where
  base : VA
  enc : Nat
  stages : Nat
  engmask : BitVec 8
  team : Nat
  window : Nat
  scratch : Nat
  argn : Nat
  livecnt : Nat
  codeoff : Nat
  codesize : Nat
  dataoff : Nat
  datasize : Nat
  liveoff : Nat
  trapvec : Option Nat
  entries : List (Option Nat)
  mmafmt : Word
  stackn : Nat
  privb : Nat
deriving DecidableEq, Repr

/-- The event-ring register block of a context (Table 6-7) with its held records and coalescing state (R153, R155). -/
structure EventRing where
  base : BitVec 64
  size : Nat
  ien : Bool
  prod : Word
  cons : Word
  coalcnt : Nat
  coaltime : Nat
  vector : BitVec 11
  held : List (List Byte)
  count : Nat
  timer : Option Nat
deriving DecidableEq, Repr

/-- An instruction comparator (Table 17-2). -/
structure ICmp where
  start : Nat
  end_ : Nat
  ctl : BitVec 8
  stage : Nat
  x : Nat
  y : Nat
  z : Nat
  skip : Nat
deriving DecidableEq, Repr

/-- A data comparator (Table 17-3). -/
structure DCmp where
  start : Nat
  end_ : Nat
  ctl : BitVec 8
  value : Word
  skip : Nat
deriving DecidableEq, Repr

/-- The counters of one profile bin (R391). -/
structure BinCount where
  active : Nat
  masked : Nat
  predoff : Nat
  absent : Nat
  scalar : Nat
  depev : Nat
deriving DecidableEq, Repr

/-- The debug descriptor in force for a context and its counters (Table 17-1, R391). -/
structure Debug where
  trbase : Nat
  trsize : Nat
  trmode : Bool
  trmask : BitVec 16
  samplog : Nat
  trcount : Nat
  drops : Nat
  profbase : Nat
  icmp : List ICmp
  dcmp : List DCmp
  bins : List (Nat × Nat)
  counts : Tab BinCount
  idle : Nat
  depevt : Nat
  runcyc : Nat
  at_ : Nat
  nextSlot : Tab Nat
deriving DecidableEq, Repr

/-- A context (R83): its state, page table, stop area, images, registers of scope Context (Table 4-3), partition,
launch counters, first fault, event ring, debug state, and the time it has spent Running (R301). -/
structure Context where
  state : CtxState
  root : Nat
  stopArea : Nat
  poolBase : Nat
  poolLen : Nat
  pools : List (Nat × Nat)
  taskK : Nat
  taskPhys : List Nat
  taskVirt : List Nat
  images : List Image
  sd : Bool
  dbg : Bool
  grace : Nat
  btmo : Nat
  tvec : VA
  frm : BitVec 2
  compand : Tab Word
  partition : Option Nat
  assigned : Option Nat
  sliceEnd : Nat
  klaunchSeq : Word
  klaunchOut : Nat
  firstFault : Option FaultInfo
  firstUnit : Option Nat
  summary : Option (List Byte)
  haltTime : Nat
  runNs : Nat
  ring : EventRing
  debug : Option Debug
  pinned : List Nat
  /-- The cores whose stream engines have stopped for the halt in progress (R352). -/
  streamStops : List Nat
deriving DecidableEq, Repr

/-! ## Engines, copies -/

/-- The destination of a copy (R286, R294, R340). -/
inductive CopyDst where
  | mem (va : VA)
  | scratch (team off : Nat)
  | ring (engine ring seg : Nat)
deriving DecidableEq, Repr

/-- Who started a copy: a lane of a group's operation, a host command, or a group of the team that no longer waits for its
status (R93). -/
inductive CopyOrigin where
  | lane (g op lane : Nat)
  | host (q n : Nat)
  | abandoned (gid : Nat)
deriving DecidableEq, Repr

/-- An asynchronous copy (R286): source, destination, length, bytes done, the source bytes already read for the unit
in progress, barrier, engine, and its stop state. -/
structure Copy where
  ctx : Nat
  team : Nat
  engine : Nat
  tag : Nat
  src : VA
  dst : CopyDst
  len : Nat
  pos : Nat
  buf : List Byte
  bar : VA
  origin : CopyOrigin
  word : Word
  stopped : Bool
  recorded : Bool
  fault : Option FaultInfo
  skipCmp : List Nat
deriving DecidableEq, Repr

/-- A command of an engine queue as the 32-byte record of R325 lays it out, with what the model adds: the status the
issuing group waits for, the lanes and the operation, the compand table of the vote. -/
structure EngCmd where
  kind : Nat
  fmt : Word
  ctl : Word
  dest : BitVec 64
  bar : VA
  status : Option (Nat × Nat)
  team : Nat
  table : List Word
  /-- The instruction word that issued it (R425). -/
  word : Word
  seq : Option Word
  skipCmp : List Nat
deriving DecidableEq, Repr

/-- Table 14-2. -/
inductive EngState where
  | unbound | idle | waiting | running | stopped
deriving DecidableEq, Repr

/-- A reservation of a ring (R317): its number, its length and the bytes written so far. -/
structure RingSeg where
  id : Nat
  len : Nat
  data : List Byte
deriving DecidableEq, Repr

/-- A configured ring (R316): its capacity in 64 KiB units, its reservations from the head, and how many bytes of the
first one are already consumed. -/
structure Ring where
  units : Nat
  segs : List RingSeg
  taken : Nat
deriving DecidableEq, Repr

/-- A matrix engine (R313): the coordinate it is bound to, its state (Table 14-2), its queue, SEQ, tiles, ESTAT,
rings, how far a running MDRAIN has come, and its stop state. Tile word (t, i, j) has key `16384 t + 128 i + j`. -/
structure Engine where
  bound : Option (Nat × Nat)
  state : EngState
  queue : List EngCmd
  seq : Word
  tiles : Tab Word
  estat : BitVec 4
  rings : Vector (Option Ring) 8
  drainPos : Nat
  reserved : Nat
  maskChecked : Bool
  fault : Option FaultInfo
  recorded : Bool
  nextSeg : Nat
deriving DecidableEq, Repr

/-! ## Translation and classes -/

/-- A page-table leaf as a TLB holds it (R258): page size, frame, permissions, and the class once the home returned
it. -/
structure TlbEntry where
  ctx : Nat
  page : Nat
  size : Nat
  frame : Nat
  host : Bool
  rmt : Option Nat
  w : Bool
  x : Bool
  cls : Option Nat
  owner : Nat
deriving DecidableEq, Repr

/-- A class entry (Table 11-3); CLASS as its code. `dirty` are the lines that a holder may have stored to since the class began, so
that memory may hold other bytes than it (R378). -/
structure ClassEntry where
  cls : Nat
  unit : Nat
  owner : Word
  written : Bool
  hold : BitVec 8
  rhold : Bool
  since : Nat
  dirty : List Nat
deriving DecidableEq, Repr

/-- What a transition's completion is awaited by (R270, R273, R274). -/
inductive Trigger where
  | access (party : Word)
  | request (n : Nat)
  | policy
  | load (ctx : Nat)
deriving DecidableEq, Repr

/-- A transition after drain in progress (R270): the target class, the units of R258's caches that still owe a
DrainAck, which of them have received the Recall and reached their drain points, and the parties waiting in arrival
order. -/
structure Transit where
  newCls : Nat
  newUnit : Nat
  newOwner : Word
  trigger : Trigger
  owes : List Nat
  recalled : List Nat
  drained : List Nat
  since : Nat
deriving DecidableEq, Repr

/-- A miss that waits for a walk, or a walk that has failed with its cause and, for an error in an entry, VALUE, by die, context
and 4 KiB page (R259). -/
structure WalkReq where
  die : Nat
  ctx : Nat
  page : Nat
  misses : List (Nat × Word)
  cause : BitVec 8
  value : BitVec 64
deriving DecidableEq, Repr

/-! ## Management, host queues, events -/

/-- A request fetched from the request ring (R109): its 128 bytes, whether it has started, the units it still works on,
its RESULT so far and its phase. -/
structure Request where
  n : Nat
  opcode : Nat
  tag : Word
  args : List Byte
  started : Bool
  waiting : List Nat
  result : List Byte
  phase : Nat
deriving DecidableEq, Repr

/-- The management request block (Table 4-12) with the requests fetched and not completed, and the completions that wait
for ring space. -/
structure Mgmt where
  mrqbase : BitVec 64
  mrqsize : Nat
  mcqsize : Nat
  en : Bool
  ien : Bool
  mvec : BitVec 11
  mrqtail : Word
  mrqhead : Word
  mcqprod : Word
  mcqcons : Word
  mcqbase : BitVec 64
  inflight : List Request
  held : List (List Byte)
deriving DecidableEq, Repr

/-- A fetched host command (R120, R121): its 64 bytes, whether it has started and how it ended, and how far its end has
come: `recorded` once its FINAL record is written or held, `done` once HQDONE counts it; `noticed` once a halt notice has
been written for it (R154). `got` holds what a LAUNCH has read so far of its argument block and queue table, or of its next
task's record (R147). -/
structure HostCmd where
  seq : Word
  bytes : List Byte
  started : Bool
  ended : Option (BitVec 8)
  count : Nat
  start : Nat
  launch : Option Nat
  recorded : Bool
  done : Bool
  noticed : Bool
  /-- FCAUSE of its record when it has ended with status FAULT (Table 6-8). -/
  fcause : BitVec 8
  got : List Byte
deriving DecidableEq, Repr

/-- A host command queue (Table 5-5). -/
structure HostQueue where
  base : BitVec 64
  size : Nat
  en : Bool
  ctx : Nat
  tail : Word
  head : Word
  done : Word
  state : QState
  err : Bool
  code : BitVec 8
  cmds : List HostCmd
deriving DecidableEq, Repr

/-! ## Cores, links, time, reliability -/

/-- A bind record (Table 6-5). -/
structure BindRec where
  op : Nat
  ctx : Nat
  group : Nat
  stage : Nat
  x : Nat
  y : Nat
  z : Nat
  tslot : Nat
  carve : Nat
  engine : Nat
  launch : Nat
  order : Nat
deriving DecidableEq, Repr

/-- A vector core (R12, R13): its carve-out, slot table, the groups waiting for a stream slot in request order, its
availability for binding, and after a carve-out change the tick of the change, up to which the records waited (R149). -/
structure Core where
  carve : Nat
  slots : Tab BindRec
  slotWait : List Nat
  withdrawn : Bool
  testing : Option (Nat × Nat)
  testBad : Bool
  streamBusy : Bool
  changed : Option Nat
deriving DecidableEq, Repr

/-- A flit that has failed the CRC: its number, how many replays of it were asked for, and when the one that is awaited was (R369). -/
structure Nak where
  seq : Word
  count : Nat
  at_ : Option Nat
deriving DecidableEq, Repr

/-- A Strait link block (Table 16-4) with its two directions (R369). Sending: the number of the next flit, the flits in the
retry buffer, how often each has been replayed, and when the replay in progress began. Receiving: the number expected next,
and the flits for which this side has asked for replays. -/
structure Link where
  up : Bool
  failed : Bool
  en : Bool
  training : Bool
  peersw : BitVec 6
  replays : Word
  feccor : Word
  lostmsg : Word
  txSeq : Word
  sent : List Word
  retry : List (Word × Nat)
  replayAt : Option Nat
  /-- The replay in progress is of a flit that the retry buffer no longer holds. -/
  stuck : Bool
  rxSeq : Word
  naks : List Nak
deriving DecidableEq, Repr

/-- A request to another module that has not been answered (R370, R377): whose it is, the link that carries it, the module and
the granule it concerns, when it was sent, and whether it was lost with its link. `tag` tells the requests of one party about a granule
apart: 0 for the access that it waits on, 1 more than the entry for an evicted row, 2^16 more than the line for an invalidation that
its store awaits (R378). -/
structure Message where
  party : Word
  link : Nat
  module_ : Nat
  granule : Nat
  sent : Nat
  lost : Bool
  tag : Nat
deriving DecidableEq, Repr

/-- What leaves as the answer to an access of the host or of another module: its address, its data, and whether the data are
marked poisoned (R366) or the access refused (R267, R268). -/
structure Answer where
  pa : Nat
  data : List Byte
  bad : Bool
deriving DecidableEq, Repr

/-- The time block (Table 16-5), the runs of good and failed dialogues, the instant of the next one, the correction still
to slew and the real time since its last nanosecond (R379). -/
structure TimeBlock where
  ptmen : Bool
  locked : Bool
  period : Nat
  offset : Int
  ptmcnt : Word
  ptmfail : Word
  good : Nat
  bad : Nat
  next : Nat
  slew : Int
  acc : Nat
deriving DecidableEq, Repr

/-- A machine-check bank (Table 18-5). -/
structure Bank where
  valid : Bool
  ovr : Bool
  sev : BitVec 2
  triage : BitVec 2
  code : BitVec 8
  ctx : BitVec 8
  unit : BitVec 8
  cecount : Word
  addr : BitVec 64
  time : BitVec 64
deriving DecidableEq, Repr

/-- The block behind a bank's record (R404): a core, a copy engine, a matrix engine, a granule, or the block with no test
that bank `bank` is of. -/
inductive Block where
  | core (k : Nat)
  | copy (n : Nat)
  | engine (e : Nat)
  | granule (g : Nat)
  | other (bank : Nat)
deriving DecidableEq, Repr

/-- A targeted self-test that the firmware still has to end (R404): the bank and the block of the error, whether the test waits
until the block is idle, and whether a further error in the block under test has made it fail (R407). -/
structure TestJob where
  bank : Nat
  block : Block
  waits : Bool
  failed : Bool
deriving DecidableEq, Repr

/-- Start-up and identity (Table 18-3). -/
structure Boot where
  stage : Nat
  minimal : Bool
  dumpv : Bool
  failcnt : Nat
  reason : BitVec 8
  fwlevel : BitVec 16
  svnmin : Byte
  digests : List (BitVec 256 × Byte)
  /-- The device time at which the module was reset, moved with every correction of device time (R396, R379). -/
  resetAt : Int
  engBad : List Nat
  copyBad : List Nat
  sharedBad : Bool
deriving DecidableEq, Repr

/-- The power limit in W and the arithmetic clock in MHz (R19). -/
structure Power where
  limit : Nat
  clock : Nat
deriving DecidableEq, Repr

/-- The division of the module (R85) and the time slices in µs (R87). -/
structure PartDef where
  mask : BitVec 8
  slice : Nat
deriving DecidableEq, Repr

/-- The load-store domain (R373). -/
structure Domain where
  own : Nat
  members : BitVec 64
deriving DecidableEq, Repr

/-- How the quadrants of the cores have shared their issue cycles (R177, R178): for quadrant `4 core + slot mod 4` which of
its two paths, lanes and scalar, the current cycle has used; and for each group slot the cycles in which its quadrant issued
while the group stood ready and did not issue. `issuers` are the groups that have issued in the current cycle of a quadrant,
`stalled` those whose instruction in progress has tried to issue and could not, and `depends` those of them for which a dependence
was the reason (R390). -/
structure Turns where
  used : Tab (Bool × Bool)
  starved : Tab Nat
  issuers : Tab (List Nat)
  stalled : List Nat
  depends : List Nat
deriving DecidableEq, Repr

/-- A memory: (address, byte) pairs, addresses strictly rising, no byte 0 listed (an unlisted address reads 0). -/
abbrev Memory := List Host.Cell

/-! ## The machine -/

/-- What moves next: an event of the event tables, the next instruction of group `g`'s clause in issue, or a store that no event of
this module shows: of the host or of another module to memory of its own, or of system software to a context image (R96), to the
scratchpad that team `t` keeps there or to the image of its saved group `i`; of system software to the HDM decoder, whose registers
the manual does not lay out, and of the host to an address that the decoder may map (R366). -/
inductive Move where
  | event (i : Instr)
  | issue (g : Nat)
  | hostStores (a : Nat) (b : List Byte)
  | peerStores (a : Nat) (b : List Byte)
  | imageStores (t : Nat) (i : Option Nat) (a : Nat) (b : List Byte)
  | hdmProgram (base : Nat)
  | hostAddress (store : Bool) (hpa size : Nat) (data : List Byte)
deriving DecidableEq, Repr

/-- The whole machine. -/
structure State where
  /-- Device time in ns (R379). -/
  time : Nat
  /-- The model's own counter of steps: the index of the step's free values. -/
  tick : Nat
  /-- The model's own counter of unspecified values used. -/
  freeIx : Nat
  /-- The model's own list of moves still to make, those from outside the module among them. -/
  agenda : List Move
  /-- The group whose instruction is being executed. -/
  cur : Nat
  turns : Turns
  mem : Memory
  hostMem : Memory
  peerMem : Memory
  groups : Tab Group
  teams : Tab Team
  launches : Tab Launch
  queues : Tab QueueInst
  taskQueues : Tab TaskQueue
  contexts : Tab Context
  cores : Tab Core
  copies : Tab Copy
  engines : Tab Engine
  tlbs : Tab (List TlbEntry)
  walks : List WalkReq
  failed : List WalkReq
  classes : Tab ClassEntry
  transits : Tab Transit
  tickets : Tab (List Word)
  bias : List Nat
  /-- The snoop filter: the 64-byte lines that the host may hold (R272). -/
  snoop : List Nat
  /-- The lines with a BISnpInv, and with a BISnpData, that the host has not answered. -/
  snoopInv : List Nat
  snoopData : List Nat
  /-- Lines whose BISnpData is answered, for the load that waits for it. -/
  snoopAns : List Nat
  coherenceLost : List Nat
  /-- The coherence-lost lines whose last stores a dropped holder had not written back (R378). -/
  stale : List Nat
  poison : List Nat
  hostPending : List Nat
  /-- Accesses of the host and of other modules that wait at a home (R270), oldest first. -/
  atHome : List Instr
  messages : List Message
  /-- Stores that complete on a line although it is marked lost, since the home has given up waiting for its acknowledgements: party and
  line (R378). -/
  overdue : List (Word × Nat)
  /-- The last answer to the host, and to another module. -/
  hostAnswer : Option Answer
  peerAnswer : Option Answer
  /-- Where firmware has placed the class store of each die (256 MiB) and the bias table (16 MiB). -/
  classAt : Vector Nat 4
  biasAt : Nat
  /-- The host physical address at which the HDM decoder maps device address 0 (R366). -/
  hdmBase : Nat
  mgmt : Mgmt
  hostQueues : Tab HostQueue
  links : Vector Link 18
  timeBlock : TimeBlock
  domain : Domain
  parts : Vector PartDef 8
  partCtx : Vector (Option Nat) 8
  haltLine : BitVec 8
  gather : Nat
  quiet : Nat
  banks : Tab Bank
  retired : List Nat
  tests : List TestJob
  boot : Boot
  power : Power
  msixTable : Tab Word
  msixPending : List Nat
  msixSent : List Nat
  fatal : Option (Nat × Nat)
  /-- The next unique number of a team, launch, queue instance or copy. -/
  nextId : Nat
deriving DecidableEq, Repr

/-- Why the machine can stop: only an access to a place that the manual says does not exist. -/
inductive Fault where
  /-- A host or peer access named a device physical address at or above 2^39 (R16). Raised by HOST_ACCESS and
  PEER_ACCESS. Safe: no such access reaches the module. -/
  | noSuchAddress
deriving DecidableEq, Repr

/-- Why an instruction has no meaning. -/
inductive Refusal where
  /-- An arm of the dispatch that has no meaning yet. Safe. -/
  | notModelled (mnemonic : String)
deriving DecidableEq, Repr

/-! ## Values at reset -/

def CodePos.zero : CodePos := ⟨0, 0, true⟩
def StreamReg.invalid : StreamReg := ⟨0, 0⟩
def RootCmd.zero : RootCmd := ⟨false, 0, 0⟩

/-- A lane without a thread (R173). -/
def Thread.absent : Thread :=
  { present := false, exited := false, at_ := .zero, after := .zero, meeting := 0, held := false, wait := .none, preds := 0, fpx := 0,
    rm := 0, wb := 0, wres := 0, stacklim := 0, inHandler := false, hwb := 0, resume := .zero,
    resumeNext := .zero, tpcWritten := false, tcause := 0, tpc := 0, tval := 0, counter := 0, waited := 0, dlen := 1, streams := Vector.replicate 8 .invalid, root := .zero,
    taskSlot := none, taskLaunch := none }

/-- The event ring of Table 6-7 at reset. -/
def EventRing.reset : EventRing :=
  { base := 0, size := 8, ien := false, prod := 0, cons := 0, coalcnt := 1, coaltime := 0, vector := 0, held := [],
    count := 0, timer := none }

/-- A context number that is not used (Table 4-1 Free), with the reset values of Tables 4-3, 4-4 and 6-7. -/
def Context.free : Context :=
  { state := .free, root := 0, stopArea := 0, poolBase := 0, poolLen := 0, pools := [], taskK := 10, taskPhys := [],
    taskVirt := [], images := [], sd := false, dbg := false, grace := 20, btmo := 100, tvec := 0, frm := 0,
    compand := [], partition := none, assigned := none, sliceEnd := 0, klaunchSeq := 0, klaunchOut := 0,
    firstFault := none, firstUnit := none, summary := none, haltTime := 0, runNs := 0, ring := .reset, debug := none,
    pinned := [], streamStops := [] }

/-- A core at reset: no carve-out, an empty slot table. -/
def Core.reset : Core :=
  { carve := 0, slots := [], slotWait := [], withdrawn := false, testing := none, testBad := false, streamBusy := false,
    changed := none }

/-- An unbound engine in the state of R313. -/
def Engine.reset : Engine :=
  { bound := none, state := .unbound, queue := [], seq := 0, tiles := [], estat := 0, rings := Vector.replicate 8 none,
    drainPos := 0, reserved := 0, maskChecked := false, fault := none, recorded := false, nextSeg := 0 }

/-- The host command queue of Table 5-5 at reset. -/
def HostQueue.reset : HostQueue :=
  { base := 0, size := 6, en := false, ctx := 0, tail := 0, head := 0, done := 0, state := .unbound, err := false,
    code := 0, cmds := [] }

def TaskQueue.empty : TaskQueue :=
  { queued := [], formed := [], used := [], tail := 0, requests := [], oldestSince := 0, since := none }

/-- A Strait link at reset (Table 16-4). -/
def Link.reset : Link :=
  { up := false, failed := false, en := false, training := false, peersw := 0, replays := 0, feccor := 0, lostmsg := 0,
    txSeq := 0, sent := [], retry := [], replayAt := none, stuck := false, rxSeq := 0, naks := [] }

def Bank.reset : Bank :=
  { valid := false, ovr := false, sev := 0, triage := 0, code := 0, ctx := 0, unit := 0, cecount := 0, addr := 0,
    time := 0 }

def ClassEntry.untouched : ClassEntry :=
  { cls := 0, unit := 0, owner := 0, written := false, hold := 0, rhold := false, since := 0, dirty := [] }

/-- The management request block of Table 4-12 at reset. -/
def Mgmt.reset : Mgmt :=
  { mrqbase := 0, mrqsize := 6, mcqsize := 8, en := false, ien := false, mvec := 0, mrqtail := 0, mrqhead := 0,
    mcqprod := 0, mcqcons := 0, mcqbase := 0, inflight := [], held := [] }

/-- The time block of Table 16-5 at reset. -/
def TimeBlock.reset : TimeBlock :=
  { ptmen := false, locked := false, period := 10, offset := 0, ptmcnt := 0, ptmfail := 0, good := 0, bad := 0,
    next := 0, slew := 0, acc := 0 }

/-- IDSTAT at reset (Table 18-3). -/
def Boot.reset : Boot :=
  { stage := 0, minimal := false, dumpv := false, failcnt := 0, reason := 0, fwlevel := 0, svnmin := 0, digests := [],
    resetAt := 0, engBad := [], copyBad := [], sharedBad := false }

/-- The machine right after module reset, which begins start-up stage 0 (R5, R395). -/
def State.reset : State :=
  { time := 0, tick := 0, freeIx := 0, agenda := [], cur := 0, turns := ⟨[], [], [], [], []⟩, mem := [], hostMem := [], peerMem := [], groups := [],
    teams := [], launches := [], queues := [], taskQueues := [], contexts := [], cores := [], copies := [],
    engines := [], tlbs := [], walks := [], failed := [], classes := [], transits := [], tickets := [], bias := [],
    snoop := [], snoopInv := [], snoopData := [], snoopAns := [], coherenceLost := [], stale := [], poison := [], hostPending := [],
    atHome := [], messages := [], overdue := [], hostAnswer := none, peerAnswer := none,
    classAt := Vector.ofFn fun d => (d.val + 1) * 2 ^ 37 - 2 ^ 26 - 2 ^ 28, biasAt := 2 ^ 37 - 2 ^ 26 - 2 ^ 28 - 2 ^ 24, hdmBase := 0, mgmt := .reset,
    hostQueues := [], links := Vector.replicate 18 .reset,
    timeBlock := .reset,
    domain := { own := 0, members := 1 },
    parts := Vector.ofFn fun p => { mask := (if p.val = 0 then 0xFF else 0), slice := 2000 },
    partCtx := Vector.replicate 8 none, haltLine := 0, gather := 500, quiet := 5000, banks := [], retired := [], tests := [],
    boot := .reset,
    power := { limit := 2800, clock := 3600 }, msixTable := [], msixPending := [], msixSent := [], fatal := none,
    nextId := 0 }

end Sys2Proof.Machine
end

