-- ==== Sys2Proof/Machine/Table.lean ====
section
/-! DEFINITION. Tables kept as association lists in rising key order, memories in their canonical form, and bytes in
little-endian order (R3). -/
namespace Sys2Proof.Machine

/-! ## Tables -/

/-- The value at key `k`. -/
def tget {α : Type} : Tab α → Nat → Option α
  | [], _ => none
  | (j, v) :: t, k => if j = k then some v else tget t k

/-- The table with `v` at key `k`. -/
def tset {α : Type} : Tab α → Nat → α → Tab α
  | [], k, v => [(k, v)]
  | (j, w) :: t, k, v =>
    if k < j then (k, v) :: (j, w) :: t else if j = k then (k, v) :: t else (j, w) :: tset t k v

/-- The table without key `k`. -/
def terase {α : Type} : Tab α → Nat → Tab α
  | [], _ => []
  | (j, w) :: t, k => if j = k then t else (j, w) :: terase t k

/-- The table with the value at `k`, where there is one, replaced by its image. -/
def tmod {α : Type} (t : Tab α) (k : Nat) (f : α → α) : Tab α :=
  match tget t k with
  | some v => tset t k (f v)
  | none => t

/-- Every value replaced by its image. -/
def tmap {α : Type} (t : Tab α) (f : Nat → α → α) : Tab α := t.map fun p => (p.1, f p.1 p.2)

/-- The keys whose values satisfy `p`, in rising order. -/
def tkeys {α : Type} (t : Tab α) (p : Nat → α → Bool) : List Nat := (t.filter fun e => p e.1 e.2).map (·.1)

/-- Keys strictly rise. -/
def tsorted {α : Type} : Tab α → Bool
  | [] => true
  | [_] => true
  | (j, _) :: (k, v) :: t => decide (j < k) && tsorted ((k, v) :: t)

/-! ## Memory -/

/-- What an address that nothing has written reads as: 0. DESIGN CHOICE, log entry 1: the manual gives no power-on
contents; unsafe. -/
def unlisted : Byte := 0

/-- The byte at an address. -/
def mget : Memory → Nat → Byte
  | [], _ => unlisted
  | (j, v) :: t, k => if j = k then v else mget t k

/-- Write one byte, keeping the canonical form. -/
def mset : Memory → Nat → Byte → Memory
  | [], k, v => if v = unlisted then [] else [(k, v)]
  | (j, w) :: t, k, v =>
    if k < j then if v = unlisted then (j, w) :: t else (k, v) :: (j, w) :: t
    else if j = k then if v = unlisted then t else (k, v) :: t
    else (j, w) :: mset t k v

/-- `n` bytes from address `a` upward. -/
def mread (m : Memory) (a : Nat) : Nat → List Byte
  | 0 => []
  | n + 1 => mget m a :: mread m (a + 1) n

/-- Write bytes from address `a` upward. -/
def mwrite (m : Memory) (a : Nat) : List Byte → Memory
  | [] => m
  | b :: bs => mwrite (mset m a b) (a + 1) bs

/-- Forget the bytes at `a` to `a + n - 1`, which then read as unlisted ones. -/
def mclear (m : Memory) (a n : Nat) : Memory := m.filter fun c => decide (c.1 < a) || decide (a + n ≤ c.1)

/-- The canonical form: addresses strictly rise and no unlisted value is listed. -/
def Memory.wf : Memory → Bool
  | [] => true
  | [c] => c.2 != unlisted
  | c :: d :: t => decide (c.1 < d.1) && c.2 != unlisted && Memory.wf (d :: t)

/-! ## Bytes (R3: little-endian) -/

/-- The number whose low byte comes first. -/
def leNat : List Byte → Nat
  | [] => 0
  | b :: bs => b.toNat + 256 * leNat bs

/-- The `n` low bytes of a number, low byte first. -/
def leBytes : Nat → Nat → List Byte
  | 0, _ => []
  | n + 1, v => BitVec.ofNat 8 v :: leBytes n (v / 256)

/-- Bytes `lo` to `lo + n - 1` of a record, as a number. -/
def field (l : List Byte) (lo n : Nat) : Nat := leNat ((l.drop lo).take n)

/-- Bytes `lo` to `hi - 1` of a record are zero. -/
def zeroBytes (l : List Byte) (lo hi : Nat) : Bool := ((l.drop lo).take (hi - lo)).all (· == 0)

/-- The 32-bit words of a byte list. -/
def words32 : List Byte → List Word
  | b0 :: b1 :: b2 :: b3 :: t => BitVec.ofNat 32 (leNat [b0, b1, b2, b3]) :: words32 t
  | _ => []

/-- The bytes of a word. -/
def wordBytes (w : Word) : List Byte := leBytes 4 w.toNat

/-- `x` as a two's-complement number of `n` bits (Table 0-2 SignExtend). -/
def signExtend (x n : Nat) : Int :=
  let y := x % 2 ^ n
  if n = 0 then 0 else if y < 2 ^ (n - 1) then y else (y : Int) - 2 ^ n

/-- An integer kept modulo 2^32. -/
def wrap32 (x : Int) : Word := BitVec.ofInt 32 x

/-- The lesser and the greater end of a range applied to `x` (R69). -/
def clamp (x lo hi : Int) : Int := if x < lo then lo else if hi < x then hi else x

/-! ## Lanes -/

/-- Lane `l` of per-lane values; every lane number is below 32. -/
def lane {α : Type} (v : Lanes α) (l : Nat) : α := v[l % 32]'(Nat.mod_lt _ (by decide))

/-- Bit `l` of a mask. -/
def has (m : Mask) (l : Nat) : Bool := m.getLsbD l

/-- The lanes of a mask in ascending order. -/
def lanesOf (m : Mask) : List Nat := (List.range 32).filter (has m)

/-- The mask of the lanes that satisfy `p`. -/
def maskOf (p : Nat → Bool) : Mask :=
  (List.range 32).foldl (fun m l => if p l then m ||| (1 <<< l : Mask) else m) 0

/-- The lowest lane of a mask (0 for an empty one, which no caller uses). -/
def lowest (m : Mask) : Nat := (lanesOf m).headD 0

/-- Per-lane values from a function of the lane number. -/
def perLane {α : Type} (f : Nat → α) : Lanes α := Vector.ofFn fun l => f l.val

/-- The lanes of `m` replaced by their images. -/
def modLanes {α : Type} (v : Lanes α) (m : Mask) (f : Nat → α → α) : Lanes α :=
  perLane fun l => if has m l then f l (lane v l) else lane v l

end Sys2Proof.Machine
end

