-- ==== Sys2Proof/Machine/Ops.lean ====
section
/-! DEFINITION. The named operations over the state that every meaning uses: finding units and objects, rows of the
register stack, the clause in issue, meeting, traps, faults and trace records. -/
namespace Sys2Proof.Machine

/-- The outcome of an instruction or a step. -/
abbrev Out := Host.Outcome State Fault Refusal

/-- The ns of real time since reset, in which the quantities that the manual states in ns, µs and ms pass (R19): corrections of device
time (R379) do not move it. -/
def State.realTime (s : State) : Nat := ((s.time : Int) - s.boot.resetAt).toNat

/-! ## Units (R10, R13, R85, R94) -/

/-- Core `48d + c` of group unit `g`. -/
def coreOf (g : Nat) : Nat := g / 64
def dieOfGroup (g : Nat) : Nat := g / 3072
def slotOf (g : Nat) : Nat := g % 64
def dieOfCore (k : Nat) : Nat := k / 48
/-- The slice of a core (R85). -/
def sliceOfCore (k : Nat) : Nat := 2 * (k / 48) + (k % 48) / 24
/-- The slice of copy engine `8d + n` (R85). -/
def sliceOfCopy (n : Nat) : Nat := 2 * (n / 8) + (n % 8) / 4
/-- The slice of matrix engine `e` (R85). -/
def sliceOfEngine (e : Nat) : Nat := 2 * (e / 8) + (e % 8) / 4
/-- The matrix die, 0 or 1, that a narrows joins to a VS die (R15). -/
def matrixDie (d : Nat) : Nat := d / 2
/-- TLBs: cores 0 to 191, copy engines 192 to 223, matrix engines 224 to 255, L2 TLBs 256 to 259 (R258). -/
def tlbOfCopy (n : Nat) : Nat := 192 + n
def tlbOfEngine (e : Nat) : Nat := 224 + e
def tlbOfDie (d : Nat) : Nat := 256 + d
/-- The slice of the unit that a TLB serves; an L2 TLB counts for the first slice of its die. -/
def sliceOfTlb (t : Nat) : Nat :=
  if t < 192 then sliceOfCore t else if t < 224 then sliceOfCopy (t - 192)
  else if t < 256 then sliceOfEngine (t - 224) else 2 * (t - 256)
/-- The die whose L2 TLB and walkers serve a TLB; a matrix engine's command names its team's die instead. -/
def dieOfTlb (t : Nat) : Nat :=
  if t < 192 then t / 48 else if t < 224 then (t - 192) / 8 else if t < 256 then (t - 224) / 8 else t - 256

/-! ## Objects -/

def State.ctx (s : State) (c : Nat) : Context := (tget s.contexts c).getD .free
def State.setCtx (s : State) (c : Nat) (x : Context) : State := { s with contexts := tset s.contexts c x }
def State.modCtx (s : State) (c : Nat) (f : Context → Context) : State := s.setCtx c (f (s.ctx c))
def State.group? (s : State) (g : Nat) : Option Group := tget s.groups g
def State.setGroup (s : State) (g : Nat) (x : Group) : State := { s with groups := tset s.groups g x }
def State.modGroup (s : State) (g : Nat) (f : Group → Group) : State := { s with groups := tmod s.groups g f }
def State.team? (s : State) (t : Nat) : Option Team := tget s.teams t
def State.setTeam (s : State) (t : Nat) (x : Team) : State := { s with teams := tset s.teams t x }
def State.modTeam (s : State) (t : Nat) (f : Team → Team) : State := { s with teams := tmod s.teams t f }
def State.launch? (s : State) (l : Nat) : Option Launch := tget s.launches l
def State.modLaunch (s : State) (l : Nat) (f : Launch → Launch) : State := { s with launches := tmod s.launches l f }
def State.queue? (s : State) (q : Nat) : Option QueueInst := tget s.queues q
def State.modQueue (s : State) (q : Nat) (f : QueueInst → QueueInst) : State := { s with queues := tmod s.queues q f }
def State.core (s : State) (k : Nat) : Core := (tget s.cores k).getD .reset
def State.modCore (s : State) (k : Nat) (f : Core → Core) : State := { s with cores := tset s.cores k (f (s.core k)) }
def State.engine (s : State) (e : Nat) : Engine := (tget s.engines e).getD .reset
def State.modEngine (s : State) (e : Nat) (f : Engine → Engine) : State :=
  { s with engines := tset s.engines e (f (s.engine e)) }
def State.copy? (s : State) (c : Nat) : Option Copy := tget s.copies c
def State.modCopy (s : State) (c : Nat) (f : Copy → Copy) : State := { s with copies := tmod s.copies c f }
def State.taskQueue (s : State) (c d : Nat) : TaskQueue := (tget s.taskQueues (4 * c + d)).getD .empty
def State.modTaskQueue (s : State) (c d : Nat) (f : TaskQueue → TaskQueue) : State :=
  { s with taskQueues := tset s.taskQueues (4 * c + d) (f (s.taskQueue c d)) }
def State.hostQueue (s : State) (q : Nat) : HostQueue := (tget s.hostQueues q).getD .reset
def State.modHostQueue (s : State) (q : Nat) (f : HostQueue → HostQueue) : State :=
  { s with hostQueues := tset s.hostQueues q (f (s.hostQueue q)) }
def State.classOf (s : State) (gr : Nat) : ClassEntry := (tget s.classes gr).getD .untouched
def State.bank (s : State) (b : Nat) : Bank := (tget s.banks b).getD .reset
def State.image? (s : State) (c i : Nat) : Option Image := (s.ctx c).images[i]?

/-- A fresh unique number. -/
def State.fresh (s : State) : Nat × State := (s.nextId, { s with nextId := s.nextId + 1 })

/-- An unspecified word; each use is a different one. -/
def State.freeWord (s : State) : Word × State := (Config.freeWord s.freeIx, { s with freeIx := s.freeIx + 1 })

/-- The slice mask of a context's partition (R85, Table 4-3 PARTID). -/
def State.partMask (s : State) (c : Nat) : BitVec 8 :=
  match (s.ctx c).partition with
  | some p => (s.parts[p % 8]'(Nat.mod_lt _ (by decide))).mask
  | none => 0

/-- The halt line that reaches context `c` is asserted: that of its partition (R92). -/
def lineAsserted (s : State) (c : Nat) : Bool :=
  match (s.ctx c).partition with
  | some p => s.haltLine.getLsbD p
  | none => false

/-- A test of the block runs at once, and dispatch binds nothing to it meanwhile (R404). -/
def State.underTest (s : State) (b : Block) : Bool := s.tests.any fun t => t.block == b && !t.waits

/-- A matrix engine, and a copy engine, is available (R404). -/
def State.engineUp (s : State) (e : Nat) : Bool := !s.boot.engBad.contains e && !s.underTest (.engine e)
def State.copyUp (s : State) (n : Nat) : Bool := !s.boot.copyBad.contains n && !s.underTest (.copy n)

/-- A core is available for binding (R404, R405); before stage 2, and in minimal mode, only cores 0 to 3 of VS0 are up (R395,
R397). -/
def State.coreUsable (s : State) (k : Nat) : Bool :=
  let c := s.core k
  !c.withdrawn && c.testing.isNone && !s.underTest (.core k) && ((decide (2 ≤ s.boot.stage) && !s.boot.minimal) || decide (k < 4))

/-- The four-byte party identity of a group in slot `g` (Table 11-4). -/
def groupParty (s : State) (g : Nat) : Word :=
  BitVec.ofNat 32 (s.domain.own * 2 ^ 23 + dieOfGroup g * 2 ^ 21 + (coreOf g % 48) * 2 ^ 11 + slotOf g)

/-! ## Rows and names (R36, R179 to R183, R186) -/

/-- What lane `l` reads of a row (R179). -/
def Row.get : Row → Nat → Word
  | .u x, _ => x
  | .a b st, l => b + BitVec.ofNat 32 l * st
  | .g w, l => lane w l

/-- The tag as SHAPE shows it (R204). -/
def Row.tag : Row → Nat
  | .u _ => 0
  | .a .. => 1
  | .g _ => 2

/-- The row as General. -/
def Row.expand (r : Row) : Row := .g (perLane r.get)

/-- Where name `n` (0 to 119) of a thread stands (R36, R183, R186). -/
def refOf (t : Thread) (n : Nat) : RowRef :=
  if t.inHandler then if n < 16 then .bank n else .stack (t.hwb + n).toNat else .stack (t.wb.toNat + n)

/-- The row that a reference names; row `p` occupies entry `p mod BUDGET` (R182). -/
def rowAt (g : Group) : RowRef → Row
  | .nowhere => .u 0
  | .stack p => (tget g.rows (p % g.budget)).getD (.u 0)
  | .bank n => (tget g.bank n).getD (.u 0)

def setRowAt (g : Group) (r : RowRef) (v : Row) : Group :=
  match r with
  | .nowhere => g
  | .stack p => { g with rows := tset g.rows (p % g.budget) v }
  | .bank n => { g with bank := tset g.bank n v }

/-- Write one lane of a row: the row becomes General (R181). -/
def setLaneAt (g : Group) (r : RowRef) (l : Nat) (v : Word) : Group :=
  let old := rowAt g r
  setRowAt g r (.g (perLane fun i => if i = l then v else old.get i))

/-- Live: present and not exited (R173). -/
def Thread.live (t : Thread) : Bool := t.present && !t.exited
def liveMask (g : Group) : Mask := maskOf fun l => (lane g.threads l).live
def presentMask (g : Group) : Mask := maskOf fun l => (lane g.threads l).present

/-- A write by these active lanes is full (R173). -/
def fullWrite (g : Group) (act : Mask) : Bool :=
  (List.range 32).all fun l => !(lane g.threads l).present || (has act l && !(lane g.threads l).exited)

/-- The active lanes agree in WB (R181). -/
def sameBase (g : Group) (act : Mask) : Bool := (lanesOf act).all fun l => (lane g.threads l).wb == (lane g.threads (lowest act)).wb

/-- The active lanes agree in WB and keep name `n` in one row (R181). -/
def sameRef (g : Group) (act : Mask) (n : Nat) : Bool :=
  sameBase g act && (lanesOf act).all fun l => refOf (lane g.threads l) n == refOf (lane g.threads (lowest act)) n

/-- A write of a name by these active lanes is full (R173, R181). -/
def wholeWrite (g : Group) (act : Mask) : Bool := fullWrite g act && sameBase g act

/-- Name `n` as the active lanes of one issue read it: the row, or General where they differ in WB (R181). -/
def readName (g : Group) (act : Mask) (n : Nat) : Row :=
  if sameRef g act n then rowAt g (refOf (lane g.threads (lowest act)) n)
  else .g (perLane fun l => (rowAt g (refOf (lane g.threads l) n)).get l)

/-- Write the active lanes' values into one row, keeping the other lanes (R181). -/
def mergeRow (old new : Row) (act : Mask) : Row := .g (perLane fun l => if has act l then new.get l else old.get l)

/-- WriteName (Table 0-2) for a name 0 to 119 of the active lanes. -/
def writeName (g : Group) (act : Mask) (full : Bool) (n : Nat) (v : Row) : Group :=
  if sameRef g act n then
    let r := refOf (lane g.threads (lowest act)) n
    match full, v with
    | true, .u x => setRowAt g r (.u x)
    | true, .a b st => setRowAt g r (.a b st)
    | _, _ => setRowAt g r (mergeRow (rowAt g r) v act)
  else (lanesOf act).foldl (fun g l => setLaneAt g (refOf (lane g.threads l) n) l (v.get l)) g

/-- Write a result to a destination field; vz discards it, and a port's push is made elsewhere (R37, Table 2-5). -/
def writeDst (g : Group) (act : Mask) (d : Reg) (v : Row) : Group :=
  if d.toNat < 120 then writeName g act (fullWrite g act) d.toNat v else g

/-- The threads of the lanes `m` replaced by their images. -/
def onThreads (g : Group) (m : Mask) (f : Nat → Thread → Thread) : Group := { g with threads := modLanes g.threads m f }

/-! ## Long-latency operations and flags (R40 to R42) -/

/-- The rows of name `n` for every lane, as an operation's destination keeps them. -/
def refsOf (g : Group) (n : Nat) : Lanes RowRef := perLane fun l => refOf (lane g.threads l) n

/-- A row of lane `l` is pending: some operation is still to write it (R42). -/
def pendingRow (g : Group) (l : Nat) (r : RowRef) : Bool :=
  r != .nowhere && g.ops.any fun o => has o.lanes l && o.dest.any fun d => lane d l == r

/-- FPX of lane `l` is pending (R67). -/
def pendingFpx (g : Group) (l : Nat) : Bool := g.ops.any fun o => o.fpxPending && has o.lanes l

/-- Stream register `q` of lane `l` is pending (R351). -/
def pendingStream (g : Group) (l q : Nat) : Bool := g.ops.any fun o => o.stream == some q && has o.lanes l

/-- Some ordered access of the group is outstanding (R279 rule 2); an unsatisfied BWAIT is one (R306), the stream
engine's reads for an SLD are not (R350). -/
def orderedOut (g : Group) : Bool :=
  g.ops.any (fun o => !o.left.isEmpty && o.stream.isNone) || (List.range 32).any fun l =>
    let t := lane g.threads l
    t.live && match t.wait with
      | .bwait .. => true
      | _ => false

def flagAdd (g : Group) (f : Option Nat) : Group :=
  match f with
  | none => g
  | some n => { g with flags := Vector.ofFn fun i => if i.val = n then lane12 i.val + 1 else lane12 i.val }
where lane12 (i : Nat) : Nat := g.flags[i % 12]'(Nat.mod_lt _ (by decide))

def flagSub (g : Group) (f : Option Nat) : Group :=
  match f with
  | none => g
  | some n => { g with flags := Vector.ofFn fun i => if i.val = n then lane12 i.val - 1 else lane12 i.val }
where lane12 (i : Nat) : Nat := g.flags[i % 12]'(Nat.mod_lt _ (by decide))

def flagCount (g : Group) (n : Nat) : Nat := g.flags[n % 12]'(Nat.mod_lt _ (by decide))

/-- The increment would take the count above 63 (R40). -/
def flagFull (g : Group) (f : Option Nat) : Bool :=
  match f with
  | none => false
  | some n => decide (63 ≤ flagCount g n)

/-- An operation with nothing outstanding beyond its fields' defaults. -/
def Op.plain (g : Group) (word : Word) (flag : Option Nat) (lanes : Mask) : Op :=
  { id := g.nextOp, word := word, flag := flag, lanes := lanes, dest := [], full := wholeWrite g lanes,
    uni := false, once := false, fixed := false, left := [], again := [], got := [], fpxPending := false, fflags := Vector.replicate 32 0,
    stream := none, streamGot := [], copies := 0, drain := false, lost := false }

/-- Add an operation and raise its flag's count. -/
def addOp (g : Group) (o : Op) : Group := flagAdd { g with ops := g.ops ++ [o], nextOp := g.nextOp + 1 } o.flag

def modOp (g : Group) (id : Nat) (f : Op → Op) : Group :=
  { g with ops := g.ops.map fun o => if o.id = id then f o else o }

/-- An operation has completed for every active lane. -/
def Op.finished (o : Op) : Bool := o.left.isEmpty && o.copies == 0 && !o.drain

/-- Drop an operation without writing its result; its flag's count falls (R93). -/
def abandonOp (g : Group) (o : Op) : Group := flagSub { g with ops := g.ops.filter (·.id != o.id) } o.flag

/-- An operation that cannot complete is abandoned, and ABANDONED counts it (R93). -/
def loseOp (g : Group) (o : Op) : Group := { abandonOp g o with abandoned := g.abandoned + 1 }

/-! ## The clause in issue (R20 to R24) -/

/-- The address of the word in progress. -/
def Issue.pc (i : Issue) : VA := i.hdr + BitVec.ofNat 57 (4 * (i.pos + 1))
/-- The header that follows the clause. -/
def Issue.next (i : Issue) : VA := i.hdr + BitVec.ofNat 57 (4 * (i.words.length + 1))
/-- The position of a thread stopped before the instruction in progress. -/
def Issue.here (i : Issue) (l : Nat) : CodePos := ⟨i.hdr, i.pos + 1, has i.guard l⟩
/-- The position of a thread at a header. -/
def atHeader (a : VA) : CodePos := ⟨a, 0, true⟩
/-- The address a thread stands at. -/
def CodePos.pc (p : CodePos) : VA := p.hdr + BitVec.ofNat 57 (4 * p.pos)
/-- The position after the instruction in progress: the next one of the clause, or the next header. -/
def Issue.after (i : Issue) (l : Nat) : CodePos :=
  if i.pos + 1 < i.words.length then ⟨i.hdr, i.pos + 2, has i.guard l⟩ else atHeader i.next

/-- Active() (Table 0-2). -/
def activeMask (g : Group) (i : Issue) : Mask := i.set &&& i.guard &&& liveMask g

/-- Threads of a group that stand at a header equal to their meeting register are held; then every meeting address
whose live threads outside handlers are all held is released (R176). -/
def settle (g : Group) : Group :=
  let inIssue (l : Nat) : Bool := match g.issue with
    | some i => has i.set l
    | none => false
  let th := perLane fun l =>
    let t := lane g.threads l
    if t.live && !t.inHandler && !inIssue l && t.at_.pos = 0 && t.meeting != 0 && t.meeting == t.at_.hdr then { t with held := true }
    else t
  let free (a : VA) : Bool := (List.range 32).all fun l =>
    let t := lane th l
    !(t.live && !t.inHandler && t.meeting == a) || t.held
  { g with threads := perLane fun l =>
      let t := lane th l
      if t.live && t.held && free t.meeting then { t with held := false, meeting := 0 } else t }

/-- Take lanes out of the issue, each to its own position (R90, R174). -/
def leaveIssue (g : Group) (m : Mask) (p : Nat → CodePos) : Group :=
  match g.issue with
  | none => g
  | some i =>
    let set := i.set &&& ~~~m
    { g with
      threads := modLanes g.threads m fun l t => { t with at_ := p l }
      issue := if set = 0 then none else some { i with set := set }
      touched := if set = 0 then [] else g.touched }

/-- End the issue, each thread of the set to its position; the group is at a clause boundary. -/
def endIssue (g : Group) (p : Nat → CodePos) : Group :=
  match g.issue with
  | none => g
  | some i =>
    settle { g with
      threads := modLanes g.threads i.set fun l t => { t with at_ := p l }
      issue := none, touched := [] }

/-- Pass the instruction in progress (R23); after the last one the set stands at the next header. -/
def advance (g : Group) : Group :=
  match g.issue with
  | none => g
  | some i =>
    if i.pos + 1 < i.words.length then
      { g with issue := some { i with pos := i.pos + 1, depCounted := false, checked := false, op := none, voted := none, taken := false } }
    else endIssue g fun _ => atHeader i.next

/-- End the issue before the instruction in progress, which has taken no effect. -/
def stopHere (g : Group) : Group :=
  match g.issue with
  | none => g
  | some i => endIssue g i.here

/-! ## Trace records (R389, Table 17-4) -/

/-- The root command of a team's tile task (R382); that of a task group in its slot or in its image. -/
def rootOf (s : State) (t : Team) : RootCmd :=
  if t.task then
    match (t.groups.head?.bind s.group?).orElse fun _ => t.saved.head?.map (·.group) with
    | some gr => (lane gr.threads (lowest (presentMask gr))).root
    | none => .zero
  else match s.launch? t.launch with
    | some l => l.root
    | none => .zero

/-- Write a trace record when its kind is enabled: place, unit, engine, group index, root, coordinate and data. -/
def trace (s : State) (c kind code die stage unit engine gid : Nat) (root : RootCmd) (x y z : Nat) (data : Nat) :
    State :=
  match (s.ctx c).debug with
  | none => s
  | some d =>
    if d.trbase = 0 ∨ !d.trmask.getLsbD kind then s
    else if !d.trmode ∧ 2 ^ d.trsize ≤ d.trcount then
      let s := s.modCtx c fun x => { x with debug := some { d with drops := d.drops + 1 } }
      { s with mem := mwrite s.mem (d.at_ + 24) (leBytes 8 (d.drops + 1)) }
    else
      let r := leBytes 8 s.time ++ leBytes 2 (kind * 2 ^ 12 + code % 2 ^ 10) ++ leBytes 1 c
        ++ leBytes 1 (die + stage * 8) ++ leBytes 1 unit ++ leBytes 1 engine ++ leBytes 1 gid ++ [0]
        ++ leBytes 2 ((if root.klaunch then 2 ^ 15 else 0) + root.qnum % 256) ++ leBytes 4 root.seq.toNat
        ++ leBytes 2 x ++ leBytes 2 y ++ leBytes 2 z ++ leBytes 4 data
      let s := s.modCtx c fun x => { x with debug := some { d with trcount := d.trcount + 1 } }
      let m := mwrite s.mem (d.trbase + 32 * (d.trcount % 2 ^ d.trsize)) r
      { s with mem := mwrite m (d.at_ + 16) (leBytes 8 (d.trcount + 1)) }

/-- A trace record of a group (R389). -/
def traceGroup (s : State) (g kind code data : Nat) : State :=
  match s.group? g with
  | none => s
  | some gr => match s.team? gr.team with
    | none => s
    | some t => trace s gr.ctx kind code (dieOfGroup g) t.stage (coreOf g % 48) (t.engine.getD 0xFF) gr.gid
        (rootOf s t) t.x t.y t.z data

/-! ## Faults (R92, R93, R426) -/

/-- A fault of a unit turns its context to Halting and asserts the halt line; the first fault is remembered. In
Halting the fault stays in its unit's own slot. -/
def haltContext (s : State) (c unit : Nat) (f : FaultInfo) : State :=
  let x := s.ctx c
  match x.state with
  | .running | .saving | .restoring =>
    s.setCtx c { x with state := .halting, firstFault := some f, firstUnit := some unit, haltTime := s.time }
  | .halting =>
    if x.firstFault.isNone then s.setCtx c { x with firstFault := some f, firstUnit := some unit } else s
  | _ => s

/-- The fault that DEBUG-HALT charges to the units that stop (R388). -/
def debugHaltFault : FaultInfo := ⟨0x28, 0, 0xFF, 0⟩

/-- A fault charged to a context by no unit of it (R426); `q` is the identity of the host queue, or 0. In Halting it is recorded
when no fault is, neither an earlier one nor, for a DEBUG-HALT, a unit's record. -/
def chargeFault (s : State) (c : Nat) (cause : BitVec 8) (value : BitVec 64) (q : Nat) : State :=
  let x := s.ctx c
  let rec_ := leBytes 8 s.time ++ [5, cause, 0xFF, 0xFF] ++ leBytes 4 c ++ List.replicate 16 0
    ++ leBytes 8 value.toNat ++ leBytes 4 0 ++ leBytes 4 q ++ List.replicate 7 0 ++ [0xFF] ++ List.replicate 8 0
  let f : FaultInfo := ⟨cause, 0, value, 0⟩
  match x.state with
  | .running | .saving | .restoring | .ready | .saved =>
    s.setCtx c { x with state := .halting, firstFault := some f, firstUnit := none, summary := some rec_,
                        haltTime := s.time }
  | .halting =>
    if x.firstFault.isNone then s.setCtx c { x with firstFault := some f, summary := some rec_ }
    else if x.firstFault = some debugHaltFault ∧ x.summary.isNone then s.setCtx c { x with summary := some rec_ }
    else s
  | .halted =>
    if x.summary.isSome then s
    else
      let s := s.setCtx c { x with firstFault := some f, summary := some rec_ }
      { s with mem := mwrite s.mem (x.stopArea + 64 * 12544) rec_ }
  | _ => s

/-- WORD of a fault (Table 4-6): the instruction word, and 0 for the causes that give none. -/
def faultWord (cause : BitVec 8) (word : Word) : Word := if cause = 0x25 ∨ cause = 0x29 ∨ cause = 0x2C then 0 else word

/-- The group as a fault stops it at time `now`: before its instruction in progress, which takes no effect, unless ordered accesses of
that instruction are still to perform. A group that has stopped keeps the fault that it has, and the time of its stop. -/
def faulted (gr : Group) (f : FaultInfo) (now : Nat) : Group :=
  { if (gr.issue.bind (·.op)).isSome then gr else stopHere gr with
    phase := .stopped, fault := some (if gr.phase = .running then f else gr.fault.getD f)
    haltTime := if gr.phase = .stopped then gr.haltTime else now }

/-- A group raises a fault: it stops, and the context turns to Halting. -/
def groupFault (s : State) (g : Nat) (f : FaultInfo) : State :=
  match s.group? g with
  | none => s
  | some gr => haltContext (s.setGroup g (faulted gr f s.time)) gr.ctx g f

/-! ## Return from a handler (R104) -/

/-- Where a thread resumes at TRET (R104): at a TPC that a SYSW has written, else by TCAUSE as it stands then. -/
def resumePos (t : Thread) : CodePos :=
  if t.tpcWritten then atHeader t.tpc else if t.tcause = 0x0A then t.resumeNext else t.resume

/-- The thread after TRET. -/
def leaveHandler (t : Thread) (p : CodePos) : Thread := { t with inHandler := false, hwb := 0, at_ := p }

end Sys2Proof.Machine
end

