-- ==== Sys2Proof/Machine/Banks.lean ====
section
/-! DEFINITION. Machine-check banks: what an error leaves in its bank, and the tests that the firmware takes up (R402 to R404,
R407, Tables 18-4 and 18-5). -/
namespace Sys2Proof.Machine

/-- The 32 bytes of a bank (Table 18-5). -/
def Bank.bytes (b : Bank) : List Byte :=
  leBytes 4 ((if b.valid then 1 else 0) + (if b.ovr then 2 else 0) + b.sev.toNat * 4 + b.triage.toNat * 16
      + b.code.toNat * 2 ^ 8 + b.ctx.toNat * 2 ^ 16 + b.unit.toNat * 2 ^ 24)
    ++ leBytes 4 b.cecount.toNat ++ leBytes 8 b.addr.toNat ++ leBytes 8 b.time.toNat ++ List.replicate 8 0

/-- A bank after an error: the record of highest severity stays, the earliest among equals; each further error sets
OVER; each Corrected error raises CECOUNT, which saturates. -/
def Bank.record (b : Bank) (sev : BitVec 2) (code ctx unit : BitVec 8) (addr time : BitVec 64) : Bank :=
  let ce := if sev = 1 ∧ b.cecount ≠ -1 then b.cecount + 1 else b.cecount
  if b.valid && decide (sev ≤ b.sev) then { b with ovr := true, cecount := ce }
  else { valid := true, ovr := b.valid, sev := sev, triage := 0, code := code, ctx := ctx, unit := unit, cecount := ce
         addr := addr, time := time }

/-- An error reaches bank `n`. -/
def logError (s : State) (n : Nat) (sev : BitVec 2) (code ctx unit : BitVec 8) (addr : BitVec 64) : State :=
  { s with banks := tset s.banks n ((s.bank n).record sev code ctx unit addr (BitVec.ofNat 64 s.time)) }

/-- The block behind a record (R404, Table 18-4). -/
def blockOf (bank unit : Nat) (addr : BitVec 64) : Block :=
  let d := bank / 32
  let i := bank % 32
  if 4 ≤ d then if i < 16 then .engine (16 * (d - 4) + i) else .other bank
  else if i < 12 then .core (48 * d + unit % 48)
  else if i = 15 then .copy (8 * d + unit % 8)
  else if i = 17 ∨ i = 18 then .granule (addr.toNat / 4096)
  else .other bank

/-- The firmware takes up the targeted self-test of the block behind a record (R404); an error in a block that is under test
makes that test fail instead (R407), a SELFTEST command's with it. -/
def startTest (s : State) (bank : Nat) (b : Block) (waits : Bool) : State :=
  let s := match b with
    | .core k => if (s.core k).testing.isSome && !s.groups.any (fun p => coreOf p.1 == k) then s.modCore k fun x => { x with testBad := true } else s
    | _ => s
  if s.underTest b then { s with tests := s.tests.map fun t => if t.block = b ∧ !t.waits then { t with failed := true } else t }
  else { s with tests := s.tests ++ [⟨bank, b, waits, false⟩] }

/-- An error of a unit that the machine itself finds: its bank records it, and the firmware takes up the test of its block (R404). -/
def logTriaged (s : State) (n : Nat) (sev : BitVec 2) (code ctx unit : BitVec 8) (addr : BitVec 64) : State :=
  startTest (logError s n sev code ctx unit addr) n (blockOf n unit.toNat addr) (sev == 1)

/-- TRIAGE of the bank's record, when it is still that of the block. -/
def markTriage (s : State) (n : Nat) (blk : Block) (t : BitVec 2) : State :=
  let b := s.bank n
  if b.valid ∧ b.triage = 0 ∧ blockOf n b.unit.toNat b.addr = blk then { s with banks := tset s.banks n { b with triage := t } } else s

/-- The error code of a record to which Table 18-5 gives none: a free value. -/
def freeCode (s : State) : BitVec 8 × State := let r := s.freeWord; (r.1.setWidth 8, r.2)

end Sys2Proof.Machine
end

