-- ==== Sys2Proof/Machine/Messages.lean ====
section
/-! DEFINITION. The messages that this module sends to others over Strait links: the link of each, its flit, and requests that
wait for a response ("Links: Host, Peers and Time", R369, R370, R377). -/
namespace Sys2Proof.Machine

/-- Saturating sum of 32-bit counts. -/
def satAdd (a b : Word) : Word := if a.toNat + b.toNat < 2 ^ 32 then a + b else -1

def State.link (s : State) (n : Nat) : Link := s.links[n % 18]'(Nat.mod_lt _ (by decide))
def State.modLink (s : State) (n : Nat) (f : Link → Link) : State :=
  { s with links := Vector.ofFn fun i => if i.val = n % 18 then f s.links[i] else s.links[i] }

/-- The link on which a message to module `m` about granule `g` travels first (R370). -/
def firstLink (m g : Nat) : Nat := (g % 2 ^ 12 + m) % 18

/-- The link that carries it: that one or, when it is not up, the next one in ascending order that is. The manual says so of a
failed link; a link that has not trained is passed over alike: DESIGN CHOICE (log entry 73). -/
def linkFor (s : State) (m g : Nat) : Option Nat :=
  ((List.range 18).map fun i => (firstLink m g + i) % 18).find? fun n => (s.link n).up

/-- A message is still awaited: it has neither been answered nor timed out. -/
def Message.awaited (x : Message) (time : Nat) : Bool := decide (time < x.sent + 1000000)

/-- Messages about granule `g` of module `m` that were sent on another link than `n` are still awaited. -/
def oldTraffic (s : State) (m g n : Nat) : Bool :=
  s.messages.any fun x => x.module_ == m && x.granule == g && x.link != n && x.awaited s.realTime

/-- A flit leaves on a link, and the retry buffer keeps it among the last 512. -/
def sendFlit (s : State) (n : Nat) : State :=
  s.modLink n fun l => { l with txSeq := l.txSeq + 1, sent := (l.sent ++ [l.txSeq]).drop (l.sent.length + 1 - 512) }

/-- A request of `party` about granule `g` leaves for module `m`; it waits while older traffic of the granule is on another
link (R370). With no link up it is lost at once: DESIGN CHOICE (log entry 73). -/
def sendMessage (s : State) (party : Word) (m g : Nat) (tag : Nat := 0) : State :=
  let put (s : State) (n : Nat) (lost : Bool) : State := { s with messages := s.messages ++ [⟨party, n, m, g, s.realTime, lost, tag⟩] }
  match linkFor s m g with
  | none => put s (firstLink m g) true
  | some n => if oldTraffic s m g n then s else put (sendFlit s n) n false

/-- A message to module `m` about granule `g` that is no request has to wait for older traffic on another link (R370). -/
def messageHeld (s : State) (m g : Nat) : Bool := (linkFor s m g).any (oldTraffic s m g)

/-- A message that awaits no response leaves for module `m`; with no link up it is lost. -/
def tellModule (s : State) (m g : Nat) : State :=
  match linkFor s m g with
  | some n => sendFlit s n
  | none => s

/-- The request of `party` about the granule that has not been answered. -/
def messageOf (s : State) (party : Word) (m g : Nat) (tag : Nat := 0) : Option Message :=
  s.messages.find? fun x => x.party == party && x.module_ == m && x.granule == g && x.tag == tag

/-- The request is answered or abandoned. -/
def dropMessage (s : State) (party : Word) (m g : Nat) (tag : Nat := 0) : State :=
  { s with messages := s.messages.filter fun x => !(x.party == party && x.module_ == m && x.granule == g && x.tag == tag) }

/-- What has become of a request that its party polls. -/
inductive PollAns where
  | answered (s : State)
  | wait (s : State)
  | late (s : State)

/-- A request of `party` to module `m` about granule `g` is sent, awaits its response, is answered, or has had none for 1 ms
(R377). -/
def pollMessage (s : State) (party : Word) (m g : Nat) (tag : Nat := 0) : PollAns :=
  match messageOf s party m g tag with
  | none => .wait (sendMessage s party m g tag)
  | some x =>
    if !x.awaited s.realTime then .late (dropMessage s party m g tag)
    else if x.lost then .wait s
    else .answered (dropMessage s party m g tag)

/-- The home as the sender of messages to other modules; its KIND is one that Table 11-4 does not use (log entry 96). -/
def homeParty : Word := BitVec.ofNat 32 (6 * 2 ^ 29)

/-- An invalidation of the lines of granule `g` leaves for module `m` when the home reaches it: older traffic of the granule does not hold
it back. It is awaited for 1 ms, as later traffic of the granule sees it (R370, R378). -/
def invalidateAt (s : State) (m g : Nat) : State :=
  let s := { s with messages := s.messages.filter fun x => !(x.party == homeParty && x.tag == 1 && !x.awaited s.realTime) }
  if (linkFor s m g).isNone || messageHeld s m g then s else sendMessage s homeParty m g 1

/-- The machine-check bank of the unit that a TLB serves (Table 18-4); an L2 TLB's walks and commands are its management core's. -/
def bankOfTlb (t : Nat) : Nat :=
  if t < 192 then 32 * (t / 48) + t % 48 / 4
  else if t < 224 then 32 * ((t - 192) / 8) + 15
  else if t < 256 then 32 * (4 + (t - 224) / 16) + (t - 224) % 16
  else 32 * (t - 256) + 23

end Sys2Proof.Machine
end

