-- ==== Sys2Proof/Machine/Access.lean ====
section
/-! DEFINITION. Translation, the page walk, the class entries and transitions at a home, and reads and writes of
physical memory ("Pages: Translation, Classes and Bias"; R275 to R283, R366, R367, R373). -/
namespace Sys2Proof.Machine

/-! ## Page-table entries and the walk (R253 to R256) -/

def bitOf (e n : Nat) : Bool := e / 2 ^ n % 2 == 1
def pteV (e : Nat) : Bool := bitOf e 0
def pteW (e : Nat) : Bool := bitOf e 1
def pteX (e : Nat) : Bool := bitOf e 2
def pteLeaf (e : Nat) : Bool := bitOf e 3
def pteS64 (e : Nat) : Bool := bitOf e 4
def pteAddr (e : Nat) : Nat := e / 2 ^ 12 % 2 ^ 40
def pteMod (e : Nat) : Nat := e / 2 ^ 56 % 64
def pteRmt (e : Nat) : Bool := bitOf e 62
def pteHost (e : Nat) : Bool := bitOf e 63

/-- R255. -/
def pteMalformed (e level : Nat) : Bool :=
  e / 2 ^ 5 % 2 ^ 7 != 0 || e / 2 ^ 52 % 16 != 0
  || (pteLeaf e && decide (2 ≤ level)) || (!pteLeaf e && level == 0)
  || (!pteLeaf e && (pteHost e || pteRmt e || pteMod e != 0 || pteS64 e || pteX e || pteW e))
  || (pteS64 e && level != 0)
  || (pteHost e && pteRmt e) || (pteMod e != 0 && !pteRmt e)
  || (!pteHost e && pteAddr e / 2 ^ 27 != 0)
  || (pteS64 e && pteAddr e % 16 != 0) || (pteLeaf e && level == 1 && pteAddr e % 512 != 0)

/-- The index of a level (Table 11-1). -/
def levelIndex (va level : Nat) : Nat := if level = 3 then va / 2 ^ 39 % 2 ^ 18 else va / 2 ^ (12 + 9 * level) % 512

/-- The walk below `level + 1` from table `t`: the leaf entry and its page size, or the fault (R256, R262). -/
def walkFrom (s : State) (va : Nat) : Nat → Nat → Except (BitVec 8) (Nat × Nat)
  | 0, _ => .error 0x22
  | level + 1, t =>
    let a := t + 8 * levelIndex va level
    if s.poison.contains (a / 128) || s.coherenceLost.contains (a / 128) then .error 0x29
    else
      let e := leNat (mread s.mem a 8)
      if !pteV e || pteMalformed e level then .error 0x22
      else if pteLeaf e then .ok (e, if level = 1 then 2 ^ 21 else if pteS64 e then 2 ^ 16 else 2 ^ 12)
      else walkFrom s va level (pteAddr e * 2 ^ 12)

/-- The module's bank of poisoned memory: the Skerry stack of the address (R16, Table 18-4). -/
def stackBank (pa : Nat) : Nat := 32 * (pa / 2 ^ 37) + 17 + pa / 2 ^ 8 % 2

/-- The bank that reports the entry which a walk below `level + 1` of die `d`'s walkers cannot read (R262): the stack of a
poisoned line, and for a coherence-lost one the requester's, which is that of the walkers (R378). -/
def entryBank (s : State) (d va : Nat) : Nat → Nat → Nat
  | 0, _ => 0
  | level + 1, t =>
    let a := t + 8 * levelIndex va level
    if s.coherenceLost.contains (a / 128) then 32 * d + 14
    else if s.poison.contains (a / 128) then stackBank a
    else entryBank s d va level (pteAddr (leNat (mread s.mem a 8)) * 2 ^ 12)

/-- VALUE of a fault of a walk: the virtual address, or for an error in an entry the bank (Table 4-6, R262). -/
def walkValue (s : State) (d c va : Nat) (f : BitVec 8) : BitVec 64 :=
  if f = 0x29 then BitVec.ofNat 64 (entryBank s d va 4 (s.ctx c).root) else BitVec.ofNat 64 va

/-- Walk (R256): the translation of a virtual address, as a TLB caches it. -/
def walk (s : State) (c : Nat) (va : Nat) : Except (BitVec 8) TlbEntry :=
  match walkFrom s va 4 (s.ctx c).root with
  | .error f => .error f
  | .ok (e, size) =>
    let frame := pteAddr e * 2 ^ 12
    .ok { ctx := c, page := va - va % size, size := size, frame := frame - frame % size, host := pteHost e,
          rmt := if pteRmt e && pteMod e != s.domain.own then some (pteMod e) else none,
          w := pteW e, x := pteX e, cls := none, owner := 0 }

/-! ## TLBs (R258, R259) -/

def tlbSize (t : Nat) : Nat := if t < 192 then 128 else if t < 224 then 32 else if t < 256 then 64 else 8192

def TlbEntry.covers (e : TlbEntry) (c va : Nat) : Bool := e.ctx == c && decide (e.page ≤ va) && decide (va < e.page + e.size)

/-- The physical address of a virtual one under an entry. -/
def TlbEntry.phys (e : TlbEntry) (va : Nat) : Nat := e.frame + (va - e.page)

def lookup (s : State) (t c va : Nat) : Option TlbEntry := ((tget s.tlbs t).getD []).find? fun e => e.covers c va

/-- Cache a translation; a full TLB drops its oldest entry. -/
def tlbInsert (s : State) (t : Nat) (e : TlbEntry) : State :=
  let l := ((tget s.tlbs t).getD []).filter fun x => !(x.ctx == e.ctx && x.page == e.page)
  { s with tlbs := tset s.tlbs t ((e :: l).take (tlbSize t)) }

/-- The answer of a translation. -/
inductive TrAns where
  | hit (e : TlbEntry) (s : State)
  | wait (s : State)
  | fault (cause : BitVec 8) (value : BitVec 64) (s : State)

/-- Ask for the walk of a page for a miss of TLB `t` by party `p`, joining a walk already asked for (R259). -/
def requestWalk (s : State) (die c page t : Nat) (p : Word) : State :=
  if s.walks.any fun w => w.die == die && w.ctx == c && w.page == page then
    { s with walks := s.walks.map fun w =>
        if w.die == die && w.ctx == c && w.page == page && !w.misses.contains (t, p) then { w with misses := w.misses ++ [(t, p)] }
        else w }
  else { s with walks := s.walks ++ [⟨die, c, page, [(t, p)], 0, 0⟩] }

/-- A walk of the page that this miss had joined and that has failed. -/
def failedWalk (s : State) (c page t : Nat) (p : Word) : Option WalkReq :=
  s.failed.find? fun w => w.ctx == c && w.page == page && w.misses.contains (t, p)

/-- The misses of party `p` leave the walks that satisfy `f`; one that nobody waits for is forgotten. -/
def leaveWalks (l : List WalkReq) (p : Word) (f : WalkReq → Bool) : List WalkReq :=
  (l.map fun w => if f w then { w with misses := w.misses.filter (·.2 != p) } else w).filter (!·.misses.isEmpty)

/-- The failed walks have answered the misses of party `p`, which asks anew when it misses again. -/
def answerWalks (s : State) (p : Word) : State := { s with failed := leaveWalks s.failed p fun _ => true }

/-- A TLB entry's classification unit: its head granule, for a frame of module `m` with `(m + 1) * 2^27` added. -/
def TlbEntry.unit (e : TlbEntry) : Nat := (e.rmt.elim 0 fun m => (m + 1) * 2 ^ 27) + e.frame / 4096

/-- The slice of TLB `t` may hold the class of unit `u` (Table 11-3, HOLD). -/
def holdClass (s : State) (u t : Nat) : State :=
  { s with classes := tmod s.classes u fun k => { k with hold := k.hold ||| (1 <<< sliceOfTlb t : BitVec 8) } }

/-- A translation as TLB `t` takes it from the L2 TLB: with its class, unless a transition of the unit is in progress (R263,
R271). -/
def copyEntry (s : State) (t : Nat) (e : TlbEntry) : TlbEntry × State :=
  let e := if (tget s.transits e.unit).isSome then { e with cls := none, owner := 0 } else e
  (e, tlbInsert (if e.cls.isSome then holdClass s e.unit t else s) t e)

/-- In minimal mode a frame has no memory behind it when it is homed off VS0, and there is no link to another module (R397). -/
def farFrame (s : State) (e : TlbEntry) (va : Nat) : Bool :=
  s.boot.minimal && !e.host && (e.rmt.isSome || decide (2 ^ 37 ≤ e.phys va))

/-- Translate through TLB `t`, the L2 TLB of `die`, and a walk. In minimal mode an access of a group to a page homed off VS0
raises the protection fault: DESIGN CHOICE, R397 speaks of commands and requests only (log entry 74). A walk that has failed
answers every miss that had joined it (R259), party by party: one that takes the answer leaves the walk with `answerWalks`. -/
def translate (s : State) (t die c : Nat) (va : Nat) (p : Word) : TrAns :=
  let hit (e : TlbEntry) (s : State) : TrAns := if farFrame s e va then .fault 0x23 (BitVec.ofNat 64 va) s else .hit e s
  match lookup s t c va with
  | some e => hit e s
  | none => match lookup s (tlbOfDie die) c va with
    | some e => let r := copyEntry s t e; hit r.1 r.2
    | none =>
      let page := va - va % 4096
      match failedWalk s c page t p with
      | some w => .fault w.cause (if w.cause = 0x29 then w.value else BitVec.ofNat 64 va) s
      | none => .wait (requestWalk s die c page t p)

/-! ## Classes (R263 to R271) -/

/-- UNIT code of a page size (Table 11-3). -/
def unitCode (size : Nat) : Nat := if size = 2 ^ 21 then 2 else if size = 2 ^ 16 then 1 else 0
/-- The head granule of the unit of size `code` that holds granule `gr` (R264). -/
def unitHead (gr code : Nat) : Nat := if code = 2 then gr - gr % 512 else if code = 1 then gr - gr % 16 else gr
/-- The granules of a unit. -/
def unitGranules (code : Nat) : Nat := if code = 2 then 512 else if code = 1 then 16 else 1

/-- The three entries that R268 checks: the granule, and the heads of its 64 KiB and 2 MiB units. -/
def coveringKeys (gr : Nat) : List Nat := [gr, unitHead gr 1, unitHead gr 2]

/-- The classed entry that covers a granule, with its key (R268, R274). -/
def coverOf (s : State) (gr : Nat) : Option (Nat × ClassEntry) :=
  ((coveringKeys gr).map fun k => (k, s.classOf k)).find? fun p => p.2.cls != 0 && unitHead gr p.2.unit == p.1

/-- Some classed entry covers the granule under another size (R268). -/
def sizeClash (s : State) (gr code : Nat) : Bool :=
  (coveringKeys gr).any fun k => let e := s.classOf k; e.cls != 0 && unitHead gr e.unit == k && e.unit != code

/-- The TLBs that hold the class of unit `u`. -/
def classHolders (s : State) (u : Nat) : List Nat :=
  tkeys s.tlbs fun _ l => l.any fun e => !e.host && e.unit == u && e.cls.isSome

/-- The other modules of the domain, as units that owe a DrainAck (R375). -/
def peerUnits (s : State) : List Nat :=
  ((List.range 64).filter fun m => s.domain.members.getLsbD m && m != s.domain.own).map (20000 + ·)

/-- The class entry when a transition completes (R270); the entry of another module's unit is at that module. -/
def finishTransit (s : State) (u : Nat) (t : Transit) : State :=
  if 2 ^ 27 ≤ u then { s with transits := terase s.transits u }
  else
    let e : ClassEntry :=
      { cls := t.newCls, unit := t.newUnit, owner := t.newOwner, written := false, hold := 0, rhold := false, since := s.realTime, dirty := [] }
    { s with classes := tset s.classes u e, transits := terase s.transits u }

/-- Begin a transition after drain; with no unit that holds the class it completes at once (R270). -/
def startTransit (s : State) (u newCls newUnit : Nat) (trig : Trigger) : State :=
  let owes := classHolders s u ++ (if (s.classOf u).rhold then peerUnits s else [])
  let t : Transit := ⟨newCls, newUnit, 0, trig, owes, [], [], s.realTime⟩
  if owes.isEmpty then finishTransit s u t else { s with transits := tset s.transits u t }

/-- The answer of a home to an access. -/
inductive HomeAns where
  | ok (s : State)
  | wait (s : State)
  | fault (cause : BitVec 8) (value : Option (BitVec 64)) (s : State)

/-- Take a place in the arrival order at unit `u`; true when it is this party's turn. -/
def takeTicket (s : State) (u : Nat) (p : Word) : State × Bool :=
  let q := (tget s.tickets u).getD []
  if q.contains p then (s, q.head? == some p)
  else ({ s with tickets := tset s.tickets u (q ++ [p]) }, q.isEmpty)

def dropTicket (s : State) (u : Nat) (p : Word) : State :=
  let q := ((tget s.tickets u).getD []).filter (· != p)
  { s with tickets := if q.isEmpty then terase s.tickets u else tset s.tickets u q }

/-- A party that waits at unit `u` leaves every other arrival order: a transition has moved its access to this unit. -/
def keepTicket (s : State) (u : Nat) (p : Word) : State :=
  { s with tickets := (s.tickets.map fun e => if e.1 = u then e else (e.1, e.2.filter (· != p))).filter (!·.2.isEmpty) }

/-- A party that waits no longer leaves every arrival order and every walk, and no response concerns it. -/
def dropTickets (s : State) (p : Word) : State :=
  { s with messages := s.messages.filter (·.party != p)
           overdue := s.overdue.filter (·.1 != p)
           walks := s.walks.map fun w => { w with misses := w.misses.filter (·.2 != p) }
           failed := leaveWalks s.failed p fun _ => true
           tickets := (s.tickets.map fun e => (e.1, e.2.filter (· != p))).filter (!·.2.isEmpty) }

/-- The change an access makes at a unit whose class is `e` (Table 11-5): the new entry at once, or the class of a
transition after drain. `host` marks a host access. -/
def classChange (e : ClassEntry) (code : Nat) (party : Word) (store host : Bool) : Except Nat ClassEntry :=
  match e.cls with
  | 0 =>
    if host then .ok { e with cls := if store then 3 else 2, unit := code }
    else .ok { e with cls := 1, unit := code, owner := party, written := store }
  | 1 =>
    if !host && e.owner == party then .ok { e with written := e.written || store }
    else .error (if store || e.written then 3 else 2)
  | 2 => if store then .error 3 else .ok e
  | _ => .ok e

/-- Bits of a request's arguments (Table 4-13). -/
def Request.arg (r : Request) (lo n : Nat) : Nat := field r.args lo n

/-- A flip to device bias is at this unit: every access to it is held (R273). -/
def flipHolds (s : State) (u : Nat) : Bool :=
  s.mgmt.inflight.any fun r => r.opcode == 0x14 && r.started && r.arg 32 1 == 0 && r.phase == 1 && r.waiting.head? == some u

/-- Under host bias, the snoop that an access to line `l` still waits for is out (R272): a store takes the line out of the
filter, a load leaves it there. None when nothing is awaited. -/
def snoopFor (s : State) (l : Nat) (store : Bool) : Option State :=
  if !s.snoop.contains l then none
  else if store then some { s with snoopInv := if s.snoopInv.contains l then s.snoopInv else l :: s.snoopInv }
  else if s.snoopAns.contains l then none
  else some { s with snoopData := if s.snoopData.contains l then s.snoopData else l :: s.snoopData }

/-- The granule of the unit whose head is `u` as a number of lines: the line `l` lies in it. -/
def inUnit (u code l : Nat) : Bool := decide (32 * u ≤ l) && decide (l < 32 * u + 32 * unitGranules code)

/-- Lines are marked coherence-lost; of those in `dirty` a holder has dropped stores without write-back. -/
def loseLines (s : State) (lines dirty : List Nat) : State :=
  { s with coherenceLost := s.coherenceLost ++ lines.filter (fun l => !s.coherenceLost.contains l)
           stale := s.stale ++ dirty.filter fun l => !s.stale.contains l }

/-- The invalidations of line `l` that a store of party `p` awaits. -/
def invalidations (s : State) (p : Word) (l : Nat) : List Message := s.messages.filter fun x => x.party == p && x.tag == 2 ^ 16 + l

/-- The invalidations of line `l` have had no acknowledgement for 1 ms: the line is lost, the holders are told to drop their copies, and
the store that waited completes (R378). -/
def giveUpLine (s : State) (u : Nat) (p : Word) (l : Nat) : State :=
  let s := { s with messages := s.messages.filter (fun x => !(x.party == p && x.tag == 2 ^ 16 + l)), overdue := (p, l) :: s.overdue }
  let s := loseLines s [l] ((s.classOf u).dirty.filter (· == l))
  (peerUnits s).foldl (fun s t => invalidateAt s (t - 20000) (l / 32)) s

/-- A store to a Shared or Pin-Shared unit that units of other modules may hold invalidates the line there and waits for the
acknowledgements of all of them (R370, R375, R378). None once they have come, with the state in which they are no more awaited. -/
def invalidatePeers (s : State) (u : Nat) (e : ClassEntry) (p : Word) (l : Nat) (store : Bool) : Option State × State :=
  let ms := if store && e.rhold && (e.cls == 3 || e.cls == 4) then (peerUnits s).map (· - 20000) else []
  let tag := 2 ^ 16 + l
  let out (m : Nat) : Option Message := messageOf s p m (l / 32) tag
  if ms.isEmpty || s.overdue.contains (p, l) then (none, { s with overdue := s.overdue.filter (· != (p, l)) })
  else if ms.any fun m => (out m).any fun x => !x.awaited s.realTime then (some (giveUpLine s u p l), s)
  else if ms.any fun m => (out m).all (·.lost) then
    (some (ms.foldl (fun s m => if (out m).isNone then sendMessage s p m (l / 32) tag else s) s), s)
  else (none, ms.foldl (fun s m => dropMessage s p m (l / 32) tag) s)

/-- The lines of a unit that holders keep and memory lacks, after an access to line `l`: one more by a store to a Private, Shared or
Pin-Shared unit. An atomic performs at the home, to which the line has been written back (R281). -/
def ClassEntry.soil (e : ClassEntry) (l : Nat) (store atomic : Bool) : ClassEntry :=
  if atomic then { e with dirty := e.dirty.filter (· != l) }
  else if store && (e.cls == 1 || e.cls == 3 || e.cls == 4) && !e.dirty.contains l then { e with dirty := l :: e.dirty } else e

/-- An access to device memory arrives at its home: lost lines, poisoned lines that it reads, the size check, snoops under host
bias, the class and its transition, and the acknowledgements of other modules, in the arrival order of the unit (R262, R268 to R273,
R281, R378, R402). -/
def homeServe (s : State) (party : Word) (pa code : Nat) (store host : Bool) (slice : Option Nat) (atomic : Bool := false) : HomeAns :=
  let gr := pa / 4096
  let line := pa / 128
  let u := if host then match coverOf s gr with
      | some p => p.1
      | none => gr
    else unitHead gr code
  if s.coherenceLost.contains line && !s.overdue.contains (party, line) then .fault 0x29 none (dropTicket s u party)
  else if !store && s.poison.contains line then .fault 0x29 (some (BitVec.ofNat 64 (stackBank pa))) (dropTicket s u party)
  else if !host && sizeClash s gr code then .fault 0x23 none (dropTicket s u party)
  else
    let (s, mine) := takeTicket s u party
    if (tget s.transits u).isSome || !mine || flipHolds s u then .wait s
    else
      let e := s.classOf u
      if e.cls == 6 && store then .fault 0x23 none (dropTicket s u party)
      else match classChange e code party store host with
        | .error c => .wait (startTransit s u c e.unit (.access party))
        | .ok e' =>
          match if !host && s.bias.contains gr then snoopFor s (pa / 64) store else none, invalidatePeers s u e' party line store with
          | some s, _ => .wait s
          | none, (some s, _) => .wait s
          | none, (none, s) =>
            let s := { s with snoopAns := s.snoopAns.filter (· != pa / 64) }
            let e' := { e'.soil line (store && !host) atomic with
              since := s.realTime
              hold := match slice with
                | some b => e'.hold ||| (1 <<< b : BitVec 8)
                | none => e'.hold }
            .ok (dropTicket { s with classes := tset s.classes u e' } u party)

/-- The home returns the class, and the TLB caches it with the translation (R266). -/
def noteClass (s : State) (t c va : Nat) : State :=
  match lookup s t c va with
  | some e =>
    if e.host || e.rmt.isSome then s
    else
      let k := s.classOf (unitHead (e.phys va / 4096) (unitCode e.size))
      tlbInsert s t { e with cls := some k.cls, owner := k.owner.toNat }
  | none => s

/-- The class that a TLB holds lets the party's access go on without its home (R266). -/
def classAllows (e : TlbEntry) (party : Word) (store : Bool) : Bool :=
  (e.cls == some 1 && e.owner == party.toNat) || (!store && (e.cls == some 2 || e.cls == some 6))

/-- The class of another module's unit after an access of `party` (Table 11-5), when the TLB holds its class, which a Recall would have
taken back; none when the access is refused (R267). Any class that the access may have, by the free number `k`, when the TLB holds
none. -/
def remoteClass (e : TlbEntry) (party : Word) (store : Bool) (k : Nat) : Option Nat :=
  match e.cls with
  | some 1 => if e.owner == party.toNat then some 1 else some (if store || k % 2 == 1 then 3 else 2)
  | some 2 => some (if store then 3 else 2)
  | some 6 => if store then none else some 6
  | some 0 | none => if store && (k == 2 || k == 6) then some 3 else some k
  | some n => some n

/-- The response of another module's home to a request: refused for the class checks of R267 and R268, or for a lost or
poisoned line (R378, R402), or performed, with the class that the home returns (R375). Which, is that module's, and free where the
class that the TLB holds does not settle it. -/
def remoteAnswer (s : State) (t : Nat) (party : Word) (e : TlbEntry) (store : Bool) : HomeAns :=
  let (w, s) := s.freeWord
  if w.toNat % 8 = 0 ∧ e.cls.isNone then .fault 0x23 none s
  else if w.toNat % 8 = 1 then .fault 0x29 none s
  else match remoteClass e party store (1 + w.toNat / 8 % 6) with
  | none => .fault 0x23 none s
  | some k =>
    if (tget s.transits e.unit).isSome then .ok s else .ok (tlbInsert s t { e with cls := some k, owner := if k = 1 then party.toNat else 0 })

/-- A request of the unit of TLB `t` has had no response for 1 ms: the requester's bank records it with the unit, and the firmware takes
up its test (R377, R403, R404). -/
def logLate (s : State) (t c pa : Nat) : State :=
  let unit := if t < 192 then t % 48 else if t < 224 then (t - 192) % 8 else if t < 256 then t - 224 else 0
  logTriaged s (bankOfTlb t) 2 6 (BitVec.ofNat 8 c) (BitVec.ofNat 8 unit) (BitVec.ofNat 64 pa)

/-- An access to a frame of module `m` (R370, R373 to R377): from the unit's L1 where the class allows it, the line is there, which
is free, and the access is no atomic (R281); else as a request over a link, whose response it waits for. After 1 ms without one the
access is abandoned, and the requester's bank records it. -/
def remoteAccess (s : State) (t : Nat) (party : Word) (m : Nat) (e : TlbEntry) (va : Nat) (store atomic : Bool) : HomeAns :=
  let g := e.phys va / 4096
  let (w, s) := s.freeWord
  if (messageOf s party m g).isNone && classAllows e party store && !atomic && w.getLsbD 0 then .ok s
  else match pollMessage s party m g with
    | .wait s => .wait s
    | .late s => .fault 0x29 none (logLate s t e.ctx (e.phys va))
    | .answered s => remoteAnswer s t party e store

/-- An access under translation `e` of TLB `t` reaches its point of coherence: the home of a device frame, at once for a host
frame, and for a member module's frame that module's home (R266, R367, R373, R375). -/
def homeAccess (s : State) (t : Nat) (party : Word) (e : TlbEntry) (va : Nat) (store : Bool) (atomic : Bool := false) : HomeAns :=
  if e.host then .ok s
  else match e.rmt with
    | some m => if s.domain.members.getLsbD m then remoteAccess s t party m e va store atomic else .fault 0x23 none s
    | none =>
      match homeServe s party (e.phys va) (unitCode e.size) store false (some (sliceOfTlb t)) atomic with
      | .ok s => .ok (noteClass s t e.ctx va)
      | a => a

/-- A store under the translation would meet the protection fault of R267 or R268, no transition of the unit being in progress (R25,
R270). -/
def refusesStore (s : State) (e : TlbEntry) (va : Nat) : Bool :=
  let gr := e.phys va / 4096
  let u := unitHead gr (unitCode e.size)
  !e.host && e.rmt.isNone && (tget s.transits u).isNone && (sizeClash s gr (unitCode e.size) || (s.classOf u).cls == 6)

/-! ## Bytes at a translated address -/

/-- Byte `o` of a resident group's private region belongs to a row that is on chip; those of an evicted row are what its eviction has
written. -/
def onChipByte (g : Group) (o : Nat) : Bool :=
  let row := o / 128
  let t := lane g.threads (o % 128 / 4)
  t.present && decide (row ≤ t.stacklim.toNat) && decide (t.wres.toNat ≤ row) && decide (row < t.wres.toNat + g.budget)
    && !g.evicted.contains (row % g.budget)

/-- The pages of its private region on which a group has resident rows. -/
def stackPages (g : Group) : List Nat :=
  ((List.range 32).flatMap fun l =>
    let t := lane g.threads l
    if t.present then (List.range (g.budget / 32 + 2)).map (t.wres.toNat / 32 + ·) else []).eraseDups

/-- A row of a resident group is on chip whose register-stack byte lies at this place, under the group's own address or any other one,
so the memory byte is unspecified for any reader (R182). -/
def shadowed (s : State) (e : TlbEntry) (va : Nat) : Bool :=
  s.groups.any fun p =>
    let g := p.2
    let b := g.pbase.toNat
    (g.ctx == e.ctx && decide (b ≤ va) && decide (va < b + 32 * g.privb) && onChipByte g (va - b))
      || (stackPages g).any fun i => decide (4096 * i + va % 4096 < 32 * g.privb) && onChipByte g (4096 * i + va % 4096)
        && match walk s g.ctx (b + 4096 * i) with
          | .ok x => x.host == e.host && x.rmt == e.rmt && x.phys (b + 4096 * i) / 4096 == e.phys va / 4096
          | .error _ => false

/-- A debug descriptor, trace buffer or profile area of any context lies at this physical address (R381). -/
def debugArea (s : State) (pa : Nat) : Bool :=
  s.contexts.any fun p => match p.2.debug with
    | none => false
    | some d => (decide (d.at_ ≤ pa) && decide (pa < d.at_ + 1088))
      || (d.trbase != 0 && decide (d.trbase ≤ pa) && decide (pa < d.trbase + 32 * 2 ^ d.trsize))
      || (d.profbase != 0 && decide (d.profbase ≤ pa) && decide (pa < d.profbase + 880))

/-- Bytes of the frame that a translation names. -/
def frameRead (s : State) (e : TlbEntry) (va n : Nat) : List Byte :=
  if e.host then mread s.hostMem (e.phys va) n
  else match e.rmt with
    | some m => mread s.peerMem (m * 2 ^ 39 + e.phys va) n
    | none => mread s.mem (e.phys va) n

def frameWrite (s : State) (e : TlbEntry) (va : Nat) (b : List Byte) : State :=
  if e.host then { s with hostMem := mwrite s.hostMem (e.phys va) b }
  else match e.rmt with
    | some m => { s with peerMem := mwrite s.peerMem (m * 2 ^ 39 + e.phys va) b }
    | none => { s with mem := mwrite s.mem (e.phys va) b }

/-- The bank that an access which reads the line at `va` names, when the line is poisoned (R402). -/
def poisonAt (s : State) (e : TlbEntry) (va : Nat) : Option (BitVec 64) :=
  if !e.host && e.rmt.isNone && s.poison.contains (e.phys va / 128) then some (BitVec.ofNat 64 (stackBank (e.phys va))) else none

/-- The byte at a translated address lies in a debug area, where a context reads unspecified values (R381). -/
def inDebug (s : State) (e : TlbEntry) (va : Nat) : Bool := !e.host && e.rmt.isNone && debugArea s (e.phys va)

/-- The bytes `l` as they are read: those that are unspecified are free values. -/
def readOver (s : State) (bad : Nat → Bool) (l : List Byte) : List Byte × State :=
  if (List.range l.length).any bad then
    ((List.range l.length).map fun i => if bad i then (Config.freeWord (s.freeIx + i)).setWidth 8 else l.getD i 0
      , { s with freeIx := s.freeIx + l.length })
  else (l, s)

/-- What a party of the translation's context reads. -/
def readBytes (s : State) (e : TlbEntry) (va n : Nat) : List Byte × State :=
  readOver s (fun i => shadowed s e (va + i) || inDebug s e (va + i)) (frameRead s e va n)

/-- A device physical address under an entry of its own. -/
def physEntry : TlbEntry :=
  { ctx := 256, page := 0, size := 2 ^ 39, frame := 0, host := false, rmt := none, w := true, x := false, cls := none, owner := 0 }

/-- What the host or another module reads of device memory. -/
def readPhys (s : State) (pa n : Nat) : List Byte × State := readOver s (fun i => shadowed s physEntry (pa + i)) (mread s.mem pa n)

/-! ## Private memory and address spaces (R282 to R285) -/

/-- Offset `o` of lane `l` in private memory (R283). -/
def privateAddr (g : Group) (l o : Nat) : VA := g.pbase + BitVec.ofNat 57 (o / 4 * 128 + 4 * l + o % 4)

/-! ## Atomic operations (R291, R78 in `Machine/Float.lean` for `.fadd`) -/

/-- The integer operations of ATOM, m = 0 to 6. -/
def atomInt (op : BitVec 3) (old v : Word) : Word :=
  match op.toNat with
  | 0 => old + v
  | 1 => if old.toInt ≤ v.toInt then old else v
  | 2 => if old.toInt ≤ v.toInt then v else old
  | 3 => old &&& v
  | 4 => old ||| v
  | 5 => old ^^^ v
  | _ => v

end Sys2Proof.Machine
end

