-- ==== Sys2Proof/Machine/Barriers.lean ====
section
/-! DEFINITION. The transaction barrier word and its update ("Barriers", R295 to R300). A word is a number of 128 bits,
laid out as Table 13-1. -/
namespace Sys2Proof.Machine

/-- The configuration word, bits [127:96], is malformed (R296). -/
def barMalformed (cfg : Nat) : Bool :=
  cfg % 2 ^ 24 == 0 || cfg / 2 ^ 28 % 4 == 3 || cfg / 2 ^ 30 % 2 == 1 || cfg / 2 ^ 24 % 16 != 0

def barArr (w : Nat) : Nat := w % 2 ^ 32
def barBytes (w : Nat) : Int := signExtend (w / 2 ^ 32) 32
def barPhase (w : Nat) : Nat := w / 2 ^ 64 % 2 ^ 32
def barCfg (w : Nat) : Nat := w / 2 ^ 96 % 2 ^ 32
def barOvr (w : Nat) : Bool := w / 2 ^ 127 % 2 == 1
def barExpect (w : Nat) : Nat := barCfg w % 2 ^ 24
def barTclass (w : Nat) : Nat := barCfg w / 2 ^ 28 % 4

/-- A word from its four fields. -/
def barPack (arr : Nat) (bytes : Int) (phase cfg : Nat) : Nat :=
  arr + (wrap32 bytes).toNat * 2 ^ 32 + phase * 2 ^ 64 + cfg * 2 ^ 96

/-- Update (R297): the new word, or for an overrun the word as found with OVR set. An update of 0 at a word that a plain store has left
with ARR 0 and BYTES not above 0 completes the phase or overruns as any other does: DESIGN CHOICE between R297 and the sentence of R308
that BARV and BEXP with a vb of 0 change no field (log entry 108). -/
def barUpdate (w da : Nat) (db : Int) : Except Nat Nat :=
  let overrun := w ||| 2 ^ 127
  if barMalformed (barCfg w) || barOvr w then .error overrun
  else if barArr w < da then .error overrun
  else
    let n := barBytes w + db
    if n < -2147483648 ∨ 2147483647 < n then .error overrun
    else if barArr w - da = 0 then
      if n = 0 then .ok (barPack (barExpect w) 0 ((barPhase w + 1) % 2 ^ 32) (barCfg w))
      else if n < 0 then .error overrun
      else .ok (barPack 0 n (barPhase w) (barCfg w))
    else .ok (barPack (barArr w - da) n (barPhase w) (barCfg w))

/-- BINIT's update (R307), which never overruns. -/
def barInit (w cfg : Nat) : Nat := barPack (cfg % 2 ^ 24) 0 (barPhase w) cfg

/-- Done(q, p) (R298). -/
def barDone (q p : Nat) : Bool :=
  let d := (q + 2 ^ 32 - p % 2 ^ 32) % 2 ^ 32
  decide (1 ≤ d) && decide (d ≤ 2 ^ 31)

/-- BTEST (R310). -/
def barTest (w p : Nat) : Word :=
  BitVec.ofNat 32 ((if barDone (barPhase w) p then 1 else 0) + (if barOvr w then 2 else 0)
    + (if barMalformed (barCfg w) then 4 else 0))

/-- One update of the word `w` found at a translated address, its home having accepted it: the old PHASE, whether it
overran, and the state after. -/
def barEvent (s : State) (e : TlbEntry) (va w da : Nat) (db : Int) : Word × Bool × State :=
  match barUpdate w da db with
  | .ok n => (BitVec.ofNat 32 (barPhase w), false, frameWrite s e va (leBytes 16 n))
  | .error n => (BitVec.ofNat 32 (barPhase w), true, frameWrite s e va (leBytes 16 n))

end Sys2Proof.Machine
end

