-- ==== Sys2Proof/Machine/Queues.lean ====
section
/-! DEFINITION. Stage and result queues and their ends ("Queues: Commands, Tasks, Ports and Binning", R113 to R118,
R127, R128, R424). -/
namespace Sys2Proof.Machine

/-- The 32-bit identity of an instance (Table 5-1). -/
def queueIdent (kind idx inst : Nat) : Word := BitVec.ofNat 32 (kind * 2 ^ 29 + idx * 2 ^ 24 + inst)

/-- Capacity in entries (Table 5-2). -/
def QueueInst.cap (q : QueueInst) : Nat := 2 ^ q.desc.depth

/-- The code of a state (Table 5-9). -/
def QState.code : QState → Nat
  | .unbound => 0
  | .bound => 1
  | .open_ => 2
  | .draining => 3
  | .closed => 4
  | .orphaned => 5

/-- The number of an instance of a launch; a destroyed instance keeps its number. -/
def findQueue (s : State) (launch idx inst : Nat) : Option Nat :=
  (s.queues.find? fun p => p.2.launch == launch && p.2.index == idx && p.2.inst == inst).map (·.1)

/-- The linear index of a coordinate (R114). -/
def linearIndex (l : Launch) (x y z : Nat) : Nat := x + l.dx * (y + l.dy * z)

/-- The stages of an image that have teams (R143). -/
def ordinaryStages (im : Image) : List Nat := (List.range im.stages).filter fun i => !im.engmask.getLsbD i

/-- How many instances a launch has of a queue: one per team of its consumer stage, none for a stage without teams
(R114). -/
def instancesOf (s : State) (l : Launch) (d : QDesc) : Nat :=
  match s.image? l.ctx l.image with
  | some im => if (ordinaryStages im).contains d.cstage then l.dx * l.dy * l.dz else 0
  | none => 0

/-- The consumer team of an instance has started, so that its core holds the entries (R144). -/
def consumerUp (s : State) (q : QueueInst) : Bool :=
  s.teams.any fun p => match s.launch? q.launch with
    | some l => p.2.launch == q.launch && !p.2.task && p.2.stage == q.desc.cstage
        && linearIndex l p.2.x p.2.y p.2.z == q.inst
        && (p.2.state == .resident || p.2.state == .saved || p.2.state == .stopped)
    | none => false

/-- Create an instance when it does not exist yet (R114, R144). -/
def ensureQueue (s : State) (launch idx inst : Nat) (d : QDesc) : Nat × State :=
  match findQueue s launch idx inst with
  | some q => (q, s)
  | none =>
    let (n, s) := s.fresh
    (n, { s with queues := tset s.queues n ⟨launch, idx, inst, d, .unbound, 0, 0, false, [], 0, true⟩ })

/-- An end is bound (Table 5-4). -/
def QueueInst.bindEnd (q : QueueInst) (producer : Bool) : QueueInst :=
  let q := if producer then { q with producers := q.producers + 1 } else { q with consumers := q.consumers + 1 }
  match q.state with
  | .unbound => { q with state := .bound }
  | .bound => if 1 ≤ q.producers ∧ 1 ≤ q.consumers then { q with state := .open_ } else q
  | _ => q

/-- QCLOSE of an end (Table 5-4). -/
def QueueInst.closeEnd (q : QueueInst) (producer : Bool) : QueueInst :=
  if !producer then { q with consumers := q.consumers - 1 }
  else
    let q := { q with producers := q.producers - 1 }
    if q.producers ≠ 0 then q
    else match q.state with
      | .bound | .open_ =>
        if q.lost then { q with state := .open_ }
        else { q with state := if q.entries.isEmpty then .closed else .draining }
      | _ => q

/-- An end released without QCLOSE (R117, Table 5-4). -/
def QueueInst.loseEnd (q : QueueInst) (producer : Bool) : QueueInst :=
  if !producer then { q with consumers := q.consumers - 1 }
  else
    let q := { q with producers := q.producers - 1 }
    match q.state with
    | .bound | .open_ => { q with state := .open_, lost := true }
    | _ => q

/-- The answer of a blocking pop that needs `n` entries (Table 5-8, R424). -/
inductive PopAns where
  | ready | block | orphan | misuse
deriving DecidableEq, Repr

def QueueInst.popAns (q : QueueInst) (n : Nat) : PopAns :=
  if q.state = .orphaned then .orphan
  else if n ≤ q.entries.length then .ready
  else if q.state = .draining ∨ q.state = .closed then .misuse
  else if q.producers = 0 ∧ q.lost then .orphan
  else .block

/-- The queue after a blocking pop that raised trap 0x08: Orphaned when it holds no entry (R424). -/
def QueueInst.orphan (q : QueueInst) : QueueInst := if q.entries.isEmpty then { q with state := .orphaned } else q

/-- The queue without its oldest entry; a drained queue closes (Table 5-4). -/
def QueueInst.pop (q : QueueInst) : QueueInst :=
  let e := q.entries.drop 1
  { q with entries := e, state := if q.state = .draining ∧ e.isEmpty then .closed else q.state }

/-- The answer of a push (R128). -/
def pushAns (s : State) (q : QueueInst) : PopAns :=
  if !q.live || q.state == .draining || q.state == .closed || q.state == .orphaned then .misuse
  else if q.cap ≤ q.entries.length + q.reserved ∨ !consumerUp s q then .block else .ready

/-- The entry as the active lanes of an issue receive it (R128, Table 8-1). -/
def entryRow (q : QueueInst) (e : List Word) : Row :=
  if q.desc.uni then .u (e.headD 0) else .g (perLane fun l => e.getD l 0)

/-- The entry that a push of a result writes (R128). -/
def pushEntry (q : QueueInst) (act : Mask) (v : Row) : List Word :=
  if q.desc.uni then [v.get (lowest act)] else (List.range 32).map fun l => if has act l then v.get l else 0

/-- Append an entry. -/
def QueueInst.push (q : QueueInst) (e : List Word) : QueueInst := { q with entries := q.entries ++ [e] }

/-- The port that a field value 120 to 125 names. -/
def portOf (g : Group) (r : Reg) : Option Port := g.ports[(r.toNat - 120) % 6]'(Nat.mod_lt _ (by decide))

def setPort (g : Group) (i : Nat) (p : Option Port) : Group :=
  { g with ports := Vector.ofFn fun j => if j.val = i then p else g.ports[j] }

/-- VALUE of a queue-misuse fault on an unbound port (R425). -/
def unboundValue (r : Reg) : BitVec 64 := BitVec.ofNat 64 (0xE0000000 + r.toNat)

/-- Release every port of a group without QCLOSE (R117). -/
def losePorts (s : State) (g : Nat) : State :=
  match s.group? g with
  | none => s
  | some gr =>
    let s := gr.ports.toList.foldl (fun s p => match p with
      | some p => s.modQueue p.inst fun q => q.loseEnd p.producer
      | none => s) s
    s.setGroup g { gr with ports := Vector.replicate 6 none }

end Sys2Proof.Machine
end

