-- ==== Sys2Proof/Machine/Commands.lean ====
section
/-! DEFINITION. The 64-byte commands of host queues and KLAUNCH: their layout and its checks, and the acceptance of a
KLAUNCH command (Table 5-6, R121, R156). The commands that KLAUNCH has accepted stand in a list of their own for each
context and die, under key `256 + 4 ctx + die` beside the 256 host command queues. -/
namespace Sys2Proof.Machine

/-- Key of the list that holds the KLAUNCH commands of context `c` from die `d`. -/
def klaunchKey (c d : Nat) : Nat := 256 + 4 * c + d

/-- The root command names the list that holds it. -/
def RootCmd.key (r : RootCmd) (c : Nat) : Nat := if r.klaunch then klaunchKey c r.qnum else r.qnum

/-- A host command of queue `q` with sequence number `n`. -/
def State.cmd? (s : State) (q n : Nat) : Option HostCmd := (s.hostQueue q).cmds.find? (·.seq.toNat == n)
def State.modCmd (s : State) (q n : Nat) (f : HostCmd → HostCmd) : State :=
  s.modHostQueue q fun h => { h with cmds := h.cmds.map fun x => if x.seq.toNat = n then f x else x }

/-- A fetched command. -/
def freshCmd (seq : Word) (b : List Byte) : HostCmd :=
  { seq := seq, bytes := b, started := false, ended := none, count := 0, start := 0, launch := none
    recorded := false, done := false, noticed := false, fcause := 0, got := [] }

/-- Byte `i` of a command. -/
def byteAt (b : List Byte) (i : Nat) : Nat := (b.getD i 0).toNat

def HostCmd.opcode (k : HostCmd) : Nat := byteAt k.bytes 0
def HostCmd.rec_ (k : HostCmd) : Bool := (byteAt k.bytes 1) % 2 == 1
def HostCmd.ovl (k : HostCmd) : Bool := (byteAt k.bytes 1) / 2 % 2 == 1
def HostCmd.tag (k : HostCmd) : Word := BitVec.ofNat 32 (field k.bytes 4 4)
/-- BAR: bits [63:57] of an address are ignored (R253). -/
def HostCmd.bar (k : HostCmd) : VA := BitVec.ofNat 57 (field k.bytes 32 8)

/-- The image of a context whose base is this address; bits [63:57] of an address are ignored (R253). -/
def imageAt (x : Context) (a : Nat) : Option Nat := (List.range x.images.length).find? fun i =>
  match x.images[i]? with
  | some im => im.base == BitVec.ofNat 57 a
  | none => false

/-- A LAUNCH breaks Table 5-6, its image apart. Bytes 49 and 52 to 55 of one without TASKS may hold anything: DESIGN CHOICE, the table
gives them a meaning under TASKS and does not mark them zero (log entry 104). -/
def launchBad (b : List Byte) : Bool :=
  let tasks := byteAt b 1 / 4 % 2 == 1
  decide (8 ≤ byteAt b 1) || decide (8 ≤ byteAt b 2) || byteAt b 3 != 0
  || field b 16 2 == 0 || field b 18 2 == 0 || field b 20 2 == 0 || !zeroBytes b 22 24
  || field b 40 8 % 64 != 0 || decide (32 < byteAt b 48)
  || (tasks && !(decide (byteAt b 49 < 4) || byteAt b 49 == 255)) || !zeroBytes b 50 52 || !zeroBytes b 56 64

/-- A command breaks Table 5-6. Bytes 20 and 21 of a SIGNAL or a WAIT have to be zero: DESIGN CHOICE, the table gives them no meaning and
does not mark them zero (log entry 103). -/
def commandBad (b : List Byte) : Bool :=
  let flags := decide (4 ≤ byteAt b 1) || !zeroBytes b 2 4
  match byteAt b 0 with
  | 1 => launchBad b
  | 2 => flags || !zeroBytes b 40 64
  | 3 => flags || field b 16 4 == 0 || !zeroBytes b 20 64
  | 4 => flags || !zeroBytes b 20 32 || !zeroBytes b 40 64
  | 5 => flags || !zeroBytes b 9 32 || !zeroBytes b 40 64
  | 6 => flags || !zeroBytes b 8 32 || !zeroBytes b 40 64
  | _ => false

/-- KLAUNCH (R156): the status word, and the state with the command accepted. -/
def acceptKlaunch (s : State) (c d : Nat) (b : List Byte) : Word × State :=
  let x := s.ctx c
  if byteAt b 0 ≠ 1 then (0x01, s)
  else if launchBad b || (imageAt x (field b 8 8)).isNone then (0x02, s)
  else if x.klaunchOut = 64 then (0x07, s)
  else
    let q := x.klaunchSeq
    let s := s.setCtx c { x with klaunchSeq := q + 1, klaunchOut := x.klaunchOut + 1 }
    (BitVec.ofNat 32 (q.toNat % 2 ^ 24 * 256),
      s.modHostQueue (klaunchKey c d) fun h => { h with ctx := c, cmds := h.cmds ++ [freshCmd q b] })

end Sys2Proof.Machine
end

