-- ==== Sys2Proof/Machine/Float.lean ====
section
/-! DEFINITION. Number formats, exact values and the one rounding ("Number Formats and Exact Arithmetic", R53 to R74). -/
namespace Sys2Proof.Machine

/-! ## Flags (Table 3-5) -/

abbrev FFlags := BitVec 7
def fNV : FFlags := 1
def fDZ : FFlags := 2
def fOF : FFlags := 4
def fUF : FFlags := 8
def fNX : FFlags := 16
def fSAT : FFlags := 32
def fCMP : FFlags := 64
def flagIf (b : Bool) (f : FFlags) : FFlags := if b then f else 0

/-! ## Formats (R53 to R55) -/

/-- A floating format: exponent and fraction widths, bias, encoding of the largest finite magnitude, infinities, NaNs,
and whether it flushes subnormals (Table 3-2). -/
structure FFmt where
  ebits : Nat
  fbits : Nat
  bias : Nat
  maxBits : Nat
  hasInf : Bool
  hasNaN : Bool
  flush : Bool
deriving DecidableEq, Repr

def fp32 : FFmt := ⟨8, 23, 127, 0x7F7FFFFF, true, true, false⟩
def fp16 : FFmt := ⟨5, 10, 15, 0x7BFF, true, true, false⟩
def bf16 : FFmt := ⟨8, 7, 127, 0x7F7F, true, true, false⟩
def e4m3 : FFmt := ⟨4, 3, 7, 0x7E, false, true, false⟩
def e5m2 : FFmt := ⟨5, 2, 15, 0x7B, true, true, false⟩
def e2m1 : FFmt := ⟨2, 1, 1, 0x7, false, false, false⟩
def a26 : FFmt := ⟨8, 17, 127, 0x1FDFFFF, true, true, true⟩

/-- The floating formats of Table 3-1. -/
def fmtOf : Nat → Option FFmt
  | 0 => some fp32
  | 1 => some fp16
  | 2 => some bf16
  | 3 => some e4m3
  | 4 => some e5m2
  | 5 => some e2m1
  | _ => none

/-- The width of a format code (Table 3-1). -/
def fmtWidth (c : Nat) : Nat :=
  if c = 0 ∨ c = 10 then 32 else if c = 1 ∨ c = 2 ∨ c = 9 then 16 else if c = 5 ∨ c = 8 then 4 else 8

/-- The range of an integer format code (R58). -/
def intRange (c : Nat) : Int × Int :=
  if c = 6 then (-128, 127) else if c = 7 then (0, 255) else if c = 8 then (-8, 7)
  else if c = 9 then (-32768, 32767) else (-2147483648, 2147483647)

/-! ## Exact values (R60) -/

/-- An exact real `±num/den`, an infinity or NaN. -/
inductive XReal where
  | nan
  | inf (neg : Bool)
  | fin (neg : Bool) (num den : Nat)
deriving DecidableEq, Repr

def XReal.neg : XReal → XReal
  | .nan => .nan
  | .inf n => .inf (!n)
  | .fin n a b => .fin (!n) a b

def XReal.isNaN : XReal → Bool
  | .nan => true
  | _ => false

def XReal.isZero : XReal → Bool
  | .fin _ 0 _ => true
  | _ => false

/-- The finite value as an integer over its denominator. -/
def signed (neg : Bool) (n : Nat) : Int := if neg then -(n : Int) else n

/-- `2^k` for an integer exponent, as numerator and denominator. -/
def pow2 (k : Int) : Nat × Nat := if 0 ≤ k then (2 ^ k.toNat, 1) else (1, 2 ^ (-k).toNat)

/-- `m * 2^k` with a sign. -/
def dyadic (neg : Bool) (m : Nat) (k : Int) : XReal := let p := pow2 k; .fin neg (m * p.1) p.2

/-- The value of an encoding, and whether it is a signalling NaN (R55). -/
def decodeF (f : FFmt) (bits : Nat) : XReal × Bool :=
  let neg := bits / 2 ^ (f.ebits + f.fbits) % 2 == 1
  let e := bits / 2 ^ f.fbits % 2 ^ f.ebits
  let m := bits % 2 ^ f.fbits
  if e = 2 ^ f.ebits - 1 ∧ f.hasInf then
    if m = 0 then (.inf neg, false) else (.nan, decide (m < 2 ^ (f.fbits - 1)))
  else if f.hasNaN ∧ !f.hasInf ∧ bits % 2 ^ (f.ebits + f.fbits) = 2 ^ (f.ebits + f.fbits) - 1 then (.nan, false)
  else if e = 0 then
    if f.flush then (.fin neg 0 1, false) else (dyadic neg m (1 - (f.bias : Int) - f.fbits), false)
  else (dyadic neg (2 ^ f.fbits + m) ((e : Int) - f.bias - f.fbits), false)

/-- The canonical NaN (R56); a format without NaN has none. -/
def canonNaN (f : FFmt) : Nat :=
  if f.hasInf then (2 ^ f.ebits - 1) * 2 ^ f.fbits + 2 ^ (f.fbits - 1) else 2 ^ (f.ebits + f.fbits) - 1

def infBits (f : FFmt) : Nat := (2 ^ f.ebits - 1) * 2 ^ f.fbits
def withSign (f : FFmt) (neg : Bool) (mag : Nat) : Nat := if neg then 2 ^ (f.ebits + f.fbits) + mag else mag

/-- Floor of log2 of `n/d`, both positive. -/
def floorLog2 (n d : Nat) : Int :=
  let l : Int := (Nat.log2 n : Int) - Nat.log2 d
  let p := pow2 l
  if d * p.1 ≤ n * p.2 then l else l - 1

/-- RoundInt of `n/d` (R60): RNE 0, RTZ 1, RUP 2, RDN 3. -/
def roundInt (n d : Nat) (neg : Bool) (mode : BitVec 2) : Nat :=
  let q := n / d
  let r := n % d
  match mode.toNat with
  | 0 => if 2 * r < d then q else if d < 2 * r then q + 1 else if q % 2 = 0 then q else q + 1
  | 1 => q
  | 2 => if !neg && r != 0 then q + 1 else q
  | _ => if neg && r != 0 then q + 1 else q

/-- Round (R60): the encoding and the flags. -/
def roundF (f : FFmt) (mode : BitVec 2) (x : XReal) : Nat × FFlags :=
  match x with
  | .nan => if f.hasNaN then (canonNaN f, 0) else (0, fNV)
  | .inf neg => if f.hasInf then (withSign f neg (infBits f), 0) else (withSign f neg f.maxBits, fOF ||| fNX)
  | .fin neg num den =>
    if num = 0 then (withSign f neg 0, 0)
    else
      let emin : Int := 1 - (f.bias : Int)
      let lg := floorLog2 num den
      let tiny := decide (lg < emin)
      if f.flush && tiny then (withSign f neg 0, fUF ||| fNX)
      else
        let e := if lg < emin then emin else lg
        let p := pow2 (e - f.fbits)
        let n := num * p.2
        let d := den * p.1
        let k := roundInt n d neg mode
        let exact := decide (k * d = n)
        let fl := if exact then 0 else fNX ||| flagIf tiny fUF
        let mag := (e + f.bias - 1).toNat * 2 ^ f.fbits + k
        if f.maxBits < mag then
          let toMax := !f.hasInf || mode == 1 || (mode == 2 && neg) || (mode == 3 && !neg)
          (withSign f neg (if toMax then f.maxBits else infBits f), fl ||| fOF ||| fNX)
        else (withSign f neg mag, fl)

/-! ## Exact arithmetic (R61) -/

/-- A sum, with the sign of an exact zero; NV for infinities of opposite sign. -/
def xadd (mode : BitVec 2) (a b : XReal) : XReal × FFlags :=
  match a, b with
  | .nan, _ => (.nan, 0)
  | _, .nan => (.nan, 0)
  | .inf x, .inf y => if x == y then (.inf x, 0) else (.nan, fNV)
  | .inf x, _ => (.inf x, 0)
  | _, .inf y => (.inf y, 0)
  | .fin na a da, .fin nb b db =>
    let s : Int := signed na (a * db) + signed nb (b * da)
    if s = 0 then (.fin (if a = 0 ∧ b = 0 ∧ na = nb then na else mode == 3) 0 1, 0)
    else (.fin (decide (s < 0)) s.natAbs (da * db), 0)

def xmul (a b : XReal) : XReal × FFlags :=
  match a, b with
  | .nan, _ => (.nan, 0)
  | _, .nan => (.nan, 0)
  | .inf x, .inf y => (.inf (x != y), 0)
  | .inf x, .fin y n _ => if n = 0 then (.nan, fNV) else (.inf (x != y), 0)
  | .fin y n _, .inf x => if n = 0 then (.nan, fNV) else (.inf (x != y), 0)
  | .fin x a da, .fin y b db => (.fin (x != y) (a * b) (da * db), 0)

/-- Multiply by `2^k` exactly (R57). -/
def xscale (x : XReal) (k : Int) : XReal :=
  match x with
  | .fin n a d => let p := pow2 k; .fin n (a * p.1) (d * p.2)
  | y => y

/-- Compare two values that are not NaN; zeros are equal. -/
def xlt (a b : XReal) : Bool :=
  match a, b with
  | .inf x, .inf y => x && !y
  | .inf x, .fin .. => x
  | .fin .., .inf y => !y
  | .fin na a da, .fin nb b db => decide (signed na (a * db) < signed nb (b * da))
  | _, _ => false

def xeq (a b : XReal) : Bool :=
  match a, b with
  | .inf x, .inf y => x == y
  | .fin na a da, .fin nb b db => decide (signed na (a * db) = signed nb (b * da))
  | _, _ => false

/-- NV for a signalling operand (R56). -/
def sigFlag (b : Bool) : FFlags := flagIf b fNV

/-! ## FP32 operations of one lane (R239) -/

def fval (w : Word) : XReal × Bool := decodeF fp32 w.toNat
def toWord (r : Nat × FFlags) : Word × FFlags := (BitVec.ofNat 32 r.1, r.2)

/-- A binary operation rounded once. -/
def fbin (fm : FFmt) (op : XReal → XReal → XReal × FFlags) (mode : BitVec 2) (a b : Nat) : Nat × FFlags :=
  let x := decodeF fm a
  let y := decodeF fm b
  let r := op x.1 y.1
  let o := roundF fm mode r.1
  (o.1, o.2 ||| r.2 ||| sigFlag (x.2 || y.2))

/-- A fused multiply-add rounded once. -/
def ffused (fm : FFmt) (mode : BitVec 2) (a b c : Nat) : Nat × FFlags :=
  let x := decodeF fm a
  let y := decodeF fm b
  let z := decodeF fm c
  let p := xmul x.1 y.1
  let r := xadd mode p.1 z.1
  let o := roundF fm mode r.1
  (o.1, o.2 ||| r.2 ||| p.2 ||| sigFlag (x.2 || y.2 || z.2))

def fadd (mode : BitVec 2) (a b : Word) : Word × FFlags := toWord (fbin fp32 (xadd mode) mode a.toNat b.toNat)
def fsub (mode : BitVec 2) (a b : Word) : Word × FFlags :=
  toWord (fbin fp32 (fun x y => xadd mode x y.neg) mode a.toNat b.toNat)
def fmul (mode : BitVec 2) (a b : Word) : Word × FFlags := toWord (fbin fp32 xmul mode a.toNat b.toNat)
def ffma (mode : BitVec 2) (a b c : Word) : Word × FFlags := toWord (ffused fp32 mode a.toNat b.toNat c.toNat)

/-- The lesser (`isMax` false) or greater of two FP32 values (R203, R240): a NaN and a number give the number, and −0
is below +0. -/
def fminmax (isMax : Bool) (a b : Word) : Word × FFlags :=
  let x := fval a
  let y := fval b
  let fl := sigFlag (x.2 || y.2)
  match x.1, y.1 with
  | .nan, .nan => (BitVec.ofNat 32 (canonNaN fp32), fl)
  | .nan, _ => (b, fl)
  | _, .nan => (a, fl)
  | u, v =>
    let aLess := xlt u v || (xeq u v && a.getLsbD 31)
    (if aLess != isMax then a else b, fl)

/-- FP32 atomic add (R78): RNE, no flag kept. -/
def atomFadd (old v : Word) : Word := (fadd 0 old v).1

/-! ## Elements (R59, R248) -/

/-- Element `i` of width `w` of a word. -/
def element (x : Word) (w i : Nat) : Nat := x.toNat / 2 ^ (w * i) % 2 ^ w

/-- A word with element `i` of width `w` replaced. -/
def setElement (x : Word) (w i v : Nat) : Word :=
  BitVec.ofNat 32 (x.toNat - element x w i * 2 ^ (w * i) + v % 2 ^ w * 2 ^ (w * i))

/-- The exact value of an element under a format code, and whether it is a signalling NaN (R55, R58). -/
def elementValue (code bits : Nat) : XReal × Bool :=
  match fmtOf code with
  | some f => decodeF f bits
  | none =>
    let v : Int := if code = 7 then (bits : Int) else signExtend bits (fmtWidth code)
    (.fin (decide (v < 0)) v.natAbs 1, false)

/-- Conversion to an integer format (R70). -/
def toInteger (x : XReal) (code : Nat) (mode : BitVec 2) : Int × FFlags :=
  let r := intRange code
  match x with
  | .nan => (0, fNV)
  | .inf neg => (if neg then r.1 else r.2, fNV)
  | .fin neg n d =>
    let k := roundInt n d neg mode
    let v := signed neg k
    if v < r.1 then (r.1, fNV) else if r.2 < v then (r.2, fNV) else (v, flagIf (k * d != n) fNX)

/-! ## The compand table (R71 to R73) -/

/-- The 34 entries: breakpoints 0 to 16, slopes 17 to 32, origin 33, as numbers 0x20 to 0x41 of Table 4-3. -/
def compandEntry (t : List Word) (i : Nat) : XReal := (fval (t.getD i 0)).1

def isFinite : XReal → Bool
  | .fin .. => true
  | _ => false

/-- R71. -/
def compandValid (t : List Word) : Bool :=
  (List.range 34).all (fun i => isFinite (compandEntry t i))
  && (List.range 16).all (fun i => xlt (compandEntry t i) (compandEntry t (i + 1)))
  && (List.range 16).all (fun i => xlt (.fin false 0 1) (compandEntry t (17 + i)))

/-- Exact sum and product of finite values; the mode gives the sign of an exactly zero sum (R61). -/
def xaddE (mode : BitVec 2) (a b : XReal) : XReal := (xadd mode a b).1
def xmulE (a b : XReal) : XReal := (xmul a b).1

/-- Knot Y[i] (R71). -/
def knot (mode : BitVec 2) (t : List Word) : Nat → XReal
  | 0 => compandEntry t 33
  | i + 1 => xaddE mode (knot mode t i)
      (xmulE (compandEntry t (17 + i)) (xaddE mode (compandEntry t (i + 1)) (compandEntry t i).neg))

/-- C(x) (R72), in the instruction's rounding mode, on which only the sign of an exactly zero sum depends (R61);
`sig` marks a signalling NaN. -/
def compandC (mode : BitVec 2) (t : List Word) (x : XReal) (sig : Bool) : XReal × FFlags :=
  if !compandValid t then (.nan, fNV)
  else if x.isNaN then (.nan, sigFlag sig)
  else if xlt x (compandEntry t 0) then (knot mode t 0, fCMP)
  else if xlt (compandEntry t 16) x then (knot mode t 16, fCMP)
  else if xeq x (compandEntry t 16) then (knot mode t 16, 0)
  else
    let i := ((List.range 16).find? fun i => xlt x (compandEntry t (i + 1))).getD 15
    (xaddE mode (knot mode t i) (xmulE (compandEntry t (17 + i)) (xaddE mode x (compandEntry t i).neg)), 0)

/-- An exact quotient of finite values, the divisor not zero. -/
def xdivE (a b : XReal) : XReal :=
  match a, b with
  | .fin na n d, .fin nb m e => .fin (na != nb) (n * e) (d * m)
  | _, _ => .nan

/-- D(y) (R73): FP32 bits and flags. -/
def compandD (t : List Word) (y : XReal) : Nat × FFlags :=
  if !compandValid t then (canonNaN fp32, fNV)
  else if y.isNaN then (canonNaN fp32, 0)
  else if xlt y (knot 0 t 0) then ((t.getD 0 0).toNat, fCMP)
  else if xlt (knot 0 t 16) y then ((t.getD 16 0).toNat, fCMP)
  else if xeq y (knot 0 t 16) then ((t.getD 16 0).toNat, 0)
  else
    let i := ((List.range 16).find? fun i => xlt y (knot 0 t (i + 1))).getD 15
    roundF fp32 0 (xaddE 0 (compandEntry t i) (xdivE (xaddE 0 y (knot 0 t i).neg) (compandEntry t (17 + i))))

end Sys2Proof.Machine
end

