-- ==== Sys2Proof/Machine/Operands.lean ====
section
/-! DEFINITION. How every instruction begins and ends: the clause in issue and its active lanes, debug comparators,
pending names, source fields with their shapes and pops, and destinations (R23, R28, R36 to R43, R180, R384, R391). -/
namespace Sys2Proof.Machine

/-- What an instruction in progress sees: its group, the clause in issue with its header, Active(), its word and its
address. -/
structure Ctl where
  g : Nat
  gr : Group
  iss : Issue
  hd : Header
  act : Mask
  word : Word
  pc : VA

/-! ## General storage (R182) -/

/-- General rows that a group holds on chip. -/
def gRows (g : Group) : Nat :=
  ((g.rows.filter fun p => p.2.tag == 2 && !g.evicted.contains p.1).length) + (g.bank.filter fun p => p.2.tag == 2).length

/-- General rows on a core. -/
def gRowsOfCore (s : State) (k : Nat) : Nat :=
  (s.groups.filter fun p => coreOf p.1 == k).foldl (fun n p => n + gRows p.2) 0

/-- The least recently used General row of a group, with the step of its last use: of those not in `but`. -/
def lruRow (g : Group) (but : Nat → Bool) : Option (Nat × Nat) :=
  (g.rows.filter fun p => p.2.tag == 2 && !g.evicted.contains p.1 && !but p.1).foldl
    (fun (best : Option (Nat × Nat)) p =>
      let u := (tget g.use p.1).getD 0
      match best with
      | some (_, v) => if u < v then some (p.1, u) else best
      | none => some (p.1, u)) none

/-- The stack position that entry `e` holds for a thread: the one of its resident part. -/
def entryRowOf (g : Group) (t : Thread) (e : Nat) : Nat :=
  let w := t.wres.toNat
  w + (e + g.budget - w % g.budget) % g.budget

/-- A page of private memory as an access of its group finds it from core `k`: it must be mapped with W, in a module of the domain,
for a store not pinned for reading, and the line must not be lost, which the requester's bank reports, nor, for a read, poisoned (R25,
R261, R267, R373, R378, R402). -/
def privatePage (s : State) (k : Nat) (gr : Group) (a : Nat) (reads : Bool) : Except (BitVec 8 × BitVec 64) TlbEntry :=
  match walk s gr.ctx a with
  | .error f => .error (f, walkValue s (dieOfCore k) gr.ctx a f)
  | .ok t =>
    if !t.w || t.rmt.any (fun m => !s.domain.members.getLsbD m) || !reads && refusesStore s t a then .error (0x23, BitVec.ofNat 64 a)
    else if !t.host && t.rmt.isNone && s.coherenceLost.contains (t.phys a / 128) then .error (0x29, BitVec.ofNat 64 (bankOfTlb k))
    else if !t.host && t.rmt.isNone && reads && s.poison.contains (t.phys a / 128) then
      .error (0x29, BitVec.ofNat 64 (stackBank (t.phys a)))
    else .ok t

/-- The address of entry `e`'s row of lane `l` in the register stack. -/
def entryAddr (gr : Group) (l e : Nat) : Nat := (privateAddr gr l (4 * entryRowOf gr (lane gr.threads l) e)).toNat

/-- A word of private memory that a group's rows need: its lane, its address, and the tag of the request for it when it lies in another
module (`Message.tag`). -/
abbrev Cell := Nat × Nat × Nat

/-- The words of entry `e` of these lanes. -/
def rowCells (gr : Group) (e : Nat) (m : Mask) : List Cell := (lanesOf m).map fun l => (l, entryAddr gr l e, e + 1)

/-- The first word whose page cannot be accessed: its lane, with the fault. -/
def cellFault (s : State) (k : Nat) (gr : Group) (reads : Bool) (cs : List Cell) : Option (Nat × BitVec 8 × BitVec 64) :=
  cs.findSome? fun c => match privatePage s k gr c.2.1 reads with
    | .error f => some (c.1, f)
    | .ok _ => none

/-- The party that writes evicted rows of a group to another module's memory and, with `reads`, that reads them back; its KIND is one
that Table 11-4 does not use (log entry 96). -/
def rowParty (s : State) (g : Nat) (reads : Bool) : Word :=
  groupParty s g ||| BitVec.ofNat 32 (5 * 2 ^ 29 + if reads then 2 ^ 20 else 0)

/-- The party that writes the deposits of an RWRITE of a group to another module's memory (log entry 96). -/
def depositParty (s : State) (g : Nat) : Word := rowParty s g false ||| BitVec.ofNat 32 (2 ^ 19)

/-- A group leaves its slot: no access of its own, of its rows or of its deposits is awaited. -/
def leaveParties (s : State) (g : Nat) : State :=
  [groupParty s g, rowParty s g false, rowParty s g true, depositParty s g].foldl dropTickets s

/-- The granules of other modules in which these words lie, with the tags of their requests. -/
def farCells (s : State) (gr : Group) (cs : List Cell) : List (Nat × Nat × Nat) :=
  (cs.filterMap fun c => match walk s gr.ctx c.2.1 with
    | .ok t => t.rmt.map fun r => (r, t.phys c.2.1 / 4096, c.2.2)
    | .error _ => none).eraseDups

/-- Write the words of entry `e` of the lanes that have a thread to the register stack: those on pages for which `sel` holds. -/
def storeRow (s : State) (k : Nat) (gr : Group) (e : Nat) (sel : Nat → TlbEntry → Bool) : State :=
  let row := (tget gr.rows e).getD (.u 0)
  (lanesOf (presentMask gr)).foldl (fun s l => match privatePage s k gr (entryAddr gr l e) false with
    | .error _ => s
    | .ok t => if sel (entryAddr gr l e) t then frameWrite s t (entryAddr gr l e) (wordBytes (row.get l)) else s) s

/-- Write an evicted row to the register stack of every lane that has a thread; a page that a store could not reach faults the owning
group, and the row stays. Words that go to another module leave as requests over a link, and perform when these are answered (R377). -/
def evictRow (s : State) (g e : Nat) : State :=
  match s.group? g with
  | none => s
  | some gr => match cellFault s (coreOf g) gr false (rowCells gr e (liveMask gr)) with
    | some (l, f) => groupFault s g ⟨f.1, 1 <<< l, f.2, 0⟩
    | none =>
      let far := farCells s gr (rowCells gr e (presentMask gr))
      let s := far.foldl (fun s x => sendMessage s (rowParty s g false) x.1 x.2.1 x.2.2) s
      storeRow (s.setGroup g { gr with evicted := e :: gr.evicted, leaving := far.map (fun x => (e, x.1, x.2.1)) ++ gr.leaving })
        (coreOf g) gr e fun _ t => t.rmt.isNone

/-- The row that an expansion of group `g` evicts: the least recently used General row of another group of the core, else
one of the group itself, but none in `named` and none that the step uses; none of those in `stay`, which cannot leave. -/
def victimRow (s : State) (g : Nat) (named : List Nat) (stay : List (Nat × Nat)) : Option (Nat × Nat) :=
  let others := (s.groups.filter fun p => coreOf p.1 == coreOf g && p.1 != g).filterMap fun p =>
    (lruRow p.2 fun e => stay.contains (p.1, e)).map fun r => (p.1, r.1, r.2)
  let best := others.foldl (fun (b : Option (Nat × Nat × Nat)) x => match b with
    | some y => if x.2.2 < y.2.2 then some x else b
    | none => some x) none
  match best with
  | some (h, e, _) => some (h, e)
  | none => (s.group? g).bind fun gr =>
      (lruRow gr fun e => named.contains e || stay.contains (g, e) || (tget gr.use e).getD 0 == s.tick && (tget gr.use e).isSome).map
        fun r => (g, r.1)

/-- Evict rows one by one until the core's General rows have their slots; a row whose page faults its group stays. -/
def evictRows (g : Nat) (named : List Nat) : Nat → List (Nat × Nat) → State → State
  | 0, _, s => s
  | n + 1, stay, s =>
    if gRowsOfCore s (coreOf g) ≤ 4096 then s
    else match victimRow s g named stay with
      | none => s
      | some x => evictRows g named n (x :: stay) (evictRow s x.1 x.2)

/-- Keep the core's General rows within its 4,096 slots after an expansion by group `g`. -/
def balanceRows (s : State) (g : Nat) (named : List Nat) : State :=
  evictRows g named (if gRowsOfCore s (coreOf g) ≤ 4096 then 0 else gRowsOfCore s (coreOf g)) [] s

/-- The word of private memory at address `a`: a free value in a debug area (R381). -/
def stackWord (s : State) (t : TlbEntry) (a l : Nat) : Word :=
  if (List.range 4).any fun i => inDebug s t (a + i) then Config.freeWord (s.freeIx + l) else BitVec.ofNat 32 (leNat (frameRead s t a 4))

/-- The unspecified words of a row that has been read are used up. -/
def useWords (s : State) : State := { s with freeIx := s.freeIx + 32 }

/-- Requests about granules of other modules by one party: all answered, or the state that waits, or the granule of one that has had
no response for 1 ms (R377), which stays as it is. -/
def pollAll (s : State) (p : Word) (xs : List (Nat × Nat × Nat)) : Except (Option Nat × State) State :=
  let out (x : Nat × Nat × Nat) : Option Message := messageOf s p x.1 x.2.1 x.2.2
  match xs.findSome? fun x => (out x).bind fun m => if m.awaited s.realTime then none else some x.2.1 with
  | some f => .error (some f, s)
  | none =>
    if xs.any fun x => (out x).isNone then
      .error (none, xs.foldl (fun s x => if (messageOf s p x.1 x.2.1 x.2.2).isNone then sendMessage s p x.1 x.2.1 x.2.2 else s) s)
    else if xs.any fun x => (out x).any (·.lost) then .error (none, s)
    else .ok (xs.foldl (fun s x => dropMessage s p x.1 x.2.1 x.2.2) s)

/-- What becomes of words of private memory that are to be read. -/
inductive CellsAns where
  | ok (s : State)
  | wait (s : State)
  | fault (f : FaultInfo) (s : State)

/-- A request of the group in slot `g` has had no response for 1 ms: its core's bank records it (R377). -/
def lateCells (s : State) (g : Nat) (gr : Group) (gran : Nat) : CellsAns :=
  .fault ⟨0x29, liveMask gr, BitVec.ofNat 64 (bankOfTlb (coreOf g)), 0⟩ (logLate s (coreOf g) gr.ctx (4096 * gran))

/-- The words can be read: their pages grant it, none is lost or poisoned, and the requests for those in other modules have been
answered (R261, R377, R402). -/
def gatherCells (s : State) (g : Nat) (gr : Group) (cs : List Cell) : CellsAns :=
  match cellFault s (coreOf g) gr true cs with
  | some (l, f) => .fault ⟨f.1, 1 <<< l, f.2, 0⟩ s
  | none => match pollAll s (rowParty s g true) (farCells s gr cs) with
    | .error (some x, s) => lateCells s g gr x
    | .error (none, s) => .wait s
    | .ok s => .ok s

/-- The request for the word at address `a` has not been answered, so that the word cannot be read. -/
def cellOut (s : State) (g : Nat) (t : TlbEntry) (a tag : Nat) : Bool :=
  t.rmt.any fun m => (messageOf s (rowParty s g true) m (t.phys a / 4096) tag).isSome

/-- The row of entry `e` as the register stack holds it; an exited lane keeps the value it had, and so does one whose word cannot be
read. -/
def readStackRow (s : State) (g : Nat) (gr : Group) (e : Nat) : Lanes Word := perLane fun l =>
  let old := ((tget gr.rows e).getD (.u 0)).get l
  match privatePage s (coreOf g) gr (entryAddr gr l e) true with
  | .ok t => if (lane gr.threads l).live && !cellOut s g t (entryAddr gr l e) (e + 1) then stackWord s t (entryAddr gr l e) l else old
  | .error _ => old

/-- The words of evicted entry `e` that go to granule `x.2` of module `x.1` perform when their request is answered; after 1 ms without an
answer they are abandoned, and the group faults (R377). -/
def pushPart (g e : Nat) (x : Nat × Nat) (s : State) : State :=
  match s.group? g with
  | none => s
  | some gr =>
    let done (s : State) : State := s.setGroup g { gr with leaving := gr.leaving.filter (· != (e, x)) }
    match pollMessage s (rowParty s g false) x.1 x.2 (e + 1) with
    | .wait s => s
    | .late s => groupFault (logLate (done s) (coreOf g) gr.ctx (4096 * x.2)) g
        ⟨0x29, liveMask gr, BitVec.ofNat 64 (bankOfTlb (coreOf g)), 0⟩
    | .answered s => storeRow (done s) (coreOf g) gr e fun a t => t.rmt == some x.1 && t.phys a / 4096 == x.2

/-- The words of evicted rows for which `sel` holds, on their way to other modules. -/
def pushRows (s : State) (g : Nat) (sel : Nat → Bool) : State :=
  match s.group? g with
  | none => s
  | some gr => (gr.leaving.filter fun x => sel x.1).foldl (fun s x => pushPart g x.1 x.2 s) s

/-- An evicted row of group `g` returns to a General slot, once its words have reached other modules and the requests for those that
lie there have been answered; the group faults when a page cannot be read. -/
def bringRow (s : State) (g e : Nat) : State :=
  match s.group? g with
  | none => s
  | some gr =>
    if !gr.evicted.contains e then s
    else if gr.leaving.any (·.1 == e) then pushRows s g (· == e)
    else match gatherCells s g gr (rowCells gr e (liveMask gr)) with
      | .fault f s => groupFault s g f
      | .wait s => s
      | .ok s =>
        let gr' := { gr with rows := tset gr.rows e (.g (readStackRow s g gr e)), evicted := gr.evicted.filter (· != e)
                             use := tset gr.use e s.tick }
        balanceRows ((useWords s).setGroup g gr') g [e]

/-- An evicted row returns to a General slot at once, as it left the chip, and its requests are abandoned: a result is there for it that
cannot wait (R93, log entry 60). -/
def recallRow (s : State) (g e : Nat) : State :=
  match s.group? g with
  | none => s
  | some gr =>
    if !gr.evicted.contains e then s
    else
      let drop (reads : Bool) (s : State) (x : Nat × Nat × Nat) : State := dropMessage s (rowParty s g reads) x.1 x.2.1 x.2.2
      let far := farCells s gr (rowCells gr e (presentMask gr))
      (far.foldl (drop false) (far.foldl (drop true) s)).setGroup g { gr with
        evicted := gr.evicted.filter (· != e), leaving := gr.leaving.filter (·.1 != e), use := tset gr.use e s.tick }

/-! ## Traps (R90, R91) -/

/-- The handler address: the image's trap vector, else the context's default; 0 for none. -/
def trapVector (s : State) (gr : Group) : VA :=
  match s.image? gr.ctx gr.image with
  | some im => match im.trapvec with
    | some o => im.base + BitVec.ofNat 57 (im.codeoff + o)
    | none => (s.ctx gr.ctx).tvec
  | none => (s.ctx gr.ctx).tvec

/-- One thread enters its handler from position `here`, `next` being the position after it. A program counter is a
multiple of 4 (R20), so bits [1:0] of a default trap vector that has them are dropped (DESIGN CHOICE, log 82). -/
def enterHandler (t : Thread) (v : VA) (here next : CodePos) (cause : BitVec 8) (val : BitVec 64) : Thread :=
  { t with tcause := cause, tval := val, tpc := here.pc, resume := here, resumeNext := next, inHandler := true, hwb := (t.wb.toNat : Int),
           tpcWritten := false, at_ := atHeader (v &&& ~~~3), held := false, wait := .none }

/-- The handler bank at the entry of the lanes `m`: Uniform 0 when no other thread is in its handler, otherwise a
partial write of 0 (R90). -/
def bankOnEntry (gr : Group) (m : Mask) : Tab Row :=
  let others := (List.range 32).any fun l => !has m l && (lane gr.threads l).live && (lane gr.threads l).inHandler
  if others then
    (List.range 16).foldl (fun b n => tset b n (mergeRow ((tget b n).getD (.u 0)) (.u 0) m)) gr.bank
  else []

/-- The lanes `m` of group `g` take their traps together, each with its own cause, at position `here`, with the position
after the instruction: TakeTrap (R90). A double fault is raised by every trapping thread that is in its handler; its
VALUE holds the cause of the lowest. -/
def trapLanes (s : State) (g : Nat) (m : Mask) (cause : Nat → BitVec 8) (val : Nat → BitVec 64) (here next : Nat → CodePos)
    (word : Word) : State :=
  match s.group? g with
  | none => s
  | some gr =>
    let v := trapVector s gr
    let inside := maskOf fun l => has m l && (lane gr.threads l).inHandler
    if inside ≠ 0 then groupFault s g ⟨0x2A, inside, (cause (lowest inside)).setWidth 64, word⟩
    else if v = 0 then groupFault s g ⟨0x2A, m, 0, word⟩
    else
      let bank := bankOnEntry gr m
      let gr := leaveIssue gr m here
      let th := modLanes gr.threads m fun l t => enterHandler t v (here l) (next l) (cause l) (val l)
      balanceRows (s.setGroup g (settle { gr with threads := th, bank := bank })) g []

/-- The traps of the instruction in progress. -/
def trapIssue (s : State) (g : Nat) (m : Mask) (cause : Nat → BitVec 8) (val : Nat → BitVec 64) : State :=
  match s.group? g with
  | none => s
  | some gr => match gr.issue with
    | none => s
    | some i => trapLanes s g m cause val i.here i.after (i.words.getD i.pos 0)

/-! ## Profile counters (R391) -/

/-- The bin that a PC counts in; 16 is OTHER. -/
def binOf (d : Debug) (pc : Nat) : Nat :=
  ((List.range 16).find? fun i => match d.bins[i]? with
    | some (a, b) => decide (a ≤ pc) && decide (pc < b)
    | none => false).getD 16

def BinCount.zero : BinCount := ⟨0, 0, 0, 0, 0, 0⟩

/-- Add to a bin. -/
def bumpBin (d : Debug) (b : Nat) (f : BinCount → BinCount) : Debug :=
  { d with counts := tset d.counts b (f ((tget d.counts b).getD .zero)) }

/-- 64-bit counters saturate (R391). -/
def sat64 (n : Nat) : Nat := if n < 2 ^ 64 then n else 2 ^ 64 - 1

/-- One issue of a Running context: on the lanes it classifies the 32 lanes by the Active() of the issue, on the scalar path it
counts SCALAR and leaves the lanes idle. It opens a quadrant-cycle or, with `joins`, shares that of an issue on the other path, whose
lanes an issue on the scalar path had left idle. -/
def profile (s : State) (c : Ctl) (scalar joins : Bool) : State :=
  match if (s.ctx c.gr.ctx).state = .running then (s.ctx c.gr.ctx).debug else none with
  | none => s
  | some d =>
    let b := binOf d c.pc.toNat
    let act := activeMask c.gr c.iss
    let count (p : Nat → Bool) : Nat := ((List.range 32).filter p).length
    let d' := if scalar then bumpBin d b fun x => { x with scalar := sat64 (x.scalar + 1) }
      else
        let absent l := !(lane c.gr.threads l).present
        let off l := !absent l && has c.iss.set l && !has c.iss.guard l
        bumpBin d b fun x =>
          { x with
            active := sat64 (x.active + count (has act))
            predoff := sat64 (x.predoff + count off)
            absent := sat64 (x.absent + count absent)
            masked := sat64 (x.masked + count fun l => !has act l && !off l && !absent l) }
    let idle := if scalar && !joins then sat64 (d.idle + 32) else if !scalar && joins then d.idle - 32 else d.idle
    s.modCtx c.gr.ctx fun x => { x with debug := some { d' with
      idle := idle, runcyc := if joins then d.runcyc else sat64 (d.runcyc + 1) } }

/-- Count one dependence event (R42, R391). -/
def countDep (s : State) (c : Ctl) : State :=
  let s := { s with turns := { s.turns with depends := c.g :: s.turns.depends.filter (· != c.g) } }
  if c.iss.depCounted then s
  else
    let s := s.modGroup c.g fun g => { g with depEvents := g.depEvents + 1
                                              issue := g.issue.map fun i => { i with depCounted := true } }
    s.modCtx c.gr.ctx fun x => { x with debug := x.debug |>.map fun d =>
      { bumpBin d (binOf d c.pc.toNat) (fun b => { b with depev := sat64 (b.depev + 1) }) with
        depevt := sat64 (d.depevt + 1) } }

/-! ## Instruction comparators (R383, R384, R386) -/

/-- The stage and coordinate filters of a comparator. -/
def icmpApplies (t : Team) (k : ICmp) (pc : Nat) : Bool :=
  k.ctl.getLsbD 0 && decide (k.start < pc + 4) && decide (pc < k.end_)
  && (!k.ctl.getLsbD 1 || t.stage == k.stage)
  && (!k.ctl.getLsbD 2 || (t.x == k.x && t.y == k.y && t.z == k.z))

/-- The lanes that a comparator does not match again after RESUME (R386). -/
def exempt (g : Group) (k : Nat) : Mask := (g.skipCmp.filter (·.1 == k)).foldl (fun m p => m ||| p.2) 0

/-- The exemptions that are left once the lanes `act` have issued. -/
def dropExempt (l : List (Nat × Mask)) (act : Mask) : List (Nat × Mask) :=
  (l.map fun p => (p.1, p.2 &&& ~~~act)).filter (·.2 != 0)

/-- Check the comparators of one issue: the lowest one that stops it with the lanes it stops, and the counts after. -/
def checkICmp (g : Group) (t : Team) (act : Mask) (pc : Nat) : Nat → List ICmp → Option (Nat × Mask) × List ICmp
  | _, [] => (none, [])
  | n, k :: ks =>
    let m := act &&& ~~~exempt g n
    let r := checkICmp g t act pc (n + 1) ks
    if icmpApplies t k pc && m != 0 then
      if k.skip = 0 then (some (n, m), k :: r.2) else (r.1, { k with skip := k.skip - 1 } :: r.2)
    else (r.1, k :: r.2)

/-! ## The convergence set (R174) -/

/-- The thread can be in a convergence set: live, not held, not sleeping or blocked. -/
def Thread.free (t : Thread) : Bool := t.live && !t.held && t.wait == .none

/-- The set of the free threads that stand where lane `l` stands: one PC of one clause, all or none in their handlers. -/
def convergenceSet (gr : Group) (l : Nat) : Mask :=
  let t := lane gr.threads l
  if !t.free then 0
  else maskOf fun i =>
    let u := lane gr.threads i
    u.free && u.at_.hdr == t.at_.hdr && u.at_.pos == t.at_.pos && u.inHandler == t.inHandler

/-- Every flag of the wait mask is clear. -/
def flagsClear (gr : Group) (w : BitVec 12) : Bool := (List.range 12).all fun n => !w.getLsbD n || flagCount gr n == 0

/-- The set that lane `l` stands in is runnable (R174): its clause can be decoded and every flag of its wait mask is clear. -/
def runnableSet (s : State) (g : Nat) (gr : Group) (l : Nat) : Bool :=
  let a := (lane gr.threads l).at_
  convergenceSet gr l != 0 && match lookup s (coreOf g) gr.ctx a.hdr.toNat with
    | none => false
    | some e => e.rmt.isNone && match decodeHeader gr.enc (BitVec.ofNat 32 (leNat (frameRead s e a.hdr.toNat 4))) with
      | .ok hd => a.pos != 0 || flagsClear gr hd.wait
      | .error _ => true

/-! ## The shares of the issue cycles (R177, R178) -/

/-- The quadrant of a group. -/
def quadrantOf (g : Nat) : Nat := 4 * coreOf g + slotOf g % 4

/-- The group can issue: the next instruction of its clause in issue, or a clause for a runnable set. -/
def readyGroup (s : State) (g : Nat) (gr : Group) : Bool :=
  gr.phase == .running && match gr.issue with
    | some i => i.op.isNone
    | none => (List.range 32).any fun l => runnableSet s g gr l

/-- Group `g` tries to issue; one that stalls then is not ready. -/
def tryTurn (s : State) (g : Nat) : State :=
  { s with turns := { s.turns with
      starved := terase s.turns.starved g, stalled := g :: s.turns.stalled.filter (· != g), depends := s.turns.depends.filter (· != g) } }

/-- An instruction of group `g` can share the issue cycle of its quadrant in progress, of which the other path alone is used (R178). -/
def joinsCycle (s : State) (g : Nat) (scalar : Bool) : Bool := tget s.turns.used (quadrantOf g) == some (scalar, !scalar)

/-- The issue cycles in progress are over. -/
def endedTurns (t : Turns) : Turns := { t with used := [], issuers := [] }
def endCycles (s : State) : State := { s with turns := endedTurns s.turns }

/-- An instruction of group `g` takes its path of its quadrant's issue cycle, or opens the next cycle, which every other ready
group of the quadrant counts. -/
def takeTurn (s : State) (g : Nat) (scalar : Bool) : State :=
  let q := quadrantOf g
  let turns := { s.turns with stalled := s.turns.stalled.filter (· != g), depends := s.turns.depends.filter (· != g) }
  if joinsCycle s g scalar then
    { s with turns := { turns with
        used := tset s.turns.used q (true, true), starved := terase s.turns.starved g
        issuers := tset s.turns.issuers q (g :: (tget s.turns.issuers q).getD []) } }
  else
    let starved := s.groups.foldl (fun m p =>
      if quadrantOf p.1 == q && p.1 != g then
        if readyGroup s p.1 p.2 then tset m p.1 ((tget m p.1).getD 0 + 1) else terase m p.1
      else m) s.turns.starved
    { s with turns := { turns with
        used := tset s.turns.used q (!scalar, scalar), starved := terase starved g, issuers := tset s.turns.issuers q [g] } }

/-- The instruction in progress takes its place in an issue cycle, which the profile counts (R177, R178, R391): once, also when some of
its lanes trap before the others go on, or pass it after them (R90). -/
def takeIssue (s : State) (c : Ctl) (scalar : Bool) : State :=
  if c.iss.taken then s
  else (profile (takeTurn s c.g scalar) c scalar (joinsCycle s c.g scalar)).modGroup c.g fun g =>
    { g with issue := g.issue.map fun i => { i with taken := true } }

/-- The first issue of the lanes `m` of group `g` after a stop at a comparator has come: their exemptions are over (R386). -/
def spendExempt (s : State) (g : Nat) (m : Mask) : State := s.modGroup g fun g => { g with skipCmp := dropExempt g.skipCmp m }

/-- The instruction in progress issues and raises a fault. -/
def faultHere (s : State) (c : Ctl) (f : FaultInfo) : State := groupFault (spendExempt (takeIssue s c false) c.g c.act) c.g f

/-- The lanes `m` trap at the instruction in progress, which others of its lanes issue. -/
def trapSome (s : State) (g : Nat) (m : Mask) (cause : Nat → BitVec 8) (val : Nat → BitVec 64) : State :=
  trapIssue (spendExempt s g m) g m cause val

/-- The instruction in progress issues, and the lanes `m` trap. -/
def trapHere (s : State) (c : Ctl) (m : Mask) (cause : Nat → BitVec 8) (val : Nat → BitVec 64) : State :=
  trapSome (takeIssue s c false) c.g m cause val

/-- The instruction in progress issues, and comparator `n` stops it for the lanes `m` (R383). They keep the exemptions that they have,
so that two comparators at one place do not stop them in turn for ever (R386). -/
def stopAtCmp (s : State) (c : Ctl) (n : Nat) (m : Mask) : State :=
  groupFault (takeIssue s c false) c.g ⟨0x28, m, BitVec.ofNat 64 n, c.word⟩

/-! ## The frame of every instruction -/

/-- The comparators of an instruction's first check, once per issue; then the meaning `k`. -/
def withDebug (s : State) (c : Ctl) (k : State → State) : State :=
  if c.iss.checked then k s
  else
    let mark := fun s : State => s.modGroup c.g fun g => { g with issue := g.issue.map fun i => { i with checked := true } }
    match (s.ctx c.gr.ctx).debug, s.team? c.gr.team with
    | some d, some t =>
      let r := checkICmp c.gr t c.act c.pc.toNat 0 d.icmp
      let s := s.modCtx c.gr.ctx fun x => { x with debug := some { d with icmp := r.2 } }
      match r.1 with
      | some (n, m) => stopAtCmp s c n m
      | none => k (mark s)
    | _, _ => k (mark s)

/-- The states in which a context's threads issue: Running, and Saving and Halting until each group is stopped (R92,
R97). -/
def issuing (x : CtxState) : Bool :=
  match x with
  | .running | .saving | .halting => true
  | _ => false

/-- The current group's instruction in progress, if it has one. -/
def currentCtl (s : State) : Option Ctl :=
  match s.group? s.cur with
  | none => none
  | some gr => match gr.issue with
    | none => none
    | some i => match decodeHeader gr.enc i.header with
      | .error _ => none
      | .ok hd =>
        if gr.phase = .running ∧ i.pos < i.words.length ∧ issuing (s.ctx gr.ctx).state then
          some ⟨s.cur, gr, i, hd, activeMask gr i, i.words.getD i.pos 0, i.pc⟩
        else none

/-- Run the meaning `k` for the active lanes of the instruction in progress. With no active lane the instruction takes its
issue cycle and passes (R28, R175); with no clause in issue, or with the instruction's ordered accesses still to perform (R279),
nothing happens. -/
def withIssue (s : State) (k : Ctl → State → State) : Out :=
  match currentCtl s with
  | none => .next s
  | some c =>
    if c.iss.op.isSome then .next s
    else if c.act = 0 then .next ((takeIssue s c false).modGroup c.g advance)
    else .next (withDebug (tryTurn s c.g) c (k c))

/-- The instruction has issued: count it, and drop the exemptions of R386 for its lanes. -/
def issued (s : State) (c : Ctl) (scalar : Bool) : State := spendExempt (takeIssue s c scalar) c.g c.act

/-- The instruction has taken effect: count it and pass to the next one. -/
def finish (s : State) (c : Ctl) (scalar : Bool) : State := (issued s c scalar).modGroup c.g advance

/-! ## Pending names (R42, R67, R351) -/

/-- The names of a field that spans `k` names: none for vz, ports and vlane. -/
def namesOf (r : Reg) (k : Nat) : List Nat := if r.toNat < 120 then (List.range k).map (r.toNat + ·) else []

/-- The first pending one of these names for lane `l`. The manual says only that TVAL reports "the pending name"; where an
instruction names several, the model takes them in the order of the source fields, then vd, then FPX or the stream
register: DESIGN CHOICE (log entry 62). -/
def pendingName (g : Group) (l : Nat) (ns : List Nat) : Option Nat :=
  ns.find? fun n => pendingRow g l (refOf (lane g.threads l) n)

/-- Uncovered accesses (R42): `p` gives TVAL for a lane that has one. Under strict dependence those lanes trap;
otherwise the group stalls and counts one event. -/
def withDeps (s : State) (c : Ctl) (p : Nat → Option Nat) (k : State → State) : State :=
  let m := maskOf fun l => has c.act l && (p l).isSome
  if m = 0 then k s
  else if (s.ctx c.gr.ctx).sd then trapHere s c m (fun _ => 0x03) fun l => BitVec.ofNat 64 ((p l).getD 0)
  else countDep s c

/-! ## Blocking -/

/-- The lanes `m` block at the instruction, which has taken no effect for them. -/
def blockMask (s : State) (c : Ctl) (m : Mask) (w : Nat → Wait) : State :=
  s.modGroup c.g fun g =>
    settle (leaveIssue (onThreads g m fun l t => { t with wait := w l, after := c.iss.after l }) m c.iss.here)

/-- The active lanes block before the instruction, which has taken no effect. -/
def blockLanes (s : State) (c : Ctl) (w : Nat → Wait) : State := blockMask s c c.act w

/-! ## Source fields (R36 to R38) -/

/-- A source field: its register field and how many names it spans. -/
abbrev Src := Reg × Nat

/-- The instance a port is bound to. -/
def portQueue (s : State) (p : Port) : Option QueueInst := s.queue? p.inst

/-- The ports among the source fields, in order. -/
def srcPorts (fs : List Src) : List Reg := (fs.map (·.1)).filter isPort

/-- A queue-misuse fault of the instruction in progress (R425). -/
def misuse (s : State) (c : Ctl) (v : BitVec 64) : State := faultHere s c ⟨0x26, c.act, v, c.word⟩

/-- The first fault of the ports an instruction names: unbound, or bound the other way (R127, R425). -/
def portFault (g : Group) (srcs : List Reg) (dst : Option Reg) : Option (BitVec 64) :=
  let bad (r : Reg) (producer : Bool) : Option (BitVec 64) :=
    match portOf g r with
    | none => some (unboundValue r)
    | some p => if p.producer == producer then none else some (p.ident.setWidth 64)
  match srcs.findSome? fun r => bad r false with
  | some v => some v
  | none => match dst with
    | some r => bad r true
    | none => none

/-- The entries that source ports pop of instance `inst`, by whichever ports they reach it. -/
def popCount (g : Group) (srcs : List Reg) (inst : Nat) : Nat :=
  srcs.countP fun r => (portOf g r).map (·.inst) == some inst

/-- What the first source port that lacks its entries decides (R424). -/
def popAll (s : State) (g : Group) (srcs : List Reg) : Option (Reg × PopAns) :=
  srcs.findSome? fun r => match portOf g r with
    | none => none
    | some p => match portQueue s p with
      | none => some (r, .misuse)
      | some q => match q.popAns (popCount g srcs p.inst) with
        | .ready => none
        | a => some (r, a)

/-- Pop the entries of every source port, in order: the rows received and the state. -/
def doPops (s : State) (g : Group) : List Reg → List Row × State
  | [] => ([], s)
  | r :: rs =>
    match (portOf g r).bind fun p => (portQueue s p).map fun q => (p, q) with
    | none => let t := doPops s g rs; (.u 0 :: t.1, t.2)
    | some (p, q) =>
      let s := s.modQueue p.inst QueueInst.pop
      let t := doPops s g rs
      (entryRow q (q.entries.headD []) :: t.1, t.2)

/-- The entries that source ports pop, in order, with their instances. -/
def popsOf (s : State) (g : Group) : List Reg → List (Nat × List Word)
  | [] => []
  | r :: rs => match (portOf g r).bind fun p => (portQueue s p).map fun q => (p, q) with
    | none => popsOf s g rs
    | some (p, q) => (p.inst, q.entries.headD []) :: popsOf (s.modQueue p.inst QueueInst.pop) g rs

/-- The active lanes block at an instruction that has popped its ports `srcs` in state `s0`: the group remembers the
entries, in the place of those of the same lanes before. -/
def keepPops (s0 s : State) (c : Ctl) (srcs : List Reg) : State :=
  let new := (popsOf s0 c.gr srcs).map fun p => (⟨c.act, c.iss.here (lowest c.act), p.1, p.2⟩ : Popped)
  if new.isEmpty then s else s.modGroup c.g fun g => { g with popped := g.popped.filter (·.set &&& c.act == 0) ++ new }

/-- The lane still waits at the instruction that popped. -/
def waitsAt (gr : Group) (p : Popped) (l : Nat) : Bool :=
  let t := lane gr.threads l
  t.live && t.at_ == p.pos && match t.wait with
    | .bwait .. | .sleep .. | .rwait _ => true
    | _ => false

/-- The instruction has had its effect for no lane: each one waits, or has left it by a trap. -/
def ineffective (gr : Group) (p : Popped) : Bool := (lanesOf p.set).all fun l => waitsAt gr p l || (lane gr.threads l).inHandler

/-- Entries of blocked instructions go back to the front of their queues, the last popped first (R93, R97). -/
def putBack (s : State) (gr : Group) (ps : List Popped) : State :=
  (ps.filter (ineffective gr)).foldr (fun p s => s.modQueue p.inst fun q =>
    { q with entries := p.entry :: q.entries, state := if q.state = .closed then .draining else q.state }) s

/-- The rows of the source fields, each span name by name, taking popped rows in order (ReadName, Table 0-2). -/
def srcRows (g : Group) (act : Mask) : List Src → List Row → List Row
  | [], _ => []
  | (r, k) :: fs, pops =>
    if isPort r then pops.headD (.u 0) :: srcRows g act fs (pops.drop 1)
    else if r.toNat < 120 then ((List.range k).map fun i => readName g act (r.toNat + i)) ++ srcRows g act fs pops
    else if r = 126 then .a 0 1 :: srcRows g act fs pops
    else List.replicate k (.u 0) ++ srcRows g act fs pops

/-- The destination as a port, when it names one. -/
def dstPort (d : Reg) : Option Reg := if isPort d then some d else none

/-- Bring the sources in: ports checked, entries popped at one instant, or the lanes blocked, trapped or faulted with
nothing popped (R37, R128, R424). `k` receives the rows and the state after the pops. -/
def withSources (s : State) (c : Ctl) (fs : List Src) (d : Reg) (k : List Row → State → State) : State :=
  let ps := srcPorts fs
  let dp := dstPort d
  if ps.isEmpty && dp.isNone then k (srcRows c.gr c.act fs []) s
  else match portFault c.gr ps dp with
    | some v => misuse s c v
    | none =>
      if orderedOut c.gr then s
      else match popAll s c.gr ps with
        | some (r, a) =>
          let p := portOf c.gr r
          match a with
          | .orphan =>
            let s := match p with
              | some p => s.modQueue p.inst QueueInst.orphan
              | none => s
            trapHere s c c.act (fun _ => 0x08) fun _ => BitVec.ofNat 64 r.toNat
          | .misuse => misuse s c ((p.map (·.ident.setWidth 64)).getD 0)
          | _ => blockLanes s c fun _ => .port c.word
        | none =>
          let room := match dp.bind (portOf c.gr) with
            | none => (PopAns.ready, (0 : BitVec 64))
            | some p => match portQueue s p with
              | none => (.misuse, p.ident.setWidth 64)
              | some q => (pushAns s q, p.ident.setWidth 64)
          match room.1 with
          | .ready => let r := doPops s c.gr ps; k (srcRows c.gr c.act fs r.1) r.2
          | .misuse => misuse s c room.2
          | _ => blockLanes s c fun _ => .port c.word

/-- Push a result when the destination names a port (R37). -/
def pushDst (s : State) (c : Ctl) (d : Reg) (v : Row) : State :=
  match (dstPort d).bind (portOf c.gr) with
  | none => s
  | some p => s.modQueue p.inst fun q => q.push (pushEntry q c.act v)

/-! ## Named rows (R182) -/

/-- The entries that the named fields reach, for every active lane. -/
def entriesOf (c : Ctl) (ns : List Nat) : List Nat :=
  (ns.flatMap fun n => (lanesOf c.act).filterMap fun l => match refOf (lane c.gr.threads l) n with
    | .stack p => some (p % c.gr.budget)
    | _ => none).eraseDups

/-- A named row that is evicted stalls the group until it is read back; otherwise the rows are marked used (R182). -/
def withRows (s : State) (c : Ctl) (ns : List Nat) (k : State → State) : State :=
  let es := entriesOf c ns
  if es.any c.gr.evicted.contains then s
  else k (s.modGroup c.g fun g => { g with use := es.foldl (fun u e => tset u e s.tick) g.use })

/-! ## Instructions that write one name, predicates or thread state -/

/-- What such an instruction computes: the row for its destination, and the new state of each active thread. -/
structure RegOut where
  row : Row
  thr : Nat → Thread → Thread

/-- Every name that the fields reach. -/
def allNames (fs : List Src) (d : Reg) : List Nat := (fs.flatMap fun f => namesOf f.1 f.2) ++ namesOf d 1

/-- Table 8-1 gives a Uniform or Affine result, so that a full write goes to the scalar path (R178): an Affine one of Uniform and
Affine sources, or a Uniform one of Uniform sources alone. An instruction of another shape rule of its own goes to the lanes. -/
def scalarShape (rows : List Row) (r : Row) : Bool :=
  match r with
  | .u _ => rows.all (·.tag == 0)
  | .a .. => rows.all (·.tag != 2)
  | .g _ => false

/-- The row of an instruction that writes no name: it has no result shape and goes to the lanes (R178, R212). -/
def noResult : Row := .g (perLane fun _ => 0)

/-- Write the result of a register instruction: the row, the threads, the push, and the next instruction. -/
def writeOut (s : State) (c : Ctl) (d : Reg) (rows : List Row) (o : RegOut) : State :=
  let s := s.modGroup c.g fun g =>
    let g := writeDst g c.act d o.row
    { g with threads := modLanes g.threads c.act o.thr }
  let s := pushDst s c d o.row
  finish (balanceRows s c.g (entriesOf c (namesOf d 1))) c (wholeWrite c.gr c.act && scalarShape rows o.row)

/-- A fixed-latency instruction with destination `d` and sources `fs`, the old value of `d` last when it reads it:
pending names, pops, then the result of `f`, or its fault with nothing popped. `extra` adds pending accesses. -/
def runReg (d : Reg) (fs : List Src) (extra : Ctl → Nat → Option Nat)
    (f : Ctl → State → List Row → Except FaultInfo RegOut) (s : State) : Out :=
  withIssue s fun c s =>
    let ns := allNames fs d
    withDeps s c (fun l => (pendingName c.gr l ns).orElse fun _ => extra c l) fun s =>
      withRows s c ns fun s =>
        withSources s c fs d fun rows s' =>
          match f c s' rows with
          | .ok o => writeOut s' c d rows o
          | .error e => faultHere s c e

/-- No further pending access. -/
def noExtra : Ctl → Nat → Option Nat := fun _ _ => none

/-- Row `i` of the sources. -/
def src (rows : List Row) (i : Nat) : Row := rows.getD i (.u 0)

/-- Every row is Uniform. -/
def allU (rows : List Row) : Bool := rows.all (·.tag == 0)

/-- A lanewise result: Uniform when every source is Uniform, otherwise General (Table 8-1). -/
def lanewise (rows : List Row) (h : Nat → Word) : Row := if allU rows then .u (h 0) else .g (perLane h)

/-- The thread unchanged. -/
def sameThread : Nat → Thread → Thread := fun _ t => t

/-- OR flags into FPX (R66). -/
def orFpx (fl : Nat → FFlags) : Nat → Thread → Thread := fun l t => { t with fpx := t.fpx ||| fl l }

end Sys2Proof.Machine
end

