-- ==== Sys2Proof/Machine/Flags.lean ====
section
/-! DEFINITION. Rounding-mode selection, suppression of FPX updates, saturation and predicates (R62, R63, R66, R69,
R213). -/
namespace Sys2Proof.Machine

/-- The rounding mode that m[2:1] selects for a thread (Table 3-4). -/
def modeOf (m : BitVec 3) (t : Thread) : BitVec 2 :=
  match m.toNat / 2 with
  | 0 => t.rm
  | 1 => 1
  | 2 => 2
  | _ => 3

/-- m[0] = 1 suppresses every FPX update (R63). -/
def nfFlags (m : BitVec 3) (f : FFlags) : FFlags := if m.getLsbD 0 then 0 else f

/-- Clamp to a range: the value and SAT (R69). -/
def saturate (x lo hi : Int) : Int × FFlags := let y := clamp x lo hi; (y, flagIf (y != x) fSAT)

/-- Clamp to the signed 32-bit range. -/
def satS32 (x : Int) : Word × FFlags := let r := saturate x (-2147483648) 2147483647; (wrap32 r.1, r.2)
/-- Clamp to the unsigned 32-bit range. -/
def satU32 (x : Int) : Word × FFlags := let r := saturate x 0 4294967295; (wrap32 r.1, r.2)

/-- Predicate `i` of a thread. -/
def Thread.pred (t : Thread) (i : BitVec 3) : Bool := t.preds.getLsbD i.toNat

/-- A thread with predicate `i` written. -/
def Thread.setPred (t : Thread) (i : BitVec 3) (b : Bool) : Thread :=
  { t with preds := if b then t.preds ||| (1 <<< i.toNat : BitVec 8) else t.preds &&& ~~~(1 <<< i.toNat : BitVec 8) }

/-- A thread of the group as an instruction reads it. -/
def Ctl.thread (c : Ctl) (l : Nat) : Thread := lane c.gr.threads l

/-- A predicate as 0 or 1. -/
def bit (b : Bool) : Nat := if b then 1 else 0

end Sys2Proof.Machine
end

