-- ==== Sys2Proof/Machine/LongLatency.lean ====
section
/-! DEFINITION. Long-latency operations: issue under a completion flag, and completion, which writes the result, merges
FPX flags and lowers the flag (R40 to R42, R67, R181). -/
namespace Sys2Proof.Machine

/-- An instruction whose increment would overflow its flag waits at issue (R40). -/
def withFlag (s : State) (c : Ctl) (f : Option Nat) (k : State → State) : State := if flagFull c.gr f then s else k s

/-- The flag that m[0] selects: FA, or FB (Table 2-6). -/
def flagOf (c : Ctl) (m : BitVec 3) : Option Nat := if m.getLsbD 0 then c.hd.fb else c.hd.fa

/-- The destination rows of a field that spans `k` names, for every lane. -/
def destOf (g : Group) (d : Reg) (k : Nat) : List (Lanes RowRef) := (namesOf d k).map (refsOf g)

/-- Start an operation of the instruction in progress: `f` fills in what it does. -/
def startOp (s : State) (c : Ctl) (flag : Option Nat) (f : Op → Op) : State :=
  s.modGroup c.g fun g => addOp g (f (Op.plain g c.word flag c.act))

/-- The values that an operation has bound for a lane. -/
def Op.value (o : Op) (l i : Nat) : Word :=
  match o.got.find? (·.1 == l) with
  | some p => p.2.getD i 0
  | none => 0

/-- The row is still on chip for the thread: one that a SYSW to WRES has dropped takes no value (R185). -/
def residentRef (g : Group) (l : Nat) : RowRef → Bool
  | .stack p => let w := (lane g.threads l).wres.toNat; decide (w ≤ p) && decide (p < w + g.budget)
  | _ => true

/-- Write value `i` of an operation to its rows: one Uniform row when the result is Uniform and the write full (R181). A lane that has
exited since takes the value too: DESIGN CHOICE, R187 gives its names the value at its EXIT and R198 lets its operations complete (log
entry 100). -/
def writeOpRow (g : Group) (o : Op) (i : Nat) (rows : Lanes RowRef) : Group :=
  let ls := (lanesOf o.lanes).filter fun l => residentRef g l (lane rows l)
  let r := lane rows (lowest o.lanes)
  if o.full && o.uni && ls.length == (lanesOf o.lanes).length && ls.all fun l => lane rows l == r then setRowAt g r (.u (o.value (lowest o.lanes) i))
  else ls.foldl (fun g l => setLaneAt g (lane rows l) l (o.value l i)) g

/-- Write every value of an operation. -/
def writeOpRows (g : Group) (o : Op) : Nat → List (Lanes RowRef) → Group
  | _, [] => g
  | i, rows :: rest => writeOpRows (writeOpRow g o i rows) o (i + 1) rest

/-- Write the stream register of an SLD, and merge the flags of a floating operation into FPX. -/
def mergeOpThreads (g : Group) (o : Op) : Group :=
  { g with threads := modLanes g.threads o.lanes fun l t =>
      let t := if o.fpxPending then { t with fpx := t.fpx ||| lane o.fflags l } else t
      match o.stream, o.streamGot.find? (·.1 == l) with
      | some q, some p => { t with streams := Vector.ofFn fun i => if i.val = q then p.2 else t.streams[i] }
      | _, _ => t }

/-- The operation completes for every active lane: its result is written, its flag falls. -/
def completeOp (g : Group) (o : Op) : Group :=
  abandonOp (mergeOpThreads (writeOpRows g o 0 o.dest) o) o

/-- The on-chip entries that the results of an operation go to. -/
def opEntries (gr : Group) (o : Op) : List Nat :=
  (o.dest.flatMap fun rows => (lanesOf o.lanes).filterMap fun l => match lane rows l with
    | .stack p => if residentRef gr l (.stack p) then some (p % gr.budget) else none
    | _ => none).eraseDups

/-- Evicted rows that a result goes to are read back first (R182). -/
def bringOp (s : State) (g : Nat) (o : Op) : State :=
  match s.group? g with
  | none => s
  | some gr => (opEntries gr o).foldl (fun s e => bringRow s g e) s

/-- The rows of the operation are on chip. -/
def opOnChip (gr : Group) (o : Op) : Bool := !(opEntries gr o).any gr.evicted.contains

/-- The operation completes, once its rows are on chip; it is abandoned when a page of them cannot be read, which faults the group,
and waits for rows that lie in another module. -/
def landOp (s : State) (g : Nat) (o : Op) : State :=
  let s := bringOp s g o
  match s.group? g with
  | none => s
  | some gr =>
    if opOnChip gr o then balanceRows (s.setGroup g (completeOp gr o)) g (opEntries gr o)
    else if gr.fault.isSome then s.setGroup g (loseOp gr o)
    else s

/-- The operation for one lane alone. -/
def Op.oneLane (o : Op) (l : Nat) : Op := { o with lanes := (1 <<< l : Mask) }

/-- The evicted row that lane `l`'s value of an operation goes to is read back, and the state tells whether the value can be written: the
row is on chip, or its group has faulted. -/
def bringLane (s : State) (g : Nat) (o : Op) (l : Nat) : State × Bool :=
  let s := bringOp s g (o.oneLane l)
  (s, (s.group? g).all fun gr => opOnChip gr (o.oneLane l) || gr.fault.isSome)

/-- The group once the value of one lane has been written before the others' (R294): the lane is pending no longer. A value whose row
is not on chip, which only a group that has faulted meets, is dropped. -/
def landedLane (gr : Group) (o : Op) (l : Nat) (v : Word) : Group :=
  let row : RowRef := match o.dest with
    | rows :: _ => lane rows l
    | [] => .nowhere
  let gr := if opOnChip gr (o.oneLane l) && residentRef gr l row && row != .nowhere then setLaneAt gr row l v else gr
  let done (rows : Lanes RowRef) : Lanes RowRef := perLane fun i => if i = l then .nowhere else lane rows i
  modOp gr o.id fun o => { o with dest := o.dest.map done }

def landLane (s : State) (g : Nat) (o : Op) (l : Nat) (v : Word) : State :=
  match s.group? g with
  | none => s
  | some gr => balanceRows (s.setGroup g (landedLane gr o l v)) g (opEntries gr (o.oneLane l))

end Sys2Proof.Machine
end

