-- ==== Sys2Proof/Machine/StreamMem.lean ====
section
/-! DEFINITION. The memory events of the stream engine: the chunks of an SLD as they perform, and the party that the
engine is ("The Stochastic-Stream Engine", R350, R362; Table 11-4, KIND 3). -/
namespace Sys2Proof.Machine

/-- The stream engine of a core as a party. -/
def streamParty (s : State) (g : Nat) : Word :=
  BitVec.ofNat 32 (3 * 2 ^ 29 + s.domain.own * 2 ^ 23 + dieOfGroup g * 2 ^ 21 + (coreOf g % 48) * 2 ^ 11)

/-- The operation is an SST. -/
def Op.isSst (o : Op) : Bool := o.word.toNat / 2 ^ 24 == 0xCA

/-- Whose accesses an operation's are (R276, R350). -/
def opParty (s : State) (g : Nat) (o : Op) : Word := if o.isSst || o.stream.isSome then streamParty s g else groupParty s g

/-- The machine-check bank of the cluster of a group's core (Table 18-4). -/
def clusterBank (g : Nat) : Nat := 32 * dieOfGroup g + coreOf g % 48 / 4

/-- A tag that Table 15-1 allows with VALID set. -/
def tagOk (t : BitVec 64) : Bool :=
  t.getLsbD 0 && t.toNat / 2 % 4 != 0 && t.toNat / 2 ^ 4 % 2 ^ 12 == 0 && t.toNat / 2 ^ 32 == 0

/-- Length in bits of a stream by its tag. -/
def tagLen (t : BitVec 64) : Nat := 256 * 2 ^ (t.toNat / 2 % 4 - 1)

/-- The accesses of the data chunks of a record at `va`. -/
def dataChunks (l : Nat) (va : VA) (t : BitVec 64) : List Acc :=
  (List.range (tagLen t / 128)).map fun i => ⟨l, va + BitVec.ofNat 57 (16 + 16 * i), 16, .load, false⟩

/-- An SLD after one of its chunks has been read: the record's first chunk gives the tag and the accesses that follow. -/
def sldGot (o : Op) (a : Acc) (b : List Byte) : Op :=
  let rest := o.left.drop 1
  match o.streamGot.find? (·.1 == a.lane) with
  | none =>
    let t := BitVec.ofNat 64 (leNat (b.take 8))
    if tagOk t then
      { o with left := dataChunks a.lane a.va t ++ rest, streamGot := o.streamGot ++ [(a.lane, ⟨t, 0⟩)] }
    else { o with left := rest, streamGot := o.streamGot ++ [(a.lane, .invalid)] }
  | some _ =>
    let here := ((rest.takeWhile fun x => x.lane == a.lane).length : Nat)
    { o with
      left := rest
      streamGot := o.streamGot.map fun p =>
        if p.1 = a.lane then
          let n := tagLen p.2.tag / 128 - 1 - here
          (p.1, { p.2 with data := p.2.data ||| BitVec.ofNat 1024 (leNat b) <<< (128 * n) })
        else p }

/-- The stream engine of core `k` is free again when no SLD or SST of its groups is in progress (R346). -/
def releaseStream (s : State) (k : Nat) : State :=
  if (s.core k).streamBusy && !s.groups.any fun p => coreOf p.1 == k && p.2.ops.any fun o => o.isSst || o.stream.isSome then
    s.modCore k fun x => { x with streamBusy := false }
  else s

/-- An SLD that faults is abandoned, and its group raises the fault (R93, R350); a RESUME executes it again (R96). -/
def sldFault (s : State) (g : Nat) (o : Op) (a : Acc) (cause : BitVec 8) (v : BitVec 64) : State :=
  let s := s.modGroup g fun gr => let gr := loseOp gr o; { gr with redo := gr.redo ++ [{ o with left := o.again, streamGot := [] }] }
  let s := releaseStream (dropTickets s (streamParty s g)) (coreOf g)
  groupFault s g ⟨cause, 1 <<< a.lane, v, faultWord cause o.word⟩

/-- The engine runs one stream instruction at a time (R346): of the SLDs of a core that still have chunks to read, which restored groups
may have brought several of, the one of the lowest slot goes first: DESIGN CHOICE, the manual gives no order of SLDs that a RESUME
executes again (log entry 101). -/
def streamTurn (s : State) (g : Nat) (o : Op) : Bool := !s.groups.any fun p => coreOf p.1 == coreOf g && p.2.ops.any fun x =>
  x.stream.isSome && !x.left.isEmpty && (decide (p.1 < g) || (p.1 == g && decide (x.id < o.id)))

/-- The stream engine of core `k` has written its record at the halt of context `c` that is in progress: it runs no instruction
more (R352). -/
def streamRecorded (s : State) (k c : Nat) : Bool :=
  (s.ctx c).state == .halting && lineAsserted s c && (s.ctx c).streamStops.contains k

/-- The next chunk of an SLD performs. -/
def sldNext (s : State) (g : Nat) (gr : Group) (o : Op) (a : Acc) : State :=
  match translate s (coreOf g) (dieOfGroup g) gr.ctx a.va.toNat (streamParty s g) with
  | .wait s => s
  | .fault c v s => sldFault s g o a c v
  | .hit e s => match homeAccess s (coreOf g) (streamParty s g) e a.va.toNat false with
    | .wait s => s
    | .fault c v s =>
      sldFault s g o a c (v.getD (if c = 0x29 then BitVec.ofNat 64 (clusterBank g) else a.va.setWidth 64))
    | .ok s =>
      let r := readBytes s e a.va.toNat 16
      r.2.modGroup g fun gr => modOp gr o.id fun o => sldGot o a r.1

end Sys2Proof.Machine
end

