-- ==== Sys2Proof/Machine/Tasks.lean ====
section
/-! DEFINITION. Die task queues and the gatherer (R123, R124, R136). -/
namespace Sys2Proof.Machine

/-- The image that declares an address as an entry, with the stage (R126, R140). -/
def imageOfEntry (x : Context) (a : VA) : Option Nat :=
  (List.range x.images.length).find? fun i => match x.images[i]? with
    | some im => im.entries.any fun o => match o with
      | some o => im.base + BitVec.ofNat 57 (im.codeoff + o) == a
      | none => false
    | none => false

/-- The tasks of the window that the oldest one would form a group with (R124). -/
def gathered (q : TaskQueue) : List Task :=
  match q.queued.take 256 with
  | [] => []
  | t :: ts => ((t :: ts).filter fun u => u.entry == t.entry).take 32

/-- Form one group from the oldest task (R124). -/
def formGroup (now : Nat) (q : TaskQueue) : TaskQueue :=
  let g := gathered q
  if g.isEmpty then q
  else { q with queued := q.queued.filter fun t => !g.any (·.slot == t.slot), formed := q.formed ++ [g], oldestSince := now }

/-- Form every full group that the window holds. -/
def formFull (now : Nat) : Nat → TaskQueue → TaskQueue
  | 0, q => q
  | n + 1, q => if (gathered q).length = 32 then formFull now n (formGroup now q) else q

/-- The next free slot from `tail` on, in ring order. When slots free out of order the manual does not say which free one a push
takes: DESIGN CHOICE (log entry 86). -/
def freeSlotFrom (used : List Nat) (size : Nat) : Nat → Nat → Option Nat
  | 0, _ => none
  | n + 1, i => if used.contains (i % size) then freeSlotFrom used size n (i + 1) else some (i % size)

/-- The slot that the next push takes: the next free one in ring order from the last push on, a DESIGN CHOICE (log entry 86); none
while the queue is full. -/
def nextSlot (s : State) (c d : Nat) : Option Nat :=
  let q := s.taskQueue c d
  let size := 2 ^ (s.ctx c).taskK
  if size ≤ q.used.length then none else freeSlotFrom q.used size (q.used.length + 1) q.tail

/-- The fault of a TSPAWN push: the page of its slot is not mapped, or has no W (R261). -/
def pushFault (s : State) (c d : Nat) : Option (BitVec 8 × BitVec 64) :=
  match nextSlot s c d with
  | none => none
  | some n =>
    let a := (s.ctx c).taskVirt.getD d 0 + 128 * n
    match walk s c a with
    | .error f => some (f, walkValue s d c a f)
    | .ok e => if e.w && !refusesStore s e a then none else some (0x23, BitVec.ofNat 64 a)

/-- Push a task: its slot is written and the gatherer looks at the window; none when the queue is full (R123). -/
def pushTask (s : State) (c d : Nat) (entry : VA) (record : List Byte) (root : RootCmd) (launch : Option Nat) :
    Option State :=
  let q := s.taskQueue c d
  match nextSlot s c d with
  | none => none
  | some slot =>
    let a := (s.ctx c).taskPhys.getD d 0 + 128 * slot
    let m := mwrite s.mem a (leBytes 8 entry.toNat ++ List.replicate 56 0 ++ record)
    let t : Task := ⟨slot, entry, root, launch, s.realTime⟩
    let q : TaskQueue := { q with queued := q.queued ++ [t], used := slot :: q.used
                                  tail := slot + 1, oldestSince := if q.queued.isEmpty then s.realTime else q.oldestSince }
    some (({ s with mem := m }).modTaskQueue c d fun _ => formFull s.realTime (q.queued.length / 32 + 1) q)

end Sys2Proof.Machine
end

