-- ==== Sys2Proof/Machine/Home.lean ====
section
/-! DEFINITION. Accesses of a group: what one access does when it performs, the ordered accesses of the instruction in
progress as their homes accept them, and what a fault leaves (R275 to R281, R291, R297, R367, R377). -/
namespace Sys2Proof.Machine

/-- The access counts as a store (R261, R291, R292, R297). -/
def AccOp.stores : AccOp → Bool
  | .load => false
  | .store _ => true
  | .atom .. => true
  | .cas .. => true
  | .bar (.btest _) => false
  | .bar _ => true
  | .spawn .. => false
  | .klaunch .. => false

/-- The access reads the line (R402). -/
def AccOp.reads : AccOp → Bool
  | .store _ => false
  | _ => true

/-- An atomic, CAS or barrier update, which no HOST frame accepts (R367). -/
def AccOp.atomic : AccOp → Bool
  | .atom .. => true
  | .cas .. => true
  | .bar (.btest _) => false
  | .bar _ => true
  | _ => false

/-- The answer of an access when it performs. -/
inductive PerfAns where
  | done (ws : List Word) (s : State)
  | wait (s : State)
  | fault (cause : BitVec 8) (value : BitVec 64) (s : State)

/-- The words that loaded bytes give (R289). -/
def loadWords (b : List Byte) : List Word := if b.length ≤ 4 then [BitVec.ofNat 32 (leNat b)] else words32 b

/-- New value of an atomic (R291). -/
def atomNew (op : BitVec 3) (old v : Word) : Word := if op = 7 then atomFadd old v else atomInt op old v

/-- A barrier operation of a thread at the word (R306 to R310). -/
def performBar (s : State) (e : TlbEntry) (va : Nat) (op : BarOp) : PerfAns :=
  let r := readBytes s e va 16
  let w := leNat r.1
  let s := r.2
  let upd (da : Nat) (db : Int) : PerfAns :=
    let r := barEvent s e va w da db
    if r.2.1 then .fault 0x25 (BitVec.ofNat 64 va) r.2.2 else .done [r.1] r.2.2
  match op with
  | .binit cfg => .done [BitVec.ofNat 32 (barPhase w)] (frameWrite s e va (leBytes 16 (barInit w cfg.toNat)))
  | .barv n => upd n.toNat 0
  | .bexp n => upd 0 n.toNat
  | .btest p => .done [barTest w p.toNat] s

/-! ## Data comparators (R383, R385). Comparator `i` has number 16 + `i`: DESIGN CHOICE, the manual numbers the instruction
comparators alone (log entry 89) -/

/-- The aligned words that storing `d` at offset `off` over their bytes `old` leaves. -/
def wordsAfter (old d : List Byte) (off : Nat) : List Word :=
  words32 (old.take off ++ d ++ old.drop (off + d.length))

/-- What a comparator sees of an access: its range, whether it reads and writes, and the words it would write. -/
structure Seen where
  va : Nat
  size : Nat
  reads : Bool
  writes : Bool
  after : List Word

/-- A data comparator matches an access (R383). With VAL it looks at every aligned word that the access would change, also at one
outside [START, END): DESIGN CHOICE, Table 17-3 speaks of the aligned word of a write and of no part of it (log entry 89). -/
def dcmpMatches (k : DCmp) (a : Seen) : Bool :=
  k.ctl.getLsbD 0 && decide (k.start < a.va + a.size) && decide (a.va < k.end_)
  && (if k.ctl.getLsbD 3 then k.ctl.getLsbD 2 && a.writes && a.after.any (· == k.value)
      else (k.ctl.getLsbD 1 && a.reads) || (k.ctl.getLsbD 2 && a.writes))

/-- The data comparators from number `n` on as the push of a task by TSPAWN meets them, but for the ones `passed`: the lowest one that
stops it, those that have counted it, and the comparators after. -/
def checkPush (seen : Seen) (passed : List Nat) : Nat → List DCmp → Option Nat × List Nat × List DCmp
  | _, [] => (none, [], [])
  | n, k :: ks =>
    let r := checkPush seen passed (n + 1) ks
    if !dcmpMatches k seen || passed.contains n then (r.1, r.2.1, k :: r.2.2)
    else if k.skip = 0 then (some n, r.2.1, k :: r.2.2)
    else (r.1, n :: r.2.1, { k with skip := k.skip - 1 } :: r.2.2)

/-- TSPAWN pushes a task with the record `b` to the queue of die `d` (R123, R136): its slot's page may fault, a comparator stop the
thread (R385), or the queue be full. The words of the answer are the numbers of the comparators that have counted the push. -/
def performSpawn (s : State) (gr : Group) (entry : VA) (d : Nat) (passed : List Nat) (b : List Byte) : PerfAns :=
  match nextSlot s gr.ctx d with
  | none => .wait s
  | some n => match pushFault s gr.ctx d with
    | some (f, v) => .fault f v s
    | none =>
      let seen : Seen := ⟨(s.ctx gr.ctx).taskVirt.getD d 0 + 128 * n, 128, false, true,
        words32 (leBytes 8 entry.toNat ++ List.replicate 56 0 ++ b)⟩
      let r := checkPush seen passed 16 (match (s.ctx gr.ctx).debug with | some d => d.dcmp | none => [])
      let s := s.modCtx gr.ctx fun x => { x with debug := x.debug |>.map fun y => { y with dcmp := r.2.2 } }
      match r.1 with
      | some n => .fault 0x28 (BitVec.ofNat 64 n) s
      | none => match pushTask s gr.ctx d entry b (((s.team? gr.team).map (rootOf s)).getD .zero) none with
        | some s => .done (r.2.1.map (BitVec.ofNat 32)) s
        | none => .wait s

/-- The access performs at its place in the total order, under a translation that its home has accepted. A task that a
TSPAWN pushes carries the root command of the spawning group's tile task (R382). A `tspawn.home` whose record lies in a host
frame, which VS0 answers for (R266), pushes to the queue of die 0, and one in a frame of another module to that of the die
that its physical address names there: DESIGN CHOICE, R136 speaks of the die that homes the record (log entry 67). -/
def performAcc (s : State) (gr : Group) (e : TlbEntry) (a : Acc) : PerfAns :=
  let va := a.va.toNat
  match if a.op.reads then poisonAt s e va else none with
  | some v => .fault 0x29 v s
  | none =>
  match a.op with
  | .load => let r := readBytes s e va a.size; .done (loadWords r.1) r.2
  | .store d => .done [] (frameWrite s e va d)
  | .atom op v =>
    let r := readBytes s e va 4
    let old := BitVec.ofNat 32 (leNat r.1)
    .done [old] (frameWrite r.2 e va (wordBytes (atomNew op old v)))
  | .cas cmp new =>
    let r := readBytes s e va 4
    let old := BitVec.ofNat 32 (leNat r.1)
    .done [old] (if old = cmp then frameWrite r.2 e va (wordBytes new) else r.2)
  | .bar op => performBar s e va op
  | .spawn entry d passed =>
    let r := readBytes s e va 64
    performSpawn r.2 gr entry (d.getD (if e.host then 0 else e.phys va / 2 ^ 37 % 4)) passed r.1
  | .klaunch d act die =>
    let r := readBytes s e va 64
    let p := if isPort d then portOf gr d else none
    match p.bind fun p => (r.2.queue? p.inst).map fun q => (p, q) with
    | none => let x := acceptKlaunch r.2 gr.ctx die r.1; .done [x.1] x.2
    | some (p, q) => match pushAns r.2 q with
      | .ready =>
        let x := acceptKlaunch r.2 gr.ctx die r.1
        .done [x.1] (x.2.modQueue p.inst fun q => q.push (pushEntry q act (.u x.1)))
      | .misuse => .fault 0x26 (p.ident.setWidth 64) r.2
      | _ => .wait r.2

/-- The operation whose ordered accesses the instruction in progress performs. -/
def currentOp (gr : Group) : Option Op :=
  match gr.issue with
  | some i => match i.op with
    | some id => gr.ops.find? (·.id == id)
    | none => none
  | none => none

/-- The lanes whose accesses have all performed. -/
def Op.doneLanes (o : Op) : Mask :=
  if o.once then if o.left.isEmpty then o.lanes else 0
  else maskOf fun l => has o.lanes l && !o.left.any (·.lane == l)

/-- End an instruction between two of its ordered accesses: the lanes whose accesses have performed receive their
results and stand after it, the others stand before it (R92, R96, Table 4-7). An SST starts over (R352). -/
def cutIssue (gr : Group) : Group :=
  match gr.issue, currentOp gr with
  | some i, some o =>
    let done := if o.isSst then 0 else o.doneLanes
    let gr := completeOp gr { o with lanes := done, full := o.full && done == o.lanes, left := [] }
    endIssue gr fun l => if has done l then i.after l else i.here l
  | _, _ => gr

/-- The instruction in progress of group `g` ends between two of its ordered accesses: rows that results go to are on chip, with what
the register stack holds or, of one whose words another module has not sent yet, with what left the chip; no access of it waits at a
home, and the stream engine is free. -/
def cutGroup (s : State) (g : Nat) : State :=
  match (s.group? g).bind currentOp with
  | none => s
  | some o =>
    let done := { o with lanes := o.doneLanes }
    let s := bringOp s g done
    let s := (((s.group? g).map (opEntries · done)).getD []).foldl (recallRow · g) s
    let s := if o.isSst then dropTickets s (streamParty s g) else s
    let s := (s.modGroup g cutIssue)
    balanceRows (releaseStream s (coreOf g)) g []

/-- An ordered access of group `g` faults. -/
def accessFault (s : State) (g : Nat) (o : Op) (a : Acc) (cause : BitVec 8) (value : BitVec 64) : State :=
  let s := { s with hostPending := s.hostPending.filter (· != g) }
  groupFault (cutGroup s g) g ⟨cause, if o.once then o.lanes else 1 <<< a.lane, value, faultWord cause o.word⟩

/-- The pushes that follow in a TSPAWN do not count again for the comparators that have counted one of its issue (R383). -/
def notePassed (ws : List Word) (a : Acc) : Acc :=
  match a.op with
  | .spawn e d p => { a with op := .spawn e d (p ++ ws.map (·.toNat)) }
  | _ => a

/-- The next access of the operation has performed; after the last one the group passes the instruction, and an
operation that is not long-latency is complete. -/
def accessDone (s : State) (g : Nat) (o : Op) (a : Acc) (ws : List Word) : State :=
  let s := { s with hostPending := s.hostPending.filter (· != g) }
  let s := s.modGroup g fun gr =>
    let got := if o.once then (lanesOf o.lanes).map fun l => (l, ws) else o.got ++ [(a.lane, ws)]
    let o := { o with left := (o.left.drop 1).map (notePassed ws), got := got }
    let gr := modOp gr o.id fun _ => o
    if !o.left.isEmpty then gr
    else advance (if o.fixed then completeOp gr o else gr)
  let s := if o.fixed then balanceRows s g ((s.group? g).elim [] fun gr => opEntries gr o) else s
  if o.isSst then releaseStream s (coreOf g) else s

/-- The next access of group `g`'s instruction is translated again and, when its permission still holds, handed to
`k`. -/
def withAccess (s : State) (g : Nat) (k : State → Group → Op → Acc → TlbEntry → State) : State :=
  match s.group? g with
  | none => s
  | some gr => match currentOp gr with
    | none => s
    | some o => match o.left with
      | [] => s
      | a :: _ =>
        match translate s (coreOf g) (dieOfGroup g) gr.ctx a.va.toNat (opParty s g o) with
        | .wait s => s
        | .fault c v s => accessFault (answerWalks s (opParty s g o)) g o a c v
        | .hit e s =>
          if (a.op.stores || a.needW) && !e.w || e.host && a.op.atomic then
            accessFault s g o a 0x23 (a.va.setWidth 64)
          else k s gr o a e

/-- The access performs at its home, or waits there, or faults. Rows that its result goes to at once are on chip first. -/
def acceptAccess (s : State) (g : Nat) (gr : Group) (o : Op) (a : Acc) (e : TlbEntry) : State :=
  let s := if o.fixed then bringOp s g o else s
  if o.fixed && !((s.group? g).any fun gr => opOnChip gr o) then s
  else match homeAccess s (coreOf g) (opParty s g o) e a.va.toNat a.op.stores a.op.atomic with
  | .wait s => s
  | .fault c v s =>
    accessFault s g o a c (v.getD (if c = 0x29 then BitVec.ofNat 64 (clusterBank g) else a.va.setWidth 64))
  | .ok s => match performAcc s gr e a with
    | .done ws s => accessDone s g o a ws
    | .wait s => s
    | .fault c v s => accessFault s g o a c v

/-- HOME_ACCESS_ACCEPT (R280, R281): the next ordered access of group `g` reaches its point of coherence. An access to
a HOST frame leaves VS0 first and performs at HOST_COMPLETION_RECEIVE (R367). -/
def execHomeAccessAccept (g : Nat) (s : State) : Out :=
  .next (withAccess s g fun s gr o a e =>
    if e.host then { s with hostPending := if s.hostPending.contains g then s.hostPending else s.hostPending ++ [g] }
    else acceptAccess s g gr o a e)

/-- HOST_COMPLETION_RECEIVE (R367). -/
def execHostCompletionReceive (g : Nat) (s : State) : Out :=
  if s.hostPending.contains g then
    .next (withAccess s g fun s gr o a e => if e.host then acceptAccess s g gr o a e else s)
  else .next s

/-- REMOTE_REQUEST_TIMEOUT (R377): the access of group `g` to another module has had no response for 1 ms: it is abandoned, and
its context takes the contained machine check of its machine-check bank (R403). -/
def execRemoteRequestTimeout (g : Nat) (s : State) : Out :=
  .next (withAccess s g fun s gr o a e =>
    match e.rmt with
    | none => s
    | some m => match messageOf s (opParty s g o) m (e.phys a.va.toNat / 4096) with
      | none => s
      | some x =>
        if x.awaited s.realTime then s
        else acceptAccess s g gr o a e)

/-- LONG_LATENCY_COMPLETION (R40): the operation `n` of group `g` has performed for every active lane; its result is
written and its flag's count falls. A group that has stopped for a halt, and one that runs, complete alike (R93). For an
SLD that still has chunks to read, the event is the next chunk's read (R350, R362). -/
def execLongLatencyCompletion (g n : Nat) (s : State) : Out :=
  match s.group? g with
  | none => .next s
  | some gr => match gr.ops.find? (·.id == n) with
    | none => .next s
    | some o =>
      if o.fixed || (currentOp gr).any (·.id == n) then .next s
      else match o.stream, o.left with
        | some _, a :: _ => .next (if streamTurn s g o then sldNext s g gr o a else s)
        | _, _ =>
          if !o.finished then .next s
          else
            .next (releaseStream (landOp s g o) (coreOf g))

end Sys2Proof.Machine
end

