-- ==== Sys2Proof/Machine/Control.lean ====
section
/-! DEFINITION. Control instructions, majors 0x80 to 0x8A, and waiting threads ("Threads, Groups and Teams", R176, R184
to R186, R192 to R200; R117, R130, R304). -/
namespace Sys2Proof.Machine

/-! ## Ending a clause -/

/-- The active lanes go to their own positions, the threads predicated off to the following header (R175). -/
def branchTo (s : State) (c : Ctl) (p : Nat → CodePos) : State :=
  (issued s c false).modGroup c.g fun g => endIssue g fun l => if has c.act l then p l else atHeader c.iss.next

/-- CondTrue (Table 2-4). -/
def condTrue (cond : BitVec 4) (t : Thread) : Bool :=
  let p := t.preds.getLsbD (cond.toNat % 8)
  if cond.toNat = 0 then true else if cond.toNat < 8 then !p else p

/-- The target of a relative branch (R33). -/
def relTarget (pc : VA) (off : Int) : VA := pc + BitVec.ofInt 57 (4 * off)

/-- A control instruction over the names `ns`, with source fields `fs`. -/
def runControl (fs : List Src) (ns : List Nat) (k : Ctl → State → List Row → State) (s : State) : Out :=
  withIssue s fun c s =>
    withDeps s c (fun l => pendingName c.gr l ns) fun s =>
      withRows s c ns fun s => withSources s c fs 127 fun rows s' => k c s' rows

def execBra (cond : BitVec 4) (o : BitVec 20) (s : State) : Out :=
  runControl [] [] (fun c s _ =>
    branchTo s c fun l => atHeader (if condTrue cond (c.thread l) then relTarget c.pc o.toInt else c.iss.next)) s

def execMeet (cond : BitVec 4) (o : BitVec 20) (s : State) : Out :=
  runControl [] [] (fun c s _ =>
    let s := s.modGroup c.g fun g => onThreads g c.act fun _ t =>
      if condTrue cond t then { t with meeting := relTarget c.pc o.toInt } else t
    (finish s c false).modGroup c.g settle) s

/-- The 57-bit address in a pair of names (R192). -/
def pairAddr (lo hi : Row) (l : Nat) : VA := BitVec.ofNat 57 ((hi.get l).toNat * 2 ^ 32 + (lo.get l).toNat)

/-- The full 64-bit value of a pair. -/
def pairValue (lo hi : Row) (l : Nat) : BitVec 64 := BitVec.ofNat 64 ((hi.get l).toNat * 2 ^ 32 + (lo.get l).toNat)

/-- A code address that is not a multiple of 4 faults (R194 to R196). -/
def withAligned (s : State) (c : Ctl) (t : Nat → VA) (k : State → State) : State :=
  let bad := maskOf fun l => has c.act l && (t l).toNat % 4 != 0
  if bad = 0 then k s else faultHere s c ⟨0x24, bad, (t (lowest bad)).setWidth 64, c.word⟩

def execBrx (a : Reg) (s : State) : Out :=
  runControl [(a, 2)] (namesOf a 2) (fun c s rows =>
    let t l := pairAddr (src rows 0) (src rows 1) l
    withAligned s c t fun s => branchTo s c fun l => atHeader (t l)) s

/-! ## Window moves (R184 to R186) -/

/-- The base that a window move starts from: WB, or HWB in a handler. -/
def Thread.base (t : Thread) : Int := if t.inHandler then t.hwb else (t.wb.toNat : Int)

/-- The trap that a move to base `nb` raises, if any. -/
def moveTrap (g : Group) (t : Thread) (nb : Int) : Option (BitVec 8) :=
  let w : Int := t.wres.toNat
  let low := if t.inHandler then nb + 16 else nb
  if low < w then some 0x02 else if w + g.budget - 1 < nb + 119 then some 0x01 else none

/-- The thread with its window moved. -/
def Thread.moveTo (t : Thread) (nb : Int) : Thread :=
  if t.inHandler then { t with hwb := nb } else { t with wb := wrap32 nb }

/-- Move the windows of the active lanes by their own amounts; lanes whose move is refused trap, and `k` runs for the
others. -/
def withMove (s : State) (c : Ctl) (nb : Nat → Int) (k : State → Ctl → State) : State :=
  let trap l := moveTrap c.gr (c.thread l) (nb l)
  let trapped := maskOf fun l => has c.act l && (trap l).isSome
  let act := c.act &&& ~~~trapped
  let traps := if act = 0 then trapHere s c else trapSome s c.g
  let s := if trapped = 0 then s else traps trapped (fun l => (trap l).getD 0) fun l => BitVec.ofInt 64 (nb l)
  match s.group? c.g with
  | none => s
  | some gr =>
    if act = 0 then s
    else if gr.phase ≠ .running then takeIssue s c false
    else
      let s := s.modGroup c.g fun g => onThreads g act fun l t => t.moveTo (nb l)
      k s { c with act := act, gr := (s.group? c.g).getD gr }

/-- The rows that the link of a call would be written to, pending or evicted. -/
def linkRefs (t : Thread) (nb : Int) : List RowRef :=
  if t.inHandler then [.bank 0, .bank 1] else [.stack nb.toNat, .stack (nb + 1).toNat]

/-- A call: link words written to v0 and v1 of the moved window, or h0 and h1 in a handler (R195). -/
def callWith (s : State) (c : Ctl) (shift : Nat) (t : Nat → VA) : State :=
  let nb l : Int := (c.thread l).base + shift
  withAligned s c t fun s =>
    let pend l : Option Nat :=
      if (moveTrap c.gr (c.thread l) (nb l)).isSome then none
      else ((linkRefs (c.thread l) (nb l)).zipIdx.find? fun p => pendingRow c.gr l p.1).map (·.2)
    withDeps s c pend fun s =>
      let stalled := (lanesOf c.act).any fun l => (linkRefs (c.thread l) (nb l)).any fun r => match r with
        | .stack p => c.gr.evicted.contains (p % c.gr.budget)
        | _ => false
      if stalled then s
      else withMove s c nb fun s c =>
        let same := (lanesOf c.act).all fun l => t l == t (lowest c.act)
        let ret := c.iss.next
        let lo := BitVec.ofNat 32 ret.toNat
        let hi := BitVec.ofNat 32 (shift * 2 ^ 25 + ret.toNat / 2 ^ 32)
        let row (w : Word) : Row := if same then .u w else .g (perLane fun _ => w)
        let s := s.modGroup c.g fun g =>
          let full := fullWrite g c.act
          writeName (writeName g c.act full 0 (row lo)) c.act full 1 (row hi)
        balanceRows (branchTo s c fun l => atHeader (t l)) c.g (entriesOf { c with gr := (s.group? c.g).getD c.gr } [0, 1])

def execCall (sh : BitVec 7) (i : BitVec 17) (s : State) : Out :=
  runControl [] [] (fun c s _ => callWith s c sh.toNat fun _ => relTarget c.pc i.toInt) s

def execCallx (sh : BitVec 7) (a : Reg) (s : State) : Out :=
  runControl [(a, 2)] (namesOf a 2) (fun c s rows =>
    callWith s c sh.toNat fun l => pairAddr (src rows 0) (src rows 1) l) s

def execRet (s : State) : Out :=
  runControl [(0, 2)] [0, 1] (fun c s rows =>
    let hi l := ((src rows 1).get l).toNat
    let t l : VA := BitVec.ofNat 57 (hi l % 2 ^ 25 * 2 ^ 32 + ((src rows 0).get l).toNat)
    withAligned s c t fun s =>
      withMove s c (fun l => (c.thread l).base - (hi l / 2 ^ 25 : Nat)) fun s c => branchTo s c fun l => atHeader (t l)) s

def execWbase (i : BitVec 10) (s : State) : Out :=
  runControl [] [] (fun c s _ => withMove s c (fun l => (c.thread l).base + i.toInt) fun s c => finish s c false) s

/-! ## Blocked ports (R128, R424) -/

/-- The source and destination ports of a blocked instruction word, from its fields: a port is never named by a field
that is not a register field of a word that can block. -/
def wordPorts (enc : Nat) (w : Word) : Option (List Reg × Option Reg) :=
  match decode enc w with
  | .error _ => none
  | .ok i => some (match i with
    | .st8 v a _ _ | .st16 v a _ _ | .st32 v a _ _ | .sts v a _ _ | .stp v a _ _ =>
      (([a, v]).filter isPort, none)
    | .st64 _ a _ _ | .st128 _ a _ _ => ([a].filter isPort, none)
    | .tmark a _ | .sysw a _ | .sleep a _ | .addi _ a _ | .andi _ a _ | .ori _ a _ | .xori _ a _ | .shli _ a _
    | .shri _ a _ | .sari _ a _ | .iseti _ _ a _ | .pref a _ _ | .ld8 _ a _ _ | .ld16 _ a _ _ | .ld32 _ a _ _
    | .ld64 _ a _ _ | .ld128 _ a _ _ | .lds _ a _ _ | .ldp _ a _ _ | .ldc _ a _ _ =>
      ([a].filter isPort, match i with
        | .addi d .. | .andi d .. | .ori d .. | .xori d .. | .shli d .. | .shri d .. | .sari d .. => dstPort d
        | _ => none)
    | .movi d _ | .lui d _ | .sysr d _ | .qstat d _ => ([], dstPort d)
    | .iset _ _ a b _ | .fset _ _ a b _ => (([a, b]).filter isPort, none)
    | .rwrite _ a b => (([a, b]).filter isPort, none)
    | .lreduce d a _ _ | .lscan d a _ _ => ([a].filter isPort, dstPort d)
    | _ => (([fa w, fb w]).filter isPort, dstPort (fd w)))

/-- A blocked instruction can go on: every source port holds its entries or would trap or fault, and the destination
has room or would fault. -/
def portReady (s : State) (gr : Group) (w : Word) : Bool :=
  match wordPorts gr.enc w with
  | none => true
  | some (srcs, dst) =>
    match popAll s gr srcs with
    | some (_, .block) => false
    | some _ => true
    | none => match dst.bind (portOf gr) with
      | none => true
      | some p => match portQueue s p with
        | none => true
        | some q => pushAns s q != .block

/-- The lanes that block where lane `l` blocks, at the instruction `w`. -/
def blockedWith (gr : Group) (l : Nat) (w : Word) : Mask :=
  maskOf fun i => let t := lane gr.threads i; t.live && t.wait == .port w && t.at_ == (lane gr.threads l).at_

/-- What lane `l` of group `g` meets when it blocks at a pop whose producers have gone: trap 0x08, or the queue-misuse
fault, with its fellows; nothing while the pop may still be served (Table 5-8, R424). -/
def settlePop (s : State) (g l : Nat) : State :=
  match s.group? g with
  | none => s
  | some gr =>
    if gr.phase ≠ .running ∨ !issuing (s.ctx gr.ctx).state then s
    else match (lane gr.threads l).wait with
      | .port w => match (wordPorts gr.enc w).bind fun p => popAll s gr p.1 with
        | some (r, .orphan) =>
          let here i := (lane gr.threads i).at_
          let s := match portOf gr r with
            | some p => s.modQueue p.inst QueueInst.orphan
            | none => s
          trapLanes s g (blockedWith gr l w) (fun _ => 0x08) (fun _ => BitVec.ofNat 64 r.toNat) here
            (fun i => (lane gr.threads i).after) w
        | some (r, .misuse) =>
          groupFault s g ⟨0x26, blockedWith gr l w, ((portOf gr r).map (·.ident.setWidth 64)).getD 0, w⟩
        | _ => s
      | _ => s

/-- The last producer end of some queue has gone: every pop that blocks on it traps or faults at this instant, group by
group and lane by lane (R128). -/
def settlePops (s : State) : State :=
  s.groups.foldl (fun s p => (lanesOf (liveMask p.2)).foldl (fun s l => settlePop s p.1 l) s) s

/-! ## The end of threads (R198) -/

/-- The team barrier releases when every group of the team with a live thread has arrived (R304). -/
def tryTeamRelease (s : State) (tm : Nat) : State :=
  match s.team? tm with
  | none => s
  | some t =>
    let ready := (t.groups.all fun g => match s.group? g with
      | some gr => liveMask gr == 0 || has t.arrived gr.gid
      | none => true) && t.saved.all fun x => liveMask x.group == 0 || has t.arrived x.group.gid
    if ready && t.arrived != 0 then
      let s := s.setTeam tm { t with tph := !t.tph, arrived := 0 }
      let tph := !t.tph
      t.groups.foldl (fun s g => match s.group? g with
        | none => s
        | some gr =>
          if gr.phase == .running && has t.tw gr.gid && has t.tt gr.gid != tph && (lanesOf (liveMask gr)).any fun l => (lane gr.threads l).wait == .tsync
          then
            let m := maskOf fun l => (lane gr.threads l).live && (lane gr.threads l).wait == .tsync
            let gr := settle (onThreads gr m fun _ t => { t with wait := .none, at_ := t.after })
            (s.setGroup g gr).modTeam tm fun t => { t with tw := t.tw &&& ~~~(1 <<< gr.gid : Mask) }
          else s) s
    else s

/-- The slots of the tasks that these lanes ran are free, on the dies whose queues held them (R123). -/
def freeTaskSlots (s : State) (gr : Group) (m : Mask) : State :=
  (lanesOf m).foldl (fun s l => match (lane gr.threads l).taskSlot with
    | some k => s.modTaskQueue gr.ctx (k / 2 ^ 32) fun q => { q with used := q.used.filter (· != k % 2 ^ 32) }
    | none => s) s

/-- The last thread of a group has exited: its ends and its stream slot are released (R117, R198), and pops that block on
its queues find no producer. -/
def lastExit (s : State) (g : Nat) : State :=
  settlePops ((losePorts s g).modGroup g fun gr => { gr with streamSlot := false })

/-- No thread of the team lives outside group `g`, on chip or in a saved image. -/
def lastOfTeam (s : State) (t : Team) (g : Nat) : Bool :=
  (t.groups.all fun h => h == g || match s.group? h with
    | some gr => liveMask gr == 0
    | none => true) && t.saved.all fun x => liveMask x.group == 0

def execExit (s : State) : Out :=
  runControl [] [] (fun c s _ =>
    let last := liveMask c.gr &&& ~~~c.act == 0
    let held : Option Nat := match s.team? c.gr.team with
      | some t =>
        if last && lastOfTeam s t c.g then t.held.head?.map (·.1) else none
      | none => none
    match held with
    | some i => misuse s c (BitVec.ofNat 64 (0xE0000100 + i))
    | none =>
      let s := (issued s c false).modGroup c.g fun g =>
        let g := onThreads { g with lastExit := c.pc } c.act fun _ t =>
          { t with exited := true, inHandler := false, held := false }
        endIssue g fun l => if has c.act l then c.iss.here l else atHeader c.iss.next
      let s := freeTaskSlots s c.gr c.act
      if last then tryTeamRelease (lastExit s c.g) c.gr.team else s) s

/-! ## Yielding and sleeping (R199, R200) -/

/-- End the issue after the instruction; the rest of the clause issues at the set's next selection. -/
def yieldAfter (s : State) (c : Ctl) : State := (issued s c false).modGroup c.g fun g => endIssue g c.iss.after

def execYield (s : State) : Out := runControl [] [] (fun c s _ => yieldAfter s c) s
def execNop (s : State) : Out := runControl [] [] (fun c s _ => finish s c false) s

def execSleep (a : Reg) (n : BitVec 10) (s0 : State) : Out :=
  runControl [(a, 1)] (namesOf a 1) (fun c s rows =>
    let d := min (((src rows 0).get (lowest c.act)).toNat + n.toNat) 1048575
    if d = 0 then yieldAfter s c
    else blockMask (keepPops s0 (issued s c false) c (srcPorts [(a, 1)])) c c.act fun _ => .sleep (s.time + d) c.iss.set) s0

/-- SLEEP_EXPIRY (R200): the threads of group `g` whose wake time has come resume after their SLEEP. -/
def execSleepExpiry (g : Nat) (s : State) : Out :=
  match s.group? g with
  | none => .next s
  | some gr =>
    let m := maskOf fun l => match (lane gr.threads l).wait with
      | .sleep w _ => (lane gr.threads l).live && decide (w ≤ s.time)
      | _ => false
    if (s.ctx gr.ctx).state = .running ∧ gr.phase = .running ∧ m ≠ 0 then
      .next (s.setGroup g (settle (onThreads gr m fun _ t => { t with wait := .none, at_ := t.after })))
    else .next s

/-! ## The resumption of blocked ports (R128, R424) -/

/-- BLOCKED_PORT_RESUME (R128, R424): the threads of group `g` blocked at an instruction that can go on become runnable
at that instruction, which then pops, pushes, traps or faults. -/
def execBlockedPortResume (g : Nat) (s : State) : Out :=
  match s.group? g with
  | none => .next s
  | some gr =>
    let m := maskOf fun l => match (lane gr.threads l).wait with
      | .port w => (lane gr.threads l).live && portReady s gr w
      | _ => false
    if m ≠ 0 ∧ gr.phase = .running ∧ issuing (s.ctx gr.ctx).state then
      .next (s.setGroup g (onThreads gr m fun _ t => { t with wait := .none }))
    else .next s

end Sys2Proof.Machine
end

