-- ==== Sys2Proof/Machine/Integer.lean ====
section
/-! DEFINITION. Integer, bit, predicate, carry-less and immediate instructions, majors 0x00 to 0x1D and 0x30 to 0x3A
("Integer, Bit, Packed and Carry-less Instructions", R208 to R226, R233; R34). -/
namespace Sys2Proof.Machine

/-! ## Shared forms -/

/-- A two-source operation of one lane without flags. -/
def alu2 (d a b : Reg) (f : Word → Word → Word) (s : State) : Out :=
  runReg d [(a, 1), (b, 1)] noExtra (fun _ _ rs =>
    .ok ⟨lanewise rs fun l => f ((src rs 0).get l) ((src rs 1).get l), sameThread⟩) s

/-- A two-source operation with FPX flags. -/
def alu2F (d a b : Reg) (f : Word → Word → Word × FFlags) (s : State) : Out :=
  runReg d [(a, 1), (b, 1)] noExtra (fun _ _ rs =>
    let r l := f ((src rs 0).get l) ((src rs 1).get l)
    .ok ⟨lanewise rs fun l => (r l).1, orFpx fun l => (r l).2⟩) s

/-- A one-source operation. -/
def alu1 (d a : Reg) (f : Word → Word) (s : State) : Out :=
  runReg d [(a, 1)] noExtra (fun _ _ rs => .ok ⟨lanewise rs fun l => f ((src rs 0).get l), sameThread⟩) s

/-- A one-source operation with FPX flags. -/
def alu1F (d a : Reg) (f : Word → Word × FFlags) (s : State) : Out :=
  runReg d [(a, 1)] noExtra (fun _ _ rs =>
    .ok ⟨lanewise rs fun l => (f ((src rs 0).get l)).1, orFpx fun l => (f ((src rs 0).get l)).2⟩) s

/-- An operation on two sources and the old destination (R211). -/
def alu3 (d a b : Reg) (f : Word → Word → Word → Word) (s : State) : Out :=
  runReg d [(a, 1), (b, 1), (d, 1)] noExtra (fun _ _ rs =>
    .ok ⟨lanewise rs fun l => f ((src rs 0).get l) ((src rs 1).get l) ((src rs 2).get l), sameThread⟩) s

/-- As `alu3`, with FPX flags. -/
def alu3F (d a b : Reg) (f : Word → Word → Word → Word × FFlags) (s : State) : Out :=
  runReg d [(a, 1), (b, 1), (d, 1)] noExtra (fun _ _ rs =>
    let r l := f ((src rs 0).get l) ((src rs 1).get l) ((src rs 2).get l)
    .ok ⟨lanewise rs fun l => (r l).1, orFpx fun l => (r l).2⟩) s

/-- A source and an immediate, which counts as Uniform (R180). -/
def aluImm (d a : Reg) (i : Word) (f : Word → Word → Word) (s : State) : Out :=
  runReg d [(a, 1)] noExtra (fun _ _ rs => .ok ⟨lanewise rs fun l => f ((src rs 0).get l) i, sameThread⟩) s

/-- The Affine rows of Table 8-1 for a sum or difference `f`. -/
def affineAdd (f : Word → Word → Word) (x y : Row) : Row :=
  match x, y with
  | .u a, .u b => .u (f a b)
  | .a b1 s1, .a b2 s2 => .a (f b1 b2) (f s1 s2)
  | .a b1 s1, .u b => .a (f b1 b) (f s1 0)
  | .u a, .a b2 s2 => .a (f a b2) (f 0 s2)
  | x, y => .g (perLane fun l => f (x.get l) (y.get l))

/-- The Affine rows of Table 8-1 for a product. -/
def affineMul (x y : Row) : Row :=
  match x, y with
  | .u a, .u b => .u (a * b)
  | .a b st, .u k => .a (b * k) (st * k)
  | .u k, .a b st => .a (b * k) (st * k)
  | x, y => .g (perLane fun l => x.get l * y.get l)

/-- The Affine row of Table 8-1 for a left shift. -/
def affineShl (f : Word → Word → Word) (x y : Row) : Row :=
  match x, y with
  | .u a, .u b => .u (f a b)
  | .a b st, .u n => .a (f b n) (f st n)
  | x, y => .g (perLane fun l => f (x.get l) (y.get l))

/-- SignExtend of the ten-bit immediate (R31). -/
def imm10 (i : BitVec 10) : Word := i.signExtend 32

/-! ## Add, subtract, carry chains (R216, R217) -/

def unsignedInt (w : Word) : Int := (w.toNat : Int)

def execIadd (d a b : Reg) (m : BitVec 3) (s : State) : Out :=
  match m.toNat with
  | 0 => runReg d [(a, 1), (b, 1)] noExtra (fun _ _ rs =>
      .ok ⟨affineAdd (· + ·) (src rs 0) (src rs 1), sameThread⟩) s
  | 1 => alu2F d a b (fun x y => satS32 (x.toInt + y.toInt)) s
  | _ => alu2F d a b (fun x y => satU32 (unsignedInt x + unsignedInt y)) s

def execIsub (d a b : Reg) (m : BitVec 3) (s : State) : Out :=
  match m.toNat with
  | 0 => runReg d [(a, 1), (b, 1)] noExtra (fun _ _ rs =>
      .ok ⟨affineAdd (· - ·) (src rs 0) (src rs 1), sameThread⟩) s
  | 1 => alu2F d a b (fun x y => satS32 (x.toInt - y.toInt)) s
  | _ => alu2F d a b (fun x y => satU32 (unsignedInt x - unsignedInt y)) s

/-- IADDC of one lane: the sum and the carry. -/
def addCarry (x y : Word) (p : Bool) : Word × Bool :=
  let t := x.toNat + y.toNat + bit p
  (BitVec.ofNat 32 t, decide (2 ^ 32 ≤ t))

/-- ISUBB of one lane: the difference and the borrow. -/
def subBorrow (x y : Word) (p : Bool) : Word × Bool :=
  let t : Int := unsignedInt x - unsignedInt y - bit p
  (wrap32 t, decide (t < 0))

/-- An operation that carries through predicate `p`; its register result is General (R212). -/
def carryOp (d a b : Reg) (p : BitVec 3) (f : Word → Word → Bool → Word × Bool) (s : State) : Out :=
  runReg d [(a, 1), (b, 1)] noExtra (fun c _ rs =>
    let r l := f ((src rs 0).get l) ((src rs 1).get l) ((c.thread l).pred p)
    .ok ⟨.g (perLane fun l => (r l).1), fun l t => t.setPred p (r l).2⟩) s

def execIaddc (d a b : Reg) (p : BitVec 3) (s : State) : Out := carryOp d a b p addCarry s
def execIsubb (d a b : Reg) (p : BitVec 3) (s : State) : Out := carryOp d a b p subBorrow s

/-! ## Multiply (R218) -/

def execImul (d a b : Reg) (m : BitVec 3) (s : State) : Out :=
  if m.toNat = 0 then
    runReg d [(a, 1), (b, 1)] noExtra (fun _ _ rs => .ok ⟨affineMul (src rs 0) (src rs 1), sameThread⟩) s
  else alu2F d a b (fun x y => satS32 (x.toInt * y.toInt)) s

/-- Bits [63:32] of a 64-bit two's-complement product. -/
def highWord (t : Int) : Word := wrap32 (t / 2 ^ 32)

/-- IMULH of one lane. -/
def mulHigh (m : BitVec 3) (x y : Word) : Word :=
  match m.toNat with
  | 0 => highWord (x.toInt * y.toInt)
  | 1 => highWord (unsignedInt x * unsignedInt y)
  | _ => highWord (x.toInt * unsignedInt y)

def execImulh (d a b : Reg) (m : BitVec 3) (s : State) : Out := alu2 d a b (mulHigh m) s

def execImad (d a b : Reg) (m : BitVec 3) (s : State) : Out :=
  alu3F d a b (fun x y z =>
    let t := x.toInt * y.toInt + z.toInt
    if m.toNat = 0 then (wrap32 t, 0) else satS32 t) s

/-! ## Minimum, maximum, absolute value (R219) -/

def minWord (unsigned : Bool) (x y : Word) : Word :=
  if unsigned then if x.toNat ≤ y.toNat then x else y else if x.toInt ≤ y.toInt then x else y
def maxWord (unsigned : Bool) (x y : Word) : Word :=
  if unsigned then if x.toNat ≤ y.toNat then y else x else if x.toInt ≤ y.toInt then y else x

def execImin (d a b : Reg) (m : BitVec 3) (s : State) : Out := alu2 d a b (minWord (m.toNat == 1)) s
def execImax (d a b : Reg) (m : BitVec 3) (s : State) : Out := alu2 d a b (maxWord (m.toNat == 1)) s

def execIabs (d a : Reg) (m : BitVec 3) (s : State) : Out :=
  alu1F d a (fun x => if m.toNat = 0 then (wrap32 x.toInt.natAbs, 0) else satS32 x.toInt.natAbs) s

/-! ## Logic and shifts (R220) -/

def execAnd (d a b : Reg) (s : State) : Out := alu2 d a b (· &&& ·) s
def execOr (d a b : Reg) (s : State) : Out := alu2 d a b (· ||| ·) s
def execXor (d a b : Reg) (s : State) : Out := alu2 d a b (· ^^^ ·) s
def execAndn (d a b : Reg) (s : State) : Out := alu2 d a b (fun x y => x &&& ~~~y) s

/-- The shift count: vb[4:0], or the whole of vb under `.cl`. -/
def shiftCount (cl : Bool) (y : Word) : Nat := if cl then y.toNat else y.toNat % 32
def shlWord (cl : Bool) (x y : Word) : Word :=
  let n := shiftCount cl y
  if 32 ≤ n then 0 else x <<< n
def shrWord (cl : Bool) (x y : Word) : Word :=
  let n := shiftCount cl y
  if 32 ≤ n then 0 else x >>> n
def sarWord (cl : Bool) (x y : Word) : Word :=
  let n := shiftCount cl y
  x.sshiftRight (if 32 ≤ n then 31 else n)

def execShl (d a b : Reg) (m : BitVec 3) (s : State) : Out :=
  runReg d [(a, 1), (b, 1)] noExtra (fun _ _ rs =>
    .ok ⟨affineShl (shlWord (m.toNat == 1)) (src rs 0) (src rs 1), sameThread⟩) s
def execShr (d a b : Reg) (m : BitVec 3) (s : State) : Out := alu2 d a b (shrWord (m.toNat == 1)) s
def execSar (d a b : Reg) (m : BitVec 3) (s : State) : Out := alu2 d a b (sarWord (m.toNat == 1)) s
def execRotl (d a b : Reg) (s : State) : Out := alu2 d a b (fun x y => x.rotateLeft (y.toNat % 32)) s

/-! ## Bit fields and counts (R221, R222) -/

/-- Position and width of a field descriptor. -/
def fieldPos (y : Word) : Nat := y.toNat % 32
def fieldWidth (y : Word) : Nat := min (y.toNat / 2 ^ 8 % 64) 32

def bfxWord (sgn : Bool) (x y : Word) : Word :=
  let f := x.toNat / 2 ^ fieldPos y % 2 ^ fieldWidth y
  if sgn then wrap32 (signExtend f (fieldWidth y)) else BitVec.ofNat 32 f

def bfiWord (x y z : Word) : Word :=
  let mask : Word := BitVec.ofNat 32 ((2 ^ fieldWidth y - 1) * 2 ^ fieldPos y)
  (z &&& ~~~mask) ||| ((x <<< fieldPos y) &&& mask)

def execBfx (d a b : Reg) (m : BitVec 3) (s : State) : Out := alu2 d a b (bfxWord (m.toNat == 1)) s
def execBfi (d a b : Reg) (s : State) : Out := alu3 d a b bfiWord s

def popcount (x : Word) : Nat := ((List.range 32).filter x.getLsbD).length
def clzWord (x : Word) : Nat := ((List.range 32).find? fun i => x.getLsbD (31 - i)).getD 32
def ctzWord (x : Word) : Nat := ((List.range 32).find? x.getLsbD).getD 32
def brevWord (x : Word) : Word := maskOf fun i => x.getLsbD (31 - i)

def execPopc (d a : Reg) (s : State) : Out := alu1 d a (fun x => BitVec.ofNat 32 (popcount x)) s
def execClz (d a : Reg) (s : State) : Out := alu1 d a (fun x => BitVec.ofNat 32 (clzWord x)) s
def execCtz (d a : Reg) (s : State) : Out := alu1 d a (fun x => BitVec.ofNat 32 (ctzWord x)) s
def execBrev (d a : Reg) (s : State) : Out := alu1 d a brevWord s

/-! ## Compare, select, predicates (R214, R223 to R225) -/

/-- Table 9-2. -/
def intCond (c : BitVec 4) (a b : Word) : Bool :=
  match c.toNat with
  | 0 => a == b
  | 1 => a != b
  | 2 => decide (a.toInt < b.toInt)
  | 3 => decide (a.toInt ≤ b.toInt)
  | 4 => decide (b.toInt < a.toInt)
  | 5 => decide (b.toInt ≤ a.toInt)
  | 6 => decide (a.toNat < b.toNat)
  | 7 => decide (a.toNat ≤ b.toNat)
  | 8 => decide (b.toNat < a.toNat)
  | 9 => decide (b.toNat ≤ a.toNat)
  | 10 => (a &&& b) != 0
  | _ => (a &&& b) == 0

/-- Set, AND or OR into a predicate. -/
def combine (how : Nat) (old res : Bool) : Bool := if how = 0 then res else if how = 1 then old && res else old || res

def execIset (c : BitVec 4) (p : BitVec 3) (a b : Reg) (m : BitVec 3) (s : State) : Out :=
  runReg 127 [(a, 1), (b, 1)] noExtra (fun _ _ rs =>
    .ok ⟨noResult, fun l t => t.setPred p (combine m.toNat (t.pred p) (intCond c ((src rs 0).get l) ((src rs 1).get l)))⟩) s

def execIseti (c : BitVec 4) (p : BitVec 3) (a : Reg) (i : BitVec 10) (s : State) : Out :=
  runReg 127 [(a, 1)] noExtra (fun _ _ rs =>
    .ok ⟨noResult, fun l t => t.setPred p (intCond c ((src rs 0).get l) (imm10 i))⟩) s

def execSel (d a b : Reg) (p : BitVec 3) (s : State) : Out :=
  runReg d [(a, 1), (b, 1)] noExtra (fun c _ rs =>
    .ok ⟨.g (perLane fun l => if (c.thread l).pred p then (src rs 0).get l else (src rs 1).get l), sameThread⟩) s

def execPlog (tt : BitVec 4) (p a b : BitVec 3) (s : State) : Out :=
  runReg 127 [] noExtra (fun _ _ _ =>
    .ok ⟨noResult, fun _ t => t.setPred p (tt.getLsbD (2 * bit (t.pred a) + bit (t.pred b)))⟩) s

def execPmovToReg (d : Reg) (s : State) : Out :=
  runReg d [] noExtra (fun c _ _ => .ok ⟨.g (perLane fun l => (c.thread l).preds.setWidth 32), sameThread⟩) s

def execPmovToPred (a : Reg) (s : State) : Out :=
  runReg 127 [(a, 1)] noExtra (fun _ _ rs =>
    .ok ⟨noResult, fun l t => { t with preds := ((src rs 0).get l).setWidth 8 }⟩) s

/-! ## Carry-less multiply (R226) -/

/-- The carry-less product of two words over GF(2), 63 bits. -/
def clmul (x y : Word) : BitVec 64 :=
  (List.range 32).foldl (fun acc i => if x.getLsbD i then acc ^^^ (y.setWidth 64 <<< i) else acc) 0

def execClmul (d a b : Reg) (s : State) : Out := alu2 d a b (fun x y => (clmul x y).setWidth 32) s
def execClmulh (d a b : Reg) (s : State) : Out := alu2 d a b (fun x y => (clmul x y >>> 32).setWidth 32) s

/-! ## Immediates (R34, R233) -/

def execAddi (d a : Reg) (i : BitVec 10) (s : State) : Out :=
  runReg d [(a, 1)] noExtra (fun _ _ rs => .ok ⟨affineAdd (· + ·) (src rs 0) (.u (imm10 i)), sameThread⟩) s
def execAndi (d a : Reg) (i : BitVec 10) (s : State) : Out := aluImm d a (imm10 i) (· &&& ·) s
def execOri (d a : Reg) (i : BitVec 10) (s : State) : Out := aluImm d a (imm10 i) (· ||| ·) s
def execXori (d a : Reg) (i : BitVec 10) (s : State) : Out := aluImm d a (imm10 i) (· ^^^ ·) s
def execShli (d a : Reg) (n : BitVec 5) (s : State) : Out :=
  runReg d [(a, 1)] noExtra (fun _ _ rs => .ok ⟨affineShl (shlWord false) (src rs 0) (.u (n.setWidth 32)), sameThread⟩) s
def execShri (d a : Reg) (n : BitVec 5) (s : State) : Out := aluImm d a (n.setWidth 32) (shrWord false) s
def execSari (d a : Reg) (n : BitVec 5) (s : State) : Out := aluImm d a (n.setWidth 32) (sarWord false) s

def execMovi (d : Reg) (i : BitVec 17) (s : State) : Out :=
  runReg d [] noExtra (fun _ _ _ => .ok ⟨.u (i.signExtend 32), sameThread⟩) s
def execLui (d : Reg) (i : BitVec 17) (s : State) : Out :=
  runReg d [] noExtra (fun _ _ _ => .ok ⟨.u (i.setWidth 32 <<< 15), sameThread⟩) s
def execOrl (d : Reg) (i : BitVec 17) (s : State) : Out := aluImm d d (i.setWidth 32) (· ||| ·) s

end Sys2Proof.Machine
end

