-- ==== Sys2Proof/Machine/CrossLane.lean ====
section
/-! DEFINITION. Cross-lane and shape instructions, majors 0x90 to 0x97 (R76, R77, R187, R188, R201 to R204). -/
namespace Sys2Proof.Machine

/-! ## Reading another lane (Table 8-2) -/

/-- The stack position lies in the lane's resident part. -/
def onStackAt (g : Group) (l p : Nat) : Bool :=
  let w := (lane g.threads l).wres.toNat
  decide (w ≤ p) && decide (p < w + g.budget)

/-- The word of private memory that row `p` of a lane is, when it lies outside its resident part. Its request has tag 0. -/
def stackCell (g : Group) (l p : Nat) : Cell := (l, (privateAddr g l (4 * p)).toNat, 0)

/-- A stack row of a lane of the group in slot `n`: on chip while it lies in the resident part, otherwise in private memory, where a row
whose page is not mapped or that cannot be read, and one in a debug area (R381), has no stated value. -/
def stackValue (s : State) (n : Nat) (g : Group) (l p : Nat) : Word :=
  if onStackAt g l p then (rowAt g (.stack p)).get l
  else
    let a := (stackCell g l p).2.1
    match privatePage s (coreOf n) g a true with
    | .ok e => if cellOut s n e a 0 then Config.freeWord (s.freeIx + l) else stackWord s e a l
    | .error _ => Config.freeWord (s.freeIx + l)

/-- Words outside the resident part that are to be read: a page that is not mapped is no fault of the read, which then has a free
value. -/
def mappedCells (s : State) (n : Nat) (g : Group) (cs : List Cell) : List Cell :=
  cs.filter fun c => match privatePage s (coreOf n) g c.2.1 true with
    | .ok _ => true
    | .error f => f.1 == 0x29

/-- The row that name `n` of lane `j` stands in for a reader (R188). -/
def sourceRef (g : Group) (act : Mask) (reader j n : Nat) : RowRef :=
  let t := lane g.threads j
  if has act j then refOf t n
  else if n < 16 && (lane g.threads reader).inHandler then if t.live && t.inHandler then .bank n else .nowhere
  else .stack (t.wb.toNat + n)

/-- Table 8-2: name `n` of lane `j` of the group in slot `k` as lane `reader` reads it. -/
def readLane (s : State) (k : Nat) (g : Group) (act : Mask) (reader j n : Nat) : Word :=
  if !(lane g.threads j).present then 0
  else match sourceRef g act reader j n with
    | .nowhere => 0
    | .bank i => (rowAt g (.bank i)).get j
    | .stack p => if has act j then (rowAt g (.stack p)).get j else stackValue s k g j p

/-- What a source field gives of lane `j`: a name by Table 8-2, a popped entry by lane, vlane, or vz. -/
def fieldOfLane (s : State) (c : Ctl) (a : Reg) (row : Row) (reader j : Nat) : Word :=
  if isPort a then row.get j
  else if a.toNat < 120 then readLane s c.g c.gr c.act reader j a.toNat
  else if (c.thread j).present then row.get j else 0

/-- The pending or evicted name that a reader would reach in lane `j`. -/
def pendingSource (c : Ctl) (a : Reg) (reader : Nat) (js : List Nat) : Option Nat :=
  if a.toNat < 120 then
    if js.any fun j => j < 32 && pendingRow c.gr j (sourceRef c.gr c.act reader j a.toNat) then some a.toNat else none
  else none

/-- Some row that the lanes `js` keep name `a` in is evicted. -/
def evictedSource (c : Ctl) (a : Reg) (js : List Nat) : Bool :=
  decide (a.toNat < 120) && js.any fun j => match sourceRef c.gr c.act (lowest c.act) j a.toNat with
    | .stack p => c.gr.evicted.contains (p % c.gr.budget)
    | _ => false

/-- The words of private memory in which those of the lanes `js` keep name `a` whose row lies outside their resident part. -/
def crossCells (c : Ctl) (a : Reg) (js : List Nat) : List Cell :=
  if a.toNat < 120 then
    js.filterMap fun j => match sourceRef c.gr c.act (lowest c.act) j a.toNat with
      | .stack p => if (c.thread j).present && !has c.act j && !onStackAt c.gr j p then some (stackCell c.gr j p) else none
      | _ => none
  else []

/-- The active lanes that read one of the lanes `m`. -/
def readersOf (c : Ctl) (reach : Nat → List Nat) (m : Mask) : Mask := maskOf fun l => has c.act l && (reach l).any (has m)

/-- A cross-lane instruction: its own names, then its fields, then the names it reaches in other lanes (R188), which have to be on
chip or readable in private memory (R377, R402), then the result of `f`. `reach` gives the lanes that a lane reads va of. -/
def runCross (d a : Reg) (fs : List Src) (reach : Ctl → List Row → Nat → List Nat) (f : Ctl → State → List Row → RegOut)
    (s : State) : Out :=
  withIssue s fun c s =>
    let ns := allNames fs d
    withDeps s c (fun l => pendingName c.gr l ns) fun s =>
      withRows s c ns fun s => withSources s c fs d fun rows s' =>
        withDeps s c (fun l => pendingSource c a l (reach c rows l)) fun s =>
          let js := (lanesOf c.act).flatMap (reach c rows)
          if evictedSource c a js then s
          else
            let cs := mappedCells s c.g c.gr (crossCells c a js)
            if (crossCells c a js).isEmpty then writeOut s' c d rows (f c s' rows)
            else match gatherCells s c.g c.gr cs with
              | .wait s => s
              | .fault e s => faultHere s c { e with flanes := readersOf c (reach c rows) e.flanes }
              | .ok s =>
                let s := { s with queues := s'.queues }
                writeOut (useWords s) c d rows (f c s rows)

/-- Every active lane reads every active lane. -/
def reachActive (c : Ctl) (_ : List Row) (_ : Nat) : List Nat := lanesOf c.act

/-! ## LSHFL, LSLIDE, LBCAST (R201) -/

/-- The result of a lane whose source lane is `j`: read, or filled. -/
def shuffled (s : State) (c : Ctl) (a : Reg) (m : BitVec 3) (rows : List Row) (old : Row) (l : Nat) (j : Int) : Word :=
  if 0 ≤ j ∧ j < 32 then fieldOfLane s c a (src rows 0) l j.toNat
  else match m.toNat % 4 with
    | 0 => 0
    | 1 => (src rows 0).get l
    | _ => old.get l

/-- All active lanes take their value from a Uniform va: their source lane is in range and present, or the fill is
their own va. -/
def fromUniform (c : Ctl) (m : BitVec 3) (rows : List Row) (j : Nat → Int) : Bool :=
  (src rows 0).tag == 0 && (lanesOf c.act).all fun l =>
    if 0 ≤ j l ∧ j l < 32 then (c.thread (j l).toNat).present else m.toNat % 4 == 1

/-- A shuffle; `one` says that every lane receives one value, as LBCAST gives. -/
def shuffle (d a b : Reg) (m : BitVec 3) (j : Ctl → Row → Nat → Int) (one : Bool) (s : State) : Out :=
  let old := m.toNat % 4 == 2
  runCross d a ([(a, 1), (b, 1)] ++ if old then [(d, 1)] else []) (fun c rows l =>
    let i := j c (src rows 1) l
    if 0 ≤ i ∧ i < 32 then [i.toNat] else []) (fun c s rows =>
    let o := if old then src rows 2 else .u 0
    let jl := j c (src rows 1)
    let v l := shuffled s c a m rows o l (jl l)
    let inside := decide (0 ≤ jl (lowest c.act)) && decide (jl (lowest c.act) < 32)
    let uni := (fromUniform c m rows jl || (one && (inside || m.toNat % 4 == 0 || (m.toNat % 4 == 2 && o.tag == 0))))
      && (lanesOf c.act).all fun l => v l == v (lowest c.act)
    ⟨if uni then .u (v (lowest c.act)) else .g (perLane v), sameThread⟩) s

def execLshfl (d a b : Reg) (m : BitVec 3) (s : State) : Out :=
  shuffle d a b m (fun _ rb l =>
    let v := (rb.get l).toNat
    ((if m.getLsbD 2 then l ^^^ v else v : Nat) : Int)) false s

def execLslide (d a b : Reg) (m : BitVec 3) (s : State) : Out :=
  shuffle d a b m (fun _ rb l =>
    let j : Int := l - (rb.get l).toInt
    if m.getLsbD 2 then j % 32 else j) false s

def execLbcast (d a b : Reg) (m : BitVec 3) (s : State) : Out :=
  shuffle d a b m (fun c rb _ => ((rb.get (lowest c.act)).toNat : Int)) true s

/-! ## VOTE (R202) -/

/-- The result over the active lanes. -/
def voteWord (m : BitVec 3) (act : Mask) (x : Nat → Word) : Word :=
  let ls := lanesOf act
  match m.toNat with
  | 0 => if ls.all fun l => x l != 0 then 1 else 0
  | 1 => if ls.any fun l => x l != 0 then 1 else 0
  | 2 => maskOf fun l => has act l && x l != 0
  | _ => if ls.all fun l => x l == x (lowest act) then 1 else 0

def execVote (d a : Reg) (m : BitVec 3) (s : State) : Out :=
  runCross d a [(a, 1)] reachActive (fun c _ rows => ⟨.u (voteWord m c.act (src rows 0).get), sameThread⟩) s

/-! ## LREDUCE, LSCAN (R76, R77, R203) -/

/-- The identity of an operation (Table 8-6). -/
def reduceIdentity (op : Nat) : Word :=
  match op with
  | 1 => 0x7FFFFFFF
  | 2 => 0x80000000
  | 3 => 0xFFFFFFFF
  | 5 => 0xFFFFFFFF
  | 8 => 0x80000000
  | 9 => 0x7F800000
  | 10 => 0xFF800000
  | _ => 0

/-- One node: the lower slot is the left operand. -/
def reduceNode (op : Nat) (mode : BitVec 2) (x y : Word) : Word × FFlags :=
  match op with
  | 0 => (x + y, 0)
  | 1 => (minWord false x y, 0)
  | 2 => (maxWord false x y, 0)
  | 3 => (minWord true x y, 0)
  | 4 => (maxWord true x y, 0)
  | 5 => (x &&& y, 0)
  | 6 => (x ||| y, 0)
  | 7 => (x ^^^ y, 0)
  | 8 => fadd mode x y
  | 9 => fminmax false x y
  | _ => fminmax true x y

/-- One level of the pairwise tree of R76. -/
def reduceLevel (op : Nat) (mode : BitVec 2) : List Word → List Word × FFlags
  | x :: y :: rest =>
    let n := reduceNode op mode x y
    let r := reduceLevel op mode rest
    (n.1 :: r.1, n.2 ||| r.2)
  | l => (l, 0)

/-- The tree: `n` levels. -/
def reduceTree (op : Nat) (mode : BitVec 2) : Nat → List Word → Word × FFlags
  | 0, l => (l.headD 0, 0)
  | n + 1, l =>
    let r := reduceLevel op mode l
    let t := reduceTree op mode n r.1
    (t.1, r.2 ||| t.2)

/-- One step of R77 at distance `d`: the new slots and the flags of its nodes. -/
def scanStep (op : Nat) (mode : BitVec 2) (d : Nat) (s : List Word) : List Word × FFlags :=
  let nodes := (List.range s.length).map fun l =>
    if d ≤ l then reduceNode op mode (s.getD (l - d) 0) (s.getD l 0) else (s.getD l 0, 0)
  (nodes.map (·.1), nodes.foldl (fun f n => f ||| n.2) 0)

/-- The inclusive values (R77). -/
def scanSlots (op : Nat) (mode : BitVec 2) (s : List Word) : List Word × FFlags :=
  [1, 2, 4, 8, 16].foldl (fun (a : List Word × FFlags) d =>
    let r := scanStep op mode d a.1
    (r.1, a.2 ||| r.2)) (s, 0)

/-- The slots: active lanes' values, identities elsewhere. -/
def reduceSlots (op : Nat) (c : Ctl) (x : Row) : List Word :=
  (List.range 32).map fun l => if has c.act l then x.get l else reduceIdentity op

/-- The mode of a floating tree: m[2:1], or FPX.RM of the lowest active lane. -/
def treeMode (c : Ctl) (m : BitVec 3) : BitVec 2 := modeOf m (c.thread (lowest c.act))

def execLreduce (d a b : Reg) (m : BitVec 3) (s : State) : Out :=
  runCross d a [(a, 1)] reachActive (fun c _ rows =>
    let op := b.toNat % 16
    let r := reduceTree op (treeMode c m) 5 (reduceSlots op c (src rows 0))
    ⟨.u r.1, orFpx fun _ => nfFlags m r.2⟩) s

def execLscan (d a b : Reg) (m : BitVec 3) (s : State) : Out :=
  runCross d a [(a, 1)] reachActive (fun c _ rows =>
    let op := b.toNat % 16
    let r := scanSlots op (treeMode c m) (reduceSlots op c (src rows 0))
    let v l := if b.getLsbD 4 then if l = 0 then reduceIdentity op else r.1.getD (l - 1) 0 else r.1.getD l 0
    ⟨.g (perLane v), orFpx fun _ => nfFlags m r.2⟩) s

/-! ## SHAPE, EXPAND (R204) -/

def execShape (d a : Reg) (s : State) : Out :=
  runReg d [(a, 1)] noExtra (fun _ _ rows => .ok ⟨.u (BitVec.ofNat 32 (src rows 0).tag), sameThread⟩) s

/-- EXPAND: the tag of each row that the active lanes keep the name in becomes G. -/
def execExpand (d : Reg) (s : State) : Out :=
  runControl [] (namesOf d 1) (fun c s _ =>
    let s := s.modGroup c.g fun g =>
      if d.toNat < 120 then (lanesOf c.act).foldl (fun g l =>
        let r := refOf (lane g.threads l) d.toNat
        setRowAt g r (rowAt g r).expand) g
      else g
    finish (balanceRows s c.g (entriesOf c (namesOf d 1))) c false) s

end Sys2Proof.Machine
end

