-- ==== Sys2Proof/Machine/Special.lean ====
section
/-! DEFINITION. The seven special functions (R244): each result is the exact value rounded once. Reciprocal and roots
are decided exactly; the others by fixed-point bounds on the exact value, the choice between the two bounds' results
being free where they round apart (log 12). -/
namespace Sys2Proof.Machine

/-! ## Roots -/

/-- The integer square root, one bit a step from bit `k` down. -/
def isqrtFrom (n : Nat) : Nat → Nat → Nat
  | 0, r => r
  | k + 1, r => let c := r + 2 ^ k; isqrtFrom n k (if c * c ≤ n then c else r)
def isqrt (n : Nat) : Nat := isqrtFrom n (Nat.log2 n / 2 + 1) 0

/-- A stand-in for the square root of `n/d` that rounds in FP32 as the root does: the root itself when it is a
multiple of 2^-k, otherwise a value between the same two neighbouring multiples of 2^-k. -/
def sqrtStand (n d : Nat) : XReal :=
  let k := 128
  let big := n * 2 ^ (2 * k) / d
  let r := isqrt big
  if r * r * d = n * 2 ^ (2 * k) then .fin false r (2 ^ k) else .fin false (2 * r + 1) (2 ^ (k + 1))

/-! ## Fixed-point series: values times 2^P -/

/-- Fraction bits of the fixed-point bounds. -/
def fixP : Nat := 512
def fixOne : Nat := 2 ^ fixP
def fixMul (a b : Nat) : Nat := a * b / fixOne

/-- Sum of `t / (2 i + 1)` with `t` divided by `q` at each step, alternating when `alt`: the positive and negative
parts. -/
def oddSeries (q : Nat) : Nat → Nat → Nat → Bool → Nat × Nat → Nat × Nat
  | 0, _, _, _, acc => acc
  | fuel + 1, t, i, neg, acc =>
    let x := t / (2 * i + 1)
    let acc := if neg && i % 2 == 1 then (acc.1, acc.2 + x) else (acc.1 + x, acc.2)
    oddSeries q fuel (t / q) (i + 1) neg acc

/-- atan(1/k). -/
def fixAtanInv (k : Nat) : Nat := let s := oddSeries (k * k) 120 (fixOne / k) 0 true (0, 0); s.1 - s.2
/-- Pi, by Machin's formula. -/
def fixPi : Nat := 16 * fixAtanInv 5 - 4 * fixAtanInv 239
/-- The natural logarithm of 2, as 2 atanh(1/3). -/
def fixLn2 : Nat := 2 * (oddSeries 9 170 (fixOne / 3) 0 false (0, 0)).1

/-- Sum of x^i / i! from term `t`. -/
def expSeries (x : Nat) : Nat → Nat → Nat → Nat → Nat
  | 0, _, _, acc => acc
  | fuel + 1, t, i, acc => expSeries x fuel (fixMul t x / (i + 1)) (i + 1) (acc + t)
def fixExp (x : Nat) : Nat := expSeries x 130 fixOne 0 0

/-- Alternating sum of every second term of the exponential series: positive and negative parts. -/
def trigSeries (x2 : Nat) : Nat → Nat → Nat → Bool → Nat × Nat → Nat × Nat
  | 0, _, _, _, acc => acc
  | fuel + 1, t, i, neg, acc =>
    let acc := if neg then (acc.1, acc.2 + t) else (acc.1 + t, acc.2)
    trigSeries x2 fuel (fixMul t x2 / ((i + 1) * (i + 2))) (i + 2) (!neg) acc
def fixSin (x : Nat) : Nat := let s := trigSeries (fixMul x x) 80 x 1 false (0, 0); s.1 - s.2
def fixCos (x : Nat) : Nat := let s := trigSeries (fixMul x x) 80 fixOne 0 false (0, 0); s.1 - s.2

/-- Odd powers of a fixed-point `z`: sum of z^(2i+1)/(2i+1). -/
def atanhSeries (z2 : Nat) : Nat → Nat → Nat → Nat → Nat
  | 0, _, _, acc => acc
  | fuel + 1, t, i, acc => atanhSeries z2 fuel (fixMul t z2) (i + 1) (acc + t / (2 * i + 1))

/-- The results, with their flags, that the two ends of an interval about the exact value round to. -/
abbrev Ends : Type := (Nat × FFlags) × (Nat × FFlags)

/-- An exact result. -/
def exactly (r : Nat × FFlags) : Ends := (r, r)

/-- The ends of an interval about an inexact value. -/
def inexactly (mode : BitVec 2) (lo hi : XReal) : Ends :=
  let r (x : XReal) := let y := roundF fp32 mode x; (y.1, y.2 ||| fNX)
  (r lo, r hi)

/-- A value known to lie within `err` of `±a`, both in units of 2^-P. -/
def roundBounds (mode : BitVec 2) (neg : Bool) (a err : Nat) : Ends :=
  inexactly mode (.fin neg (a - err) fixOne) (.fin neg (a + err) fixOne)

/-! ## The functions, for finite non-zero operands without a special case -/

/-- 2^x (R244): outside the range any value beyond the last boundary rounds as the exact one. -/
def exp2Of (mode : BitVec 2) (neg : Bool) (n d : Nat) : Ends :=
  if n % d = 0 then
    let k : Int := signed neg (n / d)
    exactly (roundF fp32 mode (dyadic false 1 (if 200 < k then 200 else if k < -200 then -200 else k)))
  else if 200 * d < n then
    let x := dyadic false 1 (if neg then -200 else 200)
    inexactly mode x x
  else
    let i : Int := if neg then -((n / d : Nat) : Int) - 1 else (n / d : Nat)
    let fr := (if neg then d - n % d else n % d) * fixOne / d
    let m := fixExp (fixMul fr fixLn2)
    let p := pow2 i
    inexactly mode (.fin false ((m - 2 ^ 24) * p.1) (fixOne * p.2)) (.fin false ((m + 2 ^ 24) * p.1) (fixOne * p.2))

/-- log2 x for positive x = n/d (R244). -/
def log2Of (mode : BitVec 2) (n d : Nat) : Ends :=
  let e := floorLog2 n d
  let p := pow2 e
  let mn := n * p.2
  let md := d * p.1
  if mn = md then exactly (roundF fp32 mode (.fin (decide (e < 0)) e.natAbs 1))
  else
    let z := (mn - md) * fixOne / (mn + md)
    let ln := 2 * atanhSeries (fixMul z z) 330 z 0 0
    let fr := ln * fixOne / fixLn2
    let v : Int := e * fixOne + fr
    roundBounds mode (decide (v < 0)) v.natAbs (2 ^ 32)

/-- sin x or cos x for x = ±n/d (R244): reduce by multiples of pi/2. -/
def sinCosOf (cos : Bool) (mode : BitVec 2) (neg : Bool) (n d : Nat) : Ends :=
  let x := n * fixOne / d
  let half := fixPi / 2
  let k := x / half
  let r := x % half
  let err := 2 ^ 24 * (k + 1)
  let q := if cos then k + 1 else k
  let v := if q % 2 = 1 then fixCos r else fixSin r
  let sgn := decide (2 ≤ q % 4)
  roundBounds mode (if cos then sgn else sgn != neg) v err

/-- The function codes, also the index of their free value. -/
inductive SpecialFn where
  | rcp | rsq | sqrt | ex2 | lg2 | sin | cos
deriving DecidableEq, Repr

def SpecialFn.code : SpecialFn → Nat
  | .rcp => 0
  | .rsq => 1
  | .sqrt => 2
  | .ex2 => 3
  | .lg2 => 4
  | .sin => 5
  | .cos => 6

/-- The NaN result with NV when `nv`. -/
def nanResult (nv : Bool) : Nat × FFlags := (canonNaN fp32, flagIf nv fNV)

/-- A special function of one FP32 value: Table 10-4, then the formula. -/
def special (f : SpecialFn) (mode : BitVec 2) (w : Word) : Word × FFlags :=
  let x := fval w
  let within (e : Ends) : Word × FFlags :=
    toWord (if e.1 = e.2 then e.1 else if Config.specialUpper f.code w mode then e.2 else e.1)
  match x.1 with
  | .nan => toWord (nanResult x.2)
  | .inf neg =>
    match f with
    | .rcp => toWord (withSign fp32 neg 0, 0)
    | .rsq => toWord (if neg then nanResult true else (0, 0))
    | .sqrt => toWord (if neg then nanResult true else (infBits fp32, 0))
    | .ex2 => toWord (if neg then (0, 0) else (infBits fp32, 0))
    | .lg2 => toWord (if neg then nanResult true else (infBits fp32, 0))
    | .sin => toWord (nanResult true)
    | .cos => toWord (nanResult true)
  | .fin neg n d =>
    if n = 0 then
      match f with
      | .rcp => toWord (withSign fp32 neg (infBits fp32), fDZ)
      | .rsq => toWord (withSign fp32 neg (infBits fp32), fDZ)
      | .sqrt => toWord (withSign fp32 neg 0, 0)
      | .ex2 => toWord (0x3F800000, 0)
      | .lg2 => toWord (withSign fp32 true (infBits fp32), fDZ)
      | .sin => toWord (withSign fp32 neg 0, 0)
      | .cos => toWord (0x3F800000, 0)
    else
      match f with
      | .rcp => toWord (roundF fp32 mode (.fin neg d n))
      | .rsq => if neg then toWord (nanResult true) else toWord (roundF fp32 mode (sqrtStand d n))
      | .sqrt => if neg then toWord (nanResult true) else toWord (roundF fp32 mode (sqrtStand n d))
      | .ex2 => within (exp2Of mode neg n d)
      | .lg2 => if neg then toWord (nanResult true) else within (log2Of mode n d)
      | .sin => within (sinCosOf false mode neg n d)
      | .cos => within (sinCosOf true mode neg n d)

end Sys2Proof.Machine
end

