-- ==== Sys2Proof/Machine/FloatInstr.lean ====
section
/-! DEFINITION. Floating instructions, majors 0x40 to 0x52 and 0x58 to 0x5A ("Floating-Point, Conversion and
Quantisation Instructions", R234 to R245, R250 to R252). -/
namespace Sys2Proof.Machine

/-! ## Forms -/

/-- The row of a result computed lane by lane in each thread's mode: Uniform when every source is Uniform (R237),
otherwise General. Lanes whose modes round apart hold different values, which no Uniform row can (R181), so their row
is General (DEDUCED, log 81). -/
def modedRow (c : Ctl) (rows : List Row) (h : Nat → Word) : Row :=
  let x := h (lowest c.act)
  if allU rows && (lanesOf c.act).all (fun l => h l == x) then .u x else .g (perLane h)

/-- A floating instruction of fixed latency over the sources `fs`. -/
def floatOp (d : Reg) (fs : List Src) (m : BitVec 3) (mode : Thread → BitVec 2)
    (f : BitVec 2 → List Word → Word × FFlags) (s : State) : Out :=
  runReg d fs noExtra (fun c _ rs =>
    let r l := f (mode (c.thread l)) (rs.map (·.get l))
    .ok ⟨modedRow c rs fun l => (r l).1, orFpx fun l => nfFlags m (r l).2⟩) s

/-- Operand `i` of a lane. -/
def opnd (l : List Word) (i : Nat) : Word := l.getD i 0

/-! ## FP32 arithmetic (R239, R240) -/

def execFadd (d a b : Reg) (m : BitVec 3) (s : State) : Out :=
  floatOp d [(a, 1), (b, 1)] m (modeOf m) (fun rm l => fadd rm (opnd l 0) (opnd l 1)) s
def execFsub (d a b : Reg) (m : BitVec 3) (s : State) : Out :=
  floatOp d [(a, 1), (b, 1)] m (modeOf m) (fun rm l => fsub rm (opnd l 0) (opnd l 1)) s
def execFmul (d a b : Reg) (m : BitVec 3) (s : State) : Out :=
  floatOp d [(a, 1), (b, 1)] m (modeOf m) (fun rm l => fmul rm (opnd l 0) (opnd l 1)) s
def execFfma (d a b : Reg) (m : BitVec 3) (s : State) : Out :=
  floatOp d [(a, 1), (b, 1), (d, 1)] m (modeOf m) (fun rm l => ffma rm (opnd l 0) (opnd l 1) (opnd l 2)) s

def execFmin (d a b : Reg) (m : BitVec 3) (s : State) : Out :=
  floatOp d [(a, 1), (b, 1)] m (fun _ => 0) (fun _ l => fminmax false (opnd l 0) (opnd l 1)) s
def execFmax (d a b : Reg) (m : BitVec 3) (s : State) : Out :=
  floatOp d [(a, 1), (b, 1)] m (fun _ => 0) (fun _ l => fminmax true (opnd l 0) (opnd l 1)) s

/-! ## Comparison (R241) -/

/-- Table 10-3: the result of a condition and its flags. -/
def floatCond (c : BitVec 4) (a b : Word) : Bool × FFlags :=
  let x := fval a
  let y := fval b
  let nan := x.1.isNaN || y.1.isNaN
  let sig := sigFlag (x.2 || y.2)
  match c.toNat with
  | 0 => (!nan && xeq x.1 y.1, sig)
  | 1 => (nan || !xeq x.1 y.1, sig)
  | 2 => (!nan && xlt x.1 y.1, flagIf nan fNV)
  | 3 => (!nan && (xlt x.1 y.1 || xeq x.1 y.1), flagIf nan fNV)
  | 4 => (!nan && xlt y.1 x.1, flagIf nan fNV)
  | 5 => (!nan && (xlt y.1 x.1 || xeq x.1 y.1), flagIf nan fNV)
  | 6 => (nan, sig)
  | _ => (!nan, sig)

def execFset (c : BitVec 4) (p : BitVec 3) (a b : Reg) (m : BitVec 3) (s : State) : Out :=
  runReg 127 [(a, 1), (b, 1)] noExtra (fun _ _ rs =>
    .ok ⟨noResult, fun l t =>
      let r := floatCond c ((src rs 0).get l) ((src rs 1).get l)
      orFpx (fun _ => nfFlags m r.2) l (t.setPred p (combine (m.toNat / 2) (t.pred p) r.1))⟩) s

/-! ## Rounding to integral, class (R242, R243) -/

/-- FRND of one lane. -/
def frndWord (mode : BitVec 2) (w : Word) : Word × FFlags :=
  let x := fval w
  match x.1 with
  | .nan => (BitVec.ofNat 32 (canonNaN fp32), sigFlag x.2)
  | .inf _ => (w, 0)
  | .fin neg n d =>
    if n = 0 then (w, 0)
    else
      let k := roundInt n d neg mode
      (BitVec.ofNat 32 (roundF fp32 0 (.fin neg k 1)).1, flagIf (k * d != n) fNX)

def execFrnd (d a : Reg) (m : BitVec 3) (s : State) : Out :=
  floatOp d [(a, 1)] m (modeOf m) (fun rm l => frndWord rm (opnd l 0)) s

/-- FCLS of one lane: the bit of the class. -/
def fclsWord (w : Word) : Word :=
  let neg := w.getLsbD 31
  let e := w.toNat / 2 ^ 23 % 2 ^ 8
  let f := w.toNat % 2 ^ 23
  let i := if e = 255 then if f = 0 then (if neg then 0 else 7) else if f < 2 ^ 22 then 8 else 9
    else if e = 0 then if f = 0 then (if neg then 3 else 4) else (if neg then 2 else 5)
    else if neg then 1 else 6
  BitVec.ofNat 32 (2 ^ i)

def execFcls (d a : Reg) (s : State) : Out :=
  runReg d [(a, 1)] noExtra (fun _ _ rs => .ok ⟨lanewise rs fun l => fclsWord ((src rs 0).get l), sameThread⟩) s

/-! ## Packed half precision (R245) -/

def halfFmt (m : BitVec 3) : FFmt := if m.getLsbD 2 then bf16 else fp16
/-- m[1] selects RTZ, otherwise FPX.RM. -/
def halfMode (m : BitVec 3) (t : Thread) : BitVec 2 := if m.getLsbD 1 then 1 else t.rm
/-- Join two 16-bit elements and the union of their flags (R66). -/
def twoHalves (x y : Nat × FFlags) : Word × FFlags := (BitVec.ofNat 32 (x.1 + 2 ^ 16 * y.1), x.2 ||| y.2)

def execHadd2 (d a b : Reg) (m : BitVec 3) (s : State) : Out :=
  floatOp d [(a, 1), (b, 1)] m (halfMode m) (fun rm l =>
    let r i := fbin (halfFmt m) (xadd rm) rm (element (opnd l 0) 16 i) (element (opnd l 1) 16 i)
    twoHalves (r 0) (r 1)) s
def execHmul2 (d a b : Reg) (m : BitVec 3) (s : State) : Out :=
  floatOp d [(a, 1), (b, 1)] m (halfMode m) (fun rm l =>
    let r i := fbin (halfFmt m) xmul rm (element (opnd l 0) 16 i) (element (opnd l 1) 16 i)
    twoHalves (r 0) (r 1)) s
def execHfma2 (d a b : Reg) (m : BitVec 3) (s : State) : Out :=
  floatOp d [(a, 1), (b, 1), (d, 1)] m (halfMode m) (fun rm l =>
    let r i := ffused (halfFmt m) rm (element (opnd l 0) 16 i) (element (opnd l 1) 16 i) (element (opnd l 2) 16 i)
    twoHalves (r 0) (r 1)) s

/-! ## Special functions (R244): long-latency under FA -/

/-- Start a special function: sources read and the mode fixed at issue (R236), the result written at completion. A
port destination receives the result at issue (R37). -/
def specialOp (f : SpecialFn) (d a : Reg) (m : BitVec 3) (s : State) : Out :=
  withIssue s fun c s =>
    let ns := allNames [(a, 1)] d
    withDeps s c (fun l => pendingName c.gr l ns) fun s =>
      withFlag s c c.hd.fa fun s =>
        withRows s c ns fun s =>
          withSources s c [(a, 1)] d fun rows s =>
            let r l := special f (modeOf m (c.thread l)) ((src rows 0).get l)
            let row := modedRow c rows fun l => (r l).1
            let s := startOp (pushDst s c d row) c c.hd.fa fun o =>
              { o with
                dest := destOf c.gr d 1
                uni := row.tag == 0
                got := (lanesOf c.act).map fun l => (l, [row.get l])
                fpxPending := !m.getLsbD 0
                fflags := perLane fun l => (r l).2 }
            finish s c (wholeWrite c.gr c.act && row.tag == 0)

def execFrcp (d a : Reg) (m : BitVec 3) (s : State) : Out := specialOp .rcp d a m s
def execFrsq (d a : Reg) (m : BitVec 3) (s : State) : Out := specialOp .rsq d a m s
def execFsqrt (d a : Reg) (m : BitVec 3) (s : State) : Out := specialOp .sqrt d a m s
def execFex2 (d a : Reg) (m : BitVec 3) (s : State) : Out := specialOp .ex2 d a m s
def execFlg2 (d a : Reg) (m : BitVec 3) (s : State) : Out := specialOp .lg2 d a m s
def execFsin (d a : Reg) (m : BitVec 3) (s : State) : Out := specialOp .sin d a m s
def execFcos (d a : Reg) (m : BitVec 3) (s : State) : Out := specialOp .cos d a m s

/-! ## FPX (R250 to R252) -/

/-- FPX of lane `l` is pending; TVAL 136 names it (R67). -/
def fpxExtra (c : Ctl) (l : Nat) : Option Nat := if pendingFpx c.gr l then some 136 else none

/-- FPX[9:0] (Table 3-5). -/
def Thread.fpxWord (t : Thread) : Word := BitVec.ofNat 32 (t.rm.toNat * 2 ^ 8 + t.fpx.toNat)

def execFpxr (d : Reg) (s : State) : Out :=
  runReg d [] fpxExtra (fun c _ _ => .ok ⟨.g (perLane fun l => (c.thread l).fpxWord), sameThread⟩) s

def execFpxc (d a : Reg) (m : BitVec 3) (s : State) : Out :=
  runReg d [(a, 1)] fpxExtra (fun c _ rs =>
    .ok ⟨.g (perLane fun l => (c.thread l).fpxWord), fun l t =>
      let v : FFlags := ((src rs 0).get l).setWidth 7
      { t with fpx := if m.toNat = 0 then t.fpx &&& ~~~v else v }⟩) s

def execFrm (d a : Reg) (s : State) : Out :=
  runReg d [(a, 1)] fpxExtra (fun c _ rs =>
    .ok ⟨.g (perLane fun l => (c.thread l).rm.setWidth 32), fun l t =>
      { t with rm := ((src rs 0).get l).setWidth 2 }⟩) s

end Sys2Proof.Machine
end

