-- ==== Sys2Proof/Machine/ImageBytes.lean ====
section
/-! DEFINITION. Group images as bytes: which names a save stores, the layout of Table 4-10, and what a restore reads back of
an image that software has changed ("Contexts", R96, R102, R105; R387). -/
namespace Sys2Proof.Machine

/-! ## The liveness entry (Table 4-11) -/

/-- The address of liveness entry `k` of an image. -/
def liveAddr (im : Image) (k : Nat) : Nat := im.base.toNat + im.liveoff + 64 * k

/-- The 64 bytes of liveness entry `k` of an image. -/
def liveEntry (s : State) (c : Nat) (im : Image) (k : Nat) : List Byte :=
  match walk s c (liveAddr im k) with
  | .ok e => frameRead s e (liveAddr im k) 64
  | .error _ => List.replicate 64 0

def liveName (b : List Byte) (n : Nat) : Bool := (b.getD (n / 8) 0).getLsbD (n % 8)
def liveStream (b : List Byte) (i : Nat) : Bool := (b.getD 16 0).getLsbD i

/-- The scratchpad ranges of an entry: start and exclusive end. -/
def liveRanges (b : List Byte) : List (Nat × Nat) :=
  (List.range (min 4 (byteAt b 17))).map fun i => (field b (20 + 8 * i) 4, field b (24 + 8 * i) 4)

/-! ## What is stored (R102) -/

/-- The stack positions of a forced save: from the lowest WRES to the top of the highest resident part. -/
def forcedNames (gr : Group) : List Nat :=
  let ws := (lanesOf (presentMask gr)).map fun l => (lane gr.threads l).wres.toNat
  match ws with
  | [] => []
  | w :: ws =>
    let lo := ws.foldl min w
    let hi := ws.foldl max w + gr.budget
    (List.range (hi - lo)).map (lo + ·)

/-- The stack positions that a save stores. -/
def savedNames (s : State) (gr : Group) (entry : Option Nat) : List Nat :=
  match entry.bind fun k => (s.image? gr.ctx gr.image).map fun im => liveEntry s gr.ctx im k with
  | none => forcedNames gr
  | some b =>
    let wb := (lane gr.threads (lowest (liveMask gr))).wb.toNat
    ((List.range 120).filter (liveName b)).map (wb + ·)

/-- The liveness entry can be read: its page is mapped in a module of the domain, its line neither lost nor poisoned, and the request
for one in another module has been answered (R256, R373, R377, R378, R402). -/
def entryReady (s : State) (g : Nat) (gr : Group) (entry : Option Nat) : CellsAns :=
  match entry.bind fun k => (s.image? gr.ctx gr.image).map fun im => liveAddr im k with
  | none => .ok s
  | some a =>
    let fault (f : BitVec 8) (v : BitVec 64) : CellsAns := .fault ⟨f, liveMask gr, v, 0⟩ s
    match walk s gr.ctx a with
    | .error f => fault f (walkValue s (dieOfGroup g) gr.ctx a f)
    | .ok t =>
      if t.rmt.any (fun m => !s.domain.members.getLsbD m) then fault 0x23 (BitVec.ofNat 64 a)
      else if !t.host && t.rmt.isNone && s.coherenceLost.contains (t.phys a / 128) then fault 0x29 (BitVec.ofNat 64 (bankOfTlb (coreOf g)))
      else match poisonAt s t a with
        | some v => fault 0x29 v
        | none => match pollAll s (rowParty s g true) ((t.rmt.map fun m => (m, t.phys a / 4096, 2 ^ 15)).toList) with
          | .error (some x, s) => lateCells s g gr x
          | .error (none, s) => .wait s
          | .ok s => .ok s

/-- The words of private memory that the image of a group holds, but for those whose requests have come to nothing before: the words of
its evicted rows, and those of the stored positions that lie outside a thread's resident part. -/
def imageCells (s : State) (g : Nat) (gr : Group) (entry : Option Nat) : List Cell :=
  let late (c : Cell) : Bool := (farCells s gr [c]).any fun x =>
    (messageOf s (rowParty s g true) x.1 x.2.1 x.2.2).any fun m => !m.awaited s.realTime
  (gr.evicted.flatMap (fun e => rowCells gr e (liveMask gr))
    ++ mappedCells s g gr ((savedNames s gr entry).flatMap fun p => (lanesOf (presentMask gr)).filterMap fun l =>
      if onStackAt gr l p then none else some (stackCell gr l p))).filter (!late ·)

/-- The image of a group can be written: words of evicted rows have reached other modules, and what it reads can be read. -/
def imageReady (s : State) (g : Nat) (gr : Group) (entry : Option Nat) : CellsAns :=
  if !gr.leaving.isEmpty then .wait (pushRows s g fun _ => true)
  else match entryReady s g gr entry with
    | .ok s => gatherCells s g gr (imageCells s g gr entry)
    | a => a

/-- The scratchpad ranges of the entry that a group is saved under; none for a forced save. -/
def savedRanges (s : State) (gr : Group) (entry : Option Nat) : List (Nat × Nat) :=
  match entry.bind fun k => (s.image? gr.ctx gr.image).map fun im => liveEntry s gr.ctx im k with
  | some b => liveRanges b
  | none => []

/-- Some thread of the group is in its handler. -/
def anyHandler (gr : Group) : Bool := (List.range 32).any fun l => (lane gr.threads l).live && (lane gr.threads l).inHandler

/-- The row that a stored position holds: the on-chip row when it is resident for every present thread, otherwise each
thread's own value, `far` giving those outside a thread's resident part. -/
def storedRow (gr : Group) (far : Nat → Nat → Word) (p : Nat) : Row :=
  if (lanesOf (presentMask gr)).all fun l => onStackAt gr l p then rowAt gr (.stack p)
  else .g (perLane fun l =>
    if !(lane gr.threads l).present then 0 else if onStackAt gr l p then (rowAt gr (.stack p)).get l else far l p)

/-- The rows of an image in name order: the handler bank first, then the stack positions `names`. -/
def imageRows (gr : Group) (far : Nat → Nat → Word) (names : List Nat) : List Row :=
  (if anyHandler gr then (List.range 16).map fun n => (tget gr.bank n).getD (.u 0) else [])
    ++ names.map (storedRow gr far)

/-- The stream registers that a save stores: those of the entry, or every valid one. -/
def savedStreams (s : State) (gr : Group) (entry : Option Nat) : List Nat :=
  match entry.bind fun k => (s.image? gr.ctx gr.image).map fun im => liveEntry s gr.ctx im k with
  | some b => (List.range 8).filter (liveStream b)
  | none => (List.range 8).filter fun q => (List.range 32).any fun l => (streamOf (lane gr.threads l) q).tag.getLsbD 0
where streamOf (t : Thread) (q : Nat) : StreamReg := t.streams[q % 8]'(Nat.mod_lt _ (by decide))

/-! ## Bytes (Table 4-10) -/

/-- The payload of a name. -/
def rowBytes : Row → List Byte
  | .u x => leBytes 8 x.toNat
  | .a b st => wordBytes b ++ wordBytes st
  | .g w => (List.range 32).flatMap fun l => wordBytes (lane w l)

/-- Two bits per name, padded to a multiple of 8 bytes. -/
def tagBytes (rs : List Row) : List Byte :=
  let n := (rs.length * 2 + 63) / 64 * 8
  leBytes n (rs.zipIdx.foldl (fun a p => a + p.1.tag * 4 ^ p.2) 0)

/-- A port's five bytes. -/
def portBytes (p : Option Port) : List Byte :=
  match p with
  | none => List.replicate 5 0
  | some p => wordBytes p.ident ++ [if p.producer then 3 else 1]

/-- A thread's block; the byte that the table leaves over holds the stream length. -/
def threadBytes (t : Thread) : List Byte :=
  let r := if t.inHandler then t.resume else t.at_
  leBytes 8 t.at_.pc.toNat ++ leBytes 8 t.meeting.toNat ++ leBytes 8 t.tpc.toNat ++ leBytes 8 t.tval.toNat
    ++ leBytes 8 r.hdr.toNat ++ leBytes 8 t.stacklim.toNat ++ wordBytes t.wb ++ wordBytes t.wres ++ [t.tcause, t.preds]
    ++ leBytes 2 t.fpxWord.toNat ++ [BitVec.ofNat 8 (r.pos % 16 + (if r.guard then 16 else 0) + (if t.inHandler then 32 else 0))]
    ++ leBytes 2 t.counter.toNat ++ [t.dlen.setWidth 8]

/-- The mask of the lanes whose threads satisfy `p`. -/
def threadMask (gr : Group) (p : Thread → Bool) : Mask := maskOf fun l => p (lane gr.threads l)

/-- The handler window of a thread: zero outside its handler. -/
def handlerBytes (t : Thread) : List Byte := wordBytes (if t.inHandler then wrap32 t.hwb else 0)

/-- The image of a group that stores the stack positions `names` and the stream registers `qs`. -/
def imageWith (gr : Group) (far : Nat → Nat → Word) (entry : Option Nat) (names qs : List Nat) (teamIx : Nat) : List Byte :=
  let rs := imageRows gr far names
  let body := gr.ports.toList.flatMap portBytes ++ [0, 0]
    ++ (List.range 32).flatMap (fun l => threadBytes (lane gr.threads l))
    ++ (if anyHandler gr then (List.range 32).flatMap fun l => handlerBytes (lane gr.threads l) else [])
    ++ tagBytes rs ++ rs.flatMap rowBytes
    ++ qs.flatMap fun q => (List.range 32).flatMap (fun l => leBytes 8 (savedStreams.streamOf (lane gr.threads l) q).tag.toNat)
      ++ (List.range 32).flatMap fun l => leBytes 128 (savedStreams.streamOf (lane gr.threads l) q).data.toNat
  leBytes 4 gr.gid ++ leBytes 4 teamIx ++ leBytes 4 (entry.getD 0x1FFFF) ++ wordBytes (threadMask gr (·.present))
    ++ wordBytes (threadMask gr (·.exited)) ++ wordBytes (threadMask gr (·.inHandler)) ++ leBytes 4 rs.length
    ++ leBytes 4 ((qs.map fun q => 2 ^ q).sum) ++ leBytes 4 gr.budget ++ leBytes 4 (64 + body.length)
    ++ List.replicate 24 0 ++ body

/-- The image of the group in slot `g`, saved under a liveness entry or in forced form. -/
def imageBytes (s : State) (g : Nat) (gr : Group) (entry : Option Nat) (teamIx : Nat) : List Byte :=
  imageWith gr (stackValue s g gr) entry (savedNames s gr entry) (savedStreams s gr entry) teamIx

/-- The index of a group's team: its linear index in its launch, 0 for a task group. -/
def teamIndexOf (s : State) (gr : Group) : Nat :=
  match s.team? gr.team with
  | some t => match s.launch? t.launch with
    | some l => if t.task then 0 else linearIndex l t.x t.y t.z
    | none => 0
  | none => 0

/-! ## What software has changed in an image (R96, R387) -/

/-- A field of a thread's block that software has changed. -/
def changedField (t : Thread) (b : List Byte) (i n : Nat) : Option Nat :=
  let v := field b i n
  if v = field (threadBytes t) i n then none else some v

/-- The thread with a field of its block, where software has changed it, taken up by `f`. -/
def takeField (b : List Byte) (old : Thread) (i n : Nat) (f : Nat → Thread → Thread) (t : Thread) : Thread :=
  match changedField old b i n with
  | some v => f v t
  | none => t

/-- A code address that software has put into an image: a multiple of 4 (R20), its bits [1:0] read as zero as those of TPC do
(Table 4-3). The manual does not speak of others: DESIGN CHOICE (log entry 43). -/
def codeAddr (v : Nat) : VA := BitVec.ofNat 57 (v / 4 * 4)

/-- The thread with the changed resume fields of its block: its ResumeState in a handler, otherwise its position. -/
def takeResume (b : List Byte) (old t : Thread) : Thread :=
  if (changedField old b 32 8).isNone ∧ (changedField old b 60 1).isNone then t
  else
    let p : CodePos := ⟨codeAddr (field b 32 8), field b 60 1 % 16, (BitVec.ofNat 8 (field b 60 1)).getLsbD 4⟩
    let t := { t with inHandler := (BitVec.ofNat 8 (field b 60 1)).getLsbD 5 }
    if t.inHandler then { t with resume := p, resumeNext := { p with pos := p.pos + 1 } } else { t with at_ := p, held := false }

/-- A thread as its block in the image has it now: a field that no software has changed stands for what was saved. One whose meeting
register or position has been changed is held again only where it reaches its meeting address (R176, `settle`). A TPC that
software has changed in a handler thread's block (R96) counts as written by SYSW, so that TRET decodes it as a header (R104):
DESIGN CHOICE, the manual does not say how TRET resumes then (log entry 43). -/
def restoredThread (b : List Byte) (t : Thread) : Thread :=
  takeField b t 63 1 (fun v t => { t with dlen := BitVec.ofNat 2 v }) <|
  takeField b t 61 2 (fun v t => { t with counter := BitVec.ofNat 16 v }) <|
  takeField b t 58 2 (fun v t => { t with fpx := BitVec.ofNat 7 v, rm := BitVec.ofNat 2 (v / 2 ^ 8) }) <|
  takeField b t 57 1 (fun v t => { t with preds := BitVec.ofNat 8 v }) <|
  takeField b t 56 1 (fun v t => { t with tcause := BitVec.ofNat 8 v }) <|
  takeField b t 52 4 (fun v t => { t with wres := BitVec.ofNat 32 v }) <|
  takeField b t 48 4 (fun v t => { t with wb := BitVec.ofNat 32 v }) <|
  takeField b t 40 8 (fun v t => { t with stacklim := BitVec.ofNat 32 v }) <|
  takeField b t 24 8 (fun v t => { t with tval := BitVec.ofNat 64 v }) <|
  takeField b t 16 8 (fun v t => { t with tpc := codeAddr v, tpcWritten := t.inHandler }) <|
  takeField b t 8 8 (fun v t => { t with meeting := BitVec.ofNat 57 v, held := false }) <|
  takeField b t 0 8 (fun v t => { t with at_ := atHeader (codeAddr v), held := false }) <|
  takeResume b t t

/-- A row from its tag and its payload. -/
def rowOf (tag : Nat) (b : List Byte) : Row :=
  let w i := BitVec.ofNat 32 (field b (4 * i) 4)
  match tag with
  | 0 => .u (w 0)
  | 1 => .a (w 0) (w 1)
  | _ => .g (perLane w)

/-- The rows of an image, from their tags and payloads. -/
def parseRows : List Nat → List Byte → List Row
  | [], _ => []
  | t :: ts, b =>
    let n := if t = 2 then 128 else 8
    rowOf t (b.take n) :: parseRows ts (b.drop n)

/-- Put the row of stack position `p` back: whole when every present thread keeps it on chip, otherwise the values that
have changed. -/
def putRow (g : Group) (p : Nat) (r : Row) : Group :=
  let inside l : Bool := let w := (lane g.threads l).wres.toNat; decide (w ≤ p) && decide (p < w + g.budget)
  let ls := lanesOf (presentMask g)
  if ls.all inside then setRowAt g (.stack p) r
  else (ls.filter inside).foldl (fun g l =>
    if (rowAt g (.stack p)).get l = r.get l then g else setLaneAt g (.stack p) l (r.get l)) g

/-- A lane mask of an image's header. -/
def headerMask (b : List Byte) (i : Nat) : Mask := BitVec.ofNat 32 (field b i 4)

/-- The header says that a thread is in its handler, so that the image has handler windows and a handler bank. -/
def headerHandlers (b : List Byte) : Bool := headerMask b 12 &&& ~~~headerMask b 16 &&& headerMask b 20 != 0

/-- The stream registers that an image holds: the stream bitmap of its header. -/
def SavedGroup.streamsNow (sg : SavedGroup) : List Nat :=
  if sg.bytes.length < 2144 then sg.streams else (List.range 8).filter fun q => (BitVec.ofNat 8 (field sg.bytes 28 1)).getLsbD q

/-- Lane `l` of stream register `q` in the stream section at `base`; invalid when the image does not hold the register. -/
def imageStream (b : List Byte) (base : Nat) (qs : List Nat) (q l : Nat) : StreamReg :=
  match (List.range qs.length).find? fun i => qs[i]? == some q with
  | some i => ⟨BitVec.ofNat 64 (field b (base + 4352 * i + 8 * l) 8), BitVec.ofNat 1024 (field b (base + 4352 * i + 256 + 128 * l) 128)⟩
  | none => .invalid

/-- A thread with its lane's bits of the header masks, its handler window and its stream registers as the image has them now; `old`
is the thread that was saved. -/
def takeLane (sg : SavedGroup) (base l : Nat) (old t : Thread) : Thread :=
  let b := sg.bytes
  let w := BitVec.ofNat 32 (field b (2144 + 4 * l) 4)
  let h := has (headerMask b 20) l
  { t with
    present := has (headerMask b 12) l, exited := has (headerMask b 16) l
    inHandler := if h = old.inHandler then t.inHandler else h, held := t.held && h == old.inHandler
    hwb := if headerHandlers b && h && w != wrap32 (if old.inHandler then old.hwb else 0) then w.toInt else t.hwb
    streams := Vector.ofFn fun q =>
      if sg.streams.contains q.val || sg.streamsNow.contains q.val then imageStream b base sg.streamsNow q.val l else t.streams[q] }

/-- Port `i` of the port block: as it was saved when software has left it alone, else the end that the block names, unbound when
the launch has no such queue instance. -/
def takePort (s : State) (gr : Group) (b : List Byte) (i : Nat) (old : Option Port) : Option Port :=
  let e := (b.drop (64 + 5 * i)).take 5
  let id := field e 0 4
  if e = portBytes old then old
  else if field e 4 1 % 2 = 0 then none
  else ((s.team? gr.team).bind fun t => findQueue s t.launch (id / 2 ^ 24 % 32) (id % 2 ^ 24)).map fun q =>
    ⟨q, BitVec.ofNat 32 id, field e 4 1 / 2 % 2 == 1⟩

/-- The rows that the image has now, in name order: its handler bank, when it has one, and the stored positions; with where its streams
begin. -/
def SavedGroup.rowsNow (sg : SavedGroup) : List Row × Nat :=
  let b := sg.bytes
  let names := min (field b 24 4) b.length
  let at_ := 2144 + if headerHandlers b then 128 else 0
  let pad := (names * 2 + 63) / 64 * 8
  let tags := (List.range names).map fun i => field b (at_ + i / 4) 1 / 4 ^ (i % 4) % 4
  (parseRows tags (b.drop (at_ + pad)), at_ + pad + (tags.map fun t => if t = 2 then 128 else 8).sum)

/-- What the image has of position `p` of lane `l`. -/
def SavedGroup.outside (sg : SavedGroup) (l p : Nat) : Word :=
  let rows := sg.rowsNow.1
  match (sg.names.zip (if headerHandlers sg.bytes then rows.drop 16 else rows)).find? (·.1 == p) with
  | some x => x.2.get l
  | none => 0

/-- A saved group as its image has it now, with what software has changed in the header's masks and stream bitmap, the ports, the
thread blocks, the handler windows, the rows and the stream registers (R96). The other fields of the header say which image it is
and are not taken: DESIGN CHOICE (log entry 43). -/
def SavedGroup.current (s : State) (sg : SavedGroup) : Group :=
  let b := sg.bytes
  if b.length < 2144 then sg.group
  else
    let handlers := headerHandlers b
    let (rows, base) := sg.rowsNow
    let g := { sg.group with
      threads := perLane fun l =>
        let old := lane sg.group.threads l
        takeLane sg base l old (restoredThread ((b.drop (96 + 64 * l)).take 64) old)
      ports := Vector.ofFn fun i => takePort s sg.group b i.val sg.group.ports[i] }
    let g := if handlers then (rows.take 16).zipIdx.foldl (fun g p => setRowAt g (.bank p.2) p.1) g else g
    (sg.names.zip (if handlers then rows.drop 16 else rows)).foldl (fun g p => putRow g p.1 p.2) g

end Sys2Proof.Machine
end

