-- ==== Sys2Proof/Machine/LoadStore.lean ====
section
/-! DEFINITION. Memory instructions, majors 0x60 to 0x72 ("The Memory Model and Memory Instructions", R278 to R285,
R288 to R293; R261, R262, R267, R268, R385). -/
namespace Sys2Proof.Machine

/-! ## Data comparators (R383, R385, R386); comparator `i` has number 16 + i -/

/-- Check the data comparators for one issue: the lowest one that stops it with its lanes, and the comparators after. -/
def checkDCmp (g : Group) (seen : List (Nat × Seen)) : Nat → List DCmp → Option (Nat × Mask) × List DCmp
  | _, [] => (none, [])
  | n, k :: ks =>
    let m := (maskOf fun l => seen.any fun p => p.1 == l && dcmpMatches k p.2) &&& ~~~exempt g n
    let r := checkDCmp g seen (n + 1) ks
    if m = 0 then (r.1, k :: r.2)
    else if k.skip = 0 then (some (n, m), k :: r.2)
    else (r.1, { k with skip := k.skip - 1 } :: r.2)

/-- The data comparators of one issue over what they see of its lanes; then `k`. -/
def withSeen (s : State) (c : Ctl) (seen : List (Nat × Seen)) (k : State → State) : State :=
  match (s.ctx c.gr.ctx).debug with
  | none => k s
  | some d =>
    let r := checkDCmp c.gr seen 16 d.dcmp
    let s := s.modCtx c.gr.ctx fun x => { x with debug := some { d with dcmp := r.2 } }
    match r.1 with
    | some (n, m) => stopAtCmp s c n m
    | none => k s

/-! ## One lane's access before it issues -/

/-- A lane's access, or the fault of its alignment and range checks (R288). -/
structure LaneReq where
  acc : Acc
  pre : Option (BitVec 8 × BitVec 64)

/-- The answer of the checks of R261 for one lane. -/
inductive LaneAns where
  | wait
  | bad (cause : BitVec 8) (value : BitVec 64)
  | ok (e : TlbEntry)

def LaneAns.waits : LaneAns → Bool
  | .wait => true
  | _ => false
def LaneAns.cause : LaneAns → Option (BitVec 8 × BitVec 64)
  | .bad c v => some (c, v)
  | _ => none

/-- The class checks of R267, R268, R367, R373 and the marks of R378, R402, as far as they can be seen at issue. -/
def classFault (s : State) (g : Nat) (a : Acc) (e : TlbEntry) : Option (BitVec 8 × BitVec 64) :=
  let va := a.va.setWidth 64
  if e.host then if a.op.atomic then some (0x23, va) else none
  else match e.rmt with
    | some m => if s.domain.members.getLsbD m then none else some (0x23, va)
    | none =>
      let pa := e.phys a.va.toNat
      if s.coherenceLost.contains (pa / 128) then some (0x29, BitVec.ofNat 64 (clusterBank g))
      else if a.op.reads && s.poison.contains (pa / 128) then some (0x29, BitVec.ofNat 64 (stackBank pa))
      else if sizeClash s (pa / 4096) (unitCode e.size) then some (0x23, va)
      else if a.op.stores && refusesStore s e a.va.toNat then some (0x23, va)
      else none

/-- The checks of one lane, translating through the core's TLB. -/
def checkLane (s : State) (g c : Nat) (r : LaneReq) : LaneAns × State :=
  match r.pre with
  | some (f, v) => (.bad f v, s)
  | none => match translate s (coreOf g) (dieOfGroup g) c r.acc.va.toNat (groupParty s g) with
    | .wait s => (.wait, s)
    | .fault f v _ => (.bad f v, s)
    | .hit e s =>
      if (r.acc.op.stores || r.acc.needW) && !e.w then (.bad 0x23 (r.acc.va.setWidth 64), s)
      else match classFault s g r.acc e with
        | some (f, v) => (.bad f v, s)
        | none => (.ok e, s)

def checkLanes (s : State) (g c : Nat) : List LaneReq → List (LaneReq × LaneAns) × State
  | [] => ([], s)
  | r :: rs =>
    let x := checkLane s g c r
    let y := checkLanes x.2 g c rs
    ((r, x.1) :: y.1, y.2)

/-- The access is issue-placed (R278): the TLB holds the unit's class as Private to the group, or, for a load, as
ReadShared or Pin-ReadOnly. -/
def issuePlaced (s : State) (g : Nat) (a : Acc) (e : TlbEntry) : Bool :=
  match a.op with
  | .load => classAllows e (groupParty s g) false
  | .store _ => classAllows e (groupParty s g) true
  | _ => false

/-- The word of a barrier after an operation, as its bytes. -/
def barAfter (w : Nat) (op : BarOp) : List Byte :=
  let upd (r : Except Nat Nat) : List Byte := match r with
    | .ok n => leBytes 16 n
    | .error n => leBytes 16 n
  match op with
  | .binit cfg => leBytes 16 (barInit w cfg.toNat)
  | .barv n => upd (barUpdate w n.toNat 0)
  | .bexp n => upd (barUpdate w 0 n.toNat)
  | .btest _ => []

/-- What the comparators see of a lane's access at its issue; the push of a TSPAWN is checked when its slot is known. -/
def seenOf (s : State) (a : Acc) (e : TlbEntry) : Seen :=
  let off := a.va.toNat % 4
  let old := frameRead s e (a.va.toNat - off) (if a.size < 4 then 4 else a.size)
  let oldw := BitVec.ofNat 32 (leNat (old.take 4))
  let after := match a.op with
    | .store d => wordsAfter old d off
    | .atom op v => [atomNew op oldw v]
    | .cas cmp new => [if oldw = cmp then new else oldw]
    | .bar op => words32 (barAfter (leNat old) op)
    | _ => []
  let r := match a.op with
    | .store _ => false
    | _ => true
  ⟨a.va.toNat, a.size, r, a.op.stores, after⟩

/-! ## The issue of a memory instruction (R278 to R280) -/

/-- The classification unit of a translated address; another module's unit has a number of its own (R264). -/
def unitUnder (e : TlbEntry) (va : Nat) : Nat := if e.rmt.isSome then e.unit else unitHead (e.phys va / 4096) (unitCode e.size)

/-- An issue-placed store by the owner of a Private unit (R269); the entry of another module's unit is at that module. -/
def markWritten (s : State) (e : TlbEntry) (va : Nat) : State :=
  if e.rmt.isSome then s
  else
  let u := unitHead (e.phys va / 4096) (unitCode e.size)
  { s with classes := tmod s.classes u fun k => { k.soil (e.phys va / 128) true false with written := true, since := s.realTime } }

/-- Perform issue-placed accesses in ascending lane order: the values bound, and the units touched. -/
def performPlaced (s : State) (gr : Group) : List (Acc × TlbEntry) → List (Nat × List Word) × List Nat × State
  | [] => ([], [], s)
  | (a, e) :: rest =>
    let r := match performAcc s gr e a with
      | .done ws s => (ws, s)
      | .wait s => ([], s)
      | .fault _ _ s => ([], s)
    let s := if a.op.stores then markWritten r.2 e a.va.toNat else r.2
    let t := performPlaced s gr rest
    ((a.lane, r.1) :: t.1, unitUnder e a.va.toNat :: t.2.1, t.2.2)

/-- A memory instruction: source fields `fs`, destination span, its flag, the shape of its result, whether it is one
event for all lanes and whether it holds its group until performed; `req` gives each lane's access. -/
structure MemForm where
  fs : List Src
  d : Reg
  k : Nat
  flag : Ctl → Option Nat
  uni : List Row → Bool
  once : List Row → Bool
  fixed : Bool
  req : Ctl → State → List Row → Nat → LaneReq

/-- Issue the accesses after the checks: comparators, then at once when all are issue-placed, otherwise as one ordered
access (R279). `commit` makes the pops of the source ports. -/
def issueAccesses (s : State) (c : Ctl) (f : MemForm) (rows : List Row) (es : List (Acc × TlbEntry))
    (commit : State → State) : State :=
  let once := f.once rows
  let es := if once then es.take 1 else es
  let seen : List (Nat × Seen) := es.flatMap fun p =>
    let x := seenOf s p.1 p.2
    if once then (lanesOf c.act).map fun l => (l, x) else [(p.1.lane, x)]
  withSeen s c seen fun s =>
    let s := issued (commit s) c (wholeWrite c.gr c.act && f.uni rows && allU rows)
    let start (s : State) (left : List Acc) (got : List (Nat × List Word)) : State :=
      startOp s c (f.flag c) fun o =>
        { o with dest := destOf c.gr f.d f.k, uni := f.uni rows,
                 once := once, fixed := f.fixed, left := left, got := got }
    if es.all fun p => issuePlaced s c.g p.1 p.2 then
      let r := performPlaced s c.gr es
      let got := if once then (lanesOf c.act).map fun l => (l, (r.1.headD (0, [])).2) else r.1
      (start r.2.2 [] got).modGroup c.g fun g => advance { g with touched := r.2.1 ++ g.touched }
    else (start s (es.map (·.1)) []).modGroup c.g fun g =>
      { g with issue := g.issue.map fun i => { i with op := some c.gr.nextOp } }

/-- The checks of every lane, and the lowest lane's first fault with every lane that shares its cause (R262). -/
def withChecks (s : State) (c : Ctl) (rs : List LaneReq) (k : State → List (Acc × TlbEntry) → State) : State :=
  let x := checkLanes s c.g c.gr.ctx rs
  if x.1.any fun p => p.2.waits then x.2
  else match x.1.findSome? fun p => p.2.cause with
    | some (f, v) =>
      let m := maskOf fun l => x.1.any fun p => p.1.acc.lane == l && (p.2.cause.map (·.1)) == some f
      faultHere (answerWalks x.2 (groupParty s c.g)) c ⟨f, m, v, faultWord f c.word⟩
    | none => k x.2 (x.1.filterMap fun p => match p.2 with
        | .ok e => some (p.1.acc, e)
        | _ => none)

/-- Run a memory instruction whose spaces are translated. -/
def runMem (f : MemForm) (s : State) : Out :=
  withIssue s fun c s =>
    let ns := (f.fs.flatMap fun p => namesOf p.1 p.2) ++ namesOf f.d f.k
    withDeps s c (fun l => pendingName c.gr l ns) fun s =>
      withFlag s c (f.flag c) fun s =>
        withRows s c ns fun s =>
          withSources s c f.fs 127 fun rows _ =>
            if orderedOut c.gr then s
            else withChecks s c ((lanesOf c.act).map fun l => f.req c s rows l) fun s es =>
              issueAccesses s c f rows es fun s => (doPops s c.gr (srcPorts f.fs)).2

/-! ## Addresses (R282, R283, R285, R289, R290) -/

/-- base + displacement modulo 2^32. -/
def laneAddr (x : Word) (off : BitVec 7) (size : Nat) : Word := x + wrap32 (off.toInt * size)

/-- A lane-window access. -/
def windowReq (l : Nat) (a : Word) (size : Nat) (op : AccOp) : LaneReq :=
  ⟨⟨l, a.setWidth 57, size, op, false⟩, if a.toNat % size = 0 then none else some (0x24, a.setWidth 64)⟩

/-- An offset below a limit, with the mark that VALUE carries (R288). -/
def offsetCheck (o : Word) (limit mark : Nat) : Option (BitVec 8 × BitVec 64) :=
  let v : BitVec 64 := o.setWidth 64 ||| BitVec.ofNat 64 (2 ^ mark)
  if o.toNat % 4 ≠ 0 then some (0x24, v) else if limit ≤ o.toNat then some (0x23, v) else none

def privateReq (g : Group) (l : Nat) (o : Word) (op : AccOp) : LaneReq :=
  ⟨⟨l, privateAddr g l o.toNat, 4, op, true⟩, offsetCheck o g.privb 63⟩

def constReq (s : State) (g : Group) (l : Nat) (o : Word) : LaneReq :=
  match s.image? g.ctx g.image with
  | some im => ⟨⟨l, im.base + BitVec.ofNat 57 (im.dataoff + o.toNat), 4, .load, false⟩, offsetCheck o im.datasize 63⟩
  | none => ⟨⟨l, 0, 4, .load, false⟩, offsetCheck o 0 63⟩

/-- The bytes of a store: the low `size` bytes of the data names (R289). -/
def storeBytes (rows : List Row) (l size : Nat) : List Byte := ((rows.flatMap fun r => wordBytes (r.get l))).take size

/-- Names that an access of `size` bytes spans. -/
def spanOf (size : Nat) : Nat := if size ≤ 4 then 1 else size / 4

/-! ## Loads and stores (R289, R290) -/

def loadWindow (size : Nat) (d a : Reg) (o : BitVec 7) (m : BitVec 3) (s : State) : Out :=
  runMem { fs := [(a, 1)], d := d, k := spanOf size, flag := fun c => flagOf c m, uni := allU, once := allU,
           fixed := false
           req := fun _ _ rows l => windowReq l (laneAddr ((src rows 0).get l) o size) size .load } s

def storeWindow (size : Nat) (v a : Reg) (o : BitVec 7) (m : BitVec 3) (s : State) : Out :=
  runMem { fs := [(a, 1), (v, spanOf size)], d := 127, k := 1, flag := fun c => flagOf c m, uni := fun _ => false
           once := fun _ => false, fixed := false
           req := fun _ _ rows l => windowReq l (laneAddr ((src rows 0).get l) o size) size
             (.store (storeBytes (rows.drop 1) l size)) } s

def execLd8 (d a : Reg) (o : BitVec 7) (m : BitVec 3) (s : State) : Out := loadWindow 1 d a o m s
def execLd16 (d a : Reg) (o : BitVec 7) (m : BitVec 3) (s : State) : Out := loadWindow 2 d a o m s
def execLd32 (d a : Reg) (o : BitVec 7) (m : BitVec 3) (s : State) : Out := loadWindow 4 d a o m s
def execLd64 (d a : Reg) (o : BitVec 7) (m : BitVec 3) (s : State) : Out := loadWindow 8 d a o m s
def execLd128 (d a : Reg) (o : BitVec 7) (m : BitVec 3) (s : State) : Out := loadWindow 16 d a o m s
def execSt8 (v a : Reg) (o : BitVec 7) (m : BitVec 3) (s : State) : Out := storeWindow 1 v a o m s
def execSt16 (v a : Reg) (o : BitVec 7) (m : BitVec 3) (s : State) : Out := storeWindow 2 v a o m s
def execSt32 (v a : Reg) (o : BitVec 7) (m : BitVec 3) (s : State) : Out := storeWindow 4 v a o m s
def execSt64 (v a : Reg) (o : BitVec 7) (m : BitVec 3) (s : State) : Out := storeWindow 8 v a o m s
def execSt128 (v a : Reg) (o : BitVec 7) (m : BitVec 3) (s : State) : Out := storeWindow 16 v a o m s

def execLdp (d a : Reg) (o : BitVec 7) (m : BitVec 3) (s : State) : Out :=
  runMem { fs := [(a, 1)], d := d, k := 1, flag := fun c => flagOf c m, uni := fun _ => false, once := fun _ => false
           fixed := false
           req := fun c _ rows l => privateReq c.gr l (laneAddr ((src rows 0).get l) o 4) .load } s

def execStp (v a : Reg) (o : BitVec 7) (m : BitVec 3) (s : State) : Out :=
  runMem { fs := [(a, 1), (v, 1)], d := 127, k := 1, flag := fun c => flagOf c m, uni := fun _ => false
           once := fun _ => false, fixed := false
           req := fun c _ rows l => privateReq c.gr l (laneAddr ((src rows 0).get l) o 4)
             (.store (storeBytes (rows.drop 1) l 4)) } s

def execLdc (d a : Reg) (o : BitVec 7) (m : BitVec 3) (s : State) : Out :=
  runMem { fs := [(a, 1)], d := d, k := 1, flag := fun c => flagOf c m, uni := allU, once := allU, fixed := false
           req := fun c s rows l => constReq s c.gr l (laneAddr ((src rows 0).get l) o 4) } s

/-! ## Atomics (R291, R292) -/

def execAtom (d a b : Reg) (m : BitVec 3) (s : State) : Out :=
  runMem { fs := [(a, 1), (b, 1)], d := d, k := 1, flag := fun c => c.hd.fa, uni := fun _ => false
           once := fun _ => false, fixed := false
           req := fun _ _ rows l => windowReq l ((src rows 0).get l) 4 (.atom m ((src rows 1).get l)) } s

/-- CAS of the lane window. -/
def casWindow (d a b : Reg) (s : State) : Out :=
  runMem { fs := [(a, 1), (b, 2)], d := d, k := 1, flag := fun c => c.hd.fa, uni := fun _ => false
           once := fun _ => false, fixed := false
           req := fun _ _ rows l => windowReq l ((src rows 0).get l) 4 (.cas ((src rows 1).get l) ((src rows 2).get l)) } s

/-! ## Scratchpad (R284): issue-placed, in the core's issue order -/

/-- Bytes of a team's scratchpad. -/
def scratchRead (t : Team) (o : Nat) : Nat → List Byte
  | 0 => []
  | n + 1 => (tget t.scratch o).getD 0 :: scratchRead t (o + 1) n

def scratchWrite (t : Team) (o : Nat) : List Byte → Team
  | [] => t
  | b :: bs => scratchWrite { t with scratch := tset t.scratch o b } (o + 1) bs

/-- One access of a lane to its team's scratchpad: the word it returns and the team after. -/
def scratchAcc (t : Team) (o : Nat) (op : AccOp) : List Word × Team :=
  let old := BitVec.ofNat 32 (leNat (scratchRead t o 4))
  match op with
  | .load => ([old], t)
  | .store d => ([], scratchWrite t o d)
  | .atom k v => ([old], scratchWrite t o (wordBytes (atomNew k old v)))
  | .cas cmp new => ([old], if old = cmp then scratchWrite t o (wordBytes new) else t)
  | _ => ([], t)

def scratchAccs (t : Team) : List (Nat × Nat × AccOp) → List (Nat × List Word) × Team
  | [] => ([], t)
  | (l, o, op) :: rest =>
    let r := scratchAcc t o op
    let q := scratchAccs r.2 rest
    ((l, r.1) :: q.1, q.2)

/-- Run a scratchpad instruction. `uni` says that its result may be Uniform. -/
def runScratch (fs : List Src) (d : Reg) (flag : Ctl → Option Nat) (uni : List Row → Bool)
    (off : List Row → Nat → Word) (op : List Row → Nat → AccOp) (s : State) : Out :=
  withIssue s fun c s =>
    let ns := (fs.flatMap fun p => namesOf p.1 p.2) ++ namesOf d 1
    withDeps s c (fun l => pendingName c.gr l ns) fun s =>
      withFlag s c (flag c) fun s =>
        withRows s c ns fun s =>
          withSources s c fs 127 fun rows s' =>
            match if orderedOut c.gr then none else s.team? c.gr.team with
            | none => s
            | some t =>
              let bad l := offsetCheck (off rows l) t.scratchLen 62
              match (lanesOf c.act).findSome? bad with
              | some (f, v) =>
                faultHere s c ⟨f, maskOf fun l => has c.act l && ((bad l).map (·.1)) == some f, v, c.word⟩
              | none =>
                let r := scratchAccs t ((lanesOf c.act).map fun l => (l, (off rows l).toNat, op rows l))
                let scalar := wholeWrite c.gr c.act && uni rows && rows.all (·.tag != 2)
                let s := startOp ((issued s' c scalar).setTeam c.gr.team r.2) c (flag c) fun o =>
                  { o with dest := destOf c.gr d 1, uni := uni rows
                           got := r.1 }
                s.modGroup c.g advance

def execLds (d a : Reg) (o : BitVec 7) (m : BitVec 3) (s : State) : Out :=
  runScratch [(a, 1)] d (fun c => flagOf c m) allU (fun rows l => laneAddr ((src rows 0).get l) o 4)
    (fun _ _ => .load) s
def execSts (v a : Reg) (o : BitVec 7) (m : BitVec 3) (s : State) : Out :=
  runScratch [(a, 1), (v, 1)] 127 (fun c => flagOf c m) (fun _ => false)
    (fun rows l => laneAddr ((src rows 0).get l) o 4) (fun rows l => .store (wordBytes ((src rows 1).get l))) s
def execAtoms (d a b : Reg) (m : BitVec 3) (s : State) : Out :=
  runScratch [(a, 1), (b, 1)] d (fun c => c.hd.fa) (fun _ => false) (fun rows l => (src rows 0).get l)
    (fun rows l => .atom m ((src rows 1).get l)) s

/-- CAS of the scratchpad. -/
def casScratch (d a b : Reg) (s : State) : Out :=
  runScratch [(a, 1), (b, 2)] d (fun c => c.hd.fa) (fun _ => false) (fun rows l => (src rows 0).get l)
    (fun rows l => .cas ((src rows 1).get l) ((src rows 2).get l)) s

def execCas (d a b : Reg) (m : BitVec 3) (s : State) : Out :=
  if m.toNat = 0 then casWindow d a b s else casScratch d a b s

/-! ## Prefetch (R293) -/

/-- PREF changes placement only: no event, no class, no register, no flag, no fault. Its source is read, and popped
when it names a port. -/
def execPref (a : Reg) (_o : BitVec 7) (_m : BitVec 3) (s : State) : Out :=
  runReg 127 [(a, 1)] noExtra (fun _ _ _ => .ok ⟨noResult, sameThread⟩) s

end Sys2Proof.Machine
end

