-- ==== Sys2Proof/Machine/SlotTable.lean ====
section
/-! DEFINITION. The slot tables of the cores: bind records that wait, and their withdrawal (R148, R149, Table 6-6; R404). -/
namespace Sys2Proof.Machine

/-- The record of slot `i` of core `k` waits: its group has not started. -/
def recWaits (s : State) (k i : Nat) : Bool := (s.group? (64 * k + i)).isNone

/-- Waiting records of a core with their slots. -/
def waitingRecs (s : State) (k : Nat) : List (Nat × BindRec) := (s.core k).slots.filter fun p => recWaits s k p.1

/-- Two records are of one team. -/
def BindRec.sameTeam (a b : BindRec) : Bool :=
  a.launch == b.launch && a.stage == b.stage && a.x == b.x && a.y == b.y && a.z == b.z && a.tslot == b.tslot && a.ctx == b.ctx

/-- A team's index among the teams of its launch. -/
def teamIndex (l : Launch) (st x y z : Nat) : Nat := st * (l.dx * l.dy * l.dz) + linearIndex l x y z

/-- The lowest team number of 0 to 59 that no record of core `k` names; `n` when every one is taken. The manual does not say
which one a team gets: DESIGN CHOICE (log entry 69). -/
def freeTslot (s : State) (k n : Nat) : Nat :=
  ((List.range 60).find? fun i => !(s.core k).slots.any fun p => p.2.tslot == i).getD n

/-- The record of a group that stands on core `k` without firmware having bound it there: one of tasks, one restored, or one that
has migrated (R148). LAUNCH of a task group is that of the task in its lowest lane, 0 for one of TSPAWN: DESIGN CHOICE (log entry
69). -/
def standingRec (s : State) (t : Team) (gr : Group) (k tslot : Nat) : BindRec :=
  { op := 1, ctx := gr.ctx, group := gr.gid, stage := t.stage, x := t.x, y := t.y, z := t.z, tslot := tslot, carve := (s.core k).carve
    engine := t.engine.getD 255, order := s.tick
    launch := if t.task then (lane gr.threads (lowest (presentMask gr))).taskLaunch.getD 0 else t.launch }

/-- Slot `i` of core `k` holds a record. -/
def putRec (s : State) (k i : Nat) (r : BindRec) : State := s.modCore k fun x => { x with slots := tset x.slots i r }

/-- Once every group of a team has its record, the firmware need not place the team again. -/
def notePlaced (s : State) (k : Nat) (r : BindRec) : State :=
  match s.launch? r.launch with
  | none => s
  | some l => match s.image? l.ctx l.image with
    | none => s
    | some im =>
      let i := teamIndex l r.stage r.x r.y r.z
      let mine := (s.core k).slots.filter fun p => p.2.sameTeam r
      if (List.range im.team).all (fun g => mine.any fun p => p.2.group == g) ∧ !l.placed.contains i then
        s.modLaunch r.launch fun l => { l with placed := l.placed ++ [i] }
      else s

/-- A waiting record goes; the firmware keeps its team runnable (Table 6-6). -/
def withdrawRec (s : State) (k i : Nat) : State :=
  match tget (s.core k).slots i with
  | none => s
  | some r =>
    let s := s.modCore k fun x => { x with slots := terase x.slots i }
    s.modLaunch r.launch fun l => { l with placed := l.placed.filter (· != teamIndex l r.stage r.x r.y r.z) }

/-- The waiting records of core `k` that satisfy `p` are withdrawn. -/
def withdrawWhere (s : State) (k : Nat) (p : BindRec → Bool) : State :=
  (waitingRecs s k).foldl (fun s r => if p r.2 then withdrawRec s k r.1 else s) s

/-- A core is withdrawn for good: its bit leaves COREOK, and teams that wait for it bind elsewhere (R404). -/
def withdrawCore (s : State) (k : Nat) : State :=
  withdrawWhere (s.modCore k fun x => { x with withdrawn := true }) k fun _ => true

end Sys2Proof.Machine
end

