-- ==== Sys2Proof/Machine/Remote.lean ====
section
/-! DEFINITION. Remote writes, arrival counters and migration, majors 0x98 to 0x9A (R189 to R191, R205 to R207, R100,
R13, R148). -/
namespace Sys2Proof.Machine

/-! ## Handles (Table 8-3) -/

/-- The handle of the group in slot `g`. -/
def handleOf (g : Nat) : Word :=
  let c := coreOf g % 48
  BitVec.ofNat 32 (dieOfGroup g * 2 ^ 12 + c / 4 * 2 ^ 8 + c % 4 * 2 ^ 6 + slotOf g)

/-- The slot that a handle names, when it is well formed and lies in the issuer's die and cluster (R205). -/
def handleSlot (g : Nat) (h : Word) : Option Nat :=
  let n := h.toNat
  let d := n / 2 ^ 12 % 4
  let cl := n / 2 ^ 8 % 16
  if n / 2 ^ 14 ≠ 0 ∨ d ≠ dieOfGroup g ∨ cl ≠ coreOf g % 48 / 4 then none
  else some (64 * (48 * d + 4 * cl + n / 2 ^ 6 % 4) + n % 64)

/-! ## Where the target's state is -/

/-- A target: a group in its slot, or a saved group of a team. -/
inductive Target where
  | slot (g : Nat) (gr : Group)
  | saved (team i : Nat) (gr : Group)

def Target.group : Target → Group
  | .slot _ gr => gr
  | .saved _ _ gr => gr

/-- The group of context `c` that occupies slot `g`, or that was saved from it, whether its team is saved whole or not yet. -/
def findTarget (s : State) (c g : Nat) : Option Target :=
  match s.group? g with
  | some gr => if gr.ctx = c then some (.slot g gr) else none
  | none => (s.teams.findSome? fun p =>
      if p.2.ctx = c then
        ((List.range p.2.saved.length).findSome? fun i => match p.2.saved[i]? with
          | some sg => if sg.slot = g then some (p.1, i, sg.current s) else none
          | none => none)
      else none).map fun x => .saved x.1 x.2.1 x.2.2

/-- The saved group with its image written anew. -/
def SavedGroup.put (s : State) (sg : SavedGroup) (gr : Group) : SavedGroup :=
  { sg with group := gr, bytes := imageWith gr sg.outside sg.entry sg.names sg.streamsNow (teamIndexOf s gr), streams := sg.streamsNow }

/-- The target's group replaced: in its slot, or in its image with the image's bytes (R100). -/
def setTarget (s : State) (t : Target) (gr : Group) : State :=
  match t with
  | .slot g _ => balanceRows (s.setGroup g gr) g []
  | .saved tm i _ => s.modTeam tm fun x => { x with saved := x.saved.mapIdx fun j sg => if j = i then sg.put s gr else sg }

/-- A deposit must wait: the target is being saved (R100). A migration is one event (R205). -/
def Target.busy : Target → Bool
  | .slot _ gr => match gr.phase with
    | .saving _ => true
    | _ => false
  | .saved .. => false

/-! ## RWRITE (R190, R205) -/

/-- The counter has reached `v` (R206). -/
def reached (counter v : BitVec 16) : Bool := decide ((counter - v).toNat < 2 ^ 15)

/-- A waiting thread of a target after its counter rose: a satisfied RWAIT passes, and a sleeper of a set that was written
wakes while its context is Running (R200, R206). -/
def wakeThread (running : Bool) (written : Mask) (t : Thread) : Thread :=
  match t.wait with
  | .rwait v => if reached t.counter v then { t with wait := .none, at_ := t.after } else t
  | .sleep _ set => if !running || set &&& written = 0 then t else { t with wait := .none, at_ := t.after }
  | _ => t

/-- The stack position of name `n` of lane `l`: row WB + n, in a handler too (R205). -/
def depositPos (gr : Group) (n l : Nat) : Nat := (lane gr.threads l).wb.toNat + n

/-- The position lies in the thread's resident part. -/
def insideAt (gr : Group) (l p : Nat) : Bool :=
  let w := (lane gr.threads l).wres.toNat
  decide (w ≤ p) && decide (p < w + gr.budget)

/-- The on-chip entries that a deposit to these lanes goes to: the RWRITE waits for those that are evicted to be read back (R182). -/
def depositEntries (gr : Group) (n : Nat) (m : Mask) : List Nat :=
  ((lanesOf (m &&& liveMask gr)).filterMap fun l =>
    if insideAt gr l (depositPos gr n l) then some (depositPos gr n l % gr.budget) else none).eraseDups

/-- The address in private memory of the row that a deposit to lane `l` goes to. -/
def depositAddr (gr : Group) (n l : Nat) : Nat := (privateAddr gr l (4 * depositPos gr n l)).toNat

/-- What a deposit from core `k` to a row outside the resident part meets: the fault of the page of private memory (R205, R261). The
issuer of the RWRITE takes it: DESIGN CHOICE, the manual does not say who does (log entry 98). -/
def depositFault (s : State) (k : Nat) (gr : Group) (n l : Nat) : Option (BitVec 8 × BitVec 64) :=
  if !has (liveMask gr) l || insideAt gr l (depositPos gr n l) then none
  else match privatePage s k gr (depositAddr gr n l) false with
    | .ok _ => none
    | .error f => some f

/-- The granule of another module that a deposit to lane `l` goes to (R377). -/
def depositFar (s : State) (gr : Group) (n l : Nat) : Option (Nat × Nat) :=
  if !has (liveMask gr) l || insideAt gr l (depositPos gr n l) then none
  else match walk s gr.ctx (depositAddr gr n l) with
    | .ok t => t.rmt.map fun r => (r, t.phys (depositAddr gr n l) / 4096)
    | .error _ => none

/-- Deposit lane values from core `k` into name `n` of a target: row WB + n of each written lane, on chip or in private memory, the
counters, and the waiters. A deposit that makes the row Uniform overwrites the word that an exited lane had at its EXIT: DESIGN
CHOICE, R205 gives the shape U and R187 the lane's value (log entry 93). -/
def deposit (s : State) (k : Nat) (t : Target) (n : Nat) (m : Mask) (uni : Bool) (v : Nat → Word) : State :=
  let gr := t.group
  let live := liveMask gr
  let w := m &&& live
  let pos l := depositPos gr n l
  let inside l := insideAt gr l (pos l) && !gr.evicted.contains (pos l % gr.budget)
  let one := (lanesOf w).all fun l => pos l == pos (lowest w) && inside l
  let gr1 := if uni && w == live && w != 0 && one then setRowAt gr (.stack (pos (lowest w))) (.u (v (lowest w)))
    else (lanesOf w).foldl (fun g l => if inside l then setLaneAt g (.stack (pos l)) l (v l) else g) gr
  let gr2 := onThreads gr1 w fun _ t => { t with counter := t.counter + 1 }
  let gr3 := settle (onThreads gr2 live fun _ t => wakeThread ((s.ctx gr.ctx).state == .running) w t)
  (lanesOf w).foldl (fun s l =>
    if inside l then s
    else match privatePage s k gr (depositAddr gr n l) false with
      | .ok e => frameWrite s e (depositAddr gr n l) (wordBytes (v l))
      | .error _ => s) (setTarget s t gr3)

def execRwrite (d a b : Reg) (s : State) : Out :=
  withIssue s fun c s =>
    let ns := allNames [(a, 1), (b, 1)] 127
    withDeps s c (fun l => pendingName c.gr l ns) fun s =>
      withRows s c ns fun s => withSources s c [(a, 1), (b, 1)] 127 fun rows s' =>
        if orderedOut c.gr then s
        else
          let h l := (src rows 0).get l
          let target l := (handleSlot c.g (h l)).bind (findTarget s c.gr.ctx)
          let bad := maskOf fun l => has c.act l && (target l).isNone
          if bad ≠ 0 then faultHere s c ⟨0x23, bad, (h (lowest bad)).setWidth 64, c.word⟩
          else if (lanesOf c.act).any fun l => (target l).any Target.busy then s
          else
          let bad l := (target l).bind fun t => depositFault s (coreOf c.g) t.group d.toNat l
          let far l := (target l).bind fun t => (depositFar s t.group d.toNat l).map fun x => (x.1, x.2, 0)
          let handles := ((lanesOf c.act).map h).eraseDups
          let lanesTo x := maskOf fun l => has c.act l && h l == x
          let away x := match (handleSlot c.g x).bind (findTarget s c.gr.ctx) with
            | some (.slot g gr) => (depositEntries gr d.toNat (lanesTo x)).filterMap fun e => if gr.evicted.contains e then some (g, e) else none
            | _ => []
          match (lanesOf c.act).findSome? bad with
          | some (f, v) => faultHere s c ⟨f, maskOf fun l => has c.act l && (bad l).map (·.1) == some f, v, faultWord f c.word⟩
          | none =>
          if handles.any fun x => !(away x).isEmpty then (handles.flatMap away).foldl (fun s x => bringRow s x.1 x.2) s
          else match pollAll s (depositParty s c.g) ((lanesOf c.act).filterMap far).eraseDups with
          | .error (some x, s) =>
            faultHere (logLate s (coreOf c.g) c.gr.ctx (4096 * x)) c
              ⟨0x29, maskOf fun l => has c.act l && (far l).map (·.2.1) == some x, BitVec.ofNat 64 (bankOfTlb (coreOf c.g)), 0⟩
          | .error (none, s) => s
          | .ok polled =>
            let uni := (src rows 1).tag == 0 && wholeWrite c.gr c.act
            let s := issued { s' with messages := polled.messages } c false
            let s := handles.foldl (fun s x => match (handleSlot c.g x).bind (findTarget s c.gr.ctx) with
              | some t => deposit s (coreOf c.g) t d.toNat (lanesTo x) uni (src rows 1).get
              | none => s) s
            s.modGroup c.g advance

/-! ## RWAIT (R206) -/

def execRwait (a : Reg) (s0 : State) : Out :=
  runControl [(a, 1)] (namesOf a 1) (fun c s rows =>
    let v l : BitVec 16 := ((src rows 0).get l).setWidth 16
    let m := maskOf fun l => has c.act l && !reached (c.thread l).counter (v l)
    if m = 0 then finish s c false
    else
      let s := blockMask (keepPops s0 (issued s c false) c (srcPorts [(a, 1)])) c m fun l => .rwait (v l)
      if m = c.act then s else s.modGroup c.g advance) s0

def execRwaitId (d : Reg) (s : State) : Out :=
  runReg d [] noExtra (fun c _ _ => .ok ⟨.u (handleOf c.g), sameThread⟩) s

def execRwaitCnt (d : Reg) (s : State) : Out :=
  runReg d [] noExtra (fun c _ _ => .ok ⟨.g (perLane fun l => (c.thread l).counter.setWidth 32), sameThread⟩) s

/-! ## MIGRATE (R191, R207) -/

/-- The cores of die `d` in the partition of context `c`, in ascending order. -/
def partCores (s : State) (c d : Nat) : List Nat :=
  ((List.range 48).map (48 * d + ·)).filter fun k => (s.partMask c).getLsbD (sliceOfCore k)

/-- The lowest landing slot that is free on the lowest-numbered core of the die that has one; a core that is withdrawn or under test
takes no group (R404, R405). -/
def landingSlot (s : State) (c d : Nat) : Option Nat :=
  (((partCores s c d).filter s.coreUsable).flatMap fun k => [60, 61, 62, 63].map (64 * k + ·)).find? fun g => (s.group? g).isNone

/-- The team has what MIGRATE cannot move. Of "more than one group" only groups still in slots count, not retired ones: DESIGN CHOICE, the
manual does not say (log entry 99). -/
def unmovable (t : Team) (gr : Group) : Bool :=
  t.groups.length != 1 || t.scratchLen != 0 || gr.ports.toList.any (·.isSome) || gr.streamSlot || !t.held.isEmpty
  || t.engine.isSome

/-- The die that homes a translated address (R16); a HOST frame is homed on VS0 (R266). -/
def homeDie (e : TlbEntry) (va : Nat) : Nat := if e.host then 0 else e.phys va / 2 ^ 37 % 4

/-- An operation of the group is outstanding. -/
def opsOut (gr : Group) : Bool := !gr.ops.isEmpty

def execMigrate (a : Reg) (s : State) : Out :=
  runControl [(a, 2)] (namesOf a 2) (fun c s rows =>
    if c.act ≠ liveMask c.gr then trapHere s c c.act (fun _ => 0x05) fun _ => c.act.setWidth 64
    else
      let va := pairAddr (src rows 0) (src rows 1) (lowest c.act)
      match translate s (coreOf c.g) (dieOfGroup c.g) c.gr.ctx va.toNat (groupParty s c.g) with
      | .wait s => s
      | .fault f v s => faultHere (answerWalks s (groupParty s c.g)) c ⟨f, c.act, v, faultWord f c.word⟩
      | .hit e s =>
        let d := homeDie e va.toNat
        match classFault s c.g ⟨lowest c.act, va, 1, .load, false⟩ e with
        | some (0x23, v) => faultHere s c ⟨0x23, c.act, v, c.word⟩
        | _ => match s.team? c.gr.team with
        | none => s
        | some t =>
          if unmovable t c.gr || (partCores s c.gr.ctx d).isEmpty then
            faultHere s c ⟨0x27, c.act, va.setWidth 64, c.word⟩
          else if opsOut c.gr then s
          else if d = dieOfGroup c.g then branchTo s c fun _ => atHeader c.iss.next
          else blockMask (issued s c false) c c.act fun _ => .landing d) s

/-- The die that a blocked group waits to land on. -/
def landingDie (gr : Group) : Option Nat :=
  (lanesOf (liveMask gr)).findSome? fun l => match (lane gr.threads l).wait with
    | .landing d => some d
    | _ => none

/-- Move a group to slot `h`: its threads pass the MIGRATE, flags and operations clear; the slot table and the team
follow (R191, R148). -/
def moveGroup (s : State) (g h : Nat) (gr : Group) : State :=
  let gr1 := onThreads gr (liveMask gr) fun _ t => match t.wait with
    | .landing _ => { t with wait := .none, at_ := t.after }
    | _ => t
  let gr2 := settle { gr1 with flags := Vector.replicate 12 0, streamSlot := false }
  let ts := freeTslot s (coreOf h) (slotOf h - 4)
  let s := { s with groups := tset (terase s.groups g) h gr2 }
  let s := s.modCore (coreOf g) fun k => { k with slots := terase k.slots (slotOf g) }
  let s := match s.team? gr.team with
    | some t => putRec s (coreOf h) (slotOf h) (standingRec s t gr2 (coreOf h) ts)
    | none => s
  let s := { s with copies := tmap s.copies fun _ x => match x.origin with
      | .lane g' o l => if g' = g then { x with origin := .lane h o l } else x
      | _ => x }
  balanceRows (s.modTeam gr.team fun t => { t with core := coreOf h, tslot := ts, groups := [h] }) h []

/-- MIGRATE_MOVE (R207): once a landing slot is free and words of its evicted rows have reached other modules, the group moves. -/
def execMigrateMove (g : Nat) (s : State) : Out :=
  match s.group? g with
  | none => .next s
  | some gr => match landingDie gr with
    | none => .next s
    | some d => match landingSlot s gr.ctx d with
      | none => .next s
      | some h =>
        if gr.phase = .running ∧ issuing (s.ctx gr.ctx).state then
          .next (if gr.leaving.isEmpty then moveGroup (leaveParties s g) g h gr else pushRows s g fun _ => true)
        else .next s

end Sys2Proof.Machine
end

