-- ==== Sys2Proof/Machine/Barrier.lean ====
section
/-! DEFINITION. Barrier instructions, majors 0xA8 to 0xAD ("Barriers", R301 to R312). -/
namespace Sys2Proof.Machine

/-! ## BINIT, BARV, BEXP, BTEST (R306 to R308, R310) -/

/-- A barrier operation. `op` gives a lane's operation from its vb; `bad` says which vb raises fault 0x20 at issue. With
m = 1 it is made once, with the operands of the lowest active lane (R306). -/
def barrierInstr (d a b : Reg) (m : BitVec 3) (op : Word → BarOp) (bad : Word → Bool) (s : State) : Out :=
  let one := m.toNat == 1
  runMem { fs := [(a, 1), (b, 1)], d := d, k := 1, flag := fun _ => none, uni := fun _ => one, once := fun _ => one
           fixed := true
           req := fun c _ rows l =>
             let i := if one then lowest c.act else l
             let v := (src rows 1).get i
             let r := windowReq l ((src rows 0).get i) 16 (.bar (op v))
             if bad v then { r with pre := some (0x20, c.pc.setWidth 64) } else r } s

/-- A configuration that BINIT refuses (R307). -/
def binitBad (v : Word) : Bool := v.getLsbD 31 || barMalformed v.toNat

def execBinit (d a b : Reg) (m : BitVec 3) (s : State) : Out := barrierInstr d a b m .binit binitBad s
def execBarv (d a b : Reg) (m : BitVec 3) (s : State) : Out := barrierInstr d a b m .barv (fun _ => false) s
def execBexp (d a b : Reg) (m : BitVec 3) (s : State) : Out := barrierInstr d a b m .bexp (·.getLsbD 31) s
def execBtest (d a b : Reg) (m : BitVec 3) (s : State) : Out := barrierInstr d a b m .btest (fun _ => false) s

/-! ## BWAIT (R301, R302, R309) -/

/-- BWAIT: every active lane's address is checked, then the lanes wait; their loads perform at BWAIT_SATISFIED. -/
def execBwait (a b : Reg) (m : BitVec 3) (s : State) : Out :=
  let one := m.toNat == 1
  withIssue s fun c s =>
    let ns := allNames [(a, 1), (b, 1)] 127
    withDeps s c (fun l => pendingName c.gr l ns) fun s =>
      withRows s c ns fun s => withSources s c [(a, 1), (b, 1)] 127 fun rows _ =>
        if orderedOut c.gr then s
        else
          let i l := if one then lowest c.act else l
          let reqs := (lanesOf c.act).map fun l => windowReq l ((src rows 0).get (i l)) 16 (.bar (.btest 0))
          withChecks s c reqs fun s es => withSeen s c (es.map fun p => (p.1.lane, ⟨p.1.va.toNat, 16, true, false, []⟩)) fun s =>
            let s0 := s
            let s := issued (doPops s c.gr (srcPorts [(a, 1), (b, 1)])).2 c false
            let addr l : VA := match es.find? (·.1.lane == l) with
              | some p => p.1.va
              | none => 0
            blockMask (keepPops s0 s c (srcPorts [(a, 1), (b, 1)])) c c.act fun l =>
              .bwait (addr l) ((src rows 1).get (i l)) (s.ctx c.gr.ctx).runNs false c.act c.word

/-- What lane `l` of a group waits for in BWAIT, while its load has not performed. -/
def bwaitOf (gr : Group) (l : Nat) : Option (VA × Word × Nat × Mask × Word) :=
  let t := lane gr.threads l
  if !t.live then none
  else match t.wait with
    | .bwait a p st false set w => some (a, p, st, set, w)
    | _ => none

/-- The threads of each BWAIT issue whose lanes have all been satisfied pass it (R309). -/
def releaseBwait (gr : Group) : Group :=
  let waiting (set : Mask) : Bool := (List.range 32).any fun l => match bwaitOf gr l with
    | some x => x.2.2.2.1 == set
    | none => false
  let m := maskOf fun l => (lane gr.threads l).live && match (lane gr.threads l).wait with
    | .bwait _ _ _ true set _ => !waiting set
    | _ => false
  settle (onThreads gr m fun _ t => { t with wait := .none, at_ := t.after })

/-- The translation with which a wait watches its barrier word: of TLB `t`, of the one of die `d`, or of a walk. -/
def watchEntry (s : State) (t d c : Nat) (va : Nat) : Except (BitVec 8 × BitVec 64) TlbEntry :=
  match lookup s t c va, lookup s (tlbOfDie d) c va with
  | some e, _ => .ok e
  | none, some e => .ok e
  | none, none => match walk s c va with
    | .ok e => .ok e
    | .error f => .error (f, walkValue s d c va f)

/-- The lanes for which lane `l` makes its load: itself, or under m = 1 every waiting lane of its issue (R306). -/
def bwaitLanes (gr : Group) (l : Nat) : Mask :=
  match bwaitOf gr l with
  | some (_, _, st, set, w) =>
    if fm w = 1 then maskOf fun k => match bwaitOf gr k with
      | some (_, _, st', set', _) => st' == st && set' == set
      | none => false
    else 1 <<< l
  | none => 0

/-- The condition of a lane that waits for phase `p` holds in the word `w`, or its observation faults (R300, R309). -/
def bwaitOver (w : Nat) (p : Word) : Bool := barDone (barPhase w) p.toNat || barOvr w || barMalformed (barCfg w)

/-- A waiting lane whose condition holds performs its load, when its home serves it: the fault of R300, or its wait done.
A lane of a group that a fault has stopped performs none. -/
def observeLane (s : State) (g l : Nat) : State :=
  match s.group? g with
  | none => s
  | some gr => match if gr.phase = .running then bwaitOf gr l else none with
    | none => s
    | some (a, p, _, _, word) =>
      let fault s f v := groupFault s g ⟨f, bwaitLanes gr l, v, faultWord f word⟩
      match watchEntry s (coreOf g) (dieOfGroup g) gr.ctx a.toNat with
      | .error (f, v) => fault s f v
      | .ok e =>
        let b := readBytes s e a.toNat 16
        let w := leNat b.1
        if !bwaitOver w p then s
        else match homeAccess (tlbInsert b.2 (coreOf g) e) (coreOf g) (groupParty s g) e a.toNat false with
          | .wait s => s
          | .fault f v s =>
            fault s f (v.getD (if f = 0x29 then BitVec.ofNat 64 (clusterBank g) else a.setWidth 64))
          | .ok s =>
            if barOvr w || barMalformed (barCfg w) then fault s 0x25 (a.setWidth 64)
            else s.modGroup g fun gr => onThreads gr (bwaitLanes gr l) fun _ t => match t.wait with
              | .bwait a p st _ set word => { t with wait := .bwait a p st true set word }
              | _ => t

/-- BWAIT_SATISFIED (R302): the waiting lanes of group `g` whose condition holds perform their loads. -/
def execBwaitSatisfied (g : Nat) (s : State) : Out :=
  match s.group? g with
  | none => .next s
  | some gr =>
    if gr.phase = .running ∧ issuing (s.ctx gr.ctx).state then
      .next (((List.range 32).foldl (fun s l => observeLane s g l) s).modGroup g releaseBwait)
    else .next s

/-- The condition of some waiting lane of a group holds, and its load can perform now: BWAIT_SATISFIED comes next (R302). -/
def bwaitDue (s : State) (g : Nat) (gr : Group) : Bool :=
  gr.phase == .running && issuing (s.ctx gr.ctx).state && (List.range 32).any fun l => match bwaitOf gr l with
    | none => false
    | some (a, p, _, _, _) => match watchEntry s (coreOf g) (dieOfGroup g) gr.ctx a.toNat with
      | .error _ => false
      | .ok e => bwaitOver (leNat (readBytes s e a.toNat 16).1) p && decide (observeLane s g l ≠ s)

/-- T of R301 in ns for the class found, or none for no timeout. -/
def barTimeout (x : Context) (w : Nat) : Option Nat :=
  if barMalformed (barCfg w) || barOvr w then none
  else match barTclass w with
    | 0 => some (x.btmo * 1000000)
    | 1 => some (16 * x.btmo * 1000000)
    | _ => none

/-- The barrier word at a virtual address, as a party of TLB `t` and die `d` translates it and would read it (R182, R381); none when it is
not mapped. -/
def peekBarrier (s : State) (t d c : Nat) (a : VA) : Option Nat :=
  match watchEntry s t d c a.toNat with
  | .ok e => some (leNat (readBytes s e a.toNat 16).1)
  | .error _ => none

/-- The Running time of its context up to which a lane waits in BWAIT; none when nothing times it out. -/
def bwaitLimit (s : State) (g : Nat) (gr : Group) (l : Nat) : Option Nat :=
  match bwaitOf gr l with
  | none => none
  | some (a, p, st, _, _) => match peekBarrier s (coreOf g) (dieOfGroup g) gr.ctx a with
    | none => none
    | some w => if barDone (barPhase w) p.toNat then none else (barTimeout (s.ctx gr.ctx) w).map (st + ·)

/-- A lane has waited for its T of Running time. -/
def timedOut (s : State) (g : Nat) (gr : Group) (l : Nat) : Bool :=
  match bwaitLimit s g gr l with
  | some t => decide (t ≤ (s.ctx gr.ctx).runNs)
  | none => false

/-- The lanes of the BWAIT issue of lane `l` that have waited for their T: they trap in one issue (R90). -/
def timedOutWith (s : State) (g : Nat) (gr : Group) (l : Nat) (st : Nat) (set : Mask) : Mask :=
  maskOf fun k => k == l || (has set k && timedOut s g gr k && (lane gr.threads k).inHandler == (lane gr.threads l).inHandler
    && match bwaitOf gr k with
      | some (_, _, st', set', _) => decide (st' = st) && decide (set' = set)
      | none => false)

/-- What a BWAIT of the threads of `set` popped goes back when its last waiting lane has trapped: it had no effect (R90). -/
def popsBack (s : State) (g : Nat) (set : Mask) : State :=
  match s.group? g with
  | none => s
  | some gr =>
    let left (p : Popped) : Bool := p.set == set && !(lanesOf set).any (waitsAt gr p)
    (putBack s gr (gr.popped.filter left)).modGroup g fun g => { g with popped := g.popped.filter fun p => !left p }

/-- BARRIER_TIMEOUT (R301): lane `l`, and the lanes of its issue whose T has passed too, take trap 0x09 at their BWAIT;
the others of the issue go on waiting. -/
def execBarrierTimeout (g l : Nat) (s : State) : Out :=
  match s.group? g with
  | none => .next s
  | some gr => match bwaitOf gr l with
    | none => .next s
    | some (_, _, st, set, word) =>
      if gr.phase = .running ∧ (s.ctx gr.ctx).state = .running ∧ timedOut s g gr l then
        let at_ := fun k => (lane gr.threads k).at_
        let barrier := fun k => match bwaitOf gr k with
          | some (a, _, _, _, _) => a.setWidth 64
          | none => 0
        let s := trapLanes s g (timedOutWith s g gr l st set) (fun _ => 0x09) barrier at_ (fun k => (lane gr.threads k).after) word
        .next ((popsBack s g set).modGroup g releaseBwait)
      else .next s

/-! ## TSYNC (R303, R304, R311) -/

def execTsync (s : State) : Out :=
  runControl [] [] (fun c s _ =>
    let handlers := maskOf fun l => has c.act l && (c.thread l).inHandler
    if handlers ≠ 0 then faultHere s c ⟨0x20, handlers, c.pc.setWidth 64, c.word⟩
    else if c.act ≠ liveMask c.gr then trapHere s c c.act (fun _ => 0x05) fun _ => c.act.setWidth 64
    else if orderedOut c.gr then s
    else match s.team? c.gr.team with
      | none => s
      | some t =>
        let i := c.gr.gid
        let bit : Mask := 1 <<< i
        if has t.tw i then
          if t.tph != has t.tt i then finish (s.setTeam c.gr.team { t with tw := t.tw &&& ~~~bit }) c false
          else blockMask (issued s c false) c c.act fun _ => .tsync
        else
          let t := { t with tw := t.tw ||| bit, tt := if t.tph then t.tt ||| bit else t.tt &&& ~~~bit
                            arrived := t.arrived ||| bit }
          tryTeamRelease (blockMask (issued (s.setTeam c.gr.team t) c false) c c.act fun _ => .tsync) c.gr.team) s

end Sys2Proof.Machine
end

