-- ==== Sys2Proof/Machine/Events.lean ====
section
/-! DEFINITION. Completion records, the event ring with its coalescing, and MSI-X ("Kernels: Images, Loading, Launch and
Retirement", R152 to R155; Table 16-1). -/
namespace Sys2Proof.Machine

/-! ## Rings in host or device memory -/

/-- Bytes of a ring at the address that its base register gives: below 2^39 a device physical address, otherwise a host
one. DESIGN CHOICE, log entry 7: the manual puts rings in host or device memory and does not say how a base tells. -/
def busRead (s : State) (a n : Nat) : List Byte := if a + n ≤ 2 ^ 39 then mread s.mem a n else mread s.hostMem a n

def busWrite (s : State) (a : Nat) (b : List Byte) : State :=
  if a + b.length ≤ 2 ^ 39 then { s with mem := mwrite s.mem a b } else { s with hostMem := mwrite s.hostMem a b }

/-! ## MSI-X (R155; the table as PCIe lays it out) -/

/-- Word `k` of MSI-X table entry `v`; the mask bit of the vector control word is set at reset. PRESUMED, log entry 6. -/
def msixWord (s : State) (v k : Nat) : Word := (tget s.msixTable (4 * v + k)).getD (if k = 3 then 1 else 0)

/-- Send the MSI-X write of entry `v`, or mark it pending while the entry is masked. -/
def sendMsi (s : State) (v : Nat) : State :=
  if (msixWord s v 3).getLsbD 0 then
    { s with msixPending := if s.msixPending.contains v then s.msixPending else s.msixPending ++ [v] }
  else { s with msixSent := s.msixSent ++ [v] }

/-- A pending entry that is no longer masked is sent. -/
def flushMsi (s : State) (v : Nat) : State :=
  if s.msixPending.contains v && !(msixWord s v 3).getLsbD 0 then
    sendMsi { s with msixPending := s.msixPending.filter (· != v) } v
  else s

/-! ## The event ring (R152, R153, R155) -/

/-- Records that the ring holds: EVPROD − EVCONS. -/
def EventRing.used (r : EventRing) : Nat := (r.prod - r.cons).toNat

/-- Send the interrupt of the records counted; with IEN clear none is sent, and the count and the timer run on. -/
def ringInterrupt (s : State) (c : Nat) : State :=
  let r := (s.ctx c).ring
  if r.ien then sendMsi (s.modCtx c fun x => { x with ring := { x.ring with count := 0, timer := none } }) r.vector.toNat
  else s

/-- One more record counts towards the next interrupt, after the interrupt of a timer that has ended before (R155). -/
def coalesce (s : State) (c : Nat) : State :=
  let s := if (s.ctx c).ring.timer.any (· < s.realTime) then ringInterrupt s c else s
  let r := (s.ctx c).ring
  let timer := if r.count = 0 then some (s.realTime + 1000 * r.coaltime) else r.timer
  let s := s.modCtx c fun x => { x with ring := { x.ring with count := r.count + 1, timer := timer } }
  if r.coalcnt ≤ r.count + 1 ∨ r.coaltime = 0 then ringInterrupt s c else s

/-- A record of KLAUNCH that ends its command (R156). -/
def finalKlaunch (b : List Byte) : Bool := byteAt b 13 == 1 && byteAt b 29 == 1

/-- Write a record into the ring: its bytes, then EVPROD. -/
def ringPut (s : State) (c : Nat) (b : List Byte) : State :=
  let r := (s.ctx c).ring
  let s := busWrite s (r.base.toNat + 32 * (r.prod.toNat % 2 ^ r.size)) b
  let s := s.modCtx c fun x =>
    { x with ring := { x.ring with prod := r.prod + 1 }, klaunchOut := x.klaunchOut - (if finalKlaunch b then 1 else 0) }
  coalesce s c

/-- A record of context `c`: written, or held while the ring is full or an earlier one is held. -/
def putRecord (s : State) (c : Nat) (b : List Byte) : State :=
  let r := (s.ctx c).ring
  if r.held.isEmpty ∧ r.used < 2 ^ r.size then ringPut s c b
  else s.modCtx c fun x => { x with ring := { x.ring with held := x.ring.held ++ [b] } }

/-- Held records are written in order as space frees. -/
def releaseRecords (s : State) (c : Nat) : Nat → State
  | 0 => s
  | n + 1 =>
    let r := (s.ctx c).ring
    match r.held with
    | [] => s
    | b :: bs =>
      if r.used < 2 ^ r.size then
        releaseRecords (ringPut (s.modCtx c fun x => { x with ring := { x.ring with held := bs } }) c b) c n
      else s

/-- COUNT of a command (Table 6-8): teams retired or tasks run so far, bytes moved so far, or what its end has fixed. -/
def cmdCount (s : State) (q : Nat) (k : HostCmd) : Nat :=
  if k.ended.isSome then k.count
  else match k.launch.bind s.launch? with
    | some l => if l.tasks then l.tasksDone else l.retired
    | none => match s.copies.find? fun p => p.2.origin == .host q k.seq.toNat with
      | some p => p.2.pos
      | none => k.count

/-- A completion record (Table 6-8) of command `k` in list `q` of context `c`. -/
def completionRecord (s : State) (c q : Nat) (k : HostCmd) (status fcause : BitVec 8) (final : Bool) : List Byte :=
  leBytes 8 s.time ++ leBytes 4 k.tag.toNat ++ [status, if 256 ≤ q then 1 else 0]
    ++ leBytes 2 (if 256 ≤ q then (q - 256) % 4 else q) ++ leBytes 4 k.seq.toNat ++ [BitVec.ofNat 8 k.opcode, fcause, 0, 0]
    ++ leBytes 4 (cmdCount s q k % 2 ^ 32) ++ [BitVec.ofNat 8 c, if final then 1 else 0, 0, 0]

/-- The first fault cause of a context: REASON of the summary slot, or of the fault whose record is still to come (R94). -/
def firstCause (x : Context) : BitVec 8 :=
  match x.summary with
  | some b => b.getD 9 0
  | none => (x.firstFault.map (·.cause)).getD 0

/-- The command keeps the first fault cause of its context for its record (Table 6-8). -/
def noteCause (s : State) (q n : Nat) : State :=
  s.modCmd q n fun k => { k with fcause := firstCause (s.ctx (s.hostQueue q).ctx) }

/-- A halt notice for every command of the context that was running (R154). -/
def haltNotices (s : State) (c : Nat) : State :=
  let cause := firstCause (s.ctx c)
  s.hostQueues.foldl (fun s p =>
    if p.2.ctx = c && (decide (256 ≤ p.1) || p.2.state != .unbound) then
      p.2.cmds.foldl (fun s k =>
        if k.started && k.ended.isNone then
          (putRecord s c (completionRecord s c p.1 k 4 cause false)).modCmd p.1 k.seq.toNat fun k => { k with noticed := true }
        else s) s
    else s) s

/-- EVENT_IEN_WRITE (R155): setting IEN with records counted sends a write at once. -/
def execEventIenWrite (c : Nat) (en : Bool) (s : State) : Out :=
  if s.boot.stage = 0 then .next s
  else
  let r := (s.ctx c).ring
  let s := s.modCtx c fun x => { x with ring := { x.ring with ien := en } }
  .next (if en && !r.ien && r.count != 0 then ringInterrupt s c else s)

/-- COALESCE_TIMER_EXPIRY (R155). -/
def execCoalesceTimerExpiry (c : Nat) (s : State) : Out :=
  match (s.ctx c).ring.timer with
  | some t => if t ≤ s.realTime then .next (ringInterrupt s c) else .next s
  | none => .next s

end Sys2Proof.Machine
end

