-- ==== Sys2Proof/Machine/Dump.lean ====
section
/-! DEFINITION. The fatal dump and the end of a module-wide halt ("Start-up, Checking and Error Handling", R406, Table
18-6). -/
namespace Sys2Proof.Machine

/-- The stop area of a context is intact: every line of it can be read. -/
def stopIntact (s : State) (c : Nat) : Bool :=
  let a := (s.ctx c).stopArea
  !(s.poison ++ s.coherenceLost).any fun l => decide (a < 128 * l + 128) && decide (128 * l < a + 2 ^ 20)

/-- Bytes at offset `o` of a context's stop area; after a Fatal error only where it is intact (R94, R406). -/
def putStop (s : State) (c o : Nat) (b : List Byte) : State :=
  if s.fatal.isSome && !stopIntact s c then s else { s with mem := mwrite s.mem ((s.ctx c).stopArea + o) b }

/-- The summary slot of a context as memory holds it; KIND 0 for one that is Free or whose stop area is not intact. -/
def summaryBytes (s : State) (c : Nat) : List Byte :=
  if (s.ctx c).state = .free ∨ !stopIntact s c then List.replicate 64 0 else mread s.mem ((s.ctx c).stopArea + 64 * 12544) 64

/-- The fatal dump (Table 18-6) of an error first recorded in `bank` at device time `time`. -/
def dumpBytes (s : State) (bank time : Nat) (whole : Bool) : List Byte :=
  leBytes 8 time ++ leBytes 4 bank ++ [if whole then 1 else 0] ++ List.replicate 51 0
    ++ (List.range 192).flatMap (fun n => (s.bank n).bytes) ++ (List.range 256).flatMap (summaryBytes s)
    ++ (List.range (min Config.logLength (2 ^ 26 - 22592))).map Config.logByte

/-- The module has stopped: the dump is written unless an earlier one is still held, whole or cut off at a point that is free;
DUMPV and STAGE = 3 are set and the host is told. COMPLETE of one cut off is 0, wherever the cut lies. -/
def writeDump (s : State) (bank time : Nat) (whole : Bool) : State :=
  let (w, s) := if whole then (0, s) else s.freeWord
  let b := dumpBytes s bank time whole
  let b := if whole then b else b.take w.toNat
  let s := if s.boot.dumpv then s else { s with mem := mwrite (mwrite s.mem (2 ^ 37 - 2 ^ 26 + 12) [0]) (2 ^ 37 - 2 ^ 26) b }
  sendMsi { s with boot := { s.boot with stage := 3, dumpv := true } } 0

/-- Some context still halts. -/
def haltsLeft (s : State) : Bool := s.contexts.any fun p => p.2.state == .halting

/-- After a Fatal error, the dump follows the stop of the last unit. -/
def settleFatal (s : State) : State :=
  match s.fatal with
  | some (bank, time) => if s.boot.stage = 3 || haltsLeft s then s else writeDump s bank time true
  | none => s

end Sys2Proof.Machine
end

