-- ==== Sys2Proof/Machine/Convert.lean ====
section
/-! DEFINITION. Conversions and quantisation, majors 0x53 to 0x57 (R246 to R249, R71 to R74). -/
namespace Sys2Proof.Machine

/-- The conversion control word (Table 10-5). -/
structure ConvCtl where
  scale : Nat
  ct : Bool
  di : Nat
  si : Nat
  df : Nat
  sf : Nat
  rest : Nat
deriving DecidableEq, Repr

def convCtl (w : Word) : ConvCtl :=
  let n := w.toNat
  { scale := n / 2 ^ 16 % 2 ^ 8, ct := n / 2 ^ 14 % 2 == 1, di := n / 2 ^ 11 % 8, si := n / 2 ^ 8 % 8,
    df := n / 2 ^ 4 % 16, sf := n % 16, rest := n / 2 ^ 24 + n / 2 ^ 15 % 2 }

/-- The five instructions of Table 10-6. -/
inductive ConvOp where
  | fcvt | f2i | i2f | qcvt | qdeq
deriving DecidableEq, Repr

/-- Floating and integer format codes. -/
def isFloat (c : Nat) : Bool := decide (c ≤ 5)
def isInteger (c : Nat) : Bool := decide (6 ≤ c) && decide (c ≤ 10)

/-- R247. -/
def convAccepted (op : ConvOp) (k : ConvCtl) : Bool :=
  let plain := k.scale == 0 && !k.ct
  let formats := match op with
    | .fcvt => isFloat k.sf && isFloat k.df && plain
    | .f2i => isFloat k.sf && isInteger k.df && plain
    | .i2f => isInteger k.sf && isFloat k.df && plain
    | .qcvt => k.sf == 0 && decide (1 ≤ k.df) && decide (k.df ≤ 10)
    | .qdeq => decide (1 ≤ k.sf) && decide (k.sf ≤ 10) && k.df == 0
  formats && k.rest == 0 && decide (k.si < 32 / fmtWidth k.sf) && decide (k.di < 32 / fmtWidth k.df)

/-- QCVT's value before its conversion (R248): scale, then C. -/
def qcvtValue (mode : BitVec 2) (table : List Word) (k : ConvCtl) (x : XReal) : XReal × FFlags :=
  let y := if k.scale = 0xFF then (.nan, fNV) else (xscale x (127 - (k.scale : Int)), 0)
  if k.ct then let r := compandC mode table y.1 false; (r.1, y.2 ||| r.2) else y

/-- QDEQ's value before its conversion (R248, R249): D, then scale. -/
def qdeqValue (table : List Word) (k : ConvCtl) (x : XReal) : XReal × FFlags :=
  let y := if k.ct then let r := compandD table x; ((decodeF fp32 r.1).1, r.2) else (x, 0)
  if k.scale = 0xFF then (.nan, y.2 ||| fNV) else (xscale y.1 ((k.scale : Int) - 127), y.2)

/-- R248 for one lane: source word, control word, old destination. -/
def convert (op : ConvOp) (table : List Word) (mode : BitVec 2) (a w old : Word) : Word × FFlags :=
  let k := convCtl w
  let e := elementValue k.sf (element a (fmtWidth k.sf) k.si)
  let x := match op with
    | .qcvt => qcvtValue mode table k e.1
    | .qdeq => qdeqValue table k e.1
    | _ => (e.1, 0)
  let y : Nat × FFlags := match fmtOf k.df with
    | some f => roundF f mode x.1
    | none => let r := toInteger x.1 k.df mode; ((r.1 % 2 ^ fmtWidth k.df).toNat, r.2)
  let fl := sigFlag e.2 ||| x.2 ||| y.2
  if fmtWidth k.df = 32 then (BitVec.ofNat 32 y.1, fl) else (setElement old (fmtWidth k.df) k.di y.1, fl)

/-- The compand table of a context: CMPX0 to CMPX16, CMPS0 to CMPS15, CMPY0 (R71, R74). -/
def compandTable (x : Context) : List Word := (List.range 34).map fun i => (tget x.compand i).getD 0

/-- A conversion; `reads` says whether it reads vd (Table 10-1). -/
def convOp (op : ConvOp) (reads : Bool) (d a b : Reg) (m : BitVec 3) (s : State) : Out :=
  runReg d ([(a, 1), (b, 1)] ++ if reads then [(d, 1)] else []) noExtra (fun c s rs =>
    let bad := maskOf fun l => has c.act l && !convAccepted op (convCtl ((src rs 1).get l))
    if bad ≠ 0 then .error ⟨0x20, bad, c.pc.setWidth 64, c.word⟩
    else
      let t := compandTable (s.ctx c.gr.ctx)
      let r l := convert op t (modeOf m (c.thread l)) ((src rs 0).get l) ((src rs 1).get l)
        (if reads then (src rs 2).get l else 0)
      .ok ⟨modedRow c rs fun l => (r l).1, orFpx fun l => nfFlags m (r l).2⟩) s

def execFcvt (d a b : Reg) (m : BitVec 3) (s : State) : Out := convOp .fcvt true d a b m s
def execF2i (d a b : Reg) (m : BitVec 3) (s : State) : Out := convOp .f2i true d a b m s
def execI2f (d a b : Reg) (m : BitVec 3) (s : State) : Out := convOp .i2f true d a b m s
def execQcvt (d a b : Reg) (m : BitVec 3) (s : State) : Out := convOp .qcvt true d a b m s
def execQdeq (d a b : Reg) (m : BitVec 3) (s : State) : Out := convOp .qdeq false d a b m s

end Sys2Proof.Machine
end

