-- ==== Sys2Proof/Machine/Copies.lean ====
section
/-! DEFINITION. Asynchronous copies, majors 0x73 and 0x74, the held list of a team and the rings that CPYR fills
("The Memory Model and Memory Instructions", R286, R287, R294; "Matrix Dies, Rings and Engines", R316, R317, R319,
R340; R130, R385, R386). -/
namespace Sys2Proof.Machine

/-! ## The coordinate's engine and its rings (R144, R316 to R318) -/

/-- Whether a team's coordinate has an engine: none, one whose state was discarded (R331), or engine `e`. -/
inductive EngineAns where
  | absent
  | gone
  | ok (e : Nat)

def teamEngine (s : State) (t : Team) : EngineAns :=
  match t.engine, s.launch? t.launch with
  | some e, some l => if (s.engine e).bound = some (t.launch, linearIndex l t.x t.y t.z) then .ok e else .gone
  | _, _ => .absent

/-- VALUE of an engine instruction in a team with no coordinate engine (R425). -/
def noEngineValue : BitVec 64 := 0x40FFFFFF

/-- One of a team's threads has issued an engine instruction (R330). -/
def markEngineTeam (s : State) (t : Nat) : State := s.modTeam t fun x => { x with engineTeam := true }

/-- Bytes of a ring that its reservations hold. -/
def Ring.used (r : Ring) : Nat := (r.segs.map (·.len)).sum - r.taken
/-- Capacity in bytes (R316). -/
def Ring.cap (r : Ring) : Nat := r.units * 65536
def Ring.free (r : Ring) : Nat := r.cap - r.used

/-- Bytes of the longest run of complete reservations from the head (R317). -/
def completeBytes : List RingSeg → Nat
  | [] => 0
  | g :: gs => if g.data.length = g.len then g.len + completeBytes gs else 0

/-- How far the frontier lies past the head. -/
def Ring.frontier (r : Ring) : Nat := completeBytes r.segs - r.taken

/-- Drop consumed bytes from the head. -/
def dropSegs : Nat → List RingSeg → Nat × List RingSeg
  | k, [] => (k, [])
  | k, g :: gs => if g.len ≤ k then dropSegs (k - g.len) gs else (k, g :: gs)

/-- The ring after a command has consumed `n` bytes from its head. -/
def Ring.consume (r : Ring) (n : Nat) : Ring :=
  let x := dropSegs (r.taken + n) r.segs
  { r with taken := x.1, segs := x.2 }

/-- The first `n` bytes past the head. -/
def Ring.bytes (r : Ring) (n : Nat) : List Byte := ((r.segs.flatMap (·.data)).drop r.taken).take n

def Engine.ring (e : Engine) (r : Nat) : Option Ring := e.rings[r % 8]'(Nat.mod_lt _ (by decide))
def Engine.setRing (e : Engine) (r : Nat) (x : Option Ring) : Engine :=
  { e with rings := Vector.ofFn fun i => if i.val = r % 8 then x else e.rings[i] }

/-- Reserve `n` bytes of a ring: the reservation's number and the engine after. A length of 0 reserves nothing. -/
def reserveRing (s : State) (e r n : Nat) : Nat × State :=
  let x := s.engine e
  (x.nextSeg, s.modEngine e fun x => match x.ring r with
    | some ring =>
      let x := { x with nextSeg := x.nextSeg + 1 }
      if n = 0 then x else x.setRing r (some { ring with segs := ring.segs ++ [⟨x.nextSeg - 1, n, []⟩] })
    | none => x)

/-- Write bytes into a reservation; a reservation that a discard has removed takes none (R331). -/
def fillRing (s : State) (e r seg : Nat) (b : List Byte) : State :=
  s.modEngine e fun x => match x.ring r with
    | some ring => x.setRing r (some { ring with
        segs := ring.segs.map fun g => if g.id = seg then { g with data := g.data ++ b } else g })
    | none => x

/-! ## Copy engines -/

/-- The copy engines of a context's partition, those of die `d` first. -/
def copyEngines (s : State) (c d : Nat) : List Nat :=
  let l := (List.range 32).filter fun e =>
    (s.partMask c).getLsbD (sliceOfCopy e) && s.copyUp e && !s.boot.minimal
  l.filter (fun e => e / 8 == d) ++ l.filter fun e => e / 8 != d

/-- Free tags of a copy engine (Table 11-4). -/
def freeTags (s : State) (e : Nat) : List Nat :=
  (List.range 256).filter fun t => !s.copies.any fun p => p.2.engine == e && p.2.tag == t

/-- `k` free places for copies of context `c` near die `d`; fewer when there are fewer. -/
def copyPlaces (s : State) (c d k : Nat) : List (Nat × Nat) :=
  (((copyEngines s c d).flatMap fun e => (freeTags s e).map fun t => (e, t))).take k

/-- The party identity of a copy (Table 11-4). -/
def copyParty (s : State) (x : Copy) : Word :=
  BitVec.ofNat 32 (2 ^ 29 + s.domain.own * 2 ^ 23 + x.engine / 8 * 2 ^ 21 + x.engine % 8 * 256 + x.tag)

/-- Add a copy at a place. -/
def addCopy (s : State) (x : Copy) (place : Nat × Nat) : State :=
  let (n, s) := s.fresh
  { s with copies := tset s.copies n { x with engine := place.1, tag := place.2 } }

/-- A copy before its first unit. -/
def newCopy (ctx team : Nat) (src : VA) (dst : CopyDst) (len : Nat) (bar : VA) (o : CopyOrigin) (word : Word) : Copy :=
  { ctx := ctx, team := team, engine := 0, tag := 0, src := src, dst := dst, len := len, pos := 0, buf := [], bar := bar,
    origin := o, word := word, stopped := false, recorded := false, fault := none, skipCmp := [] }

/-- Add copies at places, in order. -/
def addCopies (s : State) : List Copy → List (Nat × Nat) → State
  | x :: xs, p :: ps => addCopies (addCopy s x p) xs ps
  | _, _ => s

/-! ## The held list (R130) -/

/-- The free indices of a team's held list, in ascending order. -/
def freeHeld (t : Team) : List Nat := (List.range 256).filter fun i => (tget t.held i).isNone

/-- Hold commands at indices, in order. -/
def holdAll (t : Team) : List HeldCmd → List Nat → Team
  | h :: hs, i :: is => holdAll { t with held := tset t.held i h } hs is
  | _, _ => t

/-! ## CPY and CPYR (R294, R340) -/

/-- What one lane asks of a copy: its operands, and the fault of its checks. -/
structure CopyReq where
  lane : Nat
  src : VA
  dst : VA
  n : Nat
  bar : VA
  ring : Nat
  bad : Option (BitVec 8 × BitVec 64)

/-- A scratchpad destination that leaves the team's share, or is not a multiple of 4 (R294, R288). A copy of length 0 from beyond the
share's end leaves it too: DESIGN CHOICE, the manual does not speak of an empty range (log entry 90). -/
def scratchRange (t : Team) (dst n : Nat) : Option (BitVec 8 × BitVec 64) :=
  let v := BitVec.ofNat 64 (dst + 2 ^ 62)
  if dst % 4 ≠ 0 then some (0x24, v) else if t.scratchLen < dst + n then some (0x23, v) else none

/-- The operands and checks of one lane; the eight rows are the quads va and vb. -/
def copyReq (c : Ctl) (t : Team) (m : BitVec 3) (isRing : Bool) (rows : List Row) (l : Nat) : CopyReq :=
  let w i := (src rows i).get l
  let n := (w 4).toNat
  let bar := pairAddr' 6
  let dst := pairAddr' 2
  let ill : Option (BitVec 8 × BitVec 64) := some (0x20, c.pc.setWidth 64)
  let bad :=
    if 2 ^ 24 ≤ n ∨ w 5 ≠ 0 then ill
    else if isRing ∧ (8 ≤ (w 2).toNat ∨ w 3 ≠ 0) then ill
    else if !isRing ∧ m.getLsbD 2 ∧ w 3 ≠ 0 then ill
    else if bar.toNat % 16 ≠ 0 then some (0x24, bar.setWidth 64)
    else if !isRing ∧ m.getLsbD 2 then scratchRange t dst.toNat n
    else none
  ⟨l, pairAddr' 0, dst, n, bar, (w 2).toNat % 8, bad⟩
where pairAddr' (i : Nat) : VA :=
  BitVec.ofNat 57 (((src rows (i + 1)).get l).toNat * 2 ^ 32 + ((src rows i).get l).toNat)

/-- The lowest lane's fault with every lane that shares its cause (R262). -/
def withCopyChecks (s : State) (c : Ctl) (rs : List CopyReq) (k : State) : State :=
  match rs.findSome? (·.bad) with
  | some (f, v) =>
    faultHere s c ⟨f, maskOf fun l => rs.any fun r => r.lane == l && (r.bad.map (·.1)) == some f, v, faultWord f c.word⟩
  | none => k

/-- Bytes that the requests reserve of each ring they name. -/
def ringNeeds (rs : List (Nat × Nat)) : List (Nat × Nat) :=
  ((rs.map (·.1)).eraseDups).map fun r => (r, ((rs.filter (·.1 == r)).map (·.2)).sum)

/-- The ring overrun fault of these reservations (R319): a ring that is not configured, or cannot ever hold them. -/
def ringFault (e : Engine) (needs : List (Nat × Nat)) : Option Nat :=
  (needs.find? fun p => match e.ring p.1 with
    | none => true
    | some r => decide (r.cap < p.2)).map (·.1)

/-- Every ring has room for these reservations together. -/
def ringRoom (e : Engine) (needs : List (Nat × Nat)) : Bool :=
  needs.all fun p => match e.ring p.1 with
    | none => true
    | some r => decide (p.2 ≤ r.free)

/-- Issue the copies of the active lanes: `dst` reserves or names each lane's destination, `held` is each lane's held
command; `mark` notes that the instruction has issued. A held form that finds some held indices free, but fewer than its active lanes, stalls and takes none: DESIGN
CHOICE, the manual speaks only of 256 taken ones (log entry 66). -/
def issueCopies (s : State) (c : Ctl) (d : Reg) (m : BitVec 3) (t : Team) (rs : List CopyReq)
    (dst : State → CopyReq → CopyDst × State) (held : Nat → CopyReq → HeldCmd) (mark : State → State) : State :=
  let op := c.gr.nextOp
  let start (s : State) : State :=
    (startOp (issued (mark s) c false) c (flagOf c m) fun o =>
      { o with dest := destOf c.gr d 1, copies := rs.length }).modGroup c.g
        advance
  if m.getLsbD 1 then
    let free := freeHeld t
    if free.length < rs.length then s
    else (start s).modTeam c.gr.team fun t => holdAll t (rs.map (held op)) free
  else
    let places := copyPlaces s c.gr.ctx (dieOfGroup c.g) rs.length
    if places.length < rs.length then s
    else
      let x := rs.foldl (fun (p : List Copy × State) r =>
        let y := dst p.2 r
        (p.1 ++ [newCopy c.gr.ctx c.gr.team r.src y.1 r.n r.bar (.lane c.g op r.lane) c.word], y.2)) ([], start s)
      addCopies x.2 x.1 places

/-- Run CPY or CPYR: dependences, flag and sources, then `k` with the lanes' requests. -/
def runCopy (d a b : Reg) (m : BitVec 3) (isRing : Bool)
    (k : State → Ctl → Team → List CopyReq → State) (s : State) : Out :=
  withIssue s fun c s =>
    let fs : List Src := [(a, 4), (b, 4)]
    withDeps s c (fun l => pendingName c.gr l (allNames fs d)) fun s =>
      withFlag s c (flagOf c m) fun s =>
        withRows s c (allNames fs d) fun s => match s.team? c.gr.team with
          | none => s
          | some t =>
            let rows := srcRows c.gr c.act fs []
            let rs := (lanesOf c.act).map (copyReq c t m isRing rows)
            withCopyChecks s c rs (k s c t rs)

def execCpy (d a b : Reg) (m : BitVec 3) (s : State) : Out :=
  runCopy d a b m false (fun s c t rs =>
    issueCopies s c d m t rs
      (fun s r => (if m.getLsbD 2 then .scratch c.gr.team r.dst.toNat else .mem r.dst, s))
      (fun op r => .cpy c.g r.lane op r.src r.dst (m.getLsbD 2) r.n r.bar c.word) id) s

def execCpyr (d a b : Reg) (m : BitVec 3) (s : State) : Out :=
  runCopy d a b m true (fun s c t rs =>
    match teamEngine s t with
    | .absent => misuse s c noEngineValue
    | .gone => s
    | .ok e =>
      let needs := ringNeeds (rs.map fun r => (r.ring, if m.getLsbD 1 then 0 else r.n))
      match ringFault (s.engine e) needs with
      | some r => faultHere s c ⟨0x2C, maskOf fun l => rs.any fun x => x.lane == l && x.ring == r, BitVec.ofNat 64 r, 0⟩
      | none =>
        if !ringRoom (s.engine e) needs then s
        else
          issueCopies s c d m t rs
            (fun s r => let x := reserveRing s e r.ring r.n; (.ring e r.ring x.1, x.2))
            (fun op r => .cpyr c.g r.lane op r.src r.ring r.n r.bar c.word) (markEngineTeam · c.gr.team)) s

/-! ## Faults and ends of a copy -/

/-- A copy's fault: a copy engine's for a lane's copy; for the addresses of a host COPY, charged to the owning context
while the command ends with status FAULT (R92, R262, R423). -/
def copyFault (s : State) (id : Nat) (x : Copy) (cause : BitVec 8) (value : BitVec 64) : State :=
  match x.origin, cause == 0x22 || cause == 0x23 || cause == 0x24 with
  | .host q n, true =>
    let s := chargeFault { s with copies := terase s.copies id } x.ctx cause value q
    (noteCause s q n).modCmd q n fun k => { k with ended := some 4, count := x.pos }
  | _, _ =>
    let f : FaultInfo := ⟨cause, 0, value, if cause = 0x28 then x.word else 0⟩
    let s := s.modCopy id fun x => { x with fault := some f, stopped := true }
    haltContext s x.ctx (12288 + x.engine) f

/-- The copy's engine is one of its context's partition (R86). -/
def copyInside (s : State) (x : Copy) : Bool := (s.partMask x.ctx).getLsbD (sliceOfCopy x.engine)

/-- A copy that a context still lets go on, on an engine of its partition (R86, R92, R96, R97). -/
def copyRuns (s : State) (x : Copy) : Bool :=
  !x.stopped && copyInside s x && match (s.ctx x.ctx).state with
    | .running | .saving | .restoring | .halting => true
    | _ => false

/-- A copy whose engine lies outside its context's partition moves to one of it, once a tag is free there (R86, R422). -/
def moveCopy (s : State) (id : Nat) (x : Copy) : State :=
  if copyInside s x then s
  else match copyPlaces s x.ctx (x.engine / 8) 1 with
    | q :: _ => (dropTickets s (copyParty s x)).modCopy id fun x => { x with engine := q.1, tag := q.2 }
    | [] => s

/-- The address `n` bytes after `a`. -/
def after (a : VA) (n : Nat) : VA := a + BitVec.ofNat 57 n

/-- Length of the next transfer unit: what is left of the aligned 16-byte chunk of the destination (R286). The bytes of a ring
have no addresses; a copy to one has a unit for every 16 bytes from the start of its reservation: DESIGN CHOICE (log entry 91). -/
def unitLen (x : Copy) : Nat :=
  let at_ := match x.dst with
    | .mem va => (after va x.pos).toNat
    | .scratch _ off => off + x.pos
    | .ring .. => x.pos
  min (x.len - x.pos) (16 - at_ % 16)

/-- How many bytes of the next unit's source lie in one aligned 16-byte chunk. -/
def firstLen (x : Copy) : Nat := min (unitLen x) (16 - (after x.src x.pos).toNat % 16)

/-- What the translation of one address of a copy gives: its entry, a wait, or a fault. -/
inductive CopyTr where
  | ok (e : TlbEntry) (s : State)
  | wait (s : State)
  | bad (cause : BitVec 8) (value : BitVec 64) (s : State)

/-- Translate an address of a copy through its engine's TLB, for reading or, with `w`, for writing (R261). -/
def copyTranslate (s : State) (x : Copy) (va : VA) (w : Bool) : CopyTr :=
  match translate s (tlbOfCopy x.engine) (x.engine / 8) x.ctx va.toNat (copyParty s x) with
  | .wait s => .wait s
  | .fault f v s => .bad f v (answerWalks s (copyParty s x))
  | .hit e s => if w && !e.w then .bad 0x23 (va.setWidth 64) s else .ok e s

/-- Data comparators of a copy's unit, but for the ones exempt from their next match (R385, R386). -/
def checkUnit (ex : List Nat) (seen : List Seen) : Nat → List DCmp → Option Nat × List DCmp
  | _, [] => (none, [])
  | n, k :: ks =>
    let r := checkUnit ex seen (n + 1) ks
    if seen.any (dcmpMatches k) && !ex.contains n then
      if k.skip = 0 then (some n, k :: r.2) else (r.1, { k with skip := k.skip - 1 } :: r.2)
    else (r.1, k :: r.2)

/-- The fault of the class checks of an address of a copy, as far as they can be seen before it is accessed (R261, R267, R268, R373,
R378, R402). -/
def unitFault (s : State) (x : Copy) (e : TlbEntry) (va : VA) (store : Bool) : Option (BitVec 8 × BitVec 64) :=
  let pa := e.phys va.toNat
  if e.host then none
  else if e.rmt.isSome then if e.rmt.all fun m => s.domain.members.getLsbD m then none else some (0x23, va.setWidth 64)
  else if s.coherenceLost.contains (pa / 128) then some (0x29, BitVec.ofNat 64 (bankOfTlb (tlbOfCopy x.engine)))
  else if !store && s.poison.contains (pa / 128) then some (0x29, BitVec.ofNat 64 (stackBank pa))
  else if sizeClash s (pa / 4096) (unitCode e.size) || store && refusesStore s e va.toNat then some (0x23, va.setWidth 64)
  else none

/-- Translate an address of the next unit and make its checks (R261). -/
def checkUnitAt (s : State) (x : Copy) (va : VA) (store : Bool) : CopyTr :=
  match copyTranslate s x va store with
  | .ok e s => match unitFault s x e va store with
    | some (f, v) => .bad f v s
    | none => .ok e s
  | a => a

/-- Translate and check every address of the next unit before any of it is read. -/
def withUnit (s : State) (id : Nat) (x : Copy) (k : State → State) : State :=
  let a := after x.src x.pos
  let b := after x.src (x.pos + firstLen x)
  let dst (s : State) : State :=
    match x.dst with
    | .ring .. => k s
    | .scratch t off => match s.team? t with
      | none => s
      | some tm => match scratchRange tm off x.len with
        | some (f, v) => copyFault s id x f v
        | none => k s
    | .mem va => match checkUnitAt s x (after va x.pos) true with
      | .ok _ s => k s
      | .wait s => s
      | .bad f v s => copyFault s id x f v
  match checkUnitAt s x a false with
  | .wait s => s
  | .bad f v s => copyFault s id x f v
  | .ok _ s =>
    if firstLen x = unitLen x then dst s
    else match checkUnitAt s x b false with
      | .wait s => s
      | .bad f v s => copyFault s id x f v
      | .ok _ s => dst s

/-- What the comparators see of the next unit of a lane's copy. -/
def unitSeen (s : State) (x : Copy) : List Seen :=
  let n := unitLen x
  let a := after x.src x.pos
  let peek (va : VA) (n : Nat) : List Byte := (List.range n).flatMap fun i =>
    match lookup s (tlbOfCopy x.engine) x.ctx (after va i).toNat with
    | some e => frameRead s e (after va i).toNat 1
    | none => [0]
  let r : Seen := ⟨a.toNat, n, true, false, []⟩
  match x.dst with
  | .mem va =>
    let d := after va x.pos
    let off := d.toNat % 4
    let old := peek (d - BitVec.ofNat 57 off) ((off + n + 3) / 4 * 4)
    [r, ⟨d.toNat, n, false, true, wordsAfter old (peek a n) off⟩]
  | _ => [r]

/-- One access of a copy at its home: `f` performs it. -/
def copyAccess (s : State) (id : Nat) (x : Copy) (va : VA) (store atomic : Bool) (f : TlbEntry → State → State) : State :=
  match copyTranslate s x va store with
  | .wait s => s
  | .bad c v s => copyFault s id x c v
  | .ok e s => match homeAccess s (tlbOfCopy x.engine) (copyParty s x) e va.toNat store atomic with
    | .wait s => s
    | .fault c v s =>
      copyFault s id x c (v.getD (if c = 0x29 then BitVec.ofNat 64 (32 * (x.engine / 8) + 15) else va.setWidth 64))
    | .ok s => f e s

/-- Read the source bytes of a unit in one aligned chunk. -/
def readUnit (s : State) (id : Nat) (x : Copy) (va : VA) (n : Nat) : State :=
  copyAccess s id x va false false fun e s =>
    let r := readBytes s e va.toNat n
    r.2.modCopy id fun x => { x with buf := x.buf ++ r.1 }

/-- The unit's bytes are written and the copy moves on. -/
def unitDone (s : State) (id n : Nat) : State := s.modCopy id fun x => { x with pos := x.pos + n, buf := [], skipCmp := [] }

/-- Write a unit's bytes to the destination. -/
def writeUnit (s : State) (id : Nat) (x : Copy) : State :=
  let n := unitLen x
  match x.dst with
  | .mem va => copyAccess s id x (after va x.pos) true false fun e s => unitDone (frameWrite s e (after va x.pos).toNat x.buf) id n
  | .scratch t off => unitDone (s.modTeam t fun tm => scratchWrite tm (off + x.pos) x.buf) id n
  | .ring e r seg => unitDone (fillRing s e r seg x.buf) id n

/-- A host COPY is not debugged; a lane's copy is (R385). -/
def Copy.debugged (x : Copy) : Bool := match x.origin with
  | .host .. => false
  | _ => true

/-- COPY_UNIT (R286, R287): the next memory event of copy `id`'s next transfer unit: the read of its first source
chunk, after every check of the unit; the read of its second one; or the write of its bytes, which ends the unit. -/
def execCopyUnit (id : Nat) (s : State) : Out :=
  match s.copy? id with
  | none => .next s
  | some x =>
    if !copyRuns s x || x.len ≤ x.pos then .next (moveCopy s id x)
    else if x.buf.isEmpty then
      .next (withUnit s id x fun s =>
        let read s := readUnit s id x (after x.src x.pos) (firstLen x)
        match (s.ctx x.ctx).debug, x.debugged with
        | some d, true =>
          let r := checkUnit x.skipCmp (unitSeen s x) 16 d.dcmp
          let mark (s : State) := s.modCtx x.ctx fun y => { y with debug := y.debug |>.map fun d => { d with dcmp := r.2 } }
          match r.1 with
          | some n => copyFault (mark s) id x 0x28 (BitVec.ofNat 64 n)
          | none =>
            let s' := read s
            if ((s'.copy? id).map (·.buf.isEmpty)) == some true then s' else mark s'
        | _, _ => read s)
    else if x.buf.length < unitLen x then
      .next (readUnit s id x (after x.src (x.pos + x.buf.length)) (unitLen x - x.buf.length))
    else .next (writeUnit s id x)

/-- Source and destination ranges overlap (Table 12-4). -/
def copyOverlap (x : Copy) : Bool :=
  match x.dst with
  | .mem va => decide (x.src.toNat < va.toNat + x.len) && decide (va.toNat < x.src.toNat + x.len)
  | _ => false

/-- ERR of the status word. -/
def copyErr (x : Copy) : Nat := if x.len = 0 then 2 else if copyOverlap x then 1 else 0

/-- The status word (Table 12-4). -/
def copyStatus (x : Copy) : Word := BitVec.ofNat 32 (2 ^ 31 + copyErr x * 2 ^ 28 + x.len % 2 ^ 24)

/-- A trace record of a unit that is no group (R389). -/
def traceUnit (s : State) (c team kind code die unit data : Nat) : State :=
  match s.team? team with
  | some t => trace s c kind code die t.stage unit (t.engine.getD 0xFF) 0xFF (rootOf s t) t.x t.y t.z data
  | none => trace s c kind code die 0 unit 0xFF 0xFF .zero 0 0 0 data

/-- The saved group of a team that has index `gid`: its place in the image, and the group as the image has it. -/
def savedIndex (s : State) (team gid : Nat) : Option (Nat × Group) := (s.team? team).bind fun t =>
  (List.range t.saved.length).findSome? fun i => match t.saved[i]? with
    | some sg => if sg.group.gid = gid then some (i, sg.current s) else none
    | none => none

/-- One of the lanes' copies of an operation has ended. -/
def Op.copyDone (o : Op) : Op := { o with copies := o.copies - 1 }

/-- The status of a lane's copy is written to the lane (R294), in the image when its group was saved with the command still held
(R100, R130), or the host command's copy has ended. -/
def copyStatusOut (s : State) (x : Copy) : State :=
  match x.origin with
  | .abandoned _ => s
  | .host q n => s.modCmd q n fun k => { k with ended := some 0, count := x.len }
  | .lane g op l =>
    if 12288 ≤ g then match savedIndex s x.team (g - 12288) with
      | none => s
      | some (i, gr) => match gr.ops.find? (·.id == op) with
        | none => s
        | some o => setTarget s (.saved x.team i gr) (modOp (landedLane gr o l (copyStatus x)) op Op.copyDone)
    else match (s.group? g).bind fun gr => gr.ops.find? (·.id == op) with
      | none => s
      | some o => (landLane s g o l (copyStatus x)).modGroup g fun gr => modOp gr op Op.copyDone

/-- A trace record of a copy engine about a copy: of the host command or of the team that it works for (R382, R389). -/
def traceCopy (s : State) (x : Copy) (kind code data : Nat) : State :=
  match x.origin with
  | .host q n => trace s x.ctx kind code (x.engine / 8) 0 (x.engine % 8) 0xFF 0xFF ⟨false, q, BitVec.ofNat 32 n⟩ 0 0 0 data
  | _ => traceUnit s x.ctx x.team kind code (x.engine / 8) (x.engine % 8) data

/-- Trace record and status of a copy that has made its barrier arrival; the copy is gone. -/
def copyEnd (s : State) (id : Nat) (x : Copy) : State :=
  copyStatusOut { traceCopy s x 10 (copyErr x) x.len with copies := terase s.copies id } x

/-- The row that a copy's status goes to is on chip; else it is being read back, and the copy does not complete yet (R182). -/
def withStatusRow (s : State) (x : Copy) (k : State → State) : State :=
  match x.origin with
  | .lane g op l => match (s.group? g).bind fun gr => gr.ops.find? (·.id == op) with
    | some o => let r := bringLane s g o l; if r.2 then k r.1 else r.1
    | none => k s
  | _ => k s

/-- COPY_COMPLETE (R286, R294): after its last write the copy makes its barrier arrival of `len` bytes, then its status
word is written, once. -/
def execCopyComplete (id : Nat) (s : State) : Out :=
  match s.copy? id with
  | none => .next s
  | some x =>
    if !copyRuns s x || x.pos < x.len then .next (moveCopy s id x)
    else .next (withStatusRow s x fun s =>
      if x.bar = 0 then copyEnd s id x
      else match copyTranslate s x x.bar true with
        | .wait s => s
        | .bad c v s => copyFault s id x c v
        | .ok e s =>
          if e.host then copyFault s id x 0x23 (x.bar.setWidth 64)
          else copyAccess s id x x.bar true true fun e s => match poisonAt s e x.bar.toNat with
          | some v => copyFault s id x 0x29 v
          | none =>
            let b := readBytes s e x.bar.toNat 16
            let r := barEvent b.2 e x.bar.toNat (leNat b.1) 0 (-(x.len : Int))
            if r.2.1 then copyFault r.2.2 id x 0x25 (x.bar.setWidth 64) else copyEnd r.2.2 id x)

end Sys2Proof.Machine
end

