-- ==== Sys2Proof/Machine/Matrix.lean ====
section
/-! DEFINITION. The matrix instructions, majors 0xB0 to 0xB4 ("Matrix Dies, Rings and Engines", R324, R330, R334 to
R339). -/
namespace Sys2Proof.Machine

/-! ## The engine command queue (R313, R324) -/

/-- Append a command to an engine's queue; its place in the total order is this instant. -/
def appendCmd (s : State) (e : Nat) (k : EngCmd) : State := s.modEngine e fun x => { x with queue := x.queue ++ [k] }

/-- A command that no unit has taken. -/
def newCmd (kind team : Nat) (fmt ctl : Word) (dest : BitVec 64) (bar : VA) (status : Option (Nat × Nat)) (table : List Word)
    (word : Word) : EngCmd :=
  { kind := kind, fmt := fmt, ctl := ctl, dest := dest, bar := bar, status := status, team := team, table := table, word := word
    seq := none, skipCmp := [] }

/-- The engine's queue holds its 256 commands. -/
def queueFull (s : State) (e : Nat) : Bool := decide (256 ≤ (s.engine e).queue.length)

/-- The active lanes whose voted operands differ from the lowest active lane's (R324). -/
def voteMask (act : Mask) (rows : List Row) : Mask :=
  maskOf fun l => has act l && rows.any fun r => r.get l != r.get (lowest act)

/-- Collective (R324): illegal convergence, no engine, a vote that differs, each in turn; then `k` with the team and
the coordinate's engine. `vote` says whether the operands are voted. -/
def collective (s : State) (c : Ctl) (vote : Bool) (rows : List Row) (k : Team → Nat → State) : State :=
  if c.act ≠ liveMask c.gr then trapHere s c c.act (fun _ => 0x05) fun _ => c.act.setWidth 64
  else match s.team? c.gr.team with
    | none => s
    | some t => match teamEngine s t with
      | .absent => misuse s c noEngineValue
      | .gone => s
      | .ok e =>
        let d := voteMask c.act rows
        if vote && d != 0 then trapHere s c c.act (fun _ => 0x04) fun _ => d.setWidth 64
        else k t e

/-- Run a collective instruction: `s0` is the state in which nothing has been popped. -/
def runCollective (fs : List Src) (d : Reg) (vote : Ctl → Bool)
    (k : Ctl → State → State → List Row → Team → Nat → State) (s : State) : Out :=
  withIssue s fun c s0 =>
    withDeps s0 c (fun l => pendingName c.gr l (allNames fs d)) fun s0 =>
      withRows s0 c (allNames fs d) fun s0 => withSources s0 c fs 127 fun rows s =>
        collective s0 c (vote c) rows (k c s0 s rows)

/-- The format word of an MMA: the voted one, or MMAFMT under N1 and N2 (Table 6-3). -/
def mmaFormat (s : State) (c : Ctl) (rows : List Row) : Word :=
  if c.gr.enc = 3 then (src rows 0).get (lowest c.act)
  else match s.image? c.gr.ctx c.gr.image with
    | some im => im.mmafmt
    | none => 0

/-- MMA (R335): the vote, then one command appended, or with m[0] held. Under N3 the compand table is that of the vote, which
an MMA that stalls keeps; under N1 and N2 it is read at the append (R324). -/
def execMma (a b : Reg) (m : BitVec 3) (s : State) : Out :=
  runCollective [(a, 1), (b, 1)] 127 (fun c => c.gr.enc == 3) (fun c s0 s rows t e =>
    let fmt := mmaFormat s c rows
    let cmd := (src rows 1).get (lowest c.act)
    let table := c.iss.voted.getD (compandTable (s.ctx c.gr.ctx))
    let stall := if c.gr.enc = 3 then s0.modGroup c.g fun g => { g with issue := g.issue.map fun i => { i with voted := some table } }
      else s0
    if m.getLsbD 0 then
      let free := freeHeld t
      if free.isEmpty then stall
      else
        let s := (markEngineTeam s c.gr.team).modTeam c.gr.team fun t => holdAll t [.mma fmt cmd table c.word] free
        finish s c false
    else if orderedOut c.gr || queueFull s e then stall
    else
      finish (appendCmd (markEngineTeam s c.gr.team) e (newCmd 1 c.gr.team fmt cmd 0 0 none table c.word)) c false) s

/-- MDRAIN (R336): the vote, one command appended, and its status pending. -/
def execMdrain (d a b : Reg) (m : BitVec 3) (s : State) : Out :=
  runCollective [(a, 4), (b, 1)] d (fun _ => true) (fun c s0 s rows _ e =>
    let f := flagOf c m
    if flagFull c.gr f || orderedOut c.gr || queueFull s e then s0
    else
      let l := lowest c.act
      let cmd := newCmd 2 c.gr.team 0 ((src rows 4).get l) (pairValue (src rows 0) (src rows 1) l)
        (pairAddr (src rows 2) (src rows 3) l) (some (c.g, c.gr.nextOp)) [] c.word
      let s := startOp (markEngineTeam s c.gr.team) c f fun o =>
        { o with dest := destOf c.gr d 1, uni := true, drain := true }
      finish (appendCmd s e cmd) c false) s

/-- MZERO (R337). -/
def execMzero (b : Reg) (s : State) : Out :=
  runCollective [(b, 1)] 127 (fun _ => true) (fun c s0 s rows _ e =>
    if orderedOut c.gr || queueFull s e then s0
    else
      let ctl := (src rows 0).get (lowest c.act)
      finish (appendCmd (markEngineTeam s c.gr.team) e (newCmd 3 c.gr.team 0 ctl 0 0 none [] c.word)) c false) s

/-- The code section of an image holds an address. -/
def inCode (im : Image) (a : VA) : Bool :=
  decide (im.base.toNat + im.codeoff ≤ a.toNat) && decide (a.toNat < im.base.toNat + im.codeoff + im.codesize)

/-- MRESTART (R338). -/
def execMrestart (a : Reg) (s : State) : Out :=
  runControl [(a, 2)] (namesOf a 2) (fun c s rows =>
    let v := pairAddr (src rows 0) (src rows 1) (lowest c.act)
    let inside := match s.image? c.gr.ctx c.gr.image with
      | some im => inCode im v
      | none => false
    if v.toNat % 4 ≠ 0 then faultHere s c ⟨0x24, c.act, v.setWidth 64, c.word⟩
    else if v ≠ 0 ∧ !inside then faultHere s c ⟨0x23, c.act, v.setWidth 64, c.word⟩
    else
      finish ((markEngineTeam s c.gr.team).modTeam c.gr.team fun t => { t with label := if v = 0 then none else some v })
        c false) s

/-! ## RINGSET (R316, R319, R339) -/

/-- The matrix die's ring units in use, 2,048 in all. -/
def unitsUsed (s : State) (e : Nat) : Nat :=
  (((List.range 32).filter fun f => f / 16 == e / 16).map fun f =>
    ((s.engine f).rings.toList.map fun r => match r with
      | some r => r.units
      | none => 0).sum).sum

/-- A command in the queue names the ring. -/
def ringNamed (x : Engine) (r : Nat) : Bool :=
  x.queue.any fun k => k.kind == 1 && (k.ctl.toNat / 4 % 8 == r || k.ctl.toNat / 32 % 8 == r)

/-- RINGSET's status: 0 OK, 1 NOSPACE, 2 BUSY. -/
def ringStatus (s : State) (e r units : Nat) : Nat :=
  let x := s.engine e
  let old := match x.ring r with
    | some g => g.units
    | none => 0
  let busy := ringNamed x r || match x.ring r with
    | some g => !g.segs.isEmpty
    | none => false
  if units = old then 0
  else if busy then 2
  else if 2048 < unitsUsed s e - old + units then 1
  else 0

/-- Give a ring its capacity; the coordinate remembers it (R316, R332). -/
def setCapacity (s : State) (t : Team) (e r units : Nat) : State :=
  let s := s.modEngine e fun x => match x.ring r, decide (units = 0) with
    | _, true => x.setRing r none
    | some g, _ => x.setRing r (some { g with units := units })
    | none, _ => x.setRing r (some ⟨units, [], 0⟩)
  s.modLaunch t.launch fun l =>
    let i := linearIndex l t.x t.y t.z
    let rest := l.rings.filter fun p => !(p.1 == i && p.2.1 == r)
    { l with rings := if units = 0 then rest else rest ++ [(i, r, units)] }

/-- RINGSET (R339). -/
def execRingset (d a : Reg) (s : State) : Out :=
  withIssue s fun c s =>
    let fs : List Src := [(a, 1)]
    withDeps s c (fun l => pendingName c.gr l (allNames fs d)) fun s =>
      withRows s c (allNames fs d) fun s0 => withSources s0 c fs d fun rows s =>
        let w := ((src rows 0).get (lowest c.act)).toNat
        let units := w / 256 % 256
        if w / 8 % 32 ≠ 0 ∨ w / 2 ^ 16 ≠ 0 ∨ 128 < units then faultHere s0 c ⟨0x20, c.act, c.pc.setWidth 64, c.word⟩
        else match s.team? c.gr.team with
          | none => s0
          | some t => match teamEngine s t with
            | .absent => misuse s0 c noEngineValue
            | .gone => s0
            | .ok e =>
              let st := ringStatus s e (w % 8) units
              let s := markEngineTeam s c.gr.team
              let s := if st = 0 then setCapacity s t e (w % 8) units else s
              writeOut s c d rows ⟨.u (BitVec.ofNat 32 st), sameThread⟩

end Sys2Proof.Machine
end

