-- ==== Sys2Proof/Machine/Engines.lean ====
section
/-! DEFINITION. The matrix engines: taking, starting and completing commands, the exact sums of an MMA, draining a tile,
and the release of an engine ("Matrix Dies, Rings and Engines", R313 to R329; R57, R79 to R82, R144). -/
namespace Sys2Proof.Machine

/-! ## Fields of a command (Tables 14-5, 14-6, 14-8, 14-10) -/

/-- Bits [hi:lo] of a word. -/
def bits (w : Word) (lo n : Nat) : Nat := w.toNat / 2 ^ lo % 2 ^ n

def isFloatFmt (c : Nat) : Bool := decide (1 ≤ c) && decide (c ≤ 5)
def isIntFmt (c : Nat) : Bool := decide (6 ≤ c) && decide (c ≤ 8)

/-- Formats that may carry scales (Table 14-5). -/
def scaleFmt (c : Nat) : Bool := decide (3 ≤ c) && decide (c ≤ 5)

/-- The bit of the first field of Table 14-5 that breaks its condition (R322). -/
def badFormat (f : Word) : Option Nat :=
  let a := bits f 0 4
  let b := bits f 4 4
  let acc := bits f 8 4
  let flt := isFloatFmt a
  if !(isFloatFmt a || isIntFmt a) then some 0
  else if !(if flt then isFloatFmt b else isIntFmt b) then some 4
  else if !(if flt then acc == 0 else acc == 1 || acc == 2) then some 8
  else if 2 < bits f 12 4 then some 12
  else if bits f 18 2 ≠ 0 ∨ (bits f 16 2 ≠ 0 ∧ !flt) then some 16
  else if 6 < bits f 20 4 then some 20
  else if bits f 26 2 ≠ 0 ∨ (f.getLsbD 24 ∧ !scaleFmt a) ∨ (f.getLsbD 25 ∧ !scaleFmt b) then some 24
  else if bits f 28 4 ≠ 0 then some 28
  else none

/-- The descriptor of a result queue that index `q` names in the launch of a team. -/
def resultDesc (s : State) (t : Team) (q : Nat) : Option QDesc :=
  match s.launch? t.launch with
  | some l => match l.qtab[q]? with
    | some d => if d.kind = 4 then some d else none
    | none => none
  | none => none

/-- The record's bit offset of the first field that breaks a table (R325). -/
def badField (s : State) (t : Team) (k : EngCmd) : Option Nat :=
  let w := k.ctl
  if k.kind = 1 then
    match badFormat k.fmt with
    | some b => some (32 + b)
    | none =>
      if 1024 < bits w 8 16 then some 72
      else if (if w.getLsbD 29 then (resultDesc s t (bits w 24 5)).isNone else bits w 24 5 != 0) then some 88
      else if bits w 30 2 ≠ 0 then some 94
      else none
  else if k.kind = 2 then
    let q := bits w 3 5
    let badQ := if w.getLsbD 2 then match resultDesc s t q with
        | some d => decide (d.depth < 9)
        | none => true
      else q != 0
    if badQ then some 67
    else if bits w 9 3 ≠ 0 then some 73
    else if (if w.getLsbD 2 then bits w 12 20 != 0 else decide (bits w 12 20 < 32)) then some 76
    else if w.getLsbD 2 ∧ k.dest ≠ 0 then some 128
    else none
  else if w.getLsbD 2 ∧ bits w 0 2 ≠ 0 then some 64
  else if bits w 4 28 ≠ 0 then some 68
  else none

/-! ## Panels (R320, Tables 14-3 and 14-4) -/

/-- N of the sparsity code, 8 for dense. -/
def keptOf (f : Word) : Nat := if bits f 12 4 = 1 then 4 else if bits f 12 4 = 2 then 2 else 8

/-- Bytes of the data part of an A panel: 128 rows of 32 elements, N of 8 kept. -/
def aData (f : Word) : Nat := 128 * 32 * fmtWidth (bits f 0 4) / 8 * keptOf f / 8
def aMask (f : Word) : Nat := if bits f 12 4 = 0 then 0 else 512
/-- Bytes of an A panel and of a B panel. -/
def aPanel (f : Word) : Nat := aData f + aMask f + if f.getLsbD 24 then 128 else 0
def bData (f : Word) : Nat := 128 * 32 * fmtWidth (bits f 4 4) / 8
def bPanel (f : Word) : Nat := bData f + if f.getLsbD 25 then 128 else 0

/-- The K extent in blocks. -/
def EngCmd.kb (k : EngCmd) : Nat := bits k.ctl 8 16
def EngCmd.ra (k : EngCmd) : Nat := bits k.ctl 2 3
def EngCmd.rb (k : EngCmd) : Nat := bits k.ctl 5 3

/-- What an MMA needs of each ring that it names (Table 14-4). -/
def EngCmd.needs (k : EngCmd) : List (Nat × Nat) :=
  if k.kind ≠ 1 then []
  else if k.ra = k.rb then [(k.ra, k.kb * (aPanel k.fmt + bPanel k.fmt))]
  else [(k.ra, k.kb * aPanel k.fmt), (k.rb, k.kb * bPanel k.fmt)]

/-- The A bytes and the B bytes of a command, panel by panel. -/
def operandBytes (x : Engine) (k : EngCmd) : List Byte × List Byte :=
  let get (r n : Nat) : List Byte := match x.ring r with
    | some g => g.bytes n
    | none => []
  let a := aPanel k.fmt
  let b := bPanel k.fmt
  if k.ra = k.rb then
    let l := get k.ra (k.kb * (a + b))
    let part (off n : Nat) := (List.range k.kb).flatMap fun i => (l.drop (i * (a + b) + off)).take n
    (part 0 a, part a b)
  else (get k.ra (k.kb * a), get k.rb (k.kb * b))

/-- Element `i` of width `w` bits of a byte list. -/
def packedAt (l : List Byte) (w i : Nat) : Nat := leNat ((l.drop (w * i / 8)).take ((w + 7) / 8)) / 2 ^ (w * i % 8) % 2 ^ w

/-- Bits set below position `t` of a byte. -/
def rankBelow (m t : Nat) : Nat := ((List.range t).filter fun i => m / 2 ^ i % 2 == 1).length

/-- The code of element A[i][k], or none where it is pruned. -/
def elemA (f : Word) (a : List Byte) (i k : Nat) : Option Nat :=
  let p := a.drop (k / 32 * aPanel f)
  let w := fmtWidth (bits f 0 4)
  if bits f 12 4 = 0 then some (packedAt p w (32 * i + k % 32))
  else
    let g := k % 32 / 8
    let m := ((p.drop (aData f)).getD (4 * i + g) 0).toNat
    let n := keptOf f
    if m / 2 ^ (k % 8) % 2 = 1 then some (packedAt p w (4 * n * i + n * g + rankBelow m (k % 8))) else none

def elemB (f : Word) (b : List Byte) (k j : Nat) : Nat :=
  packedAt (b.drop (k / 32 * bPanel f)) (fmtWidth (bits f 4 4)) (32 * j + k % 32)

/-- The scale byte of row or column `i` for the block of `k`; 127 is 1. -/
def scaleA (f : Word) (a : List Byte) (i k : Nat) : Nat :=
  if f.getLsbD 24 then ((a.drop (k / 32 * aPanel f + aData f + aMask f)).getD i 0).toNat else 127
def scaleB (f : Word) (b : List Byte) (k j : Nat) : Nat :=
  if f.getLsbD 25 then ((b.drop (k / 32 * bPanel f + bData f)).getD j 0).toNat else 127

/-! ## Sums (R57, R79 to R82) -/

/-- ESTAT bits (Table 14-1). -/
def estat (f : FFlags) : BitVec 4 :=
  (if f &&& fNV = 0 then 0 else 1) ||| (if f &&& fOF = 0 then 0 else 2) ||| (if f &&& fSAT = 0 then 0 else 4)
    ||| (if f &&& fCMP = 0 then 0 else 8)

/-- W: K indices of a K-step (R79). -/
def stepWidth (f : Word) : Nat := min (64 / fmtWidth (bits f 0 4)) (64 / fmtWidth (bits f 4 4))

/-- A floating element passed through D when its operand is companded, then scaled. -/
def scaledValue (table : List Word) (code bits scale : Nat) (cmpd : Bool) : XReal × FFlags :=
  let v := (elementValue code bits).1
  let d := if cmpd then let r := compandD table v; ((decodeF fp32 r.1).1, r.2) else (v, 0)
  (if scale = 255 then .nan else xscale d.1 ((scale : Int) - 127), d.2)

/-- One product of R80. A pruned element of A counts as the element zero of the dense form, so both forms give one result (R80,
R326). -/
def product (k : EngCmd) (a b : List Byte) (i j n : Nat) : XReal × FFlags :=
  let f := k.fmt
  let x := scaledValue k.table (bits f 0 4) ((elemA f a i n).getD 0) (scaleA f a i n) (f.getLsbD 16)
  let y := scaledValue k.table (bits f 4 4) (elemB f b n j) (scaleB f b n j) (f.getLsbD 17)
  let p := xmul x.1 y.1
  (p.1, x.2 ||| y.2 ||| p.2)

/-- S of one K-step: exact, a NaN when a product is one or infinities of both signs meet. Infinities of both signs
beside a product that is already a NaN record no NV of their own, on which R82 is silent (DESIGN CHOICE, log 80). -/
def stepSum (ps : List (XReal × FFlags)) : XReal × FFlags :=
  let fl := ps.foldl (fun f p => f ||| p.2) 0
  if ps.any fun p => p.1.isNaN then (.nan, fl)
  else
    let pos := ps.any fun p => p.1 == .inf false
    let neg := ps.any fun p => p.1 == .inf true
    if pos && neg then (.nan, fl ||| fNV)
    else if pos then (.inf false, fl)
    else if neg then (.inf true, fl)
    else match ps with
      | [] => (.fin false 0 1, fl)
      | p :: rest => (rest.foldl (fun x q => xaddE 0 x q.1) p.1, fl)

/-- acc or C plus a value, rounded once: the encoding and the flags that an engine records. -/
def addRound (f : FFmt) (old : Nat) (x : XReal) : Nat × FFlags :=
  let y := xadd 0 (decodeF f old).1 x
  let r := roundF f 0 y.1
  (r.1, y.2 ||| r.2)

/-- The K-steps of a floating position from step `t` on (R80): `left` steps remain, `acc` is the A26 accumulator and
`c` the FP32 word. -/
def floatSteps (k : EngCmd) (a b : List Byte) (i j p : Nat) : Nat → Nat → Nat → Nat → FFlags → Nat × FFlags
  | 0, _, _, c, fl => (c, fl)
  | left + 1, t, acc, c, fl =>
    let w := stepWidth k.fmt
    let s := stepSum ((List.range w).map fun n => product k a b i j (t * w + n))
    let x := addRound a26 acc s.1
    let fl := fl ||| s.2 ||| x.2
    if (t + 1) % p = 0 ∨ left = 0 then
      let y := addRound fp32 c (decodeF a26 x.1).1
      floatSteps k a b i j p left (t + 1) 0 y.1 (fl ||| y.2)
    else floatSteps k a b i j p left (t + 1) x.1 c fl

/-- The exact integer sum of one K-step. -/
def intStep (k : EngCmd) (a b : List Byte) (i j t : Nat) : Int :=
  let f := k.fmt
  let w := stepWidth f
  let val (code v : Nat) : Int := if code = 7 then (v : Int) else signExtend v (fmtWidth code)
  ((List.range w).map fun n =>
    let kk := t * w + n
    match elemA f a i kk with
    | some e => val (bits f 0 4) e * val (bits f 4 4) (elemB f b kk j)
    | none => 0).sum

/-- The K-steps of an integer position (R81): `sum` is the interval's sum so far. -/
def intSteps (k : EngCmd) (a b : List Byte) (i j p : Nat) (sat : Bool) : Nat → Nat → Int → Word → FFlags → Word × FFlags
  | 0, _, _, c, fl => (c, fl)
  | left + 1, t, sum, c, fl =>
    let sum := sum + intStep k a b i j t
    if (t + 1) % p = 0 ∨ left = 0 then
      let n := c.toInt + sum
      let r := if sat then satS32 n else (wrap32 n, 0)
      intSteps k a b i j p sat left (t + 1) 0 r.1 (fl ||| r.2)
    else intSteps k a b i j p sat left (t + 1) sum c fl

/-- Key of tile word (t, i, j). -/
def tileKey (t i j : Nat) : Nat := 16384 * t + 128 * i + j
def tileWord (x : Engine) (t i j : Nat) : Word := (tget x.tiles (tileKey t i j)).getD 0

/-- The new value of position (i, j) and what the engine records (R326). -/
def mmaWord (x : Engine) (k : EngCmd) (a b : List Byte) (i j : Nat) : Word × FFlags :=
  let f := k.fmt
  let steps := 32 * k.kb / stepWidth f
  let p := 2 ^ bits f 20 4
  let c := tileWord x (bits k.ctl 0 2) i j
  if bits f 8 4 = 0 then
    let r := floatSteps k a b i j p steps 0 0 c.toNat 0
    (BitVec.ofNat 32 r.1, r.2)
  else intSteps k a b i j p (bits f 8 4 == 2) steps 0 0 c 0

/-- The tile and ESTAT after an MMA. -/
def mmaRun (x : Engine) (k : EngCmd) : Engine :=
  let o := operandBytes x k
  let t := bits k.ctl 0 2
  (List.range 128).foldl (fun y i => (List.range 128).foldl (fun y j =>
    let r := mmaWord x k o.1 o.2 i j
    { y with tiles := tset y.tiles (tileKey t i j) r.1, estat := y.estat ||| estat r.2 }) y) x

/-! ## Faults of an engine (R315, R325) -/

/-- The engine stops before its command, and the context turns to Halting. -/
def engineFault (s : State) (e c : Nat) (cause : BitVec 8) (value : BitVec 64) (word : Word) : State :=
  let f : FaultInfo := ⟨cause, 0, value, word⟩
  let s := s.modEngine e fun x => { x with state := .stopped, fault := some f, drainPos := 0 }
  haltContext s c (12320 + e) f

/-- The queue instance of a command's token or drain. -/
def cmdQueue (s : State) (t : Team) (q : Nat) : Option (Nat × QueueInst) :=
  match s.launch? t.launch with
  | some l => (findQueue s t.launch q (linearIndex l t.x t.y t.z)).bind fun n => (s.queue? n).map fun x => (n, x)
  | none => none

/-- Entries of a result queue that a command reserves at its start (R327, R328). -/
def EngCmd.entries (k : EngCmd) : Nat :=
  if k.kind = 1 && k.ctl.getLsbD 29 then 1 else if k.kind = 2 && k.ctl.getLsbD 2 then 512 else 0
def EngCmd.qidx (k : EngCmd) : Nat := if k.kind = 1 then bits k.ctl 24 5 else bits k.ctl 3 5

/-- What a command finds in its result queue: room, none yet, or a queue that takes no push. -/
def queueRoom (s : State) (t : Team) (k : EngCmd) : PopAns :=
  if k.entries = 0 then .ready
  else match cmdQueue s t k.qidx with
    | none => .block
    | some (_, q) =>
      if !q.live || q.state == .draining || q.state == .closed || q.state == .orphaned then .misuse
      else if q.entries.length + q.reserved + k.entries ≤ q.cap && consumerUp s q then .ready else .block

/-- The first ring of a command whose frontier does not cover its need (R318, R319). -/
def uncovered (x : Engine) (k : EngCmd) : Option Nat :=
  (k.needs.find? fun p => match x.ring p.1 with
    | some r => decide (r.frontier < p.2)
    | none => true).map (·.1)

/-- What a comparator sees of an MDRAIN to memory (R385). -/
def drainSeen (x : Engine) (k : EngCmd) : List Seen :=
  (List.range 128).map fun i =>
    ⟨(after (k.dest.setWidth 57) (16 * bits k.ctl 12 20 * i)).toNat, 512, false, true,
      (List.range 128).map fun j => tileWord x (bits k.ctl 0 2) i j⟩

/-- The command at the head of an engine's queue with its team. -/
def headCmd (s : State) (e : Nat) : Option (EngCmd × Team) :=
  match (s.engine e).queue with
  | [] => none
  | k :: _ => (s.team? k.team).map fun t => (k, t)

/-- An engine goes on for a context that runs, saves or restores (R97). -/
def engineRuns (s : State) (c : Nat) : Bool :=
  match (s.ctx c).state with
  | .running | .saving | .restoring | .halting => true
  | _ => false

/-- An engine begins or goes on with a command that a halt would stop: once the halt line is asserted it takes and starts
none, and an MDRAIN makes no further write (Table 14-2, R329). -/
def engineGoes (s : State) (c : Nat) : Bool := engineRuns s c && !lineAsserted s c

/-- The head command with the changes `f`. -/
def modHead (x : Engine) (f : EngCmd → EngCmd) : Engine :=
  match x.queue with
  | [] => x
  | k :: ks => { x with queue := f k :: ks }

/-- The checks of R325 after the command has its number: the cause, VALUE and WORD of the first that fails. Of several rings that break
R319 VALUE names an RA that is not configured, then such an RB, then the one of RA and RB whose capacity is short, RA first; of two
misaligned addresses of an MDRAIN, its dest: DESIGN CHOICE, the manual orders neither (log entry 109). -/
def takeFault (s : State) (e : Nat) (k : EngCmd) (t : Team) : Option (BitVec 8 × BitVec 64 × Word) :=
  let x := s.engine e
  match badField s t k with
  | some b => some (0x2B, BitVec.ofNat 64 b, k.ctl)
  | none => match ringFault x (if k.kind = 1 then [(k.ra, 0), (k.rb, 0)] ++ k.needs else []) with
    | some r => some (0x2C, BitVec.ofNat 64 r, 0)
    | none =>
      if k.kind ≠ 2 then none
      else if !k.ctl.getLsbD 2 ∧ k.dest.toNat % 16 ≠ 0 then some (0x24, (k.dest.setWidth 57 : VA).setWidth 64, 0)
      else if k.bar.toNat % 16 ≠ 0 then some (0x24, k.bar.setWidth 64, 0)
      else none

/-- Data comparators of an MDRAIN to memory, checked when it is taken. -/
def takeCompare (s : State) (e : Nat) (k : EngCmd) (t : Team) : State × Option Nat :=
  match (s.ctx t.ctx).debug with
  | some d =>
    if k.kind = 2 && !k.ctl.getLsbD 2 then
      let r := checkUnit k.skipCmp (drainSeen (s.engine e) k) 16 d.dcmp
      (s.modCtx t.ctx fun y => { y with debug := some { d with dcmp := r.2 } }, r.1)
    else (s, none)
  | none => (s, none)

/-- ENGINE_TAKE_COMMAND (R315, R325): an Idle engine takes the command at the head of its queue; a command taken for
the first time gets its SEQ; then the checks. -/
def execEngineTakeCommand (e : Nat) (s : State) : Out :=
  match headCmd s e with
  | none => .next s
  | some (k, t) =>
    if (s.engine e).state ≠ .idle ∨ !engineGoes s t.ctx then .next s
    else
      let s := s.modEngine e fun x =>
        let seq := if k.seq.isSome then x.seq else x.seq + 1
        modHead { x with seq := seq, maskChecked := false, drainPos := 0 } fun k => { k with seq := some (k.seq.getD seq) }
      .next (match takeFault s e k t with
        | some (f, v, w) => engineFault s e t.ctx f v w
        | none =>
          let r := takeCompare s e k t
          match r.2 with
          | some n => engineFault r.1 e t.ctx 0x28 (BitVec.ofNat 64 n) k.ctl
          | none =>
            let s := r.1.modEngine e fun x => modHead { x with state := .waiting } fun k => { k with skipCmp := [] }
            traceUnit s t.ctx k.team 4 k.kind (4 + e / 16) e k.ctl.toNat)

/-- The first mask byte of a sparse command with a wrong bit count, as its offset in the A bytes (R321). -/
def badMask (x : Engine) (k : EngCmd) : Option Nat :=
  if bits k.fmt 12 4 = 0 then none
  else
    let a := (operandBytes x k).1
    ((List.range k.kb).flatMap fun b => (List.range 512).map fun i => b * aPanel k.fmt + aData k.fmt + i).find? fun o =>
      rankBelow ((a.getD o 0).toNat) 8 != keptOf k.fmt

/-- The command starts: its result-queue entries are reserved. -/
def startRun (s : State) (e : Nat) (k : EngCmd) (t : Team) : State :=
  let s := match cmdQueue s t k.qidx with
    | some (n, _) => if k.entries = 0 then s else s.modQueue n fun q => { q with reserved := q.reserved + k.entries }
    | none => s
  s.modEngine e fun x => { x with state := .running, reserved := k.entries }

/-- The party identity of a matrix-engine command (Table 11-4): the die of its team. -/
def engineParty (s : State) (e : Nat) (t : Team) : Word :=
  BitVec.ofNat 32 (2 * 2 ^ 29 + s.domain.own * 2 ^ 23 + t.core / 48 * 2 ^ 21 + e)

/-- The machine-check bank of a matrix engine (Table 18-4): its half of the matrix die. -/
def engineBank (e : Nat) : Nat := 32 * (4 + e / 16) + e % 16

/-- One memory event of an engine's command; its failure stops the engine. -/
def engineAccess (s : State) (e : Nat) (t : Team) (va : VA) (atomic : Bool) (f : TlbEntry → State → State) : State :=
  match translate s (tlbOfEngine e) (t.core / 48) t.ctx va.toNat (engineParty s e t) with
  | .wait s => s
  | .fault c v s => engineFault (answerWalks s (engineParty s e t)) e t.ctx c v 0
  | .hit x s =>
    if !x.w || x.host && atomic then engineFault s e t.ctx 0x23 (va.setWidth 64) 0
    else match homeAccess s (tlbOfEngine e) (engineParty s e t) x va.toNat true atomic with
      | .wait s => s
      | .fault c v s =>
        engineFault s e t.ctx c (v.getD (if c = 0x29 then BitVec.ofNat 64 (engineBank e) else va.setWidth 64)) 0
      | .ok s => f x s

/-- How many chunks or entries an MDRAIN writes (R328). -/
def EngCmd.events (k : EngCmd) : Nat := if k.kind ≠ 2 then 0 else if k.ctl.getLsbD 2 then 512 else 4096

/-- The next write of a running MDRAIN: a 16-byte chunk to memory, or an entry to its result queue (R328). -/
def drainNext (s : State) (e : Nat) (k : EngCmd) (t : Team) : State :=
  let x := s.engine e
  let n := x.drainPos
  let tile := bits k.ctl 0 2
  let step (s : State) : State := s.modEngine e fun x => { x with drainPos := x.drainPos + 1 }
  if k.ctl.getLsbD 2 then
    match cmdQueue s t k.qidx with
    | some (q, _) =>
      step (s.modQueue q fun q => { q.push ((List.range 32).map fun l => tileWord x tile (n / 4) (32 * (n % 4) + l)) with
        reserved := q.reserved - 1 })
    | none => s
  else
    let i := n / 32
    let j := 4 * (n % 32)
    let va := after (k.dest.setWidth 57) (16 * bits k.ctl 12 20 * i + 4 * j)
    engineAccess s e t va false fun x' s =>
      step (frameWrite s x' va.toNat ((List.range 4).flatMap fun c => wordBytes (tileWord x tile i (j + c))))

/-- Every team of a coordinate has retired: each was placed, none waits in a slot table and none is left. -/
def coordRetired (s : State) (launch i : Nat) : Bool :=
  match s.launch? launch with
  | none => true
  | some l => match s.image? l.ctx l.image with
    | none => true
    | some im =>
      let n := l.dx * l.dy * l.dz
      (ordinaryStages im).all (fun st => l.placed.contains (st * n + i))
        && !s.teams.any fun p => p.2.launch == launch && !p.2.task && linearIndex l p.2.x p.2.y p.2.z == i
          && p.2.state != .retired
        && !s.cores.any fun p => (waitingRecs s p.1).any fun r => r.2.launch == launch && linearIndex l r.2.x r.2.y r.2.z == i

/-- The ring underrun of a Waiting command (R315, R319): VALUE, when every team of its coordinate has retired and the
command cannot start. -/
def underrunValue (s : State) (e : Nat) : Option Nat :=
  let x := s.engine e
  match x.bound, headCmd s e with
  | some (l, i), some (k, t) =>
    if x.state = .waiting ∧ coordRetired s l i then
      match (if k.kind = 1 then uncovered x k else none) with
      | some r => some r
      | none => if queueRoom s t k = .ready then none else some 0xFF
    else none
  | _, _ => none

/-- ENGINE_COMMAND_START (R318, R321, R327, R328): a Waiting command whose operand bytes and queue space are all
present runs; one that still waits when every team of its coordinate has retired underruns; a running MDRAIN makes its
next write. -/
def execEngineCommandStart (e : Nat) (s : State) : Out :=
  match headCmd s e with
  | none => .next s
  | some (k, t) =>
    let x := s.engine e
    if !engineGoes s t.ctx then .next s
    else match x.state with
      | .running => if x.drainPos < k.events then .next (drainNext s e k t) else .next s
      | .waiting =>
        match underrunValue s e with
        | some v => .next (engineFault s e t.ctx 0x2C (BitVec.ofNat 64 v) 0)
        | none =>
        if (uncovered x k).isSome then .next s
        else match if x.maskChecked || k.kind != 1 then none else badMask x k with
          | some o => .next (engineFault s e t.ctx 0x2B (BitVec.ofNat 64 (0x10000 + o)) k.ctl)
          | none =>
            let s := s.modEngine e fun x => { x with maskChecked := true }
            match queueRoom s t k with
            | .ready => .next (startRun s e k t)
            | .misuse =>
              let id := match cmdQueue s t k.qidx with
                | some (_, q) => queueIdent 4 q.index q.inst
                | none => 0
              .next (engineFault s e t.ctx 0x26 (id.setWidth 64) k.word)
            | _ => .next s
      | _ => .next s

/-- The token of a completed MMA (R327). -/
def pushToken (s : State) (e : Nat) (k : EngCmd) (t : Team) : State :=
  if k.entries = 0 then s
  else match cmdQueue s t k.qidx with
    | none => s
    | some (q, _) =>
      let x := s.engine e
      let entry : List Word :=
        [k.seq.getD 0, x.estat.setWidth 32, BitVec.ofNat 32 (bits k.ctl 0 2)] ++ List.replicate 29 0
      s.modQueue q fun q => { q.push entry with reserved := q.reserved - 1 }

/-- Zero the words of a tile. -/
def clearTile (x : Engine) (t : Nat) : Engine := { x with tiles := x.tiles.filter fun p => p.1 / 16384 != t }

/-- The command leaves the queue and the engine turns Idle; its trace record is written. -/
def commandDone (s : State) (e : Nat) (k : EngCmd) (t : Team) : State :=
  let s := s.modEngine e fun x => { x with state := .idle, queue := x.queue.drop 1, drainPos := 0, reserved := 0 }
  traceUnit s t.ctx k.team 5 k.kind (4 + e / 16) e (s.engine e).estat.toNat

/-- The status word of an MDRAIN (Table 14-9). -/
def drainStatus (x : Engine) : Word := BitVec.ofNat 32 (2 ^ 31 + x.estat.toNat * 2 ^ 24 + 65536)

/-- An MDRAIN after its last write and its barrier arrival: CLR, then the status word. -/
def drainEnd (s : State) (e : Nat) (k : EngCmd) (t : Team) : State :=
  let s := if k.ctl.getLsbD 8 then s.modEngine e fun x => clearTile x (bits k.ctl 0 2) else s
  let w := drainStatus (s.engine e)
  let s := match k.status with
    | some (g, o) => s.modGroup g fun gr => modOp gr o fun o =>
        { o with drain := false, got := (lanesOf o.lanes).map fun l => (l, [w]) }
    | none => s
  commandDone s e k t

/-- ENGINE_COMMAND_COMPLETE (R315, R326 to R328, R337): the running command takes its full effect. -/
def execEngineCommandComplete (e : Nat) (s : State) : Out :=
  match headCmd s e with
  | none => .next s
  | some (k, t) =>
    let x := s.engine e
    if x.state ≠ .running ∨ !(if k.kind = 2 then engineGoes s t.ctx else engineRuns s t.ctx) ∨ x.drainPos < k.events then .next s
    else if k.kind = 1 then
      let s := s.modEngine e fun x =>
        let y := if k.kb = 0 then x else mmaRun x k
        k.needs.foldl (fun y p => match y.ring p.1 with
          | some r => y.setRing p.1 (some (r.consume p.2))
          | none => y) y
      .next (commandDone (pushToken s e k t) e k t)
    else if k.kind = 3 then
      let s := s.modEngine e fun x =>
        let x := if k.ctl.getLsbD 2 then { x with tiles := [] } else clearTile x (bits k.ctl 0 2)
        if k.ctl.getLsbD 3 then { x with estat := 0 } else x
      .next (commandDone s e k t)
    else if k.bar = 0 then .next (drainEnd s e k t)
    else
      .next (engineAccess s e t k.bar true fun y s => match poisonAt s y k.bar.toNat with
      | some v => engineFault s e t.ctx 0x29 v 0
      | none =>
        let b := readBytes s y k.bar.toNat 16
        let r := barEvent b.2 y k.bar.toNat (leNat b.1) 0 (-65536)
        if r.2.1 then engineFault r.2.2 e t.ctx 0x25 (k.bar.setWidth 64) 0 else drainEnd r.2.2 e k t)

/-! ## Binding and release (R143, R144) -/

/-- Release an engine: its rings are freed and its producer ends closed, or lost with `lost` (R117); pops that block on them
meet what Table 5-8 says. -/
def releaseEngine (s : State) (e : Nat) (lost : Bool) : State :=
  match (s.engine e).bound with
  | none => s
  | some (l, i) =>
    let s := { s with queues := tmap s.queues fun _ q =>
      if q.launch == l && q.inst == i && q.desc.kind == 4 && q.producers != 0 then
        if lost then q.loseEnd true else q.closeEnd true
      else q }
    settlePops (s.modEngine e fun _ => .reset)

/-- The engine is bound to a coordinate, in the state of R313 with the coordinate's rings configured and empty, and
binds its result-queue producer ends (R144, R332). -/
def bindEngine (s : State) (e launch i : Nat) : State :=
  match s.launch? launch with
  | none => s
  | some l =>
    let s := s.modEngine e fun _ =>
      (l.rings.filter (·.1 == i)).foldl (fun x r => x.setRing r.2.1 (some ⟨r.2.2, [], 0⟩))
        { Engine.reset with bound := some (launch, i), state := .idle }
    (l.qtab.zipIdx).foldl (fun s p =>
      if p.1.kind = 4 ∧ i < instancesOf s l p.1 then
        let r := ensureQueue s launch p.2 i p.1
        match r.2.queue? r.1 with
        | some q => if q.producers = 0 then r.2.modQueue r.1 fun q => q.bindEnd true else r.2
        | none => r.2
      else s) s

/-- ENGINE_RELEASE (R144, R315): the last team of the coordinate has retired and the queue is empty. An engine that a halt is
to stop stays bound until RESUME (Table 14-2). -/
def execEngineRelease (e : Nat) (s : State) : Out :=
  let x := s.engine e
  match x.bound with
  | none => .next s
  | some (l, i) =>
    let halts := (s.launch? l).any fun k => lineAsserted s k.ctx
    if x.state = .idle ∧ x.queue.isEmpty ∧ !halts ∧ coordRetired s l i then
      .next ((releaseEngine s e false).modLaunch l fun k => { k with rings := k.rings.filter (·.1 != i) })
    else .next s

end Sys2Proof.Machine
end

