-- ==== Sys2Proof/Machine/HostQueue.lean ====
section
/-! DEFINITION. Host command queues: their registers, the fetch of commands, and the commands COPY, SIGNAL, WAIT,
SELFTEST and MARK with the end of every command ("Queues: Commands, Tasks, Ports and Binning", R119 to R122, R422,
R423; R151, R153, R405). -/
namespace Sys2Proof.Machine

/-! ## Fetching (R120, R153) -/

/-- Fetched commands of a context that await their end, over its host queues. -/
def fetchedOf (s : State) (c : Nat) : Nat :=
  s.hostQueues.foldl (fun n p => if p.1 < 256 ∧ p.2.ctx = c ∧ p.2.state ≠ .unbound then n + (p.2.cmds.filter (!·.recorded)).length else n) 0

/-- The firmware may not read the line at `a` for context `c`: it is poisoned or lost. The access is abandoned, and the context takes
the machine check (R378, R402). -/
def lineFault (s : State) (c a q : Nat) : Option State :=
  if 2 ^ 39 ≤ a then none
  else if s.coherenceLost.contains (a / 128) then some (chargeFault s c 0x29 23 q)
  else if s.poison.contains (a / 128) then some (chargeFault s c 0x29 (BitVec.ofNat 64 (stackBank a)) q)
  else none

/-- Fetch the commands that the tail covers, in order, while the queue is Open and the context may have more. -/
def fetchFrom (s : State) (q : Nat) : Nat → State
  | 0 => s
  | n + 1 =>
    let h := s.hostQueue q
    if h.state = .open_ ∧ !h.err ∧ h.tail ≠ h.head ∧ (s.ctx h.ctx).ring.held.isEmpty ∧ fetchedOf s h.ctx < 1024
        ∧ s.fatal.isNone then
      let a := h.base.toNat + 64 * (h.head.toNat % 2 ^ h.size)
      match lineFault s h.ctx a q with
      | some s => s
      | none => fetchFrom (s.modHostQueue q fun h =>
          { h with head := h.head + 1, cmds := h.cmds ++ [freshCmd h.head (busRead s a 64)] }) q n
    else s

def fetchQueue (s : State) (q : Nat) : State :=
  let h := s.hostQueue q
  fetchFrom s q (h.tail - h.head).toNat

/-- Every host queue of a context fetches what it may. -/
def fetchCtx (s : State) (c : Nat) : State :=
  (tkeys s.hostQueues fun q h => decide (q < 256) && h.ctx == c && h.state == .open_).foldl fetchQueue s

/-- EVCONS_WRITE (R153): space frees in the event ring, held records follow, and fetching goes on. -/
def execEvconsWrite (c : Nat) (v : Word) (s : State) : Out :=
  if s.boot.stage = 0 then .next s
  else
  let s := s.modCtx c fun x => { x with ring := { x.ring with cons := v } }
  .next (fetchCtx (releaseRecords s c (s.ctx c).ring.held.length) c)

/-- HQTAIL_WRITE (R120). The host reaches no register before stage 1 (R395). -/
def execHqtailWrite (q : Nat) (v : Word) (s : State) : Out :=
  if s.boot.stage = 0 then .next s
  else
  let s := s.modHostQueue q fun h => { h with tail := v }
  let h := s.hostQueue q
  if 2 ^ h.size < (v - h.head).toNat then .next (s.modHostQueue q fun h => { h with err := true, code := 6 })
  else .next (fetchQueue s q)

/-- A Draining queue whose fetched commands have all completed closes (Table 5-4), with EN 0 as Table 5-3 has it. -/
def closeDrained (s : State) (q : Nat) : State :=
  let h := s.hostQueue q
  if h.state = .draining ∧ h.cmds.isEmpty then s.modHostQueue q fun h => { h with state := .closed, en := false } else s

/-- HQ_EN_WRITE (Tables 5-4 and 5-5): EN takes the value written in every state, and the state moves where Table 5-4 lists
the write. A value written while the queue is Unbound or Draining lasts until it turns Bound or Closed, where Table 5-3 has EN
0: DESIGN CHOICE, the manual does not say how long EN holds a value that those states exclude (log entry 85). -/
def execHqEnWrite (q : Nat) (en : Bool) (s : State) : Out :=
  if s.boot.stage = 0 then .next s
  else
  let s := s.modHostQueue q fun h => { h with en := en }
  match en, (s.hostQueue q).state with
  | true, .bound | true, .closed => .next (fetchQueue (s.modHostQueue q fun h => { h with state := .open_ }) q)
  | false, .open_ => .next (closeDrained (s.modHostQueue q fun h => { h with state := .draining }) q)
  | _, _ => .next s

/-- HQ_CLR_WRITE (R122): ERR clears and fetching resumes. After a BADTAIL whose tail still stands the queue fetches as many
commands as the tail is ahead of the head: DESIGN CHOICE, the manual checks a tail only when it is written (log entry 61). -/
def execHqClrWrite (q : Nat) (s : State) : Out :=
  .next (if s.boot.stage = 0 then s else fetchQueue (s.modHostQueue q fun h => { h with err := false }) q)

/-! ## The start of a command (R121) -/

/-- The states in which a command of the context may start or end. -/
def commandsRun (x : CtxState) : Bool :=
  match x with
  | .ready | .running | .saving | .saved | .restoring => true
  | _ => false

/-- The command before it in its queue has completed, or with OVL has started. -/
def prevAllows (cmds : List HostCmd) (k : HostCmd) : Bool :=
  match cmds.find? fun j => j.seq + 1 == k.seq with
  | none => true
  | some j => j.done || (k.ovl && j.started)

/-- A command whose turn it is; the commands of KLAUNCH start in any order. -/
def startable (s : State) (q n op : Nat) : Option HostCmd :=
  let h := s.hostQueue q
  match s.cmd? q n with
  | none => none
  | some k =>
    if k.opcode = op ∧ !k.started ∧ k.ended.isNone ∧ commandsRun (s.ctx h.ctx).state ∧ s.fatal.isNone
        ∧ (256 ≤ q ∨ prevAllows h.cmds k)
    then some k else none

/-- The command has started, or ended at once with a status. -/
def startCmd (s : State) (q n : Nat) : State :=
  s.modCmd q n fun k => { k with started := true, start := (s.ctx (s.hostQueue q).ctx).runNs }
def endCmd (s : State) (q n : Nat) (st : BitVec 8) : State := s.modCmd q n fun k => { k with started := true, ended := some st }

/-- A fault of an address that the command names, or of its arrival (R423, R426). -/
def faultCmd (s : State) (q n : Nat) (f : BitVec 8) (v : BitVec 64) : State :=
  endCmd (noteCause (chargeFault s (s.hostQueue q).ctx f v (if q < 256 then q else 0)) q n) q n 4

/-- The party identity of a host command (R422); the management core of VS0 serves the host queues. -/
def cmdParty (s : State) (q : Nat) : Word := BitVec.ofNat 32 (4 * 2 ^ 29 + s.domain.own * 2 ^ 23 + 2 ^ 20 + q % 256)

/-- What an event of a command finds at a barrier word: its turn with the translation, a wait, or the fault of R423. -/
inductive CmdAns where
  | ok (e : TlbEntry) (s : State)
  | wait (s : State)
  | bad (cause : BitVec 8) (value : BitVec 64) (s : State)

/-- An access of context `c` by a party that the management core of die `d` serves. -/
def cmdAccess (s : State) (d c : Nat) (party : Word) (va : VA) (store atomic : Bool) : CmdAns :=
  match translate s (tlbOfDie d) d c va.toNat party with
  | .wait s => .wait s
  | .fault f v s => .bad f v (dropTickets s party)
  | .hit e s =>
    if store && !e.w || atomic && e.host then .bad 0x23 (va.setWidth 64) (dropTickets s party)
    else match homeAccess s (tlbOfDie d) party e va.toNat store atomic with
      | .wait s => .wait s
      | .fault f v s => .bad f (v.getD (if f = 0x29 then BitVec.ofNat 64 (32 * d + 23) else va.setWidth 64)) (dropTickets s party)
      | .ok s => .ok e s

/-! ## COPY, SIGNAL, WAIT, SELFTEST, MARK (R121, R422, R423) -/

/-- The barrier address of SIGNAL and WAIT. -/
def HostCmd.addr (k : HostCmd) : VA := BitVec.ofNat 57 (field k.bytes 8 8)

/-- In minimal mode, a page with no memory behind it (R397). -/
def farPage (s : State) (c : Nat) (va : VA) : Bool :=
  match walk s c va.toNat with
  | .ok e => farFrame s e va.toNat
  | .error _ => false

/-- The command is a LAUNCH with TASKS for a task queue of another die than VS0. -/
def farTasks (k : HostCmd) : Bool := k.opcode == 1 && byteAt k.bytes 1 / 4 % 2 == 1 && byteAt k.bytes 49 != 0

/-- In minimal mode, the command names a barrier whose page is homed off VS0, or the task queue of a die that is not there (R397). -/
def farCommand (s : State) (q : Nat) (k : HostCmd) : Bool :=
  s.boot.minimal && (farTasks k || (k.bar != 0 && farPage s (s.hostQueue q).ctx k.bar)
    || ((k.opcode == 3 || k.opcode == 4) && farPage s (s.hostQueue q).ctx k.addr))

/-- A command completes BADARG: it breaks Table 5-6, or needs what minimal mode has not. -/
def badCommand (s : State) (q : Nat) (k : HostCmd) : Bool := commandBad k.bytes || farCommand s q k

/-- COPY: a copy of its own, carried out by a copy engine of the owning partition. -/
def execCopy (q n : Nat) (s : State) : Out :=
  match startable s q n 2 with
  | none => .next s
  | some k =>
    let c := (s.hostQueue q).ctx
    let x : Copy := newCopy c 0 (BitVec.ofNat 57 (field k.bytes 8 8)) (.mem (BitVec.ofNat 57 (field k.bytes 16 8)))
      (field k.bytes 24 8) 0 (.host q n) 0
    if badCommand s q k || s.boot.minimal then .next (endCmd s q n 2)
    else if (s.ctx c).state ≠ .running then .next s
    else match copyPlaces s c 0 1 with
      | p :: _ => .next (addCopy (startCmd s q n) x p)
      | [] => .next s

/-- SIGNAL: its arrivals, as one update at its start. -/
def execSignal (q n : Nat) (s : State) : Out :=
  match startable s q n 3 with
  | none => .next s
  | some k =>
    if badCommand s q k then .next (endCmd s q n 2)
    else if k.addr.toNat % 16 ≠ 0 then .next (faultCmd s q n 0x24 (k.addr.setWidth 64))
    else .next (match cmdAccess s 0 (s.hostQueue q).ctx (cmdParty s q) k.addr true true with
      | .wait s => s
      | .bad f v s => faultCmd s q n f v
      | .ok e s => match poisonAt s e k.addr.toNat with
      | some v => faultCmd s q n 0x29 v
      | none =>
        let b := readBytes s e k.addr.toNat 16
        let r := barEvent b.2 e k.addr.toNat (leNat b.1) (field k.bytes 16 4) 0
        if r.2.1 then faultCmd r.2.2 q n 0x25 (k.addr.setWidth 64) else endCmd r.2.2 q n 0)

/-- WAIT: it starts; its observations are made at WAIT_SATISFIED. -/
def execWait (q n : Nat) (s : State) : Out :=
  match startable s q n 4 with
  | none => .next s
  | some k =>
    if badCommand s q k then .next (endCmd s q n 2)
    else if k.addr.toNat % 16 ≠ 0 then .next (faultCmd s q n 0x24 (k.addr.setWidth 64))
    else .next (startCmd s q n)

/-- A WAIT that has started and not ended. -/
def waiting (s : State) (q n : Nat) : Option HostCmd :=
  match s.cmd? q n with
  | some k => if k.opcode = 4 ∧ k.started ∧ k.ended.isNone ∧ commandsRun (s.ctx (s.hostQueue q).ctx).state ∧ s.fatal.isNone then some k else none
  | none => none

/-- What an observation of a WAIT finds: the word, its turn at the home not yet come, or the fault of R423. -/
inductive ObsAns where
  | word (w : Nat) (s : State)
  | wait (s : State)
  | bad (cause : BitVec 8) (value : BitVec 64) (s : State)

/-- One observation of a WAIT: a load of the barrier word by the command (R422). -/
def observeWait (s : State) (q : Nat) (k : HostCmd) : ObsAns :=
  let va := k.addr
  match watchEntry s (tlbOfDie 0) 0 (s.hostQueue q).ctx va.toNat with
  | .error (f, v) => .bad f v (dropTickets s (cmdParty s q))
  | .ok e => match homeAccess (tlbInsert s (tlbOfDie 0) e) (tlbOfDie 0) (cmdParty s q) e va.toNat false with
    | .wait s => .wait s
    | .fault f v s => .bad f (v.getD (if f = 0x29 then BitVec.ofNat 64 23 else va.setWidth 64)) (dropTickets s (cmdParty s q))
    | .ok s => let b := readBytes s e va.toNat 16; .word (leNat b.1) b.2

/-- The WAIT's observation ends it: the phase is done, or the word is malformed or has overrun. -/
def waitOver (k : HostCmd) (w : Nat) : Bool := bwaitOver w (BitVec.ofNat 32 (field k.bytes 16 4))

/-- WAIT_SATISFIED (R422, R300): an observation of the barrier word. One that finds the phase done ends the command; a
malformed word or an overrun faults; any other leaves the command waiting. -/
def execWaitSatisfied (q n : Nat) (s : State) : Out :=
  match waiting s q n with
  | none => .next s
  | some k => .next (match observeWait s q k with
    | .wait s => s
    | .bad f v s => faultCmd s q n f v
    | .word w s =>
      if !waitOver k w then s
      else if barOvr w || barMalformed (barCfg w) then faultCmd s q n 0x25 (k.addr.setWidth 64)
      else endCmd s q n 0)

/-- The condition of a WAIT holds, and its observation can be made now or can take its place at the home: WAIT_SATISFIED comes next,
at the first instant at which the condition holds (R422). -/
def waitDue (s : State) (q n : Nat) : Bool :=
  match waiting s q n with
  | none => false
  | some k => match watchEntry s (tlbOfDie 0) 0 (s.hostQueue q).ctx k.addr.toNat with
    | .error _ => false
    | .ok e => waitOver k (leNat (readBytes s e k.addr.toNat 16).1) && match observeWait s q k with
      | .word w _ => waitOver k w
      | .wait t => decide (t ≠ s)
      | .bad .. => true

/-- The Running time of its context up to which a WAIT waits; none when nothing times it out. -/
def waitLimit (s : State) (q n : Nat) : Option Nat :=
  match waiting s q n with
  | none => none
  | some k => match peekBarrier s (tlbOfDie 0) 0 (s.hostQueue q).ctx k.addr with
    | none => none
    | some w => if barDone (barPhase w) (field k.bytes 16 4) then none else (barTimeout (s.ctx (s.hostQueue q).ctx) w).map (k.start + ·)

/-- WAIT_TIMEOUT (R301): T of Running time has passed since the WAIT started. -/
def execWaitTimeout (q n : Nat) (s : State) : Out :=
  match waitLimit s q n with
  | some t => .next (if t ≤ (s.ctx (s.hostQueue q).ctx).runNs then endCmd (dropTickets s (cmdParty s q)) q n 3 else s)
  | none => .next s

/-- SELFTEST (R405): the test of every available core of the named slices of the owning partition. -/
def execSelftest (q n : Nat) (s : State) : Out :=
  match startable s q n 5 with
  | none => .next s
  | some k =>
    let c := (s.hostQueue q).ctx
    let mask := BitVec.ofNat 8 (byteAt k.bytes 8)
    if badCommand s q k then .next (endCmd s q n 2)
    else if (s.ctx c).state ≠ .running then .next s
    else if mask &&& ~~~(s.partMask c) ≠ 0 then .next (endCmd s q n 2)
    else
      let cores := (List.range 192).filter fun k => mask.getLsbD (sliceOfCore k) && s.coreUsable k
      let s := cores.foldl (fun s k => s.modCore k fun x => { x with testing := some (q, n) }) (startCmd s q n)
      .next (if cores.isEmpty then endCmd s q n 0 else s)

/-- SELFTEST_CORE_END (R405): the test of a core that holds no resident team has ended; a core that fails, or had an error in
it meanwhile (R407), is withdrawn and logged. After the last test the command ends. -/
def execSelftestCoreEnd (k : Nat) (pass : Bool) (s : State) : Out :=
  match (s.core k).testing with
  | none => .next s
  | some (q, n) =>
    if s.groups.any fun p => coreOf p.1 == k then .next s
    else
      let good := pass && !(s.core k).testBad
      let s := s.modCore k fun x => { x with testing := none, testBad := false }
      let bank := 32 * dieOfCore k + k % 48 / 4
      let s := if good then s
        else withdrawCore (markTriage (logError s bank 1 7 0 (BitVec.ofNat 8 (k % 48)) 0) bank (.core k) 2) k
      let done := (s.cmd? q n).all (·.ended.isSome) || s.cores.any fun p => p.2.testing == some (q, n)
      .next (if done then s else endCmd s q n 0)

/-- MARK: it ends at its start. -/
def execMark (q n : Nat) (s : State) : Out :=
  match startable s q n 6 with
  | none => .next s
  | some k => .next (endCmd s q n (if badCommand s q k then 2 else 0))

/-! ## The end of a command (R121, R122, R151) -/

/-- An opcode that Table 5-7 refuses: the command ends BADOP at its turn. -/
def badOpcode (k : HostCmd) : Bool := k.opcode == 0 || decide (7 ≤ k.opcode)

/-- The command leaves its list, and its queue goes on. -/
def dropCmd (s : State) (q n : Nat) : State :=
  let s := s.modHostQueue q fun h => { h with cmds := h.cmds.filter fun k => k.seq.toNat != n }
  if 256 ≤ q then s else fetchCtx (closeDrained s q) (s.hostQueue q).ctx

/-- Step 1: the record, which every KLAUNCH and every BADOP or BADARG writes whatever its REC bit holds. -/
def endRecord (s : State) (q n : Nat) (k : HostCmd) (st : BitVec 8) : State :=
  let c := (s.hostQueue q).ctx
  let fc : BitVec 8 := if st = 4 then k.fcause else 0
  let s := s.modCmd q n fun k => { k with recorded := true }
  let s := if k.rec_ || decide (256 ≤ q) || st == 1 || st == 2 then putRecord s c (completionRecord s c q k st fc true) else s
  if q < 256 ∧ st ≠ 0 ∧ st ≠ 4 then s.modHostQueue q fun h => { h with err := true, code := st } else s

/-- The FINAL record of the command is still held. -/
def recordHeld (s : State) (q : Nat) (k : HostCmd) : Bool :=
  (s.ctx (s.hostQueue q).ctx).ring.held.any fun b =>
    byteAt b 29 == 1 && byteAt b 13 == (if 256 ≤ q then 1 else 0) && field b 14 2 == (if 256 ≤ q then (q - 256) % 4 else q)
      && field b 16 4 == k.seq.toNat

/-- The party that makes the BAR arrival: the launch of a LAUNCH, otherwise the command. -/
def endParty (s : State) (q : Nat) (k : HostCmd) : Word :=
  match k.launch with
  | some l => BitVec.ofNat 32 (4 * 2 ^ 29 + s.domain.own * 2 ^ 23 + (if 256 ≤ q then (q - 256) % 4 else 0) * 2 ^ 21 + l % 256)
  | none => cmdParty s q

/-- The command makes no BAR arrival: it names no barrier, or it ended BADOP, BADARG, FAULT or KILLED (R121, R154, R423). -/
def noArrival (k : HostCmd) (st : BitVec 8) : Bool :=
  k.bar == 0 || st == 1 || st == 2 || st == 4 || st == 5 || k.opcode == 3

/-- Step 3: the BAR arrival; a fault of it is charged and the arrival is not made. -/
def endArrival (s : State) (q n : Nat) (k : HostCmd) (st : BitVec 8) : State :=
  let c := (s.hostQueue q).ctx
  let charge (s : State) (f : BitVec 8) (v : BitVec 64) : State := dropCmd (chargeFault s c f v (if q < 256 then q else 0)) q n
  if noArrival k st then dropCmd s q n
  else if k.bar.toNat % 16 ≠ 0 then charge s 0x24 (k.bar.setWidth 64)
  else
    let d := if 256 ≤ q then (q - 256) % 4 else 0
    match cmdAccess s d c (endParty s q k) k.bar true true with
    | .wait s => s
    | .bad f v s => charge s f v
    | .ok e s => match poisonAt s e k.bar.toNat with
    | some v => charge s 0x29 v
    | none =>
      let b := readBytes s e k.bar.toNat 16
      let r := barEvent b.2 e k.bar.toNat (leNat b.1) 1 0
      if r.2.1 then charge r.2.2 0x25 (k.bar.setWidth 64) else dropCmd r.2.2 q n

/-- What follows the end of a command, each step once the one before it has been made: the record, then HQDONE, then the
BAR arrival. A command with a halt notice goes on after RESUME (R154). -/
def finishCommand (s : State) (q n : Nat) : State :=
  match s.cmd? q n with
  | none => s
  | some k => match k.ended with
    | none => s
    | some st =>
      if k.noticed ∧ (s.ctx (s.hostQueue q).ctx).state = .halted then s else
      let s := if k.recorded then s else endRecord s q n k st
      if recordHeld s q k then s
      else
        let s := if k.done then s
          else
            let s := s.modCmd q n fun k => { k with done := true }
            if q < 256 then s.modHostQueue q fun h => { h with done := h.done + 1 } else s
        if commandsRun (s.ctx (s.hostQueue q).ctx).state ∨ noArrival k st then endArrival s q n k st else s

/-- COMMAND_COMPLETE (R121, R151): a command that has ended completes; one of an opcode that Table 5-7 refuses ends BADOP at
its turn. -/
def execCommandComplete (q n : Nat) (s : State) : Out :=
  match s.cmd? q n with
  | none => .next s
  | some k =>
    if k.ended.isNone && badOpcode k && (startable s q n k.opcode).isSome then .next (finishCommand (endCmd s q n 1) q n)
    else .next (finishCommand s q n)

end Sys2Proof.Machine
end

