-- ==== Sys2Proof/Machine/LaunchCmd.lean ====
section
/-! DEFINITION. LAUNCH: its argument block, its queue table, the tasks of a launch with TASKS, and the completion of a
launch ("Kernels: Images, Loading, Launch and Retirement", R143, R146, R147, R151; R114, R115, R121). -/
namespace Sys2Proof.Machine

/-! ## Reads of the launch's party (R147) -/

/-- What a range read finds: its bytes, a wait after the first of them, or a fault. -/
inductive ReadAns where
  | ok (b : List Byte) (s : State)
  | wait (b : List Byte) (s : State)
  | bad (cause : BitVec 8) (value : BitVec 64) (s : State)

/-- The translation of a chunk of another module's granule, when the response for that granule is at hand. -/
def sameResponse (s : State) (d c : Nat) (va : VA) (near : Option (Nat × Nat)) : Option TlbEntry :=
  match lookup s (tlbOfDie d) c va.toNat with
  | some e => if (e.rmt.map fun m => (m, e.phys va.toNat / 4096)) == near && near.isSome then some e else none
  | none => none

/-- Read `n` bytes at `va` as accesses of a launch's party, chunk by aligned 16-byte chunk. One request to another module brings
the bytes of a granule; `near` names the granule that the last one brought. -/
def launchRead (s : State) (d c : Nat) (party : Word) (va : VA) (n : Nat) (near : Option (Nat × Nat)) : Nat → ReadAns
  | 0 => .ok [] s
  | fuel + 1 =>
    if n = 0 then .ok [] s
    else match (match sameResponse s d c va near with
        | some e => .ok e s
        | none => cmdAccess s d c party va false false : CmdAns) with
      | .wait s => .wait [] s
      | .bad f v s => .bad f v s
      | .ok e s =>
        let k := min n (16 - va.toNat % 16)
        let r := readBytes s e va.toNat k
        match launchRead r.2 d c party (after va k) (n - k) (e.rmt.map fun m => (m, e.phys va.toNat / 4096)) fuel with
        | .ok b s => .ok (r.1 ++ b) s
        | .wait b s => .wait (r.1 ++ b) s
        | a => a

/-- What the command has read of its tables, past the first `skip` bytes. -/
def gotFrom (s : State) (q n skip : Nat) : List Byte := (((s.cmd? q n).map (·.got)).getD []).drop skip

/-- The command keeps more bytes of its tables. -/
def keepBytes (s : State) (q n : Nat) (b : List Byte) : State := s.modCmd q n fun k => { k with got := k.got ++ b }

/-- The `len` bytes at `va`, which stand past the first `skip` bytes of what command `n` of queue `q` reads: those it has read
already, and a read of the others. Each chunk is read once. -/
def readOn (s : State) (q n d c : Nat) (party : Word) (va : VA) (len skip : Nat) : ReadAns :=
  let old := gotFrom s q n skip
  if len ≤ old.length then .ok (old.take len) s
  else match launchRead s d c party (after va old.length) (len - old.length) none (len / 16 + 1) with
    | .ok b s => .ok (old ++ b) (keepBytes s q n b)
    | .wait b s => .wait [] (keepBytes s q n b)
    | a => a

/-- The party identity of a launch: KIND 4, its die and its index (Table 11-4). -/
def launchParty (s : State) (d id : Nat) : Word :=
  BitVec.ofNat 32 (4 * 2 ^ 29 + s.domain.own * 2 ^ 23 + d * 2 ^ 21 + id % 256)

/-- The parties of the commands and launches of a context. -/
def commandParties (s : State) (c : Nat) : List Word :=
  s.hostQueues.flatMap (fun p => if p.2.ctx = c then cmdParty s p.1 :: p.2.cmds.map (endParty s p.1) else [])
    ++ s.launches.filterMap fun p => if p.2.ctx = c then some (launchParty s p.2.die p.1) else none

/-! ## Argument entries and queue descriptors (Tables 6-4 and 5-2) -/

/-- Pieces of `k` bytes. -/
def pieces (k : Nat) : Nat → List Byte → List (List Byte)
  | 0, _ => []
  | n + 1, b => b.take k :: pieces k n (b.drop k)

/-- An argument entry, or none when it breaks R146. -/
def argEntry (b : List Byte) : Option ArgEntry :=
  let tag := byteAt b 0
  if 1 < tag ∨ !zeroBytes b 1 4 ∨ (tag = 0 ∧ field b 8 4 ≠ 0) then none
  else some ⟨tag == 1, BitVec.ofNat 32 (field b 4 4), BitVec.ofNat 32 (field b 8 4), BitVec.ofNat 32 (field b 12 4)⟩

/-- A queue descriptor, or none when a field is out of range; a result queue's producer is the engine-resident stage. -/
def queueDesc (engmask : BitVec 8) (b : List Byte) : Option QDesc :=
  let kind := byteAt b 0
  let p := byteAt b 1
  let c := byteAt b 2
  let d := byteAt b 3
  let f := byteAt b 4
  if (kind ≠ 3 ∧ kind ≠ 4) ∨ 7 < p ∨ 7 < c ∨ p = c ∨ d = 0 ∨ 12 < d ∨ 1 < f ∨ !zeroBytes b 5 16
      ∨ (kind = 4 ∧ (f = 1 ∨ !engmask.getLsbD p)) then none
  else some ⟨kind, p, c, d, f == 1⟩

/-- All of them, or none. -/
def allSome {α : Type} : List (Option α) → Option (List α)
  | [] => some []
  | x :: xs => match x, allSome xs with
    | some a, some as => some (a :: as)
    | _, _ => none

/-- Bytes that one consumer team of a stage locks (R115). -/
def lockedBytes (qs : List QDesc) (stage : Nat) : Nat :=
  ((qs.filter (·.cstage == stage)).map fun d => 2 ^ d.depth * (if d.uni then 4 else 128)).sum

/-! ## LAUNCH -/

/-- The launch of a command with its arguments and queue table read. -/
def newLaunch (c q die : Nat) (k : HostCmd) (image : Nat) (im : Image) (args : List ArgEntry) (qs : List QDesc) : Launch :=
  let tasks := byteAt k.bytes 1 / 4 % 2 == 1
  let n := field k.bytes 16 2 * field k.bytes 18 2 * field k.bytes 20 2
  { ctx := c, image := image, dx := field k.bytes 16 2, dy := field k.bytes 18 2, dz := field k.bytes 20 2, args := args
    qtab := qs, prio := byteAt k.bytes 2, tasks := tasks, taskCount := field k.bytes 52 4, tasksDone := 0, placed := []
    retired := 0, total := if tasks then 0 else n * (ordinaryStages im).length, status := 0
    root := if 256 ≤ q then ⟨true, die, k.seq⟩ else ⟨false, q, k.seq⟩, tag := k.tag, rec_ := k.rec_, bar := k.bar
    die := die, rings := [], since := none, order := 0 }

/-- The address of the stage-0 entry of an image. -/
def stageEntry (im : Image) (st : Nat) : Option VA :=
  ((im.entries[st]?).getD none).map fun o => im.base + BitVec.ofNat 57 (im.codeoff + o)

/-- The lowest index of the launch table that no launch has and no command keeps. DESIGN CHOICE, log entry 68: a launch has
one index, the same in the table of every die. -/
def freeLaunch (s : State) : Nat :=
  let used := s.launches.map (·.1) ++ s.hostQueues.flatMap fun p => p.2.cmds.filterMap (·.launch)
  ((List.range (used.length + 1)).find? fun i => !used.contains i).getD used.length

/-- Accept a LAUNCH: its argument block and queue table, and its launch. The command keeps its index from its first read on. -/
def acceptLaunch (s : State) (q n die : Nat) (k : HostCmd) (image : Nat) (im : Image) : State :=
  let c := (s.hostQueue q).ctx
  let id := k.launch.getD (freeLaunch s)
  let s := s.modCmd q n fun k => { k with launch := some id }
  let party := launchParty s die id
  let args := BitVec.ofNat 57 (field k.bytes 24 8)
  let qs := BitVec.ofNat 57 (field k.bytes 40 8)
  let qn := if field k.bytes 40 8 = 0 then 0 else byteAt k.bytes 48
  let tasks := byteAt k.bytes 1 / 4 % 2 == 1
  let argn := if tasks then 0 else im.argn
  if !tasks ∧ args.toNat % 16 ≠ 0 then endCmd s q n 2
  else match readOn s q n die c party args (16 * argn) 0 with
    | .wait _ s => s
    | .bad f v s => if f = 0x29 then faultCmd s q n f v else endCmd s q n 2
    | .ok ab s => match readOn s q n die c party qs (16 * qn) (16 * argn) with
      | .wait _ s => s
      | .bad f v s => if f = 0x29 then faultCmd s q n f v else endCmd s q n 2
      | .ok qb s => match allSome ((pieces 16 argn ab).map argEntry), allSome ((pieces 16 qn qb).map (queueDesc im.engmask)) with
        | some as, some ds =>
          if (ordinaryStages im).any (fun st => decide (65536 < lockedBytes ds st)) || (tasks && (stageEntry im 0).isNone) then
            endCmd s q n 2
          else
            let l := { newLaunch c q die k image im as ds with order := s.tick }
            startCmd { s.modCmd q n fun k => { k with got := [] } with launches := tset s.launches id l } q n
        | _, _ => endCmd s q n 2

/-- The launch pushes no further task, and its command ends with status `st` once those pushed have run. -/
def cutTasks (s : State) (id : Nat) (st : BitVec 8) : State :=
  s.modLaunch id fun l => { l with taskCount := l.placed.length, status := st }

/-- The next task of a launch with TASKS: its record is read and the task is pushed, or waits for a free slot. A record that
cannot be read makes the command end BADARG, or FAULT for a machine check, when the tasks already pushed have run: DESIGN
CHOICE, the manual gives the status only for the argument block (log entry 65). -/
def launchTask (s : State) (q n : Nat) (k : HostCmd) (id : Nat) (l : Launch) (im : Image) : State :=
  let i := l.placed.length
  let d := if byteAt k.bytes 49 = 255 then i % 4 else byteAt k.bytes 49
  let a := BitVec.ofNat 57 (field k.bytes 24 8) + BitVec.ofNat 57 (64 * i)
  match stageEntry im 0 with
  | none => s
  | some entry => match readOn s q n l.die l.ctx (launchParty s l.die id) a 64 0 with
    | .wait _ s => s
    | .bad f v s =>
      if f = 0x29 then noteCause (chargeFault (cutTasks s id 4) l.ctx f v (if q < 256 then q else 0)) q n else cutTasks s id 2
    | .ok b s => match pushTask s l.ctx d entry b l.root (some id) with
      | none => s
      | some s => (s.modCmd q n fun k => { k with got := [] }).modLaunch id fun l => { l with placed := l.placed ++ [i] }

/-- LAUNCH (R121, R146, R147, R156): a host LAUNCH, or a command of KLAUNCH, starts; a launch with TASKS then pushes its
tasks one by one. -/
def execLaunch (q n : Nat) (s : State) : Out :=
  let c := (s.hostQueue q).ctx
  let die := if 256 ≤ q then (q - 256) % 4 else 0
  match startable s q n 1 with
  | some k =>
    if launchBad k.bytes || farCommand s q k then .next (endCmd s q n 2)
    else match (imageAt (s.ctx c) (field k.bytes 8 8)).bind fun i => (s.image? c i).map fun im => (i, im) with
      | none => .next (endCmd s q n 2)
      | some (i, im) =>
        if s.boot.minimal && im.engmask != 0 then .next (endCmd s q n 2)
        else .next (acceptLaunch s q n die k i im)
  | none => match s.cmd? q n with
    | none => .next s
    | some k => match k.launch with
      | none => .next s
      | some id => match s.launch? id with
        | none => .next s
        | some l => match s.image? c l.image with
          | some im =>
            if l.tasks ∧ l.placed.length < l.taskCount ∧ commandsRun (s.ctx c).state ∧ s.fatal.isNone then .next (launchTask s q n k id l im)
            else .next s
          | none => .next s

/-! ## LAUNCH_COMPLETE (R151) -/

/-- Every team of every ordinary stage has retired and every coordinate engine is released, or every task has run. -/
def launchOver (s : State) (id : Nat) (l : Launch) : Bool :=
  if l.tasks then l.placed.length == l.taskCount && l.tasksDone == l.taskCount
  else l.retired == l.total && !s.engines.any fun p => match p.2.bound with
    | some (k, _) => k == id
    | none => false

/-- LAUNCH_COMPLETE (R151): what the launch left is forgotten, and its command completes with the launch's status. A launch that is over when its
context turns Halted has its halt notice, and completes after RESUME (R154). -/
def execLaunchComplete (id : Nat) (s : State) : Out :=
  match s.launch? id with
  | none => .next s
  | some l =>
    if !launchOver s id l ∨ !(commandsRun (s.ctx l.ctx).state || (s.ctx l.ctx).state == .halting) then .next s
    else
      let q := l.root.key l.ctx
      let n := l.root.seq.toNat
      let s := s.modCmd q n fun k => { k with ended := some l.status, count := if l.tasks then l.tasksDone else l.retired }
      let s := { s with
        launches := terase s.launches id
        queues := s.queues.filter fun p => p.2.launch != id
        teams := s.teams.filter fun p => !(p.2.launch == id && !p.2.task) }
      .next (finishCommand s q n)

end Sys2Proof.Machine
end

