-- ==== Sys2Proof/Machine/Teams.lean ====
section
/-! DEFINITION. Bind records, the start of teams and of task groups, and the retirement of groups and teams ("Kernels:
Images, Loading, Launch and Retirement", R143 to R151; R115, R124 to R126, R182, R283, R319). -/
namespace Sys2Proof.Machine

/-! ## The slot table (R148, R149) -/

/-- The fields of a bind record (Table 6-5), with the tick at which it was written. -/
def parseBind (r : BitVec 128) (order : Nat) : BindRec :=
  let f lo n := r.toNat / 2 ^ (8 * lo) % 2 ^ (8 * n)
  { op := f 0 1 % 4, ctx := f 1 1, group := f 2 1 % 32, stage := f 3 1 % 8, x := f 4 2, y := f 6 2, z := f 8 2, tslot := f 10 1
    carve := f 11 1, engine := f 12 1, launch := f 13 3, order := order }

/-- BIND_RECORD_WRITE (R148, R149): firmware writes record `i` of core `k`. A bind fills an empty slot; a withdraw, or
an empty record, removes a waiting one. The landing slots are never written. -/
def execBindRecordWrite (k i : Nat) (rec_ : BitVec 128) (s : State) : Out :=
  let r := parseBind rec_ s.tick
  if 60 ≤ i ∨ 192 ≤ k then .next s
  else if r.op = 1 then
    if (tget (s.core k).slots i).isSome ∨ !recWaits s k i then .next s
    else .next (notePlaced (s.modCore k fun x => { x with slots := tset x.slots i r }) k r)
  else if recWaits s k i then .next (withdrawRec s k i)
  else .next s

/-! ## What a team needs (R149, R115, R182) -/

/-- The teams that are resident on a core. -/
def residentTeams (s : State) (k : Nat) : List Team :=
  (s.teams.filter fun p => p.2.core == k && (p.2.state == .resident || p.2.state == .stopped) && !p.2.groups.isEmpty).map (·.2)

/-- Bytes that a team locks for the instances it consumes. -/
def teamLocks (s : State) (t : Team) : Nat :=
  if t.task then 0 else match s.launch? t.launch with
    | some l => lockedBytes l.qtab t.stage
    | none => 0

/-- Shape entries of the ordinary groups of a core. -/
def shapeEntries (s : State) (k : Nat) : Nat :=
  ((s.groups.filter fun p => coreOf p.1 == k && decide (slotOf p.1 < 60)).map fun p => p.2.budget + 16).sum

/-- The core has the shape entries, the locks and the carve-out share for a team. -/
def coreFits (s : State) (k groups budget locks share : Nat) : Bool :=
  let ts := residentTeams s k
  let locked := (ts.map (teamLocks s)).sum + locks
  decide (shapeEntries s k + groups * (budget + 16) ≤ 14400) && decide (locked ≤ 131072)
    && decide (locked + 32768 * (s.core k).carve ≤ 327680)
    && decide ((ts.map (·.scratchLen)).sum + share ≤ 32768 * (s.core k).carve)

/-! ## Private regions (R283, R145) -/

/-- Bytes of a group's private region, a multiple of the page size. -/
def regionLen (privb : Nat) : Nat := (32 * privb + 4095) / 4096 * 4096

/-- The lowest place in the context's pool that no region overlaps. -/
def freeRegion (x : Context) (len : Nat) : Option Nat :=
  let starts := x.poolBase :: x.pools.map fun p => p.1 + p.2
  let fits (a : Nat) : Bool := decide (x.poolBase ≤ a) && decide (a + len ≤ x.poolBase + x.poolLen)
    && x.pools.all fun p => decide (a + len ≤ p.1) || decide (p.1 + p.2 ≤ a)
  (starts.filter fits).foldl (fun (b : Option Nat) a => match b with
    | some c => some (min a c)
    | none => some a) none

/-- The region's mapped bytes read zero. -/
def zeroRegion (s : State) (c base len : Nat) : State :=
  (List.range (len / 4096)).foldl (fun s i =>
    let a := base + 4096 * i
    match walk s c a with
    | .error _ => s
    | .ok e =>
      if e.host then { s with hostMem := mclear s.hostMem (e.phys a) 4096 }
      else match e.rmt with
        | some m => { s with peerMem := mclear s.peerMem (m * 2 ^ 39 + e.phys a) 4096 }
        | none => { s with mem := mclear s.mem (e.phys a) 4096 }) s

/-- Take a region for a group; none when the pool has no room. -/
def takeRegion (s : State) (c privb : Nat) : Option (Nat × State) :=
  let len := regionLen privb
  (freeRegion (s.ctx c) len).map fun a =>
    (a, zeroRegion (s.modCtx c fun x => { x with pools := x.pools ++ [(a, len)] }) c a len)

/-! ## Entry state (R145, R146, R126) -/

/-- A thread at a kernel entry, its rounding mode the context default (R62). -/
def startThread (entry : VA) (im : Image) (root : RootCmd) (rm : BitVec 2) : Thread :=
  { Thread.absent with
    present := true, rm := rm, at_ := atHeader entry, stacklim := BitVec.ofNat 32 (im.stackn - 1), root := root }

/-- The rows that the argument entries set, for global group index `g`. -/
def argRows (args : List ArgEntry) (g : Nat) : Tab Row :=
  args.zipIdx.map fun p =>
    let b := p.1.base + BitVec.ofNat 32 (g * p.1.gstep.toNat)
    (p.2, if p.1.affine then .a b p.1.stride else .u b)

/-- A group before its first clause. -/
def startGroup (ctx team gid image : Nat) (im : Image) (pbase : Nat) (threads : Lanes Thread) (rows : Tab Row) : Group :=
  { ctx := ctx, team := team, gid := gid, image := image, enc := im.enc, budget := im.window, pbase := BitVec.ofNat 57 pbase
    privb := im.privb, threads := threads, rows := rows, bank := [], evicted := [], use := [], flags := Vector.replicate 12 0
    ports := Vector.replicate 6 none, ops := [], nextOp := 1, issue := none, lastExit := 0, phase := .running, fault := none
    preempt := none, touched := [], streamSlot := false, depEvents := 0, skipCmp := [], haltTime := 0, abandoned := 0
    popped := [], redo := [], leaving := [] }

/-- A team before its groups start. -/
def newTeam (ctx launch : Nat) (task : Bool) (stage x y z core tslot : Nat) (groups : List Nat) (share : Nat) (engine : Option Nat) :
    Team :=
  { ctx := ctx, launch := launch, task := task, stage := stage, x := x, y := y, z := z, core := core, tslot := tslot
    groups := groups, state := .resident, scratch := [], scratchLen := share, bins := [], held := [], tph := false
    arrived := 0, tw := 0, tt := 0, restarts := 0, label := none, engineTeam := false, discarded := none, engine := engine
    saved := [] }

/-! ## TEAM_START (R144, R149) -/

/-- The records of a waiting team, when one is present for each of its groups and none waits for a carve-out change. -/
def teamRecs (s : State) (k tslot : Nat) : Option (List (Nat × BindRec) × Launch × Image) :=
  let all := waitingRecs s k
  let recs := all.filter fun p => p.2.tslot == tslot
  match recs with
  | [] => none
  | (_, r) :: _ => match s.launch? r.launch with
    | none => none
    | some l => (s.image? l.ctx l.image).bind fun im =>
      let whole := recs.all (fun p => p.2.sameTeam r) && recs.length == im.team
        && (List.range im.team).all fun g => recs.any fun p => p.2.group == g
      let carve := recs.all (fun p => p.2.carve == (s.core k).carve)
        && all.all fun p => p.2.carve == (s.core k).carve || recs.all fun q => decide (q.2.order < p.2.order)
      if whole && carve then some (recs, l, im) else none

/-- Ring units that a coordinate's rings have (R316). -/
def coordUnits (s : State) (l i : Nat) : Nat :=
  match s.launch? l with
  | some x => ((x.rings.filter (·.1 == i)).map (·.2.2)).sum
  | none => 0

/-- Engine `e` can be bound for a team on core `k` of context `c`: the narrows joins it to the core's die, it is free and in
order, in the partition, and its die has the ring units of the coordinate (R15, R86, R316). -/
def engineFits (s : State) (c k e l i : Nat) : Bool :=
  decide (e < 32) && e / 16 == matrixDie (dieOfCore k) && (s.engine e).bound.isNone && s.engineUp e
    && (s.partMask c).getLsbD (sliceOfEngine e) && decide (unitsUsed s e + coordUnits s l i ≤ 2048)

/-- The coordinate's engine stands ready for a team on core `k`: bound to it, within reach and in order (R404), or bound now; none when the
team must wait. -/
def readyEngine (s : State) (c k e launch i : Nat) : Option (Option Nat × State) :=
  if e = 255 then some (none, s)
  else match s.engines.find? fun p => p.2.bound == some (launch, i) with
    | some p =>
      if p.1 = e ∧ e / 16 = matrixDie (dieOfCore k) ∧ s.engineUp e ∧ (s.partMask c).getLsbD (sliceOfEngine e) then some (some e, s)
      else none
    | none => if engineFits s c k e launch i then some (some e, bindEngine s e launch i) else none

/-- Start the groups of a team one by one; none when a private region is missing. -/
def startGroups (s : State) (k team : Nat) (l : Launch) (im : Image) (entry : VA) : List (Nat × BindRec) → Option State
  | [] => some s
  | (slot, r) :: rs => match takeRegion s l.ctx im.privb with
    | none => none
    | some (a, s) =>
      let g := linearIndex l r.x r.y r.z * im.team + r.group
      let th := perLane fun _ => startThread entry im l.root (s.ctx l.ctx).frm
      let gr := startGroup l.ctx team r.group l.image im a th (argRows l.args g)
      startGroups (s.setGroup (64 * k + slot) gr) k team l im entry rs

/-- The waiting team `tslot` of core `k` starts, when everything it needs is there. -/
def startTeam (s : State) (k tslot : Nat) : Option State :=
  (teamRecs s k tslot).bind fun (recs, l, im) =>
    match recs with
    | [] => none
    | (_, r) :: _ =>
      let share := 32768 * im.scratch
      if (s.ctx l.ctx).state ≠ .running ∨ !(s.partMask l.ctx).getLsbD (sliceOfCore k) ∨ !s.coreUsable k
          ∨ !coreFits s k im.team im.window (lockedBytes l.qtab r.stage) share then none
      else (stageEntry im r.stage).bind fun entry =>
        (readyEngine s l.ctx k r.engine r.launch (linearIndex l r.x r.y r.z)).bind fun (e, s) =>
          let (id, s) := s.fresh
          (startGroups s k id l im entry recs).map fun s =>
            let t := newTeam l.ctx r.launch false r.stage r.x r.y r.z k tslot (recs.map fun p => 64 * k + p.1) share e
            trace (s.setTeam id t) l.ctx 2 0 (dieOfCore k) r.stage (k % 48) (e.getD 0xFF) 0xFF l.root r.x r.y r.z
              (linearIndex l r.x r.y r.z)

/-- The lowest slot of the records of a waiting team, if they all waited before tick `n`. -/
def waitedSince (s : State) (k tslot n : Nat) : Option Nat :=
  let rs := (waitingRecs s k).filter fun p => p.2.tslot == tslot
  if rs.all fun p => decide (p.2.order ≤ n) then (rs.map (·.1)).min? else none

/-- After a carve-out change the records that waited for it start in slot order: the team has to let another one go first
that could start and has a lower slot (R149). -/
def yieldsSlot (s : State) (k tslot : Nat) : Bool :=
  match (s.core k).changed with
  | none => false
  | some n => match waitedSince s k tslot n with
    | none => false
    | some i => (((waitingRecs s k).map (·.2.tslot)).eraseDups).any fun t =>
        (match waitedSince s k t n with
          | some j => decide (j < i)
          | none => false) && (startTeam s k t).isSome

/-- TEAM_START (R149): all groups of a team start together. -/
def execTeamStart (k tslot : Nat) (s : State) : Out :=
  .next (if yieldsSlot s k tslot then s else (startTeam s k tslot).getD s)

/-- CARVE_OUT_CHANGE (R149): the core holds no resident team, and takes the carve-out of the first waiting record. -/
def execCarveOutChange (k : Nat) (s : State) : Out :=
  let first := (waitingRecs s k).foldl (fun (b : Option BindRec) p => match b with
    | some r => if p.2.order < r.order then some p.2 else b
    | none => some p.2) none
  match first with
  | some r =>
    if (residentTeams s k).isEmpty ∧ r.carve ≤ 8 then
      .next (s.modCore k fun x => { x with carve := r.carve, changed := some s.tick })
    else .next s
  | none => .next s

/-! ## Priorities (R131) -/

/-- A launch has a team that is not placed. -/
def launchWaits (s : State) (l : Launch) : Bool :=
  !l.tasks && match s.image? l.ctx l.image with
    | some im => decide (l.placed.length < (ordinaryStages im).length * (l.dx * l.dy * l.dz))
    | none => false

/-- The priority of tasks: the highest PRIO of the LAUNCHes that are their root commands, 0 for one that is over. The manual gives
PRIO to a LAUNCH and none to a task: DEDUCED (log entry 72). -/
def tasksPrio (s : State) (c : Nat) (ts : List Task) : Nat :=
  ts.foldl (fun n t => max n (match s.cmd? (t.root.key c) t.root.seq.toNat with
    | some k => byteAt k.bytes 2
    | none => 0)) 0

/-- The formed groups of a die leave its list in order (R125): the first one has the highest priority among them. -/
def formedPrio (s : State) (c d : Nat) : Nat := tasksPrio s c (s.taskQueue c d).formed.flatten

/-- The priority at which a context runs: the highest of its launches that are not over and of its tasks; 0 without one. The
manual gives a priority to contexts and a PRIO to launches: DEDUCED, a context has that of the launch it would run (R131, log
entry 72). -/
def ctxPrio (s : State) (c : Nat) : Nat :=
  (s.launches.filter fun p => p.2.ctx == c && (if p.2.tasks then p.2.tasksDone != p.2.taskCount else p.2.retired != p.2.total)).foldl
    (fun n p => max n p.2.prio)
    (tasksPrio s c ((List.range 4).flatMap fun d => (s.taskQueue c d).queued ++ (s.taskQueue c d).formed.flatten))

/-- The context could be granted partition `p`. -/
def mayTake (x : Context) (p : Nat) : Bool :=
  (x.assigned.isNone || x.assigned == some p) && (x.state == .ready || x.state == .saved || (x.state == .restoring && x.partition.isNone))

/-- Another context of a higher priority than `n` waits for partition `p` (R131). -/
def higherWaits (s : State) (c p n : Nat) : Bool := s.contexts.any fun q => q.1 != c && mayTake q.2 p && decide (n < ctxPrio s q.1)

/-! ## Task groups (R124 to R126) -/

/-- GATHER_TIMER_EXPIRY (R124): a pop request waits, and the oldest task has been oldest for GATHER ns. The window then
slides, and every full group that it now holds is formed. -/
def execGatherTimerExpiry (c d : Nat) (s : State) : Out :=
  let q := s.taskQueue c d
  if !q.queued.isEmpty ∧ !q.requests.isEmpty ∧ q.oldestSince + s.gather ≤ s.realTime then
    .next (s.modTaskQueue c d fun q => formFull s.realTime (q.queued.length / 32 + 1) (formGroup s.realTime q))
  else .next s

/-- The lowest ordinary slot of a core that holds neither a group nor a record. -/
def freeSlot (s : State) (k : Nat) : Option Nat :=
  (List.range 60).find? fun i => recWaits s k i && (tget (s.core k).slots i).isNone

/-- The threads of a task group: one per task, lanes without a task absent. -/
def taskThreads (d : Nat) (im : Image) (rm : BitVec 2) (ts : List Task) : Lanes Thread := perLane fun l =>
  match ts[l]? with
  | some t => { startThread t.entry im t.root rm with taskSlot := some (d * 2 ^ 32 + t.slot), taskLaunch := t.launch }
  | none => .absent

/-- A formed group starts on core `k`; none when it does not fit. -/
def startTasks (s : State) (c k : Nat) (ts : List Task) : Option State :=
  let d := dieOfCore k
  (ts.head?.bind fun t => imageOfEntry (s.ctx c) t.entry).bind fun i => (s.image? c i).bind fun im =>
    (freeSlot s k).bind fun slot =>
      if !coreFits s k 1 im.window 0 0 then none
      else (takeRegion s c im.privb).map fun (a, s) =>
        let (id, s) := s.fresh
        let v := (s.ctx c).taskVirt.getD d 0
        let v0 : Row := .g (perLane fun l => match ts[l]? with
          | some t => BitVec.ofNat 32 (v + 128 * t.slot + 64)
          | none => 0)
        let gr := startGroup c id 0 i im a (taskThreads d im (s.ctx c).frm ts) [(0, v0)]
        let s := balanceRows (s.setGroup (64 * k + slot) gr) (64 * k + slot) []
        let ts := freeTslot s k 0
        let t := newTeam c 0 true 0 0 0 0 k ts [64 * k + slot] 0 none
        let s := putRec (s.setTeam id t) k slot (standingRec s t gr k ts)
        trace s c 2 0 d 0 (k % 48) 0xFF 0xFF (rootOf s t) 0 0 0 0

/-! ## Retirement (R150) -/

/-- The instances that the team of stage `st` and index `i` consumes are destroyed, those that no end was ever bound to among
them (R116). -/
def destroyQueues (s : State) (launch : Nat) (l : Launch) (st i : Nat) : State :=
  let s := l.qtab.zipIdx.foldl (fun s p => if p.1.cstage = st then (ensureQueue s launch p.2 i p.1).2 else s) s
  { s with queues := tmap s.queues fun _ q =>
      if q.launch == launch && q.inst == i && q.desc.cstage == st then { q with live := false, entries := [] } else q }

/-- A team has retired: the instances it consumes are destroyed, its launch counts it, and a Waiting engine of a
coordinate that has no team left underruns (R319). -/
def retireTeam (s : State) (id : Nat) (t : Team) (root : RootCmd) : State :=
  if t.task then
    let s := trace s t.ctx 3 0 (dieOfCore t.core) 0 (t.core % 48) 0xFF 0xFF root 0 0 0 0
    { s with teams := terase s.teams id }
  else match s.launch? t.launch with
    | none => { s with teams := terase s.teams id }
    | some l =>
      let i := linearIndex l t.x t.y t.z
      let s := destroyQueues s t.launch l t.stage i
      let s := s.setTeam id { t with state := .retired, scratch := [], bins := [] }
      let s := s.modLaunch t.launch fun l => { l with retired := l.retired + 1 }
      let s := trace s t.ctx 3 0 (dieOfCore t.core) t.stage (t.core % 48) (t.engine.getD 0xFF) 0xFF l.root t.x t.y t.z i
      match t.engine with
      | none => s
      | some e => match underrunValue s e with
        | some v => engineFault s e t.ctx 0x2C (BitVec.ofNat 64 v) 0
        | none => s

/-- The tasks that a retiring group has run count for their launches. -/
def countTasks (s : State) (gr : Group) : State :=
  (lanesOf (presentMask gr)).foldl (fun s l => match (lane gr.threads l).taskLaunch with
    | some id => s.modLaunch id fun k => { k with tasksDone := k.tasksDone + 1 }
    | none => s) s

/-- The group in slot `g` is gone: its slot, its private region and its place in the queue for stream slots are free. Each unit of
the region keeps in memory the value last stored: DESIGN CHOICE among the values that R283 allows (log entry 95). -/
def clearSlot (s : State) (g : Nat) (gr : Group) : State :=
  let s := { s with groups := terase s.groups g }
  let s := s.modCore (coreOf g) fun k => { k with slots := terase k.slots (slotOf g), slotWait := k.slotWait.filter (· != g) }
  s.modCtx gr.ctx fun x => { x with pools := x.pools.filter fun p => p.1 != gr.pbase.toNat }

/-- A copy of the group still runs, its status abandoned at a halt; the group's image and its retirement wait for it (R44, R150,
R287). -/
def strayCopy (s : State) (gr : Group) : Bool := s.copies.any fun p => p.2.team == gr.team && match p.2.origin with
  | .abandoned i => i == gr.gid
  | .lane g _ _ => g == 12288 + gr.gid
  | .host .. => false

/-- A copy of the team, whatever group issued it, still runs (R151). -/
def teamCopies (s : State) (t : Nat) : Bool := s.copies.any fun p => p.2.team == t && match p.2.origin with
  | .host .. => false
  | _ => true

/-- GROUP_RETIRE (R150): the last thread of group `g` has exited and its operations, abandoned copies among them, have
completed; after the team's last group the team retires in the same event. A group whose context halts is stopped and no
longer retires (Table 6-6). -/
def execGroupRetire (g : Nat) (s : State) : Out :=
  match s.group? g with
  | none => .next s
  | some gr =>
    if liveMask gr ≠ 0 ∨ !gr.ops.isEmpty ∨ gr.issue.isSome ∨ gr.phase ≠ .running ∨ lineAsserted s gr.ctx ∨ strayCopy s gr then .next s
    else match s.team? gr.team with
      | none => .next (clearSlot s g gr)
      | some t =>
        let last := t.groups.filter (· != g) == [] && t.saved.isEmpty
        if last ∧ (!t.held.isEmpty ∨ teamCopies s gr.team) then .next s
        else
          let root := rootOf s t
          let s := clearSlot (countTasks s gr) g gr
          let t' := { t with groups := t.groups.filter (· != g) }
          .next (if last then retireTeam (s.setTeam gr.team t') gr.team t' root else s.setTeam gr.team t')

end Sys2Proof.Machine
end

