-- ==== Sys2Proof/Machine/SavedImage.lean ====
section
/-! DEFINITION. The group in its image and as it resumes from it ("Contexts", R99, R102; R44, R93). -/
namespace Sys2Proof.Machine

/-! ## Held copies of a saved group (R130) -/

/-- Where a held copy comes from: its group's slot, or 12,288 plus the number of a group that is not in a slot; and its operation. -/
def HeldCmd.issuer : HeldCmd → Option (Nat × Nat)
  | .cpy g _ o .. => some (g, o)
  | .cpyr g _ o .. => some (g, o)
  | .mma .. => none

/-- The held command with its issuer's place changed. -/
def HeldCmd.moved (f : Nat → Nat → Nat) : HeldCmd → HeldCmd
  | .cpy g l o sr d sp n b w => .cpy (f g o) l o sr d sp n b w
  | .cpyr g l o sr r n b w => .cpyr (f g o) l o sr r n b w
  | .mma x k t w => .mma x k t w

/-- The operation waits for nothing but copies that the team still holds: it is saved with its group (R130). -/
def heldOnly (t : Team) (g : Nat) (o : Op) : Bool :=
  o.left.isEmpty && !o.drain && o.copies != 0 && (t.held.filter fun p => p.2.issuer == some (g, o.id)).length == o.copies

/-- The group's operations have completed, but for those whose copies are held: it can be saved (R44, R97, R130). -/
def opsDone (s : State) (g : Nat) (gr : Group) : Bool :=
  gr.ops.all fun o => (s.team? gr.team).any fun t => heldOnly t g o

/-- The group in slot `g` leaves it: its held copies keep 12,288 plus its number. -/
def unplaceHeld (s : State) (g : Nat) (gr : Group) : State :=
  s.modTeam gr.team fun t => { t with held := tmap t.held fun _ h => h.moved fun h _ => if h = g then 12288 + gr.gid else h }

/-- The groups of a restored team stand in their slots again: the held and the running copies of those of their operations that still
await a status name the slots. -/
def placeHeld (s : State) (team : Nat) (l : List (SavedGroup × Nat)) : State :=
  let place (g o : Nat) : Nat := ((l.find? fun p => g == 12288 + p.1.group.gid && p.1.group.ops.any (·.id == o)).map (·.2)).getD g
  { s.modTeam team fun t => { t with held := tmap t.held fun _ h => h.moved place } with
    copies := tmap s.copies fun _ x => match x.origin with
      | .lane g o l => if x.team = team then { x with origin := .lane (place g o) o l } else x
      | _ => x }

/-! ## The group in its image -/

/-- A thread as it waits in an image: before the instruction that blocked it. -/
def restThread (t : Thread) : Thread := { t with wait := .none }

/-- The group without anything in flight: flags clear, no stream slot (R44, R99), and of its operations those alone whose copies are
still held, which touch no flag any more (R130). -/
def restGroup (gr : Group) (entry : Option Nat) : Group :=
  { gr with
    threads := perLane fun l => restThread (lane gr.threads l)
    flags := Vector.replicate 12 0, ops := gr.ops.map fun o => { o with flag := none }, issue := none, evicted := [], use := [], touched := [], streamSlot := false
    preempt := none, fault := none, abandoned := 0, popped := [], phase := .saved entry }

/-- The group in slot `g` with its evicted rows as the register stack holds them (R182). -/
def wholeGroup (s : State) (g : Nat) (gr : Group) : Group × State :=
  let r := gr.evicted.foldl (fun (x : Group × State) e =>
    ({ x.1 with rows := tset x.1.rows e (.g (readStackRow x.2 g gr e)) }, useWords x.2)) (gr, s)
  ({ r.1 with evicted := [], leaving := [] }, r.2)

/-- A group saved at PHINT keeps the names and stream registers of its entry alone (R99, R102). -/
def liveOnly (s : State) (g : Nat) (gr : Group) (entry : Nat) : Group :=
  let names := savedNames s gr (some entry)
  let qs := savedStreams s gr (some entry)
  { gr with
    rows := names.foldl (fun r p => tset r (p % gr.budget) (storedRow gr (stackValue s g gr) p)) []
    bank := []
    threads := perLane fun l =>
      let t := lane gr.threads l
      { t with streams := Vector.ofFn fun q => if qs.contains q.val then t.streams[q] else .invalid } }

/-- The rows of a forced save: the resident entries, an evicted one with its values. -/
def imageGroup (s : State) (g : Nat) (gr : Group) (entry : Option Nat) : Group :=
  restGroup (match entry with
    | some k => liveOnly s g gr k
    | none => gr) entry

/-- The group in slot `g` goes into its team's image, what its blocked instructions popped back in its queues; its slot is
free, and its private region stays its own. -/
def intoImage (s : State) (g : Nat) (gr0 : Group) (entry : Option Nat) : State :=
  let r := wholeGroup s g gr0
  let (gr, s) := (r.1, useWords r.2)
  let sg : SavedGroup :=
    { slot := g, group := imageGroup s g gr entry, entry := entry, names := savedNames s gr entry, streams := savedStreams s gr entry
      bytes := imageBytes s g gr entry (teamIndexOf s gr), ranges := savedRanges s gr entry }
  let s := unplaceHeld s g gr
  let s := { putBack s gr gr.popped with groups := terase s.groups g, hostPending := s.hostPending.filter (· != g) }
  let s := releaseStream (leaveParties s g) (coreOf g)
  let s := s.modCore (coreOf g) fun k => { k with slots := terase k.slots (slotOf g), slotWait := k.slotWait.filter (· != g) }
  s.modTeam gr.team fun t => { t with saved := t.saved ++ [sg], groups := t.groups.filter (· != g) }

/-! ## Stores of system software to the image (R96) -/

/-- The bytes of an image with `b` at offset `a`; an image keeps its length. -/
def putBytes (m : List Byte) (a : Nat) (b : List Byte) : List Byte := (m.take a ++ b ++ m.drop (a + b.length)).take m.length

/-- System software stores into the image of a context that does not run: into the scratchpad image of team `t`, or into that of
its saved group `i`. -/
def storeToImage (s : State) (t : Nat) (i : Option Nat) (a : Nat) (b : List Byte) : State :=
  s.modTeam t fun x => match i with
    | none => if x.state = .saved ∨ x.state = .stopped then scratchWrite x a (b.take (x.scratchLen - a)) else x
    | some i => { x with saved := x.saved.mapIdx fun j sg => if j = i then { sg with bytes := putBytes sg.bytes a b } else sg }

end Sys2Proof.Machine
end

