-- ==== Sys2Proof/Machine/Halt.lean ====
section
/-! DEFINITION. The halt line, the stop of each unit with its stop record, and the end of a halt ("Contexts", R92 to R95,
R101, R426; R154, R329, R352, R388). -/
namespace Sys2Proof.Machine

/-! ## Stop records (Table 4-8) -/

/-- The fields of a stop record that vary by unit. -/
structure StopInfo where
  kind : Nat
  fault : FaultInfo
  die : Nat
  unit : Nat
  hlanes : Mask
  pc : Nat
  queue : Word
  x : Nat
  y : Nat
  z : Nat
  stage : Nat
  group : Nat
  abandoned : Nat
  skid : Nat

/-- The 64 bytes of a record. -/
def StopInfo.bytes (r : StopInfo) (time c : Nat) : List Byte :=
  leBytes 8 time ++ [BitVec.ofNat 8 r.kind, r.fault.cause, BitVec.ofNat 8 r.die, BitVec.ofNat 8 r.unit] ++ leBytes 4 c
    ++ wordBytes r.fault.flanes ++ wordBytes r.hlanes ++ leBytes 8 r.pc ++ leBytes 8 r.fault.value.toNat
    ++ wordBytes r.fault.word ++ wordBytes r.queue ++ leBytes 2 r.x ++ leBytes 2 r.y ++ leBytes 2 r.z
    ++ leBytes 1 r.stage ++ leBytes 1 r.group ++ leBytes 4 r.abandoned ++ leBytes 4 r.skid

/-- What a unit without a fault of its own records: stopped by the halt line, or under DEBUG-HALT its cause (R388). -/
def haltFault (x : Context) : FaultInfo := if x.firstFault = some debugHaltFault then debugHaltFault else ⟨0, 0, 0, 0⟩

/-- The cycles from halt assertion to the unit's stop, within the bound of Table 4-7. -/
def skidOf (s : State) (bound : Nat) : Nat := (Config.skid s.tick).toNat % (bound + 1)

/-- The record of unit `u` with fault `f` is that of the first fault; under DEBUG-HALT the lowest unit's is that has its cause. -/
def isFirst (x : Context) (u : Nat) (f : FaultInfo) : Bool :=
  if x.firstFault = some debugHaltFault then
    f == debugHaltFault && match x.firstUnit with
      | some v => decide (u ≤ v)
      | none => true
  else x.firstUnit == some u

/-- Write the record of unit `u`; the first fault's record is copied to the summary with KIND 5. -/
def writeStop (s : State) (c u : Nat) (r : StopInfo) (time : Nat) : State :=
  let x := s.ctx c
  let b := r.bytes time c
  let s := putStop s c (64 * u) b
  if isFirst x u r.fault then
    s.modCtx c fun x => { x with firstUnit := some u, summary := some ((b.take 8) ++ [5] ++ b.drop 9) }
  else s

/-- The die whose task queue the tasks of a task group came from: it stays that one wherever the group runs (R113, R123). -/
def taskDie (s : State) (t : Team) : Nat :=
  match (t.groups.head?.bind s.group?).orElse fun _ => t.saved.head?.map (·.group) with
  | some gr => (((List.range 32).findSome? fun l => (lane gr.threads l).taskSlot).map (· / 2 ^ 32)).getD (dieOfCore t.core)
  | none => dieOfCore t.core

/-- The queue whose command a team's group, or a unit for it, serves (R94, R382): the die task queue of a task group, the host queue of a launch; 0 for a launch from
KLAUNCH, whose command stood in no queue: DESIGN CHOICE (log entry 71). -/
def groupQueue (s : State) (t : Option Team) : Word :=
  match t with
  | none => 0
  | some t =>
    if t.task then queueIdent 1 0 (taskDie s t)
    else match s.launch? t.launch with
      | some l => if l.root.klaunch then 0 else BitVec.ofNat 32 l.root.qnum
      | none => 0

/-- The command sequence number that the record of an engine or a copy of a team names: its root command's (Table 4-8, R382). -/
def teamSeq (s : State) (t : Option Team) : Nat := (t.map fun t => (rootOf s t).seq.toNat).getD 0

/-- The live threads of a group that are in their handler. -/
def handlerMask (gr : Group) : Mask := maskOf fun l => (lane gr.threads l).live && (lane gr.threads l).inHandler

/-- The coordinate and the stage of the team that a unit works for. -/
def StopInfo.ofTeam (r : StopInfo) (t : Option Team) : StopInfo :=
  match t with
  | some t => { r with x := t.x, y := t.y, z := t.z, stage := t.stage }
  | none => r

/-! ## The halt line (R92) -/

/-- A record with nothing but KIND, REASON, place and context. -/
def plainStop (kind die unit : Nat) (cause : BitVec 8) : StopInfo :=
  { kind := kind, fault := ⟨cause, 0, 0, 0⟩, die := die, unit := unit, hlanes := 0, pc := 0, queue := 0, x := 0, y := 0, z := 0
    stage := 0, group := 0xFF, abandoned := 0, skid := 0 }

/-- The unit slots of a context's stop area hold KIND 0, and those of groups already saved REASON 0x01 (R94, R101). -/
def clearStopArea (s : State) (c : Nat) : State :=
  let x := s.ctx c
  let s := s.modCtx c fun x => { x with streamStops := [] }
  let s := if s.fatal.isSome && !stopIntact s c then s else { s with mem := mclear s.mem x.stopArea (64 * 12544) }
  s.teams.foldl (fun s p =>
    if p.2.ctx = c then
      p.2.saved.foldl (fun s g =>
        let r := { plainStop 1 (dieOfGroup g.slot) (coreOf g.slot % 48) 1 with
          hlanes := handlerMask g.group, pc := (lane g.group.threads (lowest (presentMask g.group))).at_.pc.toNat
          queue := groupQueue s (some p.2), group := g.group.gid }
        putStop s c (64 * g.slot) ((r.ofTeam (some p.2)).bytes s.time c)) s
    else s) s

/-- The waiting bind records of a context are withdrawn: it has left Running (Table 6-6). -/
def withdrawAll (s : State) (c : Nat) : State :=
  s.cores.foldl (fun s p => (waitingRecs s p.1).foldl (fun s r =>
    if r.2.ctx = c then withdrawRec s p.1 r.1 else s) s) s

/-- HALT_LINE_ASSERT (R92): the halt line of partition `p`, whose context has a fault, asserts. -/
def execHaltLineAssert (p : Nat) (s : State) : Out :=
  match s.partCtx[p % 8]'(Nat.mod_lt _ (by decide)) with
  | none => .next s
  | some c =>
    if (s.ctx c).state = .halting ∧ !s.haltLine.getLsbD (p % 8) then
      .next (withdrawAll (clearStopArea { s with haltLine := s.haltLine ||| (1 <<< (p % 8) : BitVec 8) } c) c)
    else .next s

/-! ## The stop of a unit (R93, Table 4-7) -/

/-- A lane's copy operation is abandoned: the lane keeps its old value, and ABANDONED counts the operation once (R93). -/
def abandonLane (s : State) (o : CopyOrigin) : State :=
  match o with
  | .lane g op l => s.modGroup g fun gr => match gr.ops.find? (·.id == op) with
      | none => gr
      | some o =>
        let drop (rows : Lanes RowRef) : Lanes RowRef := perLane fun i => if i = l then .nowhere else lane rows i
        { modOp gr op (fun o => { o with copies := o.copies - 1, lost := true, dest := o.dest.map drop }) with
          abandoned := if o.lost then gr.abandoned else gr.abandoned + 1 }
  | _ => s

/-- A group stops at an instruction boundary of every thread; an SST that has begun writing completes first (R352). A fault has
stopped a group already, but for ordered accesses of its instruction in progress. -/
def stopGroup (s : State) (g : Nat) (gr : Group) : State :=
  let begun := (currentOp gr).any fun o => o.isSst && !o.got.isEmpty && !o.left.isEmpty
  let done := match gr.phase with
    | .stopped => gr.issue.isNone
    | .saved _ => true
    | _ => false
  if done || begun then s
  else
    let time := if gr.phase = .stopped then gr.haltTime else s.time
    let s := (cutGroup s g).modGroup g fun gr => { stopHere gr with phase := .stopped, haltTime := time }
    dropTickets { s with hostPending := s.hostPending.filter (· != g) } (groupParty s g)

/-- The copies of a copy engine that work for a context. -/
def engineCopies (s : State) (n c : Nat) : List (Nat × Copy) := s.copies.filter fun p => p.2.engine == n && p.2.ctx == c

/-- A copy engine stops each copy at a transfer-unit boundary, its status abandoned, and writes its record (R93). -/
def stopCopies (s : State) (n c : Nat) : State :=
  let cs := engineCopies s n c
  if cs.isEmpty || cs.all (·.2.recorded) || cs.any (fun p => !p.2.stopped && !p.2.buf.isEmpty) then s
  else
    let first := (cs.find? fun p => p.2.fault.isSome).getD (cs.headD (0, newCopy c 0 0 (.mem 0) 0 0 (.abandoned 0) 0))
    let f := first.2.fault.getD (haltFault (s.ctx c))
    let team := match first.2.origin with
      | .host .. => none
      | _ => s.team? first.2.team
    let (q, seq) : Word × Nat := match first.2.origin with
      | .host q n => (BitVec.ofNat 32 q, n)
      | _ => (groupQueue s team, teamSeq s team)
    let lanes := cs.filter fun p => match p.2.origin with
      | .lane .. => true
      | _ => false
    let s := lanes.foldl (fun s p => abandonLane s p.2.origin) s
    let s := cs.foldl (fun s p => (dropTickets s (copyParty s p.2)).modCopy p.1 fun x =>
      { x with
        stopped := true, recorded := true, buf := []
        origin := match x.origin with
          | .lane g _ _ => .abandoned (((s.group? g).map (·.gid)).getD 0)
          | o => o }) s
    let r := { plainStop 2 (n / 8) (n % 8) 0 with
      fault := f, pc := seq, queue := q, abandoned := lanes.length, skid := skidOf s 512 }
    let s := writeStop s c (12288 + n) (r.ofTeam team) s.time
    traceCopy s { first.2 with ctx := c, engine := n } 8 f.cause.toNat (f.value.toNat % 2 ^ 32)

/-- The status of an MDRAIN is abandoned: its operation goes and its flag falls (R93, R329, R331). -/
def abandonDrain (s : State) (k : EngCmd) : State :=
  match k.status with
  | some (g, op) => s.modGroup g fun gr => match gr.ops.find? (·.id == op) with
      | some o => loseOp gr o
      | none => gr
  | none => s

/-- The entries that an abandoned drain had reserved and not pushed are free again. -/
def freeReserved (s : State) (e : Nat) : State :=
  match headCmd s e with
  | some (k, t) =>
    let x := s.engine e
    match cmdQueue s t k.qidx with
    | some (q, _) =>
      if x.state = .running ∧ k.entries ≠ 0 then
        s.modQueue q fun q => { q with reserved := q.reserved - (x.reserved - x.drainPos) }
      else s
    | none => s
  | none => s

/-- The statuses of an engine's queue are abandoned. -/
def abandonDrains (s : State) (e : Nat) : State :=
  ((s.engine e).queue.foldl abandonDrain s).modEngine e fun x => { x with queue := x.queue.map fun k => { k with status := none } }

/-- A matrix engine stops at a command boundary: an MMA or MZERO that runs completes first, an MDRAIN is abandoned; every
MDRAIN status of its queue is abandoned, and the record is written (R93, R329). The status of an MDRAIN that a group appends in its
skid, after the record, is abandoned too. -/
def stopEngine (s : State) (e c : Nat) : State :=
  let x := s.engine e
  let drains := match x.queue with
    | k :: _ => k.kind == 2
    | [] => false
  if x.recorded then abandonDrains s e
  else if x.state == .running && !drains then s
  else match x.bound with
    | none => s
    | some (l, i) =>
      let lost := (x.queue.filter (·.status.isSome)).length
      let s := freeReserved s e
      let s := abandonDrains s e
      let s := match headCmd s e with
        | some (_, t) => dropTickets s (engineParty s e t)
        | none => s
      let s := s.modEngine e fun x =>
        { x with state := .stopped, drainPos := 0, reserved := 0, recorded := true }
      let f := x.fault.getD (haltFault (s.ctx c))
      let (dx, dy, dz, st) := match s.launch? l with
        | some l => (i % l.dx, i / l.dx % l.dy, i / (l.dx * l.dy), match s.image? l.ctx l.image with
          | some im => ((List.range 8).find? fun b => im.engmask.getLsbD b).getD 0
          | none => 0)
        | none => (0, 0, 0, 0)
      let seq := match x.queue with
        | k :: _ => (k.seq.getD x.seq).toNat
        | [] => x.seq.toNat
      let r := { plainStop 3 (4 + e / 16) e 0 with
        fault := f, pc := seq, queue := queueIdent 2 0 e, x := dx, y := dy, z := dz, stage := st, abandoned := lost
        skid := skidOf s 16384 }
      let s := writeStop s c (12320 + e) r s.time
      let root := ((s.launch? l).map (·.root)).getD .zero
      trace s c 8 f.cause.toNat (4 + e / 16) st e e 0xFF root dx dy dz (f.value.toNat % 2 ^ 32)

/-- Some group of the context on core `k` holds a stream slot. -/
def streamWork (s : State) (k c : Nat) : Bool := s.groups.any fun p => coreOf p.1 == k && p.2.ctx == c && p.2.streamSlot

/-- A stream engine stops at an instruction boundary: an SLD completes first. Its record names the tile task of the lowest
group that holds a slot of it: DESIGN CHOICE, the manual does not say which one where several do (log entry 70). -/
def stopStream (s : State) (k c : Nat) : State :=
  if (s.core k).streamBusy || !streamWork s k c || streamRecorded s k c then s
  else
    let first := s.groups.find? fun p => coreOf p.1 == k && p.2.ctx == c && p.2.streamSlot
    let team := (first.map (·.2.team)).getD 0
    let f := haltFault (s.ctx c)
    let r := { plainStop 4 (dieOfCore k) (k % 48) 0 with
      fault := f, skid := skidOf s 16, queue := groupQueue s (s.team? team), pc := teamSeq s (s.team? team) }
    let s := writeStop s c (12352 + k) (r.ofTeam (s.team? team)) s.time
    let s := s.modCtx c fun x => { x with streamStops := k :: x.streamStops }
    traceUnit s c team 8 f.cause.toNat (dieOfCore k) (k % 48) (f.value.toNat % 2 ^ 32)

/-- The contexts whose halt line is asserted. -/
def haltedLines (s : State) : List Nat := tkeys s.contexts fun c x => x.state == .halting && lineAsserted s c

/-- UNIT_STOP (R92, Table 4-7): unit `u`, numbered as R94 numbers the slots, stops for the context whose halt line is
asserted. -/
def execUnitStop (u : Nat) (s : State) : Out :=
  if u < 12288 then
    match s.group? u with
    | none => .next s
    | some gr => .next (if (s.ctx gr.ctx).state = .halting ∧ lineAsserted s gr.ctx then stopGroup s u gr else s)
  else
    .next ((haltedLines s).foldl (fun s c =>
      if u < 12320 then stopCopies s (u - 12288) c
      else if u < 12352 then
        match (s.engine (u - 12320)).bound with
        | some (l, _) => if ((s.launch? l).map (·.ctx)) = some c then stopEngine s (u - 12320) c else s
        | none => s
      else if u < 12544 then stopStream s (u - 12352) c
      else s) s)

/-! ## The record of a group (R93, R95) -/

/-- Held copies of the group lose their operation: their status is abandoned (R93, R130), and in the place of the slot they
keep 12,288 plus the number of their group. -/
def abandonHeld (s : State) (g : Nat) (gr : Group) : State :=
  match s.team? gr.team with
  | none => s
  | some t =>
    let mine := t.held.filterMap fun p => match p.2 with
      | .cpy h l o .. => if h = g then some (CopyOrigin.lane g o l) else none
      | .cpyr h l o .. => if h = g then some (CopyOrigin.lane g o l) else none
      | .mma .. => none
    unplaceHeld (mine.foldl abandonLane s) g gr

/-- The trace record of a group's stop has the time of the stop (R389). -/
def traceStop (s : State) (g time : Nat) (f : FaultInfo) : State :=
  { traceGroup { s with time := time } g 8 f.cause.toNat (f.value.toNat % 2 ^ 32) with time := s.time }

/-- The operations that can still complete for a stopped group have completed. -/
def opsSettled (gr : Group) : Bool := gr.ops.all fun o => o.finished && o.lost

/-- GROUP_STOP_RECORD (R93, R95): the operations of a stopped group have completed or been abandoned; it writes its stop
record and its image. A stop at a comparator leaves the exemption of R386 in the image. -/
def execGroupStopRecord (g : Nat) (s : State) : Out :=
  match s.group? g with
  | none => .next s
  | some gr0 =>
    if gr0.phase ≠ .stopped ∨ !lineAsserted s gr0.ctx then .next s
    else
      let s := abandonHeld s g gr0
      match s.group? g with
      | none => .next s
      | some gr =>
        let k := coreOf g
        if gr.issue.isSome || !opsSettled gr || (gr.streamSlot && !streamRecorded s k gr.ctx) then .next s
        else match imageReady s g gr none with
        | .wait s => .next s
        | a =>
          let s := match a with
            | .fault f s => groupFault s g f
            | .ok s => s
            | .wait s => s
          let gr := (s.group? g).getD gr
          let gr := { gr.ops.foldl abandonOp gr with redo := gr.redo }
          let f := gr.fault.getD (haltFault (s.ctx gr.ctx))
          let l := if f.flanes = 0 then lowest (presentMask gr) else lowest f.flanes
          let t := s.team? gr.team
          let r := { plainStop 1 (dieOfGroup g) (k % 48) 0 with
            fault := f, hlanes := handlerMask gr
            pc := (lane gr.threads l).at_.pc.toNat, queue := groupQueue s t, group := gr.gid, abandoned := gr.abandoned
            skid := skidOf s 96 }
          let s := writeStop s gr.ctx g (r.ofTeam t) gr.haltTime
          let s := traceStop (s.setGroup g gr) g gr.haltTime f
          let gr := if f.cause = 0x28 ∧ f.value.toNat < 0xFF then { gr with skipCmp := gr.skipCmp ++ [(f.value.toNat, f.flanes)] } else gr
          let s := intoImage (s.setGroup g gr) g gr none
          .next (s.modTeam gr.team fun t => { t with state := .stopped })

/-! ## Halted (Table 4-2, R154, R426) -/

/-- Every unit of the context has stopped and every record is written. -/
def allStopped (s : State) (c : Nat) : Bool :=
  !s.groups.any (fun p => p.2.ctx == c) && s.copies.all (fun p => p.2.ctx != c || p.2.recorded)
    && s.engines.all fun p => match p.2.bound with
      | some (l, _) => ((s.launch? l).map (·.ctx)) != some c || p.2.recorded
      | none => true

/-- The context holds no partition any more. -/
def leavePartition (s : State) (c : Nat) : State :=
  match (s.ctx c).partition with
  | none => s
  | some p =>
    let s := endCycles (s.modCtx c fun x => { x with partition := none })
    { s with partCtx := Vector.ofFn fun i => if i.val = p then none else s.partCtx[i]
             haltLine := s.haltLine &&& ~~~(1 <<< p : BitVec 8) }

/-- The summary slot, and the context's state. At a DEBUG-HALT that found no unit at work the slot holds 64 zero bytes: DESIGN
CHOICE, the manual gives no record of a fault that no unit has (R388, log entry 92). -/
def haltDone (s : State) (c : Nat) : State :=
  let x := s.ctx c
  let s := putStop s c (64 * 12544) (x.summary.getD (List.replicate 64 0))
  haltNotices ((leavePartition s c).modCtx c fun x => { x with state := .halted }) c

/-- CONTEXT_HALTED (Table 4-2, R154): every unit stopped and every record written; a halt notice is written for every
command that was running. A context that held no partition passes on at once (R426). After a Fatal error the last halt is
followed by the dump (R406). -/
def execContextHalted (c : Nat) (s : State) : Out :=
  if (s.ctx c).state ≠ .halting then .next s
  else match (s.ctx c).partition with
    | none => .next (settleFatal (haltDone (clearStopArea s c) c))
    | some _ => if lineAsserted s c && allStopped s c then .next (settleFatal (haltDone s c)) else .next s

end Sys2Proof.Machine
end

