-- ==== Sys2Proof/Machine/Preempt.lean ====
section
/-! DEFINITION. Pre-emption: the request and the discard of an engine's state, saves of groups and of teams, grants of
partitions, and the restore of teams ("Contexts", R83, R86, R87, R97 to R101; "Matrix Dies, Rings and Engines", R331 to
R333; R44, R352). -/
namespace Sys2Proof.Machine

/-! ## Coordinates (R143, R331) -/

/-- A team stands at coordinate `i` of a launch. -/
def atCoord (s : State) (l i : Nat) (t : Team) : Bool :=
  !t.task && t.launch == l && match s.launch? l with
    | some k => linearIndex k t.x t.y t.z == i
    | none => false

/-- Every engine team of the coordinate has registered a label. -/
def allLabelled (s : State) (l i : Nat) : Bool :=
  s.teams.all fun p => !atCoord s l i p.2 || !p.2.engineTeam || p.2.label.isSome

/-- The engine has work that no save discards: a command, or bytes in a ring (R98, R331). -/
def engineOpen (x : Engine) : Bool := !x.queue.isEmpty || x.state == .running || x.rings.toList.any fun r => match r with
  | some r => !r.segs.isEmpty
  | none => false

/-! ## The discard (R331) -/

/-- A status of a discarded MDRAIN: its vd keeps its old value, its flag falls, and its group issues nothing more until
its forced save (R418, R419). -/
def dropStatus (s : State) (k : EngCmd) : State :=
  match k.status with
  | some (g, op) => s.modGroup g fun gr => match gr.ops.find? (·.id == op) with
      | some o => { abandonOp gr o with phase := if liveMask gr ≠ 0 ∧ gr.phase = .running then .drained else gr.phase }
      | none => gr
  | none => s

/-- A team of the coordinate keeps none of its held matrix commands, and an engine team is to restart at its label. -/
def discardTeam (t : Team) : Team :=
  { t with
    held := t.held.filter fun p => match p.2 with
      | .mma .. => false
      | _ => true
    discarded := if t.engineTeam then t.label else t.discarded }

/-- The engine's state is discarded and it becomes Unbound; the ends of its result queues stay for the restore. -/
def discardEngine (s : State) (e l i : Nat) : State :=
  let s := freeReserved s e
  let s := match headCmd s e with
    | some (_, t) => dropTickets s (engineParty s e t)
    | none => s
  let s := (s.engine e).queue.foldl dropStatus s
  let s := { s with teams := tmap s.teams fun _ t => if atCoord s l i t then discardTeam t else t }
  s.modEngine e fun _ => .reset

/-- The engines bound to coordinates of a context. -/
def contextEngines (s : State) (c : Nat) : List (Nat × Nat × Nat) :=
  s.engines.filterMap fun p => match p.2.bound with
    | some (l, i) => if ((s.launch? l).map (·.ctx)) = some c then some (p.1, l, i) else none
    | none => none

/-! ## The request (R97) -/

/-- The instruction in progress has issued ordered accesses that complete before the group is saved (R44, R97): loads, stores and
atomics, and an SST that has begun writing. A TSPAWN or KLAUNCH may stall for room and is cut between two threads. -/
def completesFirst (gr : Group) : Bool := match currentOp gr with
  | none => false
  | some o => if o.isSst then !o.got.isEmpty && !o.left.isEmpty else match o.left with
    | [] => false
    | a :: _ => match a.op with
      | .spawn .. | .klaunch .. => false
      | _ => true

/-- A group stops to be saved in forced form, at an instruction boundary of every thread; one whose accesses complete first issues
nothing more. -/
def stopForSave (s : State) (g : Nat) (gr : Group) : State :=
  if completesFirst gr then s.setGroup g { gr with phase := .drained }
  else
    let s := (cutGroup s g).modGroup g fun gr => { stopHere gr with phase := .saving none }
    dropTickets { s with hostPending := s.hostPending.filter (· != g) } (groupParty s g)

/-- The grace period of a group has ended (R97). -/
def graceOver (s : State) (gr : Group) : Bool :=
  match gr.preempt with
  | some t => decide (t + 1000 * (s.ctx gr.ctx).grace ≤ s.realTime) && (gr.phase == .running || gr.phase == .drained)
      && liveMask gr != 0
  | none => false

/-- The context has no team left on its partition, and no engine command. A host COPY of it stands still until it has a
partition again. -/
def allSaved (s : State) (c : Nat) : Bool :=
  !s.groups.any (fun p => p.2.ctx == c) && !s.teams.any (fun p => p.2.ctx == c && p.2.state == .resident)
    && (contextEngines s c).all fun p => !engineOpen (s.engine p.1)

/-- Saving becomes Saved when every team is saved (Table 4-2). Engines that are still bound are released; restore binds
engines anew. -/
def trySaved (s : State) (c : Nat) : State :=
  if (s.ctx c).state = .saving ∧ allSaved s c then
    let s := (contextEngines s c).foldl (fun s p => s.modEngine p.1 fun _ => .reset) s
    (leavePartition s c).modCtx c fun x => { x with state := .saved }
  else s

/-- PREEMPT_REQUEST (R97, Table 4-2): the request reaches every core and engine of the context's partition. In Saving it
is over when every team is saved. -/
def execPreemptRequest (c : Nat) (s : State) : Out :=
  match (s.ctx c).state with
  | .saving => .next (trySaved s c)
  | .running =>
    let s := withdrawAll (s.modCtx c fun x => { x with state := .saving }) c
    let s := { s with groups := tmap s.groups fun _ g => if g.ctx == c then { g with preempt := some s.realTime } else g }
    let s := (contextEngines s c).foldl (fun s p =>
      if allLabelled s p.2.1 p.2.2 then discardEngine s p.1 p.2.1 p.2.2 else s) s
    let s := if (s.ctx c).grace = 0 then
        s.groups.foldl (fun s p => if p.2.ctx == c && graceOver s p.2 then stopForSave s p.1 p.2 else s) s
      else s
    .next (trySaved s c)
  | _ => .next s

/-- GRACE_PERIOD_EXPIRY (R97): GRACE µs after the request reached its core, a group still unsaved is stopped. -/
def execGracePeriodExpiry (g : Nat) (s : State) : Out :=
  match s.group? g with
  | none => .next s
  | some gr => .next (if (s.ctx gr.ctx).state = .saving ∧ graceOver s gr then stopForSave s g gr else s)

/-! ## Saves (R97, R98, R102) -/

/-- Every live thread is blocked or held, and at least one is blocked (R97). -/
def groupBlocked (gr : Group) : Bool :=
  let live := lanesOf (liveMask gr)
  let waits (l : Nat) : Bool := (lane gr.threads l).wait != .none
  gr.issue.isNone && live.any waits && live.all fun l => waits l || (lane gr.threads l).held

/-- The image of a group is written (Table 17-5, KIND 6), once all that it holds can be read; the group faults when something
cannot. -/
def saveGroup (s : State) (g : Nat) (gr : Group) (entry : Option Nat) : State :=
  match imageReady s g gr entry with
  | .wait s => s
  | .fault f s => groupFault s g f
  | .ok s =>
    let n := (imageBytes s g gr entry (teamIndexOf s gr)).length % 2 ^ 20
    let s := match entry with
      | some k => traceGroup s g 6 0 (k % 2 ^ 12 * 2 ^ 20 + n)
      | none => traceGroup s g 6 1 n
    intoImage s g gr entry

/-- A group whose threads have all exited is not saved (R98): one that waits for held copies alone leaves its slot, and nobody reads the
status that they would write. -/
def dropExited (s : State) (g : Nat) (gr : Group) : State :=
  (clearSlot (unplaceHeld (leaveParties s g) g gr) g gr).modTeam gr.team fun t => { t with groups := t.groups.filter (· != g) }

/-- GROUP_SAVE (R97, R102): a group at a PHINT, one stopped at the end of its grace period, or a blocked one is saved once
its long-latency operations have completed, but for those whose copies are held (R130). -/
def execGroupSave (g : Nat) (s : State) : Out :=
  match s.group? g with
  | none => .next s
  | some gr =>
    if (s.ctx gr.ctx).state ≠ .saving ∨ gr.preempt.isNone then .next s
    else match gr.phase with
      | .saving e => .next (if opsDone s g gr && !strayCopy s gr then saveGroup s g gr e else s)
      | .running =>
        if liveMask gr = 0 then .next (if !gr.ops.isEmpty && opsDone s g gr && !strayCopy s gr then dropExited s g gr else s)
        else if groupBlocked gr then
          let gr := { gr with phase := .saving none }
          let s := s.setGroup g gr
          .next (if opsDone s g gr && !strayCopy s gr then saveGroup s g gr none else s)
        else .next s
      | _ => .next s

/-- The scratchpad that a team image keeps: the union of the ranges of its groups' entries when every saved group saved at
a PHINT, otherwise all of it (R98). -/
def savedScratch (t : Team) : Tab Byte :=
  if t.saved.all (·.entry.isSome) then
    let ranges := t.saved.flatMap (·.ranges)
    t.scratch.filter fun b => ranges.any fun r => decide (r.1 ≤ b.1) && decide (b.1 < r.2)
  else t.scratch

/-- A team whose coordinate keeps its engine, its state not having been discarded, waits until the engine has nothing left
(R98, R331). -/
def teamWaits (s : State) (t : Team) : Bool :=
  match teamEngine s t with
  | .ok e => engineOpen (s.engine e)
  | _ => false

/-- The engine of a coordinate whose teams have all been saved is released; restore binds one anew (R332). -/
def releaseCoord (s : State) (t : Team) : State :=
  match teamEngine s t, s.launch? t.launch with
  | .ok e, some l =>
    let i := linearIndex l t.x t.y t.z
    if s.teams.any (fun p => atCoord s t.launch i p.2 && p.2.state == .resident) || engineOpen (s.engine e) then s
    else s.modEngine e fun _ => .reset
  | _, _ => s

/-- TEAM_SAVE (R98): every group of the team that was not over is saved; the context may then be Saved. -/
def execTeamSave (id : Nat) (s : State) : Out :=
  match s.team? id with
  | none => .next s
  | some t =>
    if (s.ctx t.ctx).state ≠ .saving ∨ t.state ≠ .resident ∨ !t.groups.isEmpty ∨ t.saved.isEmpty ∨ teamWaits s t then .next s
    else
      let s := s.setTeam id { t with state := .saved, scratch := savedScratch t }
      .next (trySaved (releaseCoord s t) t.ctx)

/-! ## Grants and slices (R83, R86, R87) -/

/-- A team that is in the image. -/
def inImage (t : Team) : Bool := t.groups.isEmpty && !t.saved.isEmpty && t.state != .retired

/-- Restoring is over when no team is left in the image. -/
def tryRunning (s : State) (c : Nat) : State :=
  if (s.ctx c).state = .restoring ∧ (s.ctx c).partition.isSome ∧ !s.teams.any fun p => p.2.ctx == c && inImage p.2 then
    s.modCtx c fun x => { x with state := .running }
  else s

/-- A team of the context waits to be bound: one of a launch, or a task. -/
def runnableTeam (s : State) (c : Nat) : Bool :=
  s.launches.any (fun p => p.2.ctx == c && launchWaits s p.2)
  || s.cores.any (fun p => (waitingRecs s p.1).any fun r => r.2.ctx == c)
  || (List.range 4).any fun d => let q := s.taskQueue c d; !q.queued.isEmpty || !q.formed.isEmpty

/-- Copies of a context whose engines lie outside its new partition move to engines of it, as far as tags are free there. -/
def moveCopies (s : State) (c : Nat) : State :=
  s.copies.foldl (fun s p => if p.2.ctx = c then moveCopy s p.1 p.2 else s) s

/-- PARTITION_GRANT (Table 4-2, R85 to R87, R131): the scheduler grants partition `p`, free and with slices, to a context
that may have it, unless one of a higher priority waits for it; its slice begins. No partition is granted after a Fatal error
(R406). -/
def execPartitionGrant (c p : Nat) (s : State) : Out :=
  let x := s.ctx c
  let d := s.parts[p % 8]'(Nat.mod_lt _ (by decide))
  let free := (s.partCtx[p % 8]'(Nat.mod_lt _ (by decide))).isNone && d.mask != 0 && mayTake x p && s.fatal.isNone
  let next := if x.state = .ready then CtxState.running else .restoring
  if 8 ≤ p ∨ !free ∨ higherWaits s c p (ctxPrio s c) then .next s
  else
    let s := { s with partCtx := Vector.ofFn fun i => if i.val = p then some c else s.partCtx[i] }
    let s := s.modCtx c fun x => { x with state := next, partition := some p, sliceEnd := s.realTime + 1000 * d.slice }
    .next (tryRunning (moveCopies s c) c)

/-- TIME_SLICE_END (Table 4-2, R87): a slice ends with no resident group, no engine command and no runnable team. -/
def execTimeSliceEnd (c : Nat) (s : State) : Out :=
  let x := s.ctx c
  if x.state = .running ∧ x.sliceEnd ≤ s.realTime ∧ !s.groups.any (fun p => p.2.ctx == c)
      ∧ (contextEngines s c).all (fun p => (s.engine p.1).queue.isEmpty) ∧ !runnableTeam s c then
    .next ((leavePartition s c).modCtx c fun x => { x with state := .ready })
  else .next s

/-! ## Restore (R99, R332) -/

/-- The lowest free engine for a coordinate's teams on core `k`: of the core's matrix die, in the partition, with the free ring
units. -/
def freeEngine (s : State) (c k l i : Nat) : Option Nat := (List.range 32).find? fun e => engineFits s c k e l i

/-- A coordinate's engine with all it holds moves to engine `f`: a halt has kept it, and the context has another partition. -/
def moveEngine (s : State) (e f l i : Nat) : State :=
  let x := s.engine e
  let s := (s.modEngine f fun _ => x).modEngine e fun _ => .reset
  { s with
    teams := tmap s.teams fun _ t => if atCoord s l i t && t.engine == some e then { t with engine := some f } else t
    copies := tmap s.copies fun _ y => match y.dst with
      | .ring e' r seg => if e' = e then { y with dst := .ring f r seg } else y
      | _ => y }

/-- The engine of a coordinate: the one it has, moved when it lies off the team's matrix die or outside the partition, or is withdrawn
or under test (R404), or else a free one bound afresh; the state with it bound. It stays where it is while a team of the coordinate is resident (R15). -/
def restoreEngine (s : State) (c k l i : Nat) : Option (Nat × State) :=
  match (contextEngines s c).find? fun p => p.2 == (l, i) with
  | some p =>
    if p.1 / 16 = matrixDie (dieOfCore k) ∧ s.engineUp p.1 ∧ (s.partMask c).getLsbD (sliceOfEngine p.1) then some (p.1, s)
    else if s.teams.any fun q => atCoord s l i q.2 && q.2.state == .resident then none
    else (freeEngine (s.modEngine p.1 fun _ => .reset) c k l i).map fun e => (e, moveEngine s p.1 e l i)
  | none => (freeEngine s c k l i).map fun e => (e, bindEngine s e l i)

/-- The first `n` free ordinary slots of a core. -/
def freeSlots (s : State) (k n : Nat) : List Nat :=
  ((List.range 60).filter fun i => recWaits s k i && (tget (s.core k).slots i).isNone).take n

/-- The restored group needs a stream slot: its image holds a stream register, or it executes an SLD again (R352, R96). -/
def usesStreams (sg : SavedGroup) : Bool := !sg.streamsNow.isEmpty || !sg.group.redo.isEmpty

/-- A live thread at its team's restart label: its registers and predicates, no meeting register, no handler state. -/
def atLabel (a : VA) (t : Thread) : Thread :=
  if t.live then { t with at_ := atHeader a, after := atHeader a, meeting := 0, held := false, wait := .none, inHandler := false
                          hwb := 0, tpcWritten := false }
  else t

/-- A group as it resumes from its image: at the restart label of its team, or where it was saved, its faulted SLDs under way
again. -/
def resumed (s : State) (sg : SavedGroup) (label : Option VA) : Group :=
  let gr := { sg.current s with phase := .running, streamSlot := usesStreams sg, redo := [] }
  settle (match label with
    | some a => { gr with threads := perLane fun l => atLabel a (lane gr.threads l), bank := [] }
    | none => sg.group.redo.foldl (fun g o => addOp g { o with id := g.nextOp }) gr)

/-- The groups of an image stand in their slots again, each with its record (R148; Table 17-5, KIND 7). -/
def placeGroups (s : State) (k : Nat) (t : Team) (restarts : Word) : List (SavedGroup × Nat) → State
  | [] => s
  | (sg, i) :: rest =>
    let g := 64 * k + i
    let gr := resumed s sg t.discarded
    let s := putRec (balanceRows (s.setGroup g gr) g []) k i (standingRec s t gr k t.tslot)
    let s := if t.discarded.isNone && !sg.group.redo.isEmpty then s.modCore k fun x => { x with streamBusy := true } else s
    placeGroups (traceGroup s g 7 (min restarts.toNat 0x3FF) sg.bytes.length) k t restarts rest

/-- The core takes the carve-out that a restored team needs when it holds no resident team (R149). -/
def carveFor (s : State) (k share : Nat) : State :=
  if (residentTeams s k).isEmpty then s.modCore k fun x => { x with carve := max x.carve (share / 32768) } else s

/-- TEAM_RESTORE (R99, R332, R352): a saved or stopped team resumes on core `k` of its context's partition, when everything
it needs is there; after the last one the context runs. -/
def restoreTeam (s : State) (id k : Nat) (t : Team) : Option State :=
  let c := t.ctx
  let budget := ((t.saved.map fun g => g.group.budget).headD 0)
  let n := t.saved.length
  let slots := freeSlots s k n
  let streams := (t.saved.filter usesStreams).length
  let held := (s.groups.filter fun p => coreOf p.1 == k && p.2.streamSlot).length
  let s := carveFor s k t.scratchLen
  if !(s.partMask c).getLsbD (sliceOfCore k) ∨ !s.coreUsable k ∨ slots.length < n ∨ 4 < streams + held
      ∨ !coreFits s k n budget (teamLocks s t) t.scratchLen then none
  else
    let bound : Option (Option Nat × State) := match t.engine, s.launch? t.launch with
      | some _, some l => (restoreEngine s c k t.launch (linearIndex l t.x t.y t.z)).map fun r => (some r.1, r.2)
      | _, _ => some (none, s)
    bound.map fun (e, s) =>
      let restarts := t.restarts + if t.discarded.isSome then 1 else 0
      let t' := { t with
        core := k, tslot := freeTslot s k 0, groups := slots.map (64 * k + ·), state := .resident, saved := [], engine := e
        restarts := restarts, discarded := none }
      let s := placeHeld (s.setTeam id t') id (t.saved.zip (slots.map (64 * k + ·)))
      tryRunning (placeGroups s k { t with tslot := t'.tslot, engine := e } restarts (t.saved.zip slots)) c

/-- TEAM_RESTORE (R99): nothing happens while something that the team needs is missing. -/
def execTeamRestore (id k : Nat) (s : State) : Out :=
  match s.team? id with
  | none => .next s
  | some t =>
    if (s.ctx t.ctx).state = .restoring ∧ (s.ctx t.ctx).partition.isSome ∧ inImage t ∧ k < 192 then
      .next ((restoreTeam s id k t).getD s)
    else .next s

end Sys2Proof.Machine
end

