-- ==== Sys2Proof/Machine/Binding.lean ====
section
/-! DEFINITION. The binding policy of the management firmware: which team is bound next and where, and which core takes a formed
task group (R15, R125, R131, R144, R148, R149). -/
namespace Sys2Proof.Machine

/-! ## Engines (R15, R144) -/

/-- The engines that waiting bind records name, with the launch and coordinate each is for. -/
def namedEngines (s : State) : List (Nat × Nat × Nat) :=
  s.cores.flatMap fun q => (waitingRecs s q.1).filterMap fun p => (s.launch? p.2.launch).map fun l =>
    (p.2.engine, p.2.launch, linearIndex l p.2.x p.2.y p.2.z)

/-- A team of the launch waits in a slot table for an engine that another coordinate has. -/
def engineWaits (s : State) (id : Nat) : Bool :=
  (namedEngines s).any fun p => decide (p.1 < 32) && p.2.1 == id && (s.engine p.1).bound.any (· != p.2)

/-- The ENGINE field for a team of coordinate `i` on core `k`: 0xFF for a kernel without one; the coordinate's engine, which may be one
that a waiting record names; a free one; or, while none is, the lowest that can come free, for which the team then waits in the slot
table (R15). One team of a launch waits so, and one that the firmware still holds back takes no slot: DESIGN CHOICE (log entry 97). -/
def engineFor (s : State) (c id : Nat) (im : Image) (k i : Nat) : Option Nat :=
  if im.engmask = 0 then some 255
  else
    let mine := ((contextEngines s c).filter fun p => p.2 == (id, i)).map (·.1)
      ++ ((namedEngines s).filter fun p => p.2 == (id, i)).map (·.1)
    let near := (List.range 32).filter fun e => e / 16 == matrixDie (dieOfCore k) && s.engineUp e && (s.partMask c).getLsbD (sliceOfEngine e)
      && !(namedEngines s).any (·.1 == e)
    match mine with
    | e :: _ => if e / 16 = matrixDie (dieOfCore k) then some e else none
    | [] => match near.find? fun e => (s.engine e).bound.isNone with
      | some e => some e
      | none => if engineWaits s id then none else near.head?

/-! ## Records (R148, R149) -/

/-- A bind record as its 16 bytes hold it (Table 6-5). -/
def BindRec.bits (r : BindRec) : BitVec 128 :=
  BitVec.ofNat 128 (r.op + 2 ^ 8 * r.ctx + 2 ^ 16 * r.group + 2 ^ 24 * r.stage + 2 ^ 32 * r.x + 2 ^ 48 * r.y + 2 ^ 64 * r.z
    + 2 ^ 80 * r.tslot + 2 ^ 88 * r.carve + 2 ^ 96 * r.engine + 2 ^ 104 * r.launch)

/-- What the teams that wait on core `k` will need: shape entries, locked bytes and scratchpad. -/
def waitingNeeds (s : State) (k : Nat) : Nat × Nat × Nat :=
  (waitingRecs s k).foldl (fun (n : Nat × Nat × Nat) p => match (s.launch? p.2.launch).bind fun l => (s.image? l.ctx l.image).map fun im => (l, im) with
    | some (l, im) =>
      let first := p.2.group == 0
      (n.1 + im.window + 16, n.2.1 + (if first then lockedBytes l.qtab p.2.stage else 0), n.2.2 + if first then 32768 * im.scratch else 0)
    | none => n) (0, 0, 0)

/-- Core `k` has slots and shape entries for a team of the image, beside those that wait there. -/
def slotsFor (s : State) (im : Image) (k : Nat) : Bool :=
  let w := waitingNeeds s k
  s.coreUsable k && (freeSlots s k im.team).length == im.team
    && decide (shapeEntries s k + w.1 + im.team * (im.window + 16) ≤ 14400)

/-- Core `k` has a carve-out, or can change it, that gives a team of stage `st` its share and locks (R149, R115). -/
def carveFits (s : State) (l : Launch) (im : Image) (st k : Nat) : Bool :=
  let w := waitingNeeds s k
  let share := 32768 * im.scratch
  let s' := carveFor s k share
  ((waitingRecs s k).isEmpty || (s'.core k).carve == (s.core k).carve && (waitingRecs s k).all fun p => p.2.carve == (s.core k).carve)
    && coreFits s' k im.team im.window (lockedBytes l.qtab st + w.2.1) (share + w.2.2)

/-- The next record of a team on core `k`: the first one where the core has room for the whole team, or one for the lowest of its
groups that has none. -/
def nextRec (s : State) (c id : Nat) (l : Launch) (im : Image) (st i k : Nat) : Option (Nat × BindRec) :=
  let x := i % l.dx
  let y := i / l.dx % l.dy
  let z := i / (l.dx * l.dy)
  let mine := (waitingRecs s k).filter fun p => p.2.launch == id && p.2.stage == st && p.2.x == x && p.2.y == y && p.2.z == z
  match mine with
  | (_, r) :: _ => ((freeSlots s k 1).head?).map fun slot => (slot, { r with group := ((List.range im.team).find? fun g => !mine.any fun p => p.2.group == g).getD 0 })
  | [] =>
    if !slotsFor s im k || !carveFits s l im st k then none
    else (engineFor s c id im k i).map fun e =>
      ((freeSlots s k 1).headD 0, { op := 1, ctx := c, group := 0, stage := st, x := x, y := y, z := z, tslot := freeTslot s k 0
                                    carve := ((carveFor s k (32768 * im.scratch)).core k).carve, engine := e, launch := id, order := 0 })

/-- The cores of a context's partition. -/
def coresOf (s : State) (c : Nat) : List Nat := (List.range 192).filter fun k => (s.partMask c).getLsbD (sliceOfCore k)

/-- A team that has some records already stays on their core. Elsewhere a launch of priority `n` leaves a die to the formed task
groups of a higher one (R131). -/
def coresFor (s : State) (c n : Nat) : List Nat :=
  match (coresOf s c).filter fun k => (waitingRecs s k).any fun p => p.2.ctx == c && (match s.launch? p.2.launch with
      | some l => !l.placed.contains (teamIndex l p.2.stage p.2.x p.2.y p.2.z)
      | none => false) with
  | [] => (coresOf s c).filter fun k => decide (formedPrio s c (dieOfCore k) ≤ n)
  | ks => ks

/-- The first team of a stage that is not placed, as a linear index. -/
def nextTeam (l : Launch) (st : Nat) : Option Nat :=
  let n := l.dx * l.dy * l.dz
  (List.range (min n (l.placed.length + 1))).find? fun i => !l.placed.contains (st * n + i)

/-- The records that would bind the next team of each stage of a launch. -/
def launchMoves (s : State) (c id : Nat) (l : Launch) : List Move :=
  match s.image? c l.image with
  | none => []
  | some im => (ordinaryStages im).flatMap fun st => match nextTeam l st with
    | none => []
    | some i => (coresFor s c l.prio).filterMap fun k => (nextRec s c id l im st i k).map fun r =>
        .event (.bindRecordWrite k r.1 r.2.bits)

/-! ## The order of binding (R131) -/

/-- The capacities for which teams can wait. -/
inductive Capacity where
  | slots | carve | engine
deriving DecidableEq, Repr

/-- The capacities that a launch's teams take. -/
def capacities (s : State) (c : Nat) (l : Launch) : List Capacity :=
  match s.image? c l.image with
  | none => []
  | some im =>
    .slots :: (if im.scratch ≠ 0 ∨ (ordinaryStages im).any (fun st => lockedBytes l.qtab st != 0) then [.carve] else [])
      ++ if im.engmask = 0 then [] else [.engine]

/-- What a launch waits for of which none is free: a slot, else a carve-out, else an engine. -/
def lacking (s : State) (c : Nat) (l : Launch) : Capacity :=
  match s.image? c l.image with
  | none => .slots
  | some im =>
    let cores := (coresFor s c l.prio).filter (slotsFor s im)
    if cores.isEmpty then .slots
    else if (ordinaryStages im).all fun st => (nextTeam l st).isNone || !cores.any (carveFits s l im st) then .carve
    else .engine

/-- The launches of a context that wait, of a higher priority first and then in the order of acceptance. -/
def insertRank (p : Nat × Launch) : List (Nat × Launch) → List (Nat × Launch)
  | [] => [p]
  | q :: rest =>
    if q.2.prio < p.2.prio || (q.2.prio == p.2.prio && decide (p.2.order < q.2.order)) then p :: q :: rest else q :: insertRank p rest
def ranked (s : State) (c : Nat) : List (Nat × Launch) :=
  (s.launches.filter fun p => p.2.ctx == c && launchWaits s p.2).foldr insertRank []

/-- The first launch whose next team can be bound, with its moves, none of whose capacities an earlier one lacks. The manual has an order
within a priority and a promise for a team that fits: DEDUCED, both orders hold among the teams that wait for the same capacity (log
entry 72). -/
def firstBindable (s : State) (c : Nat) : List Capacity → List (Nat × Launch) → Option (Nat × Launch × List Move)
  | _, [] => none
  | lack, (id, l) :: rest =>
    match if (capacities s c l).any lack.contains then [] else launchMoves s c id l with
    | [] => firstBindable s c (lacking s c l :: lack) rest
    | ms => some (id, l, ms)

/-- The launch of a context whose team is bound next; none of a priority below that of a context that waits for the same partition
(R131). -/
def nextLaunch (s : State) (c : Nat) : Option (Nat × Launch × List Move) :=
  let outdone (l : Launch) : Bool := ((s.ctx c).partition).any fun p => higherWaits s c p l.prio
  firstBindable s c [] ((ranked s c).filter fun p => !outdone p.2)

def bindMoves (s : State) (c : Nat) : List Move := ((nextLaunch s c).map (·.2.2)).getD []

/-- A launch of the context, or another context, waits with a priority higher than `n` for the slots that a task group would take
(R131). -/
def outranked (s : State) (c n : Nat) : Bool :=
  (ranked s c).any (fun p => decide (n < p.2.prio) && (!(launchMoves s c p.1 p.2).isEmpty || lacking s c p.2 == .slots))
    || ((s.ctx c).partition).any fun p => higherWaits s c p n

/-- TASK_GROUP_POP (R125): an idle core of the partition takes the next formed group of its die, or its request waits. The
manual does not say when a core is idle: DESIGN CHOICE, a core is idle for a group that it has room for (log entry 63),
as R131 binds a runnable team wherever its partition has a free slot that fits it. None is taken while a team of a higher
priority waits for the same capacity (R131). -/
def execTaskGroupPop (c k : Nat) (s : State) : Out :=
  let d := dieOfCore k
  let q := s.taskQueue c d
  if (s.ctx c).state ≠ .running ∨ !(s.partMask c).getLsbD (sliceOfCore k) ∨ !s.coreUsable k then .next s
  else match q.formed with
    | [] =>
      if q.queued.isEmpty ∨ q.requests.contains k then .next s
      else .next (s.modTaskQueue c d fun q => { q with requests := q.requests ++ [k] })
    | ts :: rest => match if outranked s c (formedPrio s c d) then none else startTasks s c k ts with
      | none => .next s
      | some s => .next (s.modTaskQueue c d fun q => { q with formed := rest, requests := q.requests.filter (· != k), since := none })

/-- The core that could start the first formed group of die `d` now. -/
def taskCore (s : State) (c d : Nat) : Option Nat :=
  match (s.taskQueue c d).formed with
  | [] => none
  | ts :: _ =>
    if outranked s c (formedPrio s c d) then none
    else (coresOf s c).find? fun k => dieOfCore k == d && s.coreUsable k && (startTasks s c k ts).isSome

end Sys2Proof.Machine
end

