-- ==== Sys2Proof/Machine/Clause.lean ====
section
/-! DEFINITION. Fetch, decode and issue of a clause for one convergence set, and the read-back of an evicted row
("Instruction Words, Clauses and the Opcode Map", R20 to R29; R47, R174 to R176, R182). -/
namespace Sys2Proof.Machine

/-! ## Fetch (R20, R23) -/

/-- The answer of the fetch of words. -/
inductive FetchAns where
  | ok (ws : List Word) (s : State)
  | wait (s : State)
  | fault (f : FaultInfo) (s : State)

/-- Fetch one word through the core's TLB; the page must grant execution, its module be a member of the domain, and its line
be neither lost nor poisoned (R261, R373, R378, R402). -/
def fetchWord (s : State) (g : Nat) (gr : Group) (set : Mask) (va : VA) : FetchAns :=
  match translate s (coreOf g) (dieOfGroup g) gr.ctx va.toNat (groupParty s g) with
  | .wait s => .wait s
  | .fault c v s => .fault ⟨c, set, v, 0⟩ (answerWalks s (groupParty s g))
  | .hit e s =>
    if !e.x || e.rmt.any (fun m => !s.domain.members.getLsbD m) then .fault ⟨0x23, set, va.setWidth 64, 0⟩ s
    else if !e.host && e.rmt.isNone && s.coherenceLost.contains (e.phys va.toNat / 128) then
      .fault ⟨0x29, set, BitVec.ofNat 64 (bankOfTlb (coreOf g)), 0⟩ s
    else match poisonAt s e va.toNat with
      | some v => .fault ⟨0x29, set, v, 0⟩ s
      | none => let r := readBytes s e va.toNat 4; .ok [BitVec.ofNat 32 (leNat r.1)] r.2

/-- Fetch words at rising addresses. -/
def fetchWords (s : State) (g : Nat) (gr : Group) (set : Mask) (va : VA) : Nat → FetchAns
  | 0 => .ok [] s
  | n + 1 => match fetchWord s g gr set va with
    | .ok w s => match fetchWords s g gr set (va + 4) n with
      | .ok ws s => .ok (w ++ ws) s
      | a => a
    | a => a

/-- The first word of a clause that does not decode under encoding `e`, in order, with its cause (R22, R47). -/
def clauseFault (e : Nat) (set : Mask) : VA → List Word → Option FaultInfo
  | _, [] => none
  | va, w :: ws =>
    match decode e w with
    | .error _ => some ⟨0x20, set, va.setWidth 64, w⟩
    | .ok i =>
      if clauseTerminal i && !ws.isEmpty then some ⟨0x21, set, va.setWidth 64, w⟩ else clauseFault e set (va + 4) ws

/-! ## Issue (R23, R24, R28) -/

/-- The threads of the set that the guard admits: evaluated at the clause's first issue, kept after it. -/
def guardMask (gr : Group) (hd : Header) (set : Mask) (pos : Nat) : Mask :=
  maskOf fun l => has set l &&
    let t := lane gr.threads l
    if pos = 0 then
      match hd.guard with
      | none => true
      | some (p, sense) => t.preds.getLsbD p == sense
    else t.at_.guard

/-- The clause issues for the set. -/
def startClause (gr : Group) (hd : Header) (h : Word) (ws : List Word) (a : CodePos) (set : Mask) : Group :=
  { gr with
    issue := some { hdr := a.hdr, header := h, words := ws, pos := a.pos - 1, set := set
                    guard := guardMask gr hd set a.pos, depCounted := false, checked := false, op := none, voted := none, taken := false }
    touched := [] }

/-- The fetch of a clause from another module's frame is a request over a link, where the core does not hold the line (R375,
R377). -/
def fetchLink (s : State) (g : Nat) (gr : Group) (set : Mask) (va : VA) (k : State → State) : State :=
  match translate s (coreOf g) (dieOfGroup g) gr.ctx va.toNat (groupParty s g) with
  | .hit e s =>
    if e.rmt.isNone then k s
    else match homeAccess s (coreOf g) (groupParty s g) e va.toNat false with
      | .wait s => s
      | .fault c v s => groupFault s g ⟨c, set, v.getD (if c = 0x29 then BitVec.ofNat 64 (bankOfTlb (coreOf g)) else va.setWidth 64), 0⟩
      | .ok s => k s
  | _ => k s

/-- The words of a clause that lie in the page after its header's are a request of their own. -/
def fetchNextPage (s : State) (g : Nat) (gr : Group) (set : Mask) (hdr : VA) (n : Nat) (k : State → State) : State :=
  let last := hdr + BitVec.ofNat 57 (4 * n)
  if last.toNat / 4096 = hdr.toNat / 4096 then k s else fetchLink s g gr set last k

/-- The clauses that each runnable set has seen issue for others while it waited (R177): one more, or none for the set that
issues and for threads that are not runnable. -/
def countWaits (s : State) (g : Nat) (gr : Group) (set : Mask) : Group :=
  onThreads gr (BitVec.allOnes 32) fun l t => { t with waited := if !has set l && runnableSet s g gr l then t.waited + 1 else 0 }

/-- CLAUSE_ISSUE (R23, R174): the core fetches and decodes the whole clause at which lane `lane` of group `g` stands,
then holds it until its wait mask is clear, then issues it for the convergence set. A set that resumes inside a clause
does not wait again (R24). -/
def execClauseIssue (g ln : Nat) (s : State) : Out :=
  match s.group? g with
  | none => .next s
  | some gr =>
    let set := convergenceSet gr ln
    let a := (lane gr.threads ln).at_
    if gr.issue.isSome ∨ gr.phase ≠ .running ∨ !issuing (s.ctx gr.ctx).state ∨ set = 0 then .next s
    else
      .next (fetchLink s g gr set a.hdr fun s => match fetchWord s g gr set a.hdr with
        | .wait s => s
        | .fault f s => groupFault s g f
        | .ok h s =>
          let h := h.headD 0
          match decodeHeader gr.enc h with
          | .error _ => groupFault s g ⟨0x21, set, a.hdr.setWidth 64, h⟩
          | .ok hd => fetchNextPage s g gr set a.hdr hd.len fun s => match fetchWords s g gr set (a.hdr + 4) hd.len with
            | .wait s => s
            | .fault f s => groupFault s g f
            | .ok ws s => match clauseFault gr.enc set (a.hdr + 4) ws with
              | some f => groupFault s g f
              | none =>
                if a.pos = 0 && !flagsClear gr hd.wait then s
                else s.setGroup g (startClause (countWaits s g gr set) hd h ws a set))

/-! ## Read-back of an evicted row (R182) -/

/-- G_ROW_READBACK (R182): entry `e` of group `g` returns from the register stack to a General slot. It is no event of
the total order. -/
def execGRowReadback (g e : Nat) (s : State) : Out := .next (bringRow s g e)

end Sys2Proof.Machine
end

