-- ==== Sys2Proof/Machine/Lifecycle.lean ====
section
/-! DEFINITION. The beginning and the end of a context: the checks of its images, the pins of their code pages, its
teardown, and what RESUME restores ("Contexts", R83, R96; "Kernels: Images, Loading, Launch and Retirement", R139 to
R141, R154; R105, R117, R386). -/
namespace Sys2Proof.Machine

/-! ## Images (Tables 6-1 and 6-2) -/

/-- One bit of the reflected CRC-32 of IEEE 802.3. -/
def crcBit (c : BitVec 32) : BitVec 32 := if c.getLsbD 0 then (c >>> 1) ^^^ 0xEDB88320 else c >>> 1

def crcByte (c : BitVec 32) (b : Byte) : BitVec 32 :=
  crcBit (crcBit (crcBit (crcBit (crcBit (crcBit (crcBit (crcBit (c ^^^ b.setWidth 32))))))))

/-- CRC-32 (IEEE 802.3, reflected). -/
def crc32 (l : List Byte) : BitVec 32 := ~~~(l.foldl crcByte 0xFFFFFFFF)

/-- Bytes of a context's memory, as the firmware reads an image; an unmapped page gives zeros. -/
def imageRead (s : State) (c a n : Nat) : List Byte := (List.range n).map fun i =>
  match walk s c (a + i) with
  | .ok e => (frameRead s e (a + i) 1).headD 0
  | .error _ => 0

/-- Every page that a range touches is mapped. -/
def rangeMapped (s : State) (c a n : Nat) : Bool :=
  n == 0 || (List.range ((a % 4096 + n + 4095) / 4096)).all fun i => match walk s c (a - a % 4096 + 4096 * i) with
    | .ok _ => true
    | .error _ => false

/-- Every page that a range touches is mapped, and no line of it is poisoned or lost: an image that the firmware cannot read is
refused like one that is not mapped (DESIGN CHOICE, R402 speaks of a context that takes the machine check, and none runs yet; log
entry 94). -/
def rangeReadable (s : State) (c a n : Nat) : Bool :=
  rangeMapped s c a n && (n == 0 || (List.range ((a % 4096 + n + 4095) / 4096)).all fun i =>
    let p := a - a % 4096 + 4096 * i
    match walk s c p with
    | .ok e => e.host || e.rmt.isSome ||
        let lo := e.phys (max p a)
        let hi := lo + (min (p + 4096) (a + n) - max p a)
        !(s.poison ++ s.coherenceLost).any fun l => decide (128 * l < hi) && decide (lo < 128 * l + 128)
    | .error _ => false)

/-- Two ranges share no byte. -/
def disjointRanges (a n b m : Nat) : Bool := n == 0 || m == 0 || decide (a + n ≤ b) || decide (b + m ≤ a)

/-- An offset of the header that may be absent. -/
def optOffset (v : Nat) : Option Nat := if v = 0xFFFFFFFF then none else some v

/-- The header of an image as data. -/
def parseImage (base : Nat) (h : List Byte) : Image :=
  { base := BitVec.ofNat 57 base, enc := field h 6 1, stages := field h 7 1, engmask := BitVec.ofNat 8 (field h 8 1)
    team := field h 9 1, window := field h 10 2, scratch := field h 12 1, argn := field h 13 1, livecnt := field h 14 2
    codeoff := field h 16 4, codesize := field h 20 4, dataoff := field h 24 4, datasize := field h 28 4
    liveoff := field h 32 4, trapvec := optOffset (field h 36 4)
    entries := (List.range 8).map fun i => optOffset (field h (40 + 4 * i) 4)
    mmafmt := BitVec.ofNat 32 (field h 72 4), stackn := field h 76 4, privb := field h 80 4 }

/-- The offsets and sizes keep Table 6-1, no sections overlap, every page is mapped, and the zero bytes are zero. A
liveness section that overlaps the 128-byte header counts as overlapping, which Table 6-1 does not say in its own words
(DESIGN CHOICE, log 83). -/
def layoutOk (s : State) (c base : Nat) (m : Image) (h : List Byte) : Bool :=
  let live := 64 * m.livecnt
  m.codeoff % 4096 == 0 && decide (4096 ≤ m.codeoff) && m.codesize != 0 && m.codesize % 4 == 0
    && (if m.datasize = 0 then m.dataoff == 0 else m.dataoff % 64 == 0 && decide (m.codeoff + m.codesize ≤ m.dataoff))
    && (if m.livecnt = 0 then m.liveoff == 0
        else m.liveoff % 64 == 0 && disjointRanges m.liveoff live 0 128 && disjointRanges m.liveoff live m.codeoff m.codesize
          && disjointRanges m.liveoff live m.dataoff m.datasize)
    && rangeReadable s c (base + m.codeoff) m.codesize && rangeMapped s c (base + m.dataoff) m.datasize
    && rangeReadable s c (base + m.liveoff) live && zeroBytes h 88 128

/-- A code offset is a header of the code section. -/
def codeOffset (m : Image) (o : Nat) : Bool := o % 4 == 0 && decide (o < m.codesize)

/-- STAGES, ENGMASK, the entries and TRAPVEC keep Table 6-1. -/
def stagesOk (m : Image) : Bool :=
  let ones := ((List.range 8).filter fun i => m.engmask.getLsbD i).length
  decide (1 ≤ m.stages) && decide (m.stages ≤ 8) && decide (ones ≤ 1)
    && (List.range 8).all (fun i => !m.engmask.getLsbD i || decide (i < m.stages))
    && (List.range 8).all (fun i => match (m.entries[i]?).getD none with
      | some o => decide (i < m.stages) && !m.engmask.getLsbD i && codeOffset m o
      | none => decide (m.stages ≤ i) || m.engmask.getLsbD i)
    && match m.trapvec with
      | some o => codeOffset m o
      | none => true

/-- A liveness entry keeps R105 (Table 4-11). -/
def liveOk (m : Image) (b : List Byte) : Bool :=
  byteAt b 15 == 0 && decide (byteAt b 17 ≤ 4) && zeroBytes b 18 20 && zeroBytes b 52 64
    && (liveRanges b).all fun r => decide (r.1 < r.2) && decide (r.2 ≤ 32768 * m.scratch)

/-- The refusal code of an image, 0 when it is accepted (R141, Table 6-2). -/
def imageRefusal (s : State) (c base : Nat) : Nat :=
  let h := imageRead s c base 128
  let m := parseImage base h
  let zeroed := h.take 84 ++ List.replicate 4 0 ++ h.drop 88
  let code := imageRead s c (base + m.codeoff) m.codesize
  let live := imageRead s c (base + m.liveoff) (64 * m.livecnt)
  if base % 4096 ≠ 0 then 1
  else if !rangeReadable s c base 128 then 2
  else if field h 0 4 ≠ 0x4D374B49 ∨ field h 4 2 ≠ 1 then 1
  else if !layoutOk s c base m h then 2
  else if (crc32 (zeroed ++ code ++ live)).toNat ≠ field h 84 4 then 3
  else if m.enc = 0 ∨ 3 < m.enc ∨ (m.enc = 3 ∧ m.mmafmt ≠ 0) then 4
  else if !stagesOk m then 5
  else if m.window < 120 ∨ 480 < m.window ∨ m.window % 8 ≠ 0 ∨ m.stackn < m.window ∨ 1048576 < m.stackn
      ∨ m.privb % 4 ≠ 0 ∨ m.privb < 4 * m.stackn ∨ 16777216 < m.privb then 6
  else if m.team = 0 ∨ 32 < m.team then 7
  else if 8 < m.scratch then 8
  else if 4096 < m.livecnt ∨ !(List.range m.livecnt).all (fun i => liveOk m ((live.drop (64 * i)).take 64)) then 9
  else if 32 < m.argn then 10
  else if m.enc < 3 ∧ m.engmask ≠ 0 ∧ (badFormat m.mmafmt).isSome then 11
  else 0

/-- The classification units of the code pages of an image, with their size codes: frames of this module. An image may lie in frames of
the host or of another module; its code there is not pinned, so that a store to it raises no fault: DESIGN CHOICE, R25 speaks of code
pages in device memory, and the home directory has no class for the others (log entry 102). -/
def codeUnits (s : State) (c : Nat) (m : Image) : List (Nat × Nat) :=
  ((List.range ((m.codesize + 4095) / 4096)).filterMap fun i =>
    let a := m.base.toNat + m.codeoff + 4096 * i
    match walk s c a with
    | .ok e => if e.host || e.rmt.isSome then none
        else some (unitHead (e.phys a / 4096) (unitCode e.size), unitCode e.size)
    | .error _ => none).eraseDups

/-! ## Teardown (R83, R84, R117, R154) -/

/-- A group is discarded: its producer ends are lost, its slot and its core's stream engine are free. -/
def discardGroup (s : State) (g : Nat) (gr : Group) : State :=
  let s := leaveParties (losePorts s g) g
  let s := if gr.ops.any fun o => o.isSst || o.stream.isSome then dropTickets s (streamParty s g) else s
  releaseStream (clearSlot { s with hostPending := s.hostPending.filter (· != g) } g gr) (coreOf g)

/-- The commands of a context that had been fetched end KILLED, and its host queues turn Orphaned. -/
def killCommands (s : State) (c : Nat) : State :=
  { s with hostQueues := tmap s.hostQueues fun q h =>
      if h.ctx == c && (decide (256 ≤ q) || h.state != .unbound) then
        { h with
          state := if q < 256 then .orphaned else h.state
          cmds := h.cmds.map fun k => if k.ended.isNone then { k with started := true, ended := some 5, count := cmdCount s q k } else k }
      else h }

/-- The context turns Killed: its groups, copies and engine commands are discarded, so that no unit runs for it; its teams,
launches, queues and tasks go with them. -/
def killContext (s : State) (c : Nat) : State :=
  let s := (commandParties s c).foldl dropTickets (withdrawAll s c)
  let s := s.groups.foldl (fun s p => if p.2.ctx = c then discardGroup s p.1 p.2 else s) s
  let s := s.copies.foldl (fun s p => if p.2.ctx = c then dropTickets s (copyParty s p.2) else s) s
  let s := (contextEngines s c).foldl (fun s p =>
    let s := match headCmd s p.1 with
      | some (_, t) => dropTickets s (engineParty s p.1 t)
      | none => s
    releaseEngine s p.1 true) s
  let gone (l : Nat) : Bool := match s.launch? l with
    | some l => l.ctx == c
    | none => false
  let s := { killCommands s c with
    copies := s.copies.filter fun p => p.2.ctx != c
    queues := s.queues.filter fun p => !gone p.2.launch
    teams := s.teams.filter fun p => p.2.ctx != c
    launches := s.launches.filter fun p => p.2.ctx != c
    taskQueues := s.taskQueues.filter fun p => p.1 / 4 != c
    walks := s.walks.filter fun w => w.ctx != c
    failed := s.failed.filter fun w => w.ctx != c
    tlbs := tmap s.tlbs fun _ l => l.filter fun e => e.ctx != c }
  (leavePartition s c).modCtx c fun x => { x with state := .killed, pools := [] }

/-- Some unit still works for a halting context; KILL waits for it (R84). -/
def killWaits (s : State) (c : Nat) : Bool := (s.ctx c).state == .halting && (s.ctx c).partition.isSome && !allStopped s c

/-- Code units of the context that no other context has pinned. -/
def ownPins (s : State) (c : Nat) : List Nat :=
  (s.ctx c).pinned.filter fun u => !s.contexts.any fun p => p.1 != c && p.2.pinned.contains u

/-- The context's number is unused again. Its event ring keeps its registers; records still held are lost with it, and
HQDONE counts their commands. -/
def freeContext (s : State) (c : Nat) : State :=
  let ring := (s.ctx c).ring
  let count (q : Nat) (h : HostQueue) : HostQueue :=
    if q < 256 && h.ctx == c && h.state == .orphaned then
      { h with done := h.done + BitVec.ofNat 32 (h.cmds.filter (!·.done)).length, cmds := [] }
    else h
  let s := { s with
    hostQueues := (tmap s.hostQueues count).filter fun p => !(decide (256 ≤ p.1) && (p.1 - 256) / 4 == c) }
  s.setCtx c { Context.free with ring := { ring with held := [], count := 0, timer := none } }

/-- CONTEXT_FREED (Table 4-2): the code pages of a Killed context are unpinned, and once they are, with every command ended
or its record held by a full ring, the context is Free. -/
def execContextFreed (c : Nat) (s : State) : Out :=
  if (s.ctx c).state ≠ .killed then .next s
  else
    let todo := (ownPins s c).filter fun u => (s.classOf u).cls == 6 || (tget s.transits u).isSome
    let cmds := s.hostQueues.flatMap fun p =>
      if p.2.ctx = c && (decide (256 ≤ p.1) || p.2.state == .orphaned) then p.2.cmds.map fun k => (p.1, k) else []
    if todo.isEmpty then
      if cmds.all fun k => k.2.done || recordHeld s k.1 k.2 then .next (freeContext s c) else .next s
    else
      let s := todo.foldl (fun s u => if (tget s.transits u).isNone then startTransit s u 0 0 .policy else s) s
      .next (s.modCtx c fun x => { x with pinned := todo })

/-! ## RESUME (R93, R96, R386) -/

/-- The comparators that a unit or a command is exempt from after a stop, the one of the stop with them (R386). -/
def moreExempt (l : List Nat) (f : Option FaultInfo) : List Nat :=
  match f with
  | some f => if f.cause = 0x28 then l ++ [f.value.toNat] else l
  | none => l

/-- A stopped copy runs on; one that stopped at a comparator is exempt from it once. -/
def resumeCopy (x : Copy) : Copy :=
  { x with
    stopped := false, recorded := false, fault := none, skipCmp := moreExempt x.skipCmp x.fault }

/-- A stopped engine takes its command again from the beginning, once without the comparator that stopped it. -/
def resumeEngine (x : Engine) : Engine :=
  let f := x.fault
  let x := if x.state = .stopped then { x with state := .idle } else x
  modHead { x with fault := none, recorded := false, maskChecked := false } fun k => { k with skipCmp := moreExempt k.skipCmp f }

/-- Halted becomes Restoring; the stop is forgotten, and the stop records stay in memory. -/
def resumeContext (s : State) (c : Nat) : State :=
  let s := { s with copies := tmap s.copies fun _ x => if x.ctx == c then resumeCopy x else x }
  let s := (contextEngines s c).foldl (fun s p => s.modEngine p.1 resumeEngine) s
  let s := { s with failed := s.failed.filter (·.ctx != c) }
  fetchCtx (s.modCtx c fun x => { x with state := .restoring, firstFault := none, firstUnit := none, summary := none, haltTime := 0 }) c

end Sys2Proof.Machine
end

