-- ==== Sys2Proof/Machine/Links.lean ====
section
/-! DEFINITION. Strait links, device time and PTM ("Links: Host, Peers and Time", R369, R372, R379). The messages of flits
are the events that they cause (PEER_ACCESS, HOME_ACCESS_ACCEPT); a link keeps sequence numbers and counts. -/
namespace Sys2Proof.Machine

/-- The link is declared failed; what was not delivered is lost. Which of the requests that await a response were, and how many
messages in all, are free values. -/
def failLink (s : State) (n : Nat) : State :=
  let (w, s) := s.freeWord
  let lose (i : Nat) (x : Message) : Message :=
    { x with lost := x.lost || (x.link == n % 18 && (Config.freeWord (s.freeIx + i)).getLsbD 0) }
  let s := { s with messages := s.messages.mapIdx lose, freeIx := s.freeIx + s.messages.length }
  s.modLink n fun l => { l with
    up := false, failed := true, training := false, sent := [], retry := [], replayAt := none, stuck := false, naks := []
    lostmsg := satAdd l.lostmsg w }

/-- A replay, of this side or of the other, has not completed within 10 µs. -/
def Link.late (l : Link) (time : Nat) : Bool :=
  let old (t : Option Nat) : Bool := t.any fun t => decide (t + 10000 ≤ time)
  old l.replayAt || l.naks.any fun k => old k.at_

/-- A good flit ends the replay of it that this side awaits, and the next in sequence is delivered. That one also shows that a
replay which this side was making has completed, unless the buffer could not serve it: DESIGN CHOICE, the manual gives no
acknowledgement (log entry 73). -/
def goodFlit (seq : Word) (l : Link) : Link :=
  if seq = l.rxSeq then
    { l with rxSeq := l.rxSeq + 1, naks := l.naks.filter (·.seq != seq), replayAt := if l.stuck then l.replayAt else none }
  else { l with naks := l.naks.map fun k => if k.seq = seq then { k with at_ := none } else k }

/-- The replays of a flit that this side has asked for. -/
def naksOf (l : Link) (seq : Word) : Nat := ((l.naks.find? (·.seq == seq)).map (·.count)).getD 0

/-- A flit fails the CRC, and this side asks for its replay at real time `now`. -/
def badFlit (seq : Word) (now : Nat) (l : Link) : Link :=
  { l with naks := ⟨seq, naksOf l seq + 1, some now⟩ :: l.naks.filter (·.seq != seq) }

/-- STRAIT_FLIT_RECEIVE (R369): FEC corrects a flit, the CRC is checked, and a good flit is delivered in sequence order,
exactly once; one that fails the CRC is not delivered and is answered with a replay request, at most 8 for one flit. A replay that
comes later than 10 µs finds the link failed. -/
def execStraitFlitReceive (n : Nat) (seq : Word) (fec crcOk : Bool) (s : State) : Out :=
  if (s.link n).late s.realTime ∧ (s.link n).up then .next (failLink s n)
  else if (s.link n).up then
    let s := s.modLink n fun l => { l with feccor := if fec then satAdd l.feccor 1 else l.feccor }
    if crcOk then .next (s.modLink n (goodFlit seq))
    else if 8 ≤ naksOf (s.link n) seq then .next (failLink s n)
    else .next (s.modLink n (badFlit seq s.realTime))
  else .next s

/-- Replays of a flit so far. -/
def replaysOf (l : Link) (seq : Word) : Nat := ((l.retry.find? (·.1 == seq)).map (·.2)).getD 0

/-- REPLAY_REQUEST (R369): the sender replays from the flit `seq` on, out of the retry buffer; one that needs more than 8
replays fails the link, and so does, after 10 µs, one that the buffer cannot serve. REPLAYS counts the replays that this side makes
and not those that it asks for: DESIGN CHOICE, Table 16-4 does not say whose (log entry 87). -/
def execReplayRequest (n : Nat) (seq : Word) (s : State) : Out :=
  let l := s.link n
  if !l.up then .next s
  else if l.late s.realTime then .next (failLink s n)
  else
    let k := replaysOf l seq + 1
    let gone := !l.sent.contains seq
    let s := s.modLink n fun l =>
      { l with
        replays := if gone then l.replays else satAdd l.replays 1, retry := (seq, k) :: l.retry.filter (·.1 != seq)
        replayAt := if l.stuck then l.replayAt else some s.realTime, stuck := l.stuck || gone }
    .next (if 8 < k then failLink s n else s)

/-- LINK_REPLAY_TIMEOUT (R369): a replay, of this side or of the other, has not completed within 10 µs. -/
def execLinkReplayTimeout (n : Nat) (s : State) : Out :=
  .next (if (s.link n).up && (s.link n).late s.realTime then failLink s n else s)

/-- Writing 1 to RETRAIN: FAILED clears, and a link that may train begins to. A link that is up goes down without being declared failed, so
that the messages in flight on it are not lost; and EN, written 0 while a link is up, leaves it up: DESIGN CHOICE, Table 16-4 says neither
(log entry 105). -/
def startRetrain (s : State) (n : Nat) : State :=
  s.modLink n fun l => { l with failed := false, up := false, training := l.en }

/-- RETRAIN (R372). Links come up in stage 2 (R395), and before that there is none to train. -/
def execRetrain (n : Nat) (s : State) : Out := if s.boot.stage < 2 then .next s else .next (startRetrain s n)

/-- LINK_TRAINED (R372): a link that may train has trained; PEERSW holds its port on the plane's switch. The links come up in
stage 2, and so never in minimal mode (R395, R397). -/
def execLinkTrained (n : Nat) (port : BitVec 6) (s : State) : Out :=
  let l := s.link n
  if l.en && !l.up && !l.failed && s.boot.stage == 2 then
    .next (s.modLink n fun l => { l with
      up := true, training := false, peersw := port, txSeq := 0, sent := [], retry := [], replayAt := none, stuck := false, rxSeq := 0
      naks := [] })
  else .next s

/-! ## Device time (R379) -/

/-- PTMEN takes a value: dialogues start, or stop and device time runs free. The first dialogue may come at once, and the runs of good
and of failed dialogues begin anew: DESIGN CHOICE, the manual says neither (log entry 88). -/
def setPtmen (s : State) (en : Bool) : State :=
  let t := s.timeBlock
  if en = t.ptmen then s
  else { s with timeBlock := { t with ptmen := en, slew := 0, good := 0, bad := 0, next := if en then s.realTime else t.next } }

/-- PTMEN_WRITE (R379). The time block and the host link are up from stage 1 on (R395). -/
def execPtmenWrite (en : Bool) (s : State) : Out := if s.boot.stage = 0 then .next s else .next (setPtmen s en)

/-- Device time steps forward by `n` ns: time that a Running context spends (R301), but none that has passed since reset. -/
def stepForward (s : State) (n : Nat) : State :=
  { s with
    time := s.time + n, boot := { s.boot with resetAt := s.boot.resetAt + n }
    contexts := tmap s.contexts fun _ x => if x.state = .running then { x with runNs := x.runNs + n } else x }

/-- A successful dialogue: OFFSET, the run of good ones, and a step forward or a slew. -/
def goodDialogue (s : State) (offset : Int) : State :=
  let t := s.timeBlock
  let good := if offset.natAbs < 100 then t.good + 1 else 0
  let t := { t with offset := clamp offset (1 - 2 ^ 31) (2 ^ 31 - 1), ptmcnt := t.ptmcnt + 1, bad := 0 }
  if 1000000 < offset then
    let s := stepForward s offset.toNat
    { s with timeBlock := { t with good := 0, locked := false, slew := 0, acc := 0, next := s.realTime + 1000000 * t.period } }
  else
    { s with timeBlock := { t with
        next := s.realTime + 1000000 * t.period
        good := good, locked := t.locked || decide (3 ≤ good), acc := 0, slew := if offset.natAbs ≤ 20 then 0 else offset } }

/-- A failed dialogue; after four in a row device time runs free. -/
def failedDialogue (s : State) : State :=
  let t := s.timeBlock
  let t := { t with ptmfail := t.ptmfail + 1, good := 0, bad := t.bad + 1, next := s.realTime + 1000000 * t.period }
  { s with timeBlock := if 4 ≤ t.bad then { t with locked := false, slew := 0 } else t }

/-- PTM_DIALOGUE (R379): every PERIOD ms, with `offset` = host time − device time. -/
def execPtmDialogue (ok : Bool) (offset : Int) (s : State) : Out :=
  let t := s.timeBlock
  if t.ptmen ∧ t.next ≤ s.realTime then .next (if ok then goodDialogue s offset else failedDialogue s) else .next s

/-- `n` ns of device time pass. While a correction is left, one ns of each 10,001 is none of real time, or the other way round. -/
def passTime (s : State) (n : Nat) : State :=
  let t := s.timeBlock
  let k := (t.acc + n) / 10001
  let d := clamp t.slew (-(k : Int)) k
  { s with time := s.time + n, boot := { s.boot with resetAt := s.boot.resetAt + d }
           timeBlock := if t.slew = 0 then t else { t with slew := t.slew - d, acc := (t.acc + n) % 10001 } }

end Sys2Proof.Machine
end

