-- ==== Sys2Proof/Machine/Pages.lean ====
section
/-! DEFINITION. Page walks, the drain of a transition, the quiet policy, and accesses of the host and of other modules
("Pages: Translation, Classes and Bias"; "Links: Host, Peers and Time", R366, R375, R376, R378). -/
namespace Sys2Proof.Machine

/-! ## Page walks (R256, R259) -/

/-- The requests for walks of die `d`, in arrival order. -/
def dieWalks (s : State) (d : Nat) : List WalkReq := s.walks.filter (·.die == d)

/-- The result of a walk reaches the L2 TLB of its die and every unit that joined it; a failure waits for the parties that did. -/
def walkDone (s : State) (w : WalkReq) (va : Nat) : State :=
  let s := { s with walks := s.walks.filter fun x => !(x.die == w.die && x.ctx == w.ctx && x.page == w.page) }
  match walk s w.ctx va with
  | .ok e => w.misses.foldl (fun s m => tlbInsert s m.1 e) (tlbInsert s (tlbOfDie w.die) e)
  | .error f =>
    if w.misses.isEmpty then s
    else { s with failed := s.failed ++ [{ w with cause := f, value := walkValue s w.die w.ctx va f }] }

/-- PAGE_WALK (R256, R259): a walker of the die translates the page, when the miss is among the 48 oldest. -/
def execPageWalk (die ctx : Nat) (va : VA) (s : State) : Out :=
  let page := va.toNat - va.toNat % 4096
  .next (match ((dieWalks s die).take 48).find? fun w => w.ctx == ctx && w.page == page with
    | some w => walkDone s w va.toNat
    | none => s)

/-! ## The drain of a transition (R270, R271) -/

/-- A TLB forgets the class of a unit. -/
def dropClass (s : State) (t u : Nat) : State :=
  { s with tlbs := tmod s.tlbs t fun l => l.map fun e =>
      if !e.host && e.unit == u then { e with cls := none, owner := 0 } else e }

/-- A Recall that another module's home sends for its unit `u` reaches this module's unit `t`, which holds the class (R375):
this module keeps, as for its own transitions, what `t` owes. -/
def peerRecall (s : State) (t u : Nat) : State :=
  if 2 ^ 27 ≤ u && (classHolders s u).contains t then
    let x := (tget s.transits u).getD ⟨0, 0, 0, .policy, [], [], [], s.realTime⟩
    let x := { x with
      owes := x.owes.filter (· != t) ++ [t], recalled := x.recalled.filter (· != t), drained := x.drained.filter (· != t) }
    { s with transits := tset s.transits u x }
  else s

/-- A Recall of unit `u` for unit `t` arrives: one to another module leaves on its link, once no older traffic of the granule holds
it back, and awaits the DrainAck (R370, R375). None when it does not arrive. -/
def recallArrives (s : State) (t u : Nat) : Option State × State :=
  if t < 20000 then (some s, s)
  else
    let m := t - 20000
    let s := if (messageOf s homeParty m u).isNone then sendMessage s homeParty m u else s
    (if (messageOf s homeParty m u).any (!·.lost) then some s else none, s)

/-- RECALL (R271): unit `t` receives Recall of classification unit `u` and issues no more under the old class. -/
def execRecall (t u : Nat) (s : State) : Out :=
  let s := peerRecall s t u
  match tget s.transits u with
  | none => .next s
  | some x =>
    if x.owes.contains t && !x.recalled.contains t then
      match recallArrives s t u with
      | (some s, _) => .next (dropClass { s with transits := tset s.transits u { x with recalled := t :: x.recalled } } t u)
      | (none, s) => .next s
    else .next s

/-- A party waits at a home for its access to be served. -/
def waitsAtHome (s : State) (p : Word) : Bool := s.tickets.any fun q => q.2.contains p

/-- Group `g` has no access to `u` outstanding from before the Recall: it is at a clause boundary, stopped, or stalled
on an access of its own, which by R271 no drain waits on. -/
def groupDrained (s : State) (u g : Nat) (gr : Group) : Bool :=
  !gr.touched.contains u || gr.issue.isNone || gr.phase != .running || waitsAtHome s (groupParty s g)
  || (currentOp gr).any fun o => !o.left.isEmpty

/-- The parties of TLB `t` are at their drain points for unit `u` (R271). -/
def unitDrained (s : State) (t u : Nat) : Bool :=
  if t < 192 then s.groups.all fun p => coreOf p.1 != t || groupDrained s u p.1 p.2
  else if t < 224 then s.copies.all fun p =>
    p.2.engine + 192 != t || p.2.buf.isEmpty || p.2.stopped || waitsAtHome s (copyParty s p.2)
  else true

/-- DRAIN_POINT (R271): the parties of unit `t` have reached their drain points for `u`. -/
def execDrainPoint (t u : Nat) (s : State) : Out :=
  match tget s.transits u with
  | none => .next s
  | some x =>
    if x.recalled.contains t && !x.drained.contains t && unitDrained s t u then
      .next { s with transits := tset s.transits u { x with drained := t :: x.drained } }
    else .next s

/-- QUIET_EXPIRY (R269): firmware has found no access to a Shared unit for QUIET µs and returns it to Untouched. -/
def execQuietExpiry (u : Nat) (s : State) : Out :=
  let e := s.classOf u
  if e.cls = 3 ∧ (tget s.transits u).isNone ∧ ((tget s.tickets u).getD []).isEmpty ∧ e.since + 1000 * s.quiet ≤ s.realTime then
    .next (startTransit s u 0 0 .policy)
  else .next s

/-- The granules of the unit whose head is `u`, as lines of 128 bytes. -/
def unitLines (u code : Nat) : List Nat := (List.range (32 * unitGranules code)).map (32 * u + ·)

/-- A DrainAck has not come within 1 ms: every line of the unit is lost, every holder drops its copy with the stores that memory lacks,
and the transition completes. -/
def loseUnit (s : State) (u : Nat) (x : Transit) : State :=
  let k := s.classOf u
  let lines := unitLines u k.unit
  let s := loseLines s lines k.dirty
  finishTransit (x.owes.foldl (fun s t =>
    if t < 20000 then dropClass s t u else invalidateAt (dropMessage s homeParty (t - 20000) u) (t - 20000) u) s) u x

/-- The bank of the home of unit `u` records lost lines, and the firmware takes the record up (R378, R404). -/
def logLost (s : State) (u : Nat) : State := logTriaged s (32 * (u / 2 ^ 25) + 13) 2 5 0 0 (BitVec.ofNat 64 (4096 * u))

/-- The transition of a unit of this module has had no DrainAck for 1 ms. -/
def transitLate (s : State) (u : Nat) (x : Transit) : Bool := decide (u < 2 ^ 27) && decide (x.since + 1000000 ≤ s.realTime)

/-- The stores to lines of unit `u` whose invalidations have had no acknowledgement for 1 ms: party and line. -/
def lateStores (s : State) (u : Nat) : List (Word × Nat) :=
  ((s.messages.filter fun x => decide (2 ^ 16 ≤ x.tag) && inUnit u (s.classOf u).unit (x.tag - 2 ^ 16) && !x.awaited s.realTime).map
    fun x => (x.party, x.tag - 2 ^ 16)).eraseDups

/-- The ownership grant for one line of a unit in use has been lost; which line is free (log entry 75). -/
def lostGrant (s : State) (u : Nat) : State :=
  let k := s.classOf u
  let (w, s) := s.freeWord
  let l := 32 * u + w.toNat % (32 * unitGranules k.unit)
  let s := loseLines s [l] (k.dirty.filter (· == l))
  (if k.rhold then peerUnits s else []).foldl (fun s t => invalidateAt s (t - 20000) (l / 32)) s

/-- COHERENCE_TIMEOUT (R378): a message that the home of unit `u` awaits has not come within 1 ms, or one that it sent is lost; its bank
records the lines lost. With no transition and no store that waits it is an ownership grant that has been lost. -/
def execCoherenceTimeout (u : Nat) (s : State) : Out :=
  let k := s.classOf u
  if 2 ^ 27 ≤ u then .next s
  else match tget s.transits u with
    | some x => .next (if transitLate s u x then logLost (loseUnit s u x) u else s)
    | none => match lateStores s u with
      | [] =>
        .next (if (k.cls = 3 ∨ k.cls = 4) ∧ (k.hold ≠ 0 ∨ k.rhold) then logLost (lostGrant s u) u else s)
      | ls => .next (logLost (ls.foldl (fun s p => giveUpLine s u p.1 p.2) s) u)

/-- The acknowledgement that this module owes another module's home for its unit `u` leaves, after the last of its own units. -/
def ackPeer (s : State) (u : Nat) (last : Bool) : State := if 2 ^ 27 ≤ u && last then tellModule s (u / 2 ^ 27 - 1) (u % 2 ^ 27) else s

/-- DRAIN_ACK (R270): the home receives the acknowledgement of `t`; after the last one the transition completes. One that comes
after 1 ms comes too late (R378); one to another module waits for older traffic of the granule (R370). -/
def execDrainAck (t u : Nat) (s : State) : Out :=
  match tget s.transits u with
  | none => .next s
  | some x =>
    if transitLate s u x then .next (logLost (loseUnit s u x) u)
    else if x.drained.contains t && x.owes.contains t && !(decide (2 ^ 27 ≤ u) && messageHeld s (u / 2 ^ 27 - 1) (u % 2 ^ 27)) then
      let x := { x with owes := x.owes.filter (· != t) }
      let s := ackPeer (if 20000 ≤ t then dropMessage s homeParty (t - 20000) u else s) u x.owes.isEmpty
      .next (if x.owes.isEmpty then finishTransit s u x else { s with transits := tset s.transits u x })
    else .next s

/-! ## Accesses of the host (R272, R366) -/

/-- The ranges that firmware reserves (R366): the fatal-dump region, the class stores, the bias table and the stop areas. -/
def reservedPa (s : State) (pa : Nat) : Bool :=
  (decide (2 ^ 37 - 2 ^ 26 ≤ pa) && decide (pa < 2 ^ 37))
  || s.classAt.toList.any (fun a => decide (a ≤ pa) && decide (pa < a + 2 ^ 28))
  || (decide (s.biasAt ≤ pa) && decide (pa < s.biasAt + 2 ^ 24))
  || s.contexts.any fun p => p.2.state != .free && decide (p.2.stopArea ≤ pa) && decide (pa < p.2.stopArea + 2 ^ 20)

/-- The host changes bytes of its own 2^52 bytes of memory (R254). -/
def storeOfHost (s : State) (a : Nat) (b : List Byte) : State :=
  if a + b.length ≤ 2 ^ 52 then { s with hostMem := mwrite s.hostMem a b } else s

/-- A module of the domain changes bytes of its own memory; byte `a` of module `m` is `m * 2^39 + a` (R373). -/
def storeOfPeer (s : State) (a : Nat) (b : List Byte) : State :=
  if a + b.length ≤ 2 ^ 45 then { s with peerMem := mwrite s.peerMem a b } else s

/-- The host as a party in the arrival order of a unit; its KIND is one that Table 11-4 does not use (log entry 96). -/
def hostParty : Word := BitVec.ofNat 32 (7 * 2 ^ 29)

/-- Bytes of the access at `pa` that lie in its aligned 16-byte chunk. -/
def chunkLen (pa size : Nat) : Nat := min size (16 - pa % 16)

/-- An access that waits at its home is taken up again later. -/
def holdAccess (s : State) (i : Instr) : State := { s with atHome := if s.atHome.contains i then s.atHome else s.atHome ++ [i] }
def dropAccess (s : State) (i : Instr) : State := { s with atHome := s.atHome.erase i }

/-- The part of a wide access that follows its first chunk. -/
def hostRest (s : State) (store : Bool) (pa size : Nat) (data : List Byte) : State :=
  let n := chunkLen pa size
  if size ≤ n then s else holdAccess s (.hostAccess store (pa + n) (size - n) (data.drop n))

/-- Under host bias, the host may hold the line from now on, and may change it again (R272). -/
def markSnoop (s : State) (pa : Nat) : State :=
  if s.bias.contains (pa / 4096) then
    { s with snoop := if s.snoop.contains (pa / 64) then s.snoop else pa / 64 :: s.snoop
             snoopAns := s.snoopAns.filter (· != pa / 64) }
  else s

/-- A read is answered with data; poisoned ones carry the mark. -/
def answerHost (s : State) (store : Bool) (pa n : Nat) (bad : Bool) : State :=
  if store then s
  else let r := readPhys s pa n; { r.2 with hostAnswer := some ⟨pa, r.1, bad⟩ }

/-- The unit at which a host access is served (R268). -/
def hostUnit (s : State) (pa : Nat) : Nat := ((coverOf s (pa / 4096)).map (·.1)).getD (pa / 4096)

/-- The host keeps its place in an arrival order only where some access of it waits: a transition may have moved the accesses of a
granule to another unit (R268, R270). -/
def tidyHost (s : State) : State :=
  let units := s.atHome.filterMap fun i => match i with
    | .hostAccess _ pa _ _ => some (hostUnit s pa)
    | _ => none
  { s with tickets := (s.tickets.map fun e => if units.contains e.1 then e else (e.1, e.2.filter (· != hostParty))).filter (!·.2.isEmpty) }

/-- One aligned chunk of a host access at its home: R267's discarded write to a pin, or the read or write. -/
def hostChunk (s : State) (i : Instr) (store : Bool) (pa n : Nat) (b : List Byte) (rest : State → State) : State :=
  match homeServe s hostParty pa 0 store true none with
  | .wait s => tidyHost (holdAccess s i)
  | .fault c _ s =>
    let s := answerHost (tidyHost (rest (dropAccess s i))) store pa n true
    if c = 0x23 then
      let k := freeCode s
      logTriaged k.2 (32 * (pa / 2 ^ 37) + 13) 1 k.1 0 0 (BitVec.ofNat 64 pa)
    else s
  | .ok s =>
    let s := markSnoop (tidyHost (rest (dropAccess s i))) pa
    if store then { s with mem := mwrite s.mem pa ((b ++ List.replicate n 0).take n) } else answerHost s store pa n false


/-- An earlier host access waits at the same unit (R270). -/
def hostBehind (s : State) (i : Instr) (pa : Nat) : Bool :=
  (s.atHome.takeWhile (· != i)).any fun j => match j with
    | .hostAccess _ b _ _ => hostUnit s b == hostUnit s pa
    | _ => false

/-- Device memory is up at the address: before stage 2, and in minimal mode, only that of VS0 (R395, R397). -/
def memoryUp (s : State) (pa : Nat) : Bool := (decide (2 ≤ s.boot.stage) && !s.boot.minimal) || decide (pa < 2 ^ 37)

/-- HOST_ACCESS (R267, R272, R277, R366, R395): the host's next chunk reaches its home; what follows the first chunk of a wide
access comes as an access of its own. A read of a reserved range, or of memory that is not up, is answered with poisoned data,
and a write to one is discarded. -/
def execHostAccess (store : Bool) (pa size : Nat) (data : List Byte) (s : State) : Out :=
  let i : Instr := .hostAccess store pa size data
  let n := chunkLen pa size
  if 2 ^ 39 < pa + size then .fault .noSuchAddress
  else if size = 0 ∨ s.boot.stage = 0 then .next (dropAccess s i)
  else if (List.range n).any fun k => reservedPa s (pa + k) || !memoryUp s (pa + k) then
    .next (answerHost (hostRest (dropAccess s i) store pa size data) store pa n true)
  else if hostBehind s i pa then .next (holdAccess s i)
  else .next (hostChunk s i store pa n data fun s => hostRest s store pa size data)

/-- The HDM decoder (R366) maps the 512 GiB of host addresses from its base on to device addresses, linearly. A base is a multiple of
512 GiB. -/
def programHdm (s : State) (base : Nat) : State := { s with hdmBase := base - base % 2 ^ 39 }

/-- An access of the host to one of its physical addresses: one in the decoder's range is an access to device memory, any other one
is the host's to memory of its own (R254, R366). -/
def hostAccessAt (store : Bool) (hpa size : Nat) (data : List Byte) (s : State) : Out :=
  if s.hdmBase ≤ hpa ∧ hpa + size ≤ s.hdmBase + 2 ^ 39 then execHostAccess store (hpa - s.hdmBase) size data s
  else .next (if store then storeOfHost s hpa data else s)

/-- BIRSP_RECEIVE (R272): the host answers a snoop of line `l` and writes back what it had changed. After BISnpInv it holds the
line no more; after BISnpData it may still hold it, and the load that waits goes on. -/
def execBirspReceive (l : Nat) (data : List Byte) (s : State) : Out :=
  let s' := { s with mem := mwrite s.mem (64 * l) (data.take 64) }
  if s.snoopInv.contains l then
    .next { s' with snoopInv := s.snoopInv.filter (· != l), snoopData := s.snoopData.filter (· != l), snoop := s.snoop.filter (· != l)
                    snoopAns := s.snoopAns.filter (· != l) }
  else if s.snoopData.contains l then .next { s' with snoopData := s.snoopData.filter (· != l), snoopAns := l :: s.snoopAns }
  else .next s

/-! ## Accesses of other modules (R373 to R376) -/

def peerStores : PeerOp → Bool
  | .load _ => false
  | _ => true

/-- The access performs at the home as an atomic does (R281). -/
def peerAtomic : PeerOp → Bool
  | .load _ | .store _ => false
  | _ => true

def peerSize : PeerOp → Nat
  | .load n => n
  | .store d => d.length
  | .atom .. => 4
  | .cas .. => 4
  | .update .. => 16
  | .binit _ => 16

/-- The module that makes a remote access. -/
def accessModule (a : PeerAccess) : Nat := a.party.toNat / 2 ^ 23 % 64

/-- The response to a remote access leaves on a link (R370). -/
def answerPeer (s : State) (a : PeerAccess) (data : List Byte) (bad : Bool) : State :=
  tellModule { s with peerAnswer := some ⟨a.pa, data, bad⟩ } (accessModule a) (a.pa / 4096)

/-- The effect of a remote access at its place in the total order, and its response: the data read. One that would read a
poisoned line is refused, and so is an update that overruns, which the requester charges (R300, R376, R402). -/
def peerPerform (s : State) (a : PeerAccess) : State :=
  let n := chunkLen a.pa (peerSize a.op)
  let (old, s) : List Byte × State := match a.op with
    | .store _ => ([], s)
    | _ => readPhys s a.pa n
  let word := BitVec.ofNat 32 (leNat old)
  let put (b : List Byte) : State := { s with mem := mwrite s.mem a.pa b }
  let poisoned := (poisonAt s physEntry a.pa).isSome
  match a.op with
  | .load _ => answerPeer s a old false
  | .store d => answerPeer (put (d.take n)) a [] false
  | .atom op v => if poisoned then answerPeer s a [] true else answerPeer (put (wordBytes (atomNew op word v))) a old false
  | .cas cmp new =>
    if poisoned then answerPeer s a [] true else answerPeer (if word = cmp then put (wordBytes new) else s) a old false
  | .update da db =>
    if poisoned then answerPeer s a [] true
    else let r := barEvent s physEntry a.pa (leNat old) da db; answerPeer r.2.2 a (wordBytes r.1) r.2.1
  | .binit cfg =>
    if poisoned then answerPeer s a [] true
    else answerPeer (put (leBytes 16 (barInit (leNat old) cfg.toNat))) a old false

/-- The part of a wide remote store or load that follows its first chunk (R277). -/
def peerRest (s : State) (a : PeerAccess) : State :=
  let n := chunkLen a.pa (peerSize a.op)
  match a.op with
  | .store d => if d.length ≤ n then s else holdAccess s (.peerAccess { a with pa := a.pa + n, op := .store (d.drop n) })
  | .load k => if k ≤ n then s else holdAccess s (.peerAccess { a with pa := a.pa + n, op := .load (k - n) })
  | _ => s

/-- PEER_ACCESS (R374 to R376): an access of another module reaches this module's home directory, which serves it by
physical address as it serves a local party; from then on units of other modules may hold the class (RHOLD). It waits while older
traffic of the granule holds its response back (R370). Links are up in stage 2 only (R395). -/
def execPeerAccess (a : PeerAccess) (s : State) : Out :=
  let i : Instr := .peerAccess a
  if 2 ^ 39 < a.pa + peerSize a.op then .fault .noSuchAddress
  else if peerSize a.op = 0 ∨ s.boot.stage < 2 then .next (dropAccess s i)
  else if messageHeld s (accessModule a) (a.pa / 4096) then .next (holdAccess s i)
  else .next (match homeServe s a.party a.pa a.pageSize (peerStores a.op) false none (peerAtomic a.op) with
    | .wait s => holdAccess s i
    | .fault _ _ s => answerPeer (dropAccess s i) a [] true
    | .ok s =>
      let u := unitHead (a.pa / 4096) a.pageSize
      let s := { s with classes := tmod s.classes u fun k => { k with rhold := true } }
      peerRest (peerPerform (dropAccess s i) a) a)

end Sys2Proof.Machine
end

