-- ==== Sys2Proof/Machine/Mgmt.lean ====
section
/-! DEFINITION. The request and completion rings of the management firmware: fetching, the order in which requests start,
completions and the checks of arguments ("Contexts", R108 to R112, Tables 4-12 to 4-15). -/
namespace Sys2Proof.Machine

/-! ## Completions (R109, R110) -/

/-- Bytes of a completion (Table 4-13). -/
def completionBytes (time : Nat) (tag : Word) (status opcode detail : Nat) (result : List Byte) : List Byte :=
  leBytes 8 time ++ wordBytes tag ++ leBytes 1 status ++ leBytes 1 opcode ++ leBytes 2 detail
    ++ (result ++ List.replicate 16 0).take 16

/-- Completions that the ring holds. -/
def Mgmt.used (m : Mgmt) : Nat := (m.mcqprod - m.mcqcons).toNat

def State.modMgmt (s : State) (f : Mgmt → Mgmt) : State := { s with mgmt := f s.mgmt }

/-- Write a completion into the ring: its bytes, then MCQPROD, then the MSI-X write. -/
def mcqPut (s : State) (b : List Byte) : State :=
  let m := s.mgmt
  let s := busWrite s (m.mcqbase.toNat + 32 * (m.mcqprod.toNat % 2 ^ m.mcqsize)) b
  let s := s.modMgmt fun m => { m with mcqprod := m.mcqprod + 1 }
  if m.ien then sendMsi s m.mvec.toNat else s

/-- Completions are written in the order in which their requests completed, while the ring has space. -/
def releaseCompletions (s : State) : Nat → State
  | 0 => s
  | n + 1 => match s.mgmt.held with
    | [] => s
    | b :: bs =>
      if s.mgmt.used < 2 ^ s.mgmt.mcqsize then
        releaseCompletions (mcqPut (s.modMgmt fun m => { m with held := bs }) b) n
      else s

def putCompletion (s : State) (b : List Byte) : State :=
  let s := s.modMgmt fun m => { m with held := m.held ++ [b] }
  releaseCompletions s s.mgmt.held.length

/-- A request completes. -/
def complete (s : State) (r : Request) (status detail : Nat) (result : List Byte) : State :=
  let s := s.modMgmt fun m => { m with inflight := m.inflight.filter fun q => q.n != r.n }
  putCompletion s (completionBytes s.time r.tag status r.opcode detail result)

def completeOk (s : State) (r : Request) : State := complete s r 0 0 []

/-- The number of a context state in Table 4-1. -/
def CtxState.code : CtxState → Nat
  | .free => 0
  | .loading => 1
  | .ready => 2
  | .running => 3
  | .halting => 4
  | .halted => 5
  | .saving => 6
  | .saved => 7
  | .restoring => 8
  | .killed => 9

/-- INVALID-STATE for a context, and for a host queue (Table 4-14). -/
def invalidCtx (s : State) (r : Request) (c : Nat) : State := complete s r 4 ((s.ctx c).state.code + 256 * c) []
def invalidQueue (s : State) (r : Request) (q : Nat) : State := complete s r 4 (0x10 + (s.hostQueue q).state.code + 256 * (q % 256)) []

/-! ## Requests -/

/-- The opcodes of Table 4-15. -/
def requestOpcodes : List Nat :=
  [0x01, 0x02, 0x03, 0x04, 0x05, 0x06, 0x07, 0x10, 0x11, 0x12, 0x13, 0x14, 0x15, 0x16, 0x17, 0x20, 0x21, 0x30, 0x31, 0x40, 0x41, 0x42]

/-- The context that a request names; a CREATE names the one it is creating. -/
def Request.ctx? (r : Request) : Option Nat :=
  if r.opcode = 1 then r.result.head?.map BitVec.toNat
  else if r.opcode = 7 then if r.arg 10 1 = 255 then none else some (r.arg 10 1)
  else if [0x02, 0x03, 0x04, 0x05, 0x10, 0x20, 0x21].contains r.opcode then some (r.arg 8 1)
  else none

/-- Requests in flight that stand before a request in ring order. -/
def earlier (s : State) (r : Request) : List Request := s.mgmt.inflight.takeWhile fun q => q.n != r.n

/-- An earlier request that names the same context has not completed; KILL waits for none (R112). -/
def ctxBlocked (s : State) (r : Request) : Bool :=
  r.opcode != 2 && r.ctx?.isSome && (earlier s r).any fun q => q.ctx? == r.ctx?

/-- The firmware that serves requests runs: stage 2, or minimal mode; a Fatal error has stopped it (R395 to R397, R406). -/
def firmwareUp (s : State) : Bool := (s.boot.stage == 2 || (s.boot.stage == 1 && s.boot.minimal)) && s.fatal.isNone

/-- A request may start: its turn in ring order has come, fewer than 16 are in progress, and the completion ring has
space. -/
def canStart (s : State) (r : Request) : Bool :=
  !r.started && !ctxBlocked s r && (earlier s r).all (fun q => q.started || ctxBlocked s q)
    && decide ((s.mgmt.inflight.filter (·.started)).length < 16) && s.mgmt.held.isEmpty
    && decide (s.mgmt.used < 2 ^ s.mgmt.mcqsize) && firmwareUp s

/-- Requests of unknown opcode complete with BADOP at their turn. -/
def sweepBad (s : State) : Nat → State
  | 0 => s
  | n + 1 => match s.mgmt.inflight.find? fun r => !requestOpcodes.contains r.opcode && canStart s r with
    | some r => sweepBad (complete s r 1 0 []) n
    | none => s

/-- The line at `a` cannot be read: a request whose data lie there completes BADARG. DESIGN CHOICE, R402 speaks of a context that takes
the machine check, and a request reads for none (log entry 94). -/
def lineLost (s : State) (a : Nat) : Bool := s.poison.contains (a / 128) || s.coherenceLost.contains (a / 128)

/-- Read request `MRQHEAD` of the ring. The read of a line that cannot be read is abandoned, and its request, with no opcode, completes
BADOP: DESIGN CHOICE, no context is there to take the machine check of R402 (log entry 94). -/
def fetchRequest (s : State) : State :=
  let m := s.mgmt
  let at_ := m.mrqbase.toNat + 128 * (m.mrqhead.toNat % 2 ^ m.mrqsize)
  let b := if at_ < 2 ^ 39 ∧ lineLost s at_ then List.replicate 128 0 else busRead s at_ 128
  let r : Request :=
    { n := m.mrqhead.toNat, opcode := byteAt b 0, tag := BitVec.ofNat 32 (field b 4 4), args := b, started := false, waiting := []
      result := [], phase := 0 }
  s.modMgmt fun m => { m with mrqhead := m.mrqhead + 1, inflight := m.inflight ++ [r] }

def fetchAll (s : State) : Nat → State
  | 0 => s
  | n + 1 => fetchAll (fetchRequest s) n

/-- The firmware fetches what MRQTAIL covers, or finds BADTAIL. -/
def fetchRequests (s : State) : State :=
  let m := s.mgmt
  let n := (m.mrqtail - m.mrqhead).toNat
  if !m.en || !firmwareUp s || n == 0 then s
  else if 2 ^ m.mrqsize < n then
    putCompletion (s.modMgmt fun m => { m with en := false }) (completionBytes s.time 0 7 0 0 [])
  else fetchAll s n

/-- What the firmware does after every change of its rings. -/
def settleMgmt (s : State) : State := let s := fetchRequests s; sweepBad s s.mgmt.inflight.length

/-- MRQTAIL_WRITE (R109). -/
def execMrqtailWrite (v : Word) (s : State) : Out :=
  .next (if s.boot.stage = 0 then s else settleMgmt (s.modMgmt fun m => { m with mrqtail := v }))

/-- MCQCONS_WRITE (R109): completions that waited for space follow. -/
def execMcqconsWrite (v : Word) (s : State) : Out :=
  if s.boot.stage = 0 then .next s
  else
  let s := s.modMgmt fun m => { m with mcqcons := v }
  .next (settleMgmt (releaseCompletions s s.mgmt.held.length))

/-- The request in flight replaced by its image. -/
def modReq (s : State) (r : Request) (f : Request → Request) : State :=
  s.modMgmt fun m => { m with inflight := m.inflight.map fun q => if q.n = r.n then f q else q }

/-! ## Arguments -/

/-- A condition on the argument at an offset; true when it is broken. -/
abbrev ArgCheck := Nat × Bool

/-- Bytes `lo` to `hi − 1` must be zero. -/
def zeroArgs (r : Request) (lo hi : Nat) : List ArgCheck :=
  (List.range (hi - lo)).map fun i => (lo + i, r.arg (lo + i) 1 != 0)

/-- The offset of the first argument that breaks its condition. -/
def firstBad (cs : List ArgCheck) : Option Nat := (cs.find? (·.2)).map (·.1)

/-- A buffer lies outside device memory, or in a reserved range. -/
def badBuffer (s : State) (a n : Nat) : Bool :=
  decide (2 ^ 39 < a + n) || (n != 0 && (s.contexts.any fun p => p.2.state != .free && !disjointRanges a n p.2.stopArea (2 ^ 20)))
    || (n != 0 && (s.classAt.toList.any (fun b => !disjointRanges a n b (2 ^ 28)) || !disjointRanges a n s.biasAt (2 ^ 24)))
    || (n != 0 && !disjointRanges a n (2 ^ 37 - 2 ^ 26) (2 ^ 26)) || (s.boot.minimal && decide (2 ^ 37 < a + n))

/-- A physical address that no frame of the module has. -/
def badAddr (s : State) (a : Nat) : Bool := decide (2 ^ 39 ≤ a) || (s.boot.minimal && decide (2 ^ 37 ≤ a))

/-- One event of the firmware on a request with opcode `op`, among those it may take up: the request starts, when `bad`
finds nothing wrong with its arguments, or goes on. -/
def requestEvent (op : Nat) (bad : State → Request → List ArgCheck) (run : State → Request → State) (s : State) : Out :=
  let rs := s.mgmt.inflight.filter fun r => r.opcode == op && (r.started || canStart s r)
  match rs[Config.pick s.tick % max 1 rs.length]? with
  | none => .next s
  | some r =>
    if r.started then .next (settleMgmt (run s r))
    else match firstBad (zeroArgs r 1 4 ++ bad s r) with
      | some o => .next (settleMgmt (complete s r 2 o []))
      | none => .next (settleMgmt (run (modReq s r fun q => { q with started := true }) { r with started := true }))

end Sys2Proof.Machine
end

