-- ==== Sys2Proof/Machine/Packed.lean ====
section
/-! DEFINITION. Packed integer instructions, majors 0x20 to 0x2A (R227 to R232, R59). -/
namespace Sys2Proof.Machine

/-- A signed element and an unsigned element. -/
def elemS (x : Word) (w i : Nat) : Int := signExtend (element x w i) w
def elemU (x : Word) (w i : Nat) : Int := (element x w i : Int)

/-- Pack integers of width `w`, element 0 lowest. -/
def packInts (w : Nat) : List Int → Nat
  | [] => 0
  | v :: vs => (v % 2 ^ w).toNat + 2 ^ w * packInts w vs
def packWord (w : Nat) (vs : List Int) : Word := BitVec.ofNat 32 (packInts w vs)

/-- Clamp each of several integers; SAT when any clamp changed a value. -/
def satAll (lo hi : Int) (vs : List Int) : List Int × FFlags :=
  (vs.map fun v => clamp v lo hi, flagIf (vs.any fun v => clamp v lo hi != v) fSAT)

/-- PADD2 and PSUB2 of one lane (R227). -/
def packArith (op : Int → Int → Int) (m : BitVec 3) (x y : Word) : Word × FFlags :=
  let s i := op (elemS x 16 i) (elemS y 16 i)
  let u i := op (elemU x 16 i) (elemU y 16 i)
  match m.toNat with
  | 0 => (packWord 16 [s 0, s 1], 0)
  | 1 => let r := satAll (-32768) 32767 [s 0, s 1]; (packWord 16 r.1, r.2)
  | _ => let r := satAll 0 65535 [u 0, u 1]; (packWord 16 r.1, r.2)

def execPadd2 (d a b : Reg) (m : BitVec 3) (s : State) : Out := alu2F d a b (packArith (· + ·) m) s
def execPsub2 (d a b : Reg) (m : BitVec 3) (s : State) : Out := alu2F d a b (packArith (· - ·) m) s

/-- PMIN2 and PMAX2 of one lane (R227). -/
def packMin (m : BitVec 3) (x y : Word) : Word :=
  let e w i := if m.toNat = 1 then elemU w 16 i else elemS w 16 i
  packWord 16 [min (e x 0) (e y 0), min (e x 1) (e y 1)]
def packMax (m : BitVec 3) (x y : Word) : Word :=
  let e w i := if m.toNat = 1 then elemU w 16 i else elemS w 16 i
  packWord 16 [max (e x 0) (e y 0), max (e x 1) (e y 1)]

def execPmin2 (d a b : Reg) (m : BitVec 3) (s : State) : Out := alu2 d a b (packMin m) s
def execPmax2 (d a b : Reg) (m : BitVec 3) (s : State) : Out := alu2 d a b (packMax m) s

/-- An exact dot product of `n` elements of width `w` added to the destination, wrapped or clamped once (R228). -/
def dotProduct (w n : Nat) (sa sb sat : Bool) (x y z : Word) : Word × FFlags :=
  let ea i := if sa then elemS x w i else elemU x w i
  let eb i := if sb then elemS y w i else elemU y w i
  let t := (List.range n).foldl (fun acc i => acc + ea i * eb i) z.toInt
  if sat then satS32 t else (wrap32 t, 0)

def execPmac2 (d a b : Reg) (m : BitVec 3) (s : State) : Out := alu3F d a b (dotProduct 16 2 true true (m.toNat == 1)) s
def execPdot4 (d a b : Reg) (m : BitVec 3) (s : State) : Out :=
  alu3F d a b (dotProduct 8 4 (m.toNat % 4 != 1) (m.toNat % 4 == 0) (m.getLsbD 2)) s
def execPdot8 (d a b : Reg) (m : BitVec 3) (s : State) : Out :=
  alu3F d a b (dotProduct 4 8 (m.toNat % 4 != 1) (m.toNat % 4 == 0) (m.getLsbD 2)) s

/-- The three roundings of PSHR2 (R229). -/
def shiftRound (how : Nat) (x : Int) (n : Nat) : Int :=
  match how with
  | 0 => x / 2 ^ n
  | 1 => (x + 2 ^ n / 2) / 2 ^ n
  | _ =>
    let q := x / 2 ^ n
    let r := x % 2 ^ n
    if 2 * r < 2 ^ n then q else if 2 ^ n < 2 * r then q + 1 else if q % 2 = 0 then q else q + 1

/-- PSHR2 of one lane. -/
def packShift (m : BitVec 3) (x0 x1 y : Word) : Word × FFlags :=
  let n := y.toNat % 32
  let v x := shiftRound (m.toNat % 4) (BitVec.toInt x) n
  if m.getLsbD 2 then let r := satAll (-32768) 32767 [v x0, v x1]; (packWord 16 r.1, r.2)
  else (packWord 16 [v x0, v x1], 0)

def execPshr2 (d a b : Reg) (m : BitVec 3) (s : State) : Out :=
  runReg d [(a, 2), (b, 1)] noExtra (fun _ _ rs =>
    let r l := packShift m ((src rs 0).get l) ((src rs 1).get l) ((src rs 2).get l)
    .ok ⟨lanewise rs fun l => (r l).1, orFpx fun l => (r l).2⟩) s

/-- PSAT2 of one lane (R230). -/
def packSat (m : BitVec 3) (x y : Word) : Word × FFlags :=
  let b := y.toNat % 16 + 1
  let r := if m.toNat = 0 then satAll (-(2 ^ (b - 1) : Nat)) ((2 ^ (b - 1) : Nat) - 1) [elemS x 16 0, elemS x 16 1]
    else satAll 0 ((2 ^ b : Nat) - 1) [elemS x 16 0, elemS x 16 1]
  (packWord 16 r.1, r.2)

def execPsat2 (d a b : Reg) (m : BitVec 3) (s : State) : Out := alu2F d a b (packSat m) s

/-- PPACK of one lane (R231): the source elements of both words, low ones first, narrowed to half their width. -/
def packNarrow (m : BitVec 3) (x y : Word) : Word × FFlags :=
  let w := if m.toNat % 4 = 0 then 32 else if m.toNat % 4 = 1 then 16 else 8
  let es := (List.range (32 / w)).map (elemS x w) ++ (List.range (32 / w)).map (elemS y w)
  let h := w / 2
  if m.getLsbD 2 then
    let r := satAll (-(2 ^ (h - 1) : Nat)) ((2 ^ (h - 1) : Nat) - 1) es
    (packWord h r.1, r.2)
  else (packWord h es, 0)

def execPpack (d a b : Reg) (m : BitVec 3) (s : State) : Out := alu2F d a b (packNarrow m) s

/-- PUNPK of one lane (R232). -/
def unpack (m : BitVec 3) (x y : Word) : Word :=
  let w := if m.toNat / 2 = 0 then 16 else if m.toNat / 2 = 1 then 8 else 4
  let i := y.toNat % (32 / w)
  if m.toNat % 2 = 0 then wrap32 (elemS x w i) else wrap32 (elemU x w i)

def execPunpk (d a b : Reg) (m : BitVec 3) (s : State) : Out := alu2 d a b (unpack m) s

end Sys2Proof.Machine
end

