-- ==== Sys2Proof/Machine/Profile.lean ====
section
/-! DEFINITION. PC samples ("Debug, Trace and Profiling", R390, Table 17-6). -/
namespace Sys2Proof.Machine

/-- The header at an address, when its page can be read. -/
def headerAt (s : State) (gr : Group) (a : VA) : Option Header :=
  match walk s gr.ctx a.toNat with
  | .ok e => match decodeHeader gr.enc (BitVec.ofNat 32 (leNat (frameRead s e a.toNat 4))) with
    | .ok h => some h
    | .error _ => none
  | .error _ => none

/-- The fetch of the clause whose header is at `a` waits: for a walk that group `g` has asked for, of a page on which words of the
clause may lie, or for the response of the module in whose memory they are. -/
def fetchOut (s : State) (g : Nat) (gr : Group) (a : VA) : Bool :=
  let near (p : Nat) : Bool := p / 4096 == a.toNat / 4096 || p / 4096 == (after a 60).toNat / 4096
  let far (a : VA) : Bool := match walk s gr.ctx a.toNat with
    | .ok e => (e.rmt.bind fun m => messageOf s (groupParty s g) m (e.phys a.toNat / 4096)).isSome
    | .error _ => false
  s.walks.any (fun w => w.ctx == gr.ctx && w.misses.contains (coreOf g, groupParty s g) && near w.page) || far a || far (after a 60)

/-- The lowest lane whose set's clause the group awaits. -/
def awaitsFetch (s : State) (g : Nat) (gr : Group) : Option Nat :=
  if gr.issue.isSome then none
  else (List.range 32).find? fun l => (lane gr.threads l).free && fetchOut s g gr (lane gr.threads l).at_.hdr

/-- Why the instruction in progress of a group has not issued: its ordered accesses or those before it, or a data translation
that they wait for (4), or what a blocked instruction or a held form waits for, a full completion flag with it (5): DESIGN CHOICE,
Table 17-6 names no code for a translation or a full flag (log entry 79). None when it has not tried to, or could issue now
(`settleStalls`). -/
def stallCode (s : State) (g : Nat) (gr : Group) : Option Nat :=
  match gr.issue with
  | none => none
  | some i =>
    if i.op.isSome then some 4
    else if !s.turns.stalled.contains g then none
    else if s.turns.depends.contains g then some 3
    else if orderedOut gr || s.walks.any (·.misses.contains (coreOf g, groupParty s g)) then some 4
    else some 5

/-- The thread is blocked still: one at a queue port that has become ready is not (R128). -/
def stillBlocked (s : State) (gr : Group) (t : Thread) : Bool :=
  match t.wait with
  | .none => false
  | .port w => !portReady s gr w
  | _ => true

/-- The lowest code of Table 17-6 that applies to the set holding the lowest live lane. The sampled cycle is the current one of the
quadrant; where no group has issued in it yet, an instruction in progress that has not stalled issues in it, and a ready set outside its
handler counts as ready: DESIGN CHOICE (log entry 79). -/
def sampleStatus (s : State) (g : Nat) (gr : Group) : Nat :=
  if liveMask gr = 0 then 9
  else
    let l := lowest (liveMask gr)
    let t := lane gr.threads l
    let inIssue := gr.issue.any fun i => has i.set l
    let stall := stallCode s g gr
    let flags := t.at_.pos == 0 && match headerAt s gr t.at_.hdr with
      | some h => !flagsClear gr h.wait
      | none => false
    let issuers := (tget s.turns.issuers (quadrantOf g)).getD []
    let beaten := !issuers.isEmpty && !issuers.contains g
    if issuers.contains g || (inIssue && stall.isNone && !beaten) then 0
    else if (awaitsFetch s g gr).isSome then 1
    else if !inIssue && t.free && flags then 2
    else if inIssue && stall.isSome then stall.getD 0
    else if stillBlocked s gr t then 5
    else if t.held then 6
    else if beaten || !t.inHandler then 7
    else 8

/-- The sampled PC: that of the lowest live lane's set, the header that it awaits, or that of the last EXIT. -/
def samplePc (s : State) (g : Nat) (gr : Group) : VA :=
  if liveMask gr = 0 then gr.lastExit
  else
    let l := lowest (liveMask gr)
    match awaitsFetch s g gr, gr.issue with
    | some k, _ => (lane gr.threads k).at_.hdr
    | none, some i => if has i.set l then i.pc else (lane gr.threads l).at_.pc
    | none, none => (lane gr.threads l).at_.pc

/-- The occupied slots of quadrant `q` of core `k` that hold groups of context `c`. -/
def quadrantSlots (s : State) (k q c : Nat) : List Nat :=
  (s.groups.filter fun p => coreOf p.1 == k && p.1 % 4 == q && p.2.ctx == c).map fun p => slotOf p.1

/-- PC_SAMPLE (R390): quadrant `q` of core `k` samples the next occupied slot of its Running context, wrapping round, and
writes a record of KIND 9. -/
def execPcSample (k q : Nat) (s : State) : Out :=
  let live := s.contexts.find? fun p => p.2.state == .running && (match p.2.debug with
    | some d => d.samplog != 0
    | none => false) && !(quadrantSlots s k (q % 4) p.1).isEmpty
  match live with
  | none => .next s
  | some (c, x) => match x.debug with
    | none => .next s
    | some d =>
      let slots := quadrantSlots s k (q % 4) c
      let key := 4 * k + q % 4
      let from_ := (tget d.nextSlot key).getD 0
      let slot := ((slots.find? (decide <| from_ ≤ ·)).getD (slots.headD 0))
      let s := s.modCtx c fun x => { x with debug := some { d with nextSlot := tset d.nextSlot key (slot + 1) } }
      match s.group? (64 * k + slot) with
      | none => .next s
      | some gr =>
        let base := match s.image? c gr.image with
          | some im => im.base.toNat + im.codeoff
          | none => 0
        let off := (BitVec.ofNat 32 (samplePc s (64 * k + slot) gr).toNat - BitVec.ofNat 32 base).toNat
        .next (traceGroup s (64 * k + slot) 9 (sampleStatus s (64 * k + slot) gr) off)

end Sys2Proof.Machine
end

