-- ==== Sys2Proof/Machine/QueueInstr.lean ====
section
/-! DEFINITION. Queue and binning instructions, majors 0xA0 to 0xA7 ("Queues: Commands, Tasks, Ports and Binning", R129
to R138, R425; "Kernels", R156). -/
namespace Sys2Proof.Machine

/-- An instruction that acts once on state that the whole group shares: pending names, rows and sources `fs` with
destination `d`; `k` gets the state before the pops and the state after them. -/
def runShared (d : Reg) (fs : List Src) (span : Nat) (k : Ctl → State → State → List Row → State) (s : State) : Out :=
  withIssue s fun c s =>
    let ns := (fs.flatMap fun f => namesOf f.1 f.2) ++ namesOf d span
    withDeps s c (fun l => pendingName c.gr l ns) fun s =>
      withRows s c ns fun s0 => withSources s0 c fs d fun rows s => k c s0 s rows

/-! ## QBIND, QCLOSE, QSTAT, QTRY (R132 to R135) -/

/-- The launch and descriptor that a queue identity names for a team's end, when QBIND accepts it (R132). -/
def bindTarget (s : State) (t : Team) (id : Nat) (producer : Bool) : Option QDesc :=
  let kind := id / 2 ^ 29
  let idx := id / 2 ^ 24 % 32
  if t.task then none
  else match s.launch? t.launch with
    | none => none
    | some l => match l.qtab[idx]? with
      | none => none
      | some d =>
        if (kind = 3 ∨ kind = 4) ∧ d.kind = kind ∧ id % 2 ^ 24 < instancesOf s l d
            ∧ !(producer && kind == 4) ∧ (if producer then d.pstage else d.cstage) = t.stage
        then some d else none

/-- A queue of which an end may be bound: the states that R132 refuses are Draining, Closed and Orphaned. An instance that
its consumer team has taken with it keeps the state it had, so a bind is accepted and a push through it faults: DESIGN
CHOICE, the manual does not speak of a QBIND of a destroyed instance (log entry 64). -/
def QueueInst.bindable (q : QueueInst) : Bool :=
  q.state != .draining && q.state != .closed && q.state != .orphaned

def execQbind (d a : Reg) (m : BitVec 3) (s : State) : Out :=
  runShared 127 [(a, 1)] 1 (fun c s0 s rows =>
    let id := (src rows 0).get (lowest c.act)
    let producer := m.toNat == 1
    match s.team? c.gr.team with
    | none => s0
    | some t => match if (portOf c.gr d).isSome then none else bindTarget s t id.toNat producer with
      | none => misuse s0 c (id.setWidth 64)
      | some desc =>
        let r := ensureQueue s t.launch (id.toNat / 2 ^ 24 % 32) (id.toNat % 2 ^ 24) desc
        match r.2.queue? r.1 with
        | none => s0
        | some q =>
          if !q.bindable then misuse s0 c (id.setWidth 64)
          else
            let s := r.2.modQueue r.1 fun q => q.bindEnd producer
            let s := s.modGroup c.g fun g => setPort g (d.toNat - 120) (some ⟨r.1, id, producer⟩)
            finish s c false) s

def execQclose (a : Reg) (s : State) : Out :=
  runShared 127 [] 1 (fun c s0 s _ =>
    match portOf c.gr a with
    | none => misuse s0 c (unboundValue a)
    | some p =>
      let s := s.modQueue p.inst fun q => q.closeEnd p.producer
      settlePops (finish (s.modGroup c.g fun g => setPort g (a.toNat - 120) none) c false)) s

/-- The word of Table 5-9. A producer port of a destroyed instance shows its last state and COUNT 0: DESIGN CHOICE, the
manual does not say (log entry 64). -/
def queueStat (s : State) (g : Group) (a : Reg) : Word :=
  match portOf g a with
  | none => BitVec.ofNat 32 (7 * 2 ^ 29)
  | some p => match s.queue? p.inst with
    | none => BitVec.ofNat 32 (7 * 2 ^ 29)
    | some q => BitVec.ofNat 32 (q.state.code * 2 ^ 29 + bit p.producer * 2 ^ 28 + bit q.lost * 2 ^ 27
        + bit q.desc.uni * 2 ^ 26 + q.entries.length * 2 ^ 13 + q.cap)

def execQstat (d a : Reg) (s : State) : Out :=
  runReg d [] noExtra (fun c s _ => .ok ⟨.u (queueStat s c.gr a), sameThread⟩) s

/-- The QTRY status of a queue that holds no entry (Table 5-8). -/
def tryStatus (q : QueueInst) : Word :=
  match q.state with
  | .closed | .draining => 2
  | .orphaned => 3
  | _ => if q.producers = 0 ∧ q.lost then 3 else 0

def execQtry (d a : Reg) (s : State) : Out :=
  runShared d [] 2 (fun c s0 s _ =>
    match portOf c.gr a with
    | none => misuse s0 c (unboundValue a)
    | some p =>
      if p.producer then misuse s0 c (p.ident.setWidth 64)
      else if orderedOut c.gr then s0
      else match portQueue s p with
        | none => misuse s0 c (p.ident.setWidth 64)
        | some q =>
          let has := !q.entries.isEmpty
          let word : Row := if has then entryRow q (q.entries.headD []) else .u 0
          let st : Word := if has then 1 else tryStatus q
          let s := if has then s.modQueue p.inst QueueInst.pop else s
          let s := if d.toNat < 120 then s.modGroup c.g fun g =>
              let full := fullWrite g c.act
              writeName (writeName g c.act full d.toNat word) c.act full (d.toNat + 1) (.u st)
            else s
          finish (balanceRows s c.g (entriesOf c (namesOf d 2))) c (wholeWrite c.gr c.act && q.desc.uni)) s

/-! ## TSPAWN (R136) -/

/-- The die whose queue a lane's task goes to, as it can be seen at issue. Where the walk for the record of `tspawn.home` fails,
VALUE of a queue-misuse fault names the queue of the issuing die: DESIGN CHOICE, no die homes the record (log entry 67). -/
def spawnDie (s : State) (c : Ctl) (m : BitVec 3) (record : VA) : Nat :=
  if m.toNat = 0 then dieOfGroup c.g
  else match walk s c.gr.ctx record.toNat with
    | .ok e => homeDie e record.toNat
    | .error _ => dieOfGroup c.g

def execTspawn (a b : Reg) (m : BitVec 3) (s : State) : Out :=
  runMem { fs := [(a, 2), (b, 2)], d := 127, k := 1, flag := fun _ => none, uni := fun _ => false, once := fun _ => false
           fixed := true
           req := fun c s rows l =>
             let entry := pairAddr (src rows 0) (src rows 1) l
             let rec_ := pairAddr (src rows 2) (src rows 3) l
             let passed := ((c.gr.skipCmp.filter fun p => has p.2 l).map (·.1))
             let op : AccOp := .spawn entry (if m.toNat = 0 then some (dieOfGroup c.g) else none) passed
             let pre : Option (BitVec 8 × BitVec 64) :=
               if (imageOfEntry (s.ctx c.gr.ctx) entry).isNone then
                 some (0x26, (queueIdent 1 0 (spawnDie s c m rec_)).setWidth 64)
               else if rec_.toNat % 64 ≠ 0 then some (0x24, rec_.setWidth 64)
               else none
             ⟨⟨l, rec_, 64, op, false⟩, pre⟩ } s

/-! ## KLAUNCH (R156) -/

def execKlaunch (d a : Reg) (s : State) : Out :=
  withIssue s fun c s =>
    let fs : List Src := [(a, 2)]
    withDeps s c (fun l => pendingName c.gr l (allNames fs d)) fun s =>
      withRows s c (allNames fs d) fun s => withSources s c fs d fun rows s =>
        if orderedOut c.gr then s
        else
          let l := lowest c.act
          let va := pairAddr (src rows 0) (src rows 1) l
          let bad := if va.toNat % 64 ≠ 0 then some ((0x24 : BitVec 8), va.setWidth 64) else none
          let req : LaneReq := ⟨⟨l, va, 64, .klaunch d c.act (dieOfGroup c.g), false⟩, bad⟩
          let f : MemForm := { fs := fs, d := d, k := 1, flag := fun _ => none, uni := fun _ => true, once := fun _ => true
                               fixed := true, req := fun _ _ _ _ => req }
          withChecks s c ((lanesOf c.act).map fun i => { req with acc := { req.acc with lane := i } }) fun s es =>
            issueAccesses s c f rows es id

/-! ## BINCNT and BINPATCH (R129, R137, R138) -/

/-- Act on the bins lane by lane: the old values and the team after. -/
def binLanes (set : Bool) (bin val : Nat → Word) : List Nat → Team → List (Nat × Word) × Team
  | [], t => ([], t)
  | l :: ls, t =>
    let i := (bin l).toNat % 256
    let old := (tget t.bins i).getD 0
    let r := binLanes set bin val ls { t with bins := tset t.bins i (if set then val l else old + val l) }
    ((l, old) :: r.1, r.2)

def execBincnt (d a b : Reg) (m : BitVec 3) (s : State) : Out :=
  runShared d [(a, 1), (b, 1)] 1 (fun c s0 s rows =>
    match s.team? c.gr.team with
    | none => s0
    | some t =>
      let r := binLanes (m.toNat == 1) (src rows 0).get (src rows 1).get (lanesOf c.act) t
      let val l : Word := match r.1.find? (·.1 == l) with
        | some p => p.2
        | none => 0
      let row : Row := if (lanesOf c.act).length = 1 then .u (val (lowest c.act)) else .g (perLane val)
      writeOut (s.setTeam c.gr.team r.2) c d rows ⟨row, sameThread⟩) s

/-- A held command with a new length: bytes of a copy, or blocks of an MMA in KB (R138). -/
def patchHeld (h : HeldCmd) (n : Word) : HeldCmd :=
  match h with
  | .cpy g l o sr ds sp _ bar w => .cpy g l o sr ds sp n.toNat bar w
  | .cpyr g l o sr r _ bar w => .cpyr g l o sr r n.toNat bar w
  | .mma f c t w => .mma f (BitVec.ofNat 32 (c.toNat % 2 ^ 8 + n.toNat % 2 ^ 16 * 2 ^ 8 + c.toNat / 2 ^ 24 * 2 ^ 24)) t w

/-- The length fits the held command: a copy's is a word, an MMA's at most 1,024 blocks. -/
def patchFits (h : HeldCmd) (n : Word) : Bool :=
  match h with
  | .mma .. => decide (n.toNat ≤ 1024)
  | _ => true

/-- What BINPATCH has done lane by lane: the held list, the released commands with their indices, the lanes that name
no held command, and the first released MMA whose K extent is too long. -/
structure PatchOut where
  team : Team
  released : List (Nat × HeldCmd)
  bad : List Nat
  long : Option (Nat × Word)

/-- One lane of BINPATCH. -/
def patchLane (keep : Bool) (bin ctl : Nat → Word) (p : PatchOut) (l : Nat) : PatchOut :=
  let w := (ctl l).toNat
  let i := w % 256
  match if w / 2 ^ 13 ≠ 0 then none else tget p.team.held i with
  | none => { p with bad := p.bad ++ [l] }
  | some h =>
    let n : Word := (tget p.team.bins ((bin l).toNat % 256)).getD 0 <<< (w / 256 % 32)
    let h' := patchHeld h n
    if keep then { p with team := { p.team with held := tset p.team.held i h' } }
    else
      let long := match p.long, patchFits h n, h' with
        | none, false, .mma _ c _ _ => some (l, c)
        | x, _, _ => x
      { p with team := { p.team with held := terase p.team.held i }, released := p.released ++ [(i, h')], long := long }

/-- Released commands in ascending held index. -/
def sortHeld : List (Nat × HeldCmd) → List (Nat × HeldCmd)
  | [] => []
  | x :: xs => insert x (sortHeld xs)
where insert (x : Nat × HeldCmd) : List (Nat × HeldCmd) → List (Nat × HeldCmd)
  | [] => [x]
  | y :: ys => if x.1 ≤ y.1 then x :: y :: ys else y :: insert x ys

/-- A held copy of these released commands, its ring reserved in turn. -/
def releaseCopies (s : State) (ctx team : Nat) (e : Option Nat) : List HeldCmd → List Copy × State
  | [] => ([], s)
  | .cpy g l o sr ds sp n bar w :: hs =>
    let r := releaseCopies s ctx team e hs
    (newCopy ctx team sr (if sp then .scratch team ds.toNat else .mem ds) n bar (.lane g o l) w :: r.1, r.2)
  | .cpyr g l o sr ring n bar w :: hs =>
    match e with
    | none => releaseCopies s ctx team e hs
    | some e' =>
      let x := reserveRing s e' ring n
      let r := releaseCopies x.2 ctx team e hs
      (newCopy ctx team sr (.ring e' ring x.1) n bar (.lane g o l) w :: r.1, r.2)
  | .mma .. :: hs => releaseCopies s ctx team e hs

/-- The ring bytes that released commands reserve. -/
def heldNeeds (hs : List HeldCmd) : List (Nat × Nat) :=
  ringNeeds (hs.filterMap fun h => match h with
    | .cpyr _ _ _ _ r n _ _ => some (r, n)
    | _ => none)

def HeldCmd.isMma : HeldCmd → Bool
  | .mma .. => true
  | _ => false

/-- Release commands (R130, R138, R317, R324): copies start, matrix commands are appended; the whole instruction stalls
while a place, ring space or queue room is missing. -/
def releaseHeld (s0 s : State) (c : Ctl) (t : Team) (p : PatchOut) : State :=
  let hs := (sortHeld p.released).map (·.2)
  let mmas := (p.released.map (·.2)).filter HeldCmd.isMma
  let copies := hs.filter fun h => !h.isMma
  let engineWork := copies.length != hs.length || !(heldNeeds hs).isEmpty
  let e := match teamEngine s t with
    | .ok e => some e
    | _ => none
  if engineWork && e.isNone then s0
  else match e.bind fun e => ringFault (s.engine e) (heldNeeds hs) with
    | some r => faultHere s0 c ⟨0x2C, c.act, BitVec.ofNat 64 r, 0⟩
    | none =>
      let places := copyPlaces s c.gr.ctx (dieOfGroup c.g) copies.length
      let noRoom := match e with
        | some e => !ringRoom (s.engine e) (heldNeeds hs) || decide (256 < (s.engine e).queue.length + mmas.length)
        | none => false
      if places.length < copies.length || noRoom || (orderedOut c.gr && !mmas.isEmpty) then s0
      else
        let s := s.setTeam c.gr.team p.team
        let x := releaseCopies s c.gr.ctx c.gr.team e copies
        let s := addCopies x.2 x.1 places
        let s := mmas.foldl (fun s h => match h, e with
          | .mma f k tab w, some e => appendCmd s e (newCmd 1 c.gr.team f k 0 0 none tab w)
          | _, _ => s) s
        finish s c false

def execBinpatch (a b : Reg) (m : BitVec 3) (s : State) : Out :=
  runShared 127 [(a, 1), (b, 1)] 1 (fun c s0 s rows =>
    match s.team? c.gr.team with
    | none => s0
    | some t =>
      let p := (lanesOf c.act).foldl (patchLane (m.toNat == 1) (src rows 0).get (src rows 1).get) ⟨t, [], [], none⟩
      match p.bad with
      | l :: _ =>
        let v := BitVec.ofNat 64 (0xE0000100 + ((src rows 1).get l).toNat % 256)
        faultHere s0 c ⟨0x26, maskOf fun l => p.bad.contains l, v, c.word⟩
      | [] => match p.long with
        | some (l, w) => faultHere s0 c ⟨0x2B, 1 <<< l, 72, w⟩
        | none => releaseHeld s0 s c t p) s

end Sys2Proof.Machine
end

