-- ==== Sys2Proof/Machine/Requests.lean ====
section
/-! DEFINITION. The management requests of Table 4-15 ("Contexts", R83, R85, R96, R108 to R112; "Kernels", R141; "Pages:
Translation, Classes and Bias", R260, R273, R274; "Debug, Trace and Profiling", R381, R388, R392; "Links", R373, R378;
"Start-up, Checking and Error Handling", R399, R403, R404; R19, R124, R269). -/
namespace Sys2Proof.Machine

/-! ## CREATE (R141) -/

/-- The task-queue arguments of die `d`; in minimal mode the dies other than VS0 have none. -/
def taskArgs (s : State) (r : Request) (size d : Nat) : List ArgCheck :=
  let p := r.arg (64 + 8 * d) 8
  [(64 + 8 * d, !(s.boot.minimal && d != 0) && (p % size != 0 || badBuffer s p size || p / 2 ^ 37 != d || (p + size - 1) / 2 ^ 37 != d))]

def createBad (s : State) (r : Request) : List ArgCheck :=
  let n := r.arg 41 1
  let k := r.arg 40 1
  let size := 128 * 2 ^ min k 20
  [(8, r.arg 8 8 % 2 ^ 21 != 0 || badBuffer s (r.arg 8 8) (2 ^ 21)), (16, r.arg 16 8 % 2 ^ 20 != 0 || badBuffer s (r.arg 16 8) (2 ^ 20)),
    (24, r.arg 24 8 % 4096 != 0), (32, r.arg 32 8 % 4096 != 0 || decide (2 ^ 57 < r.arg 24 8 % 2 ^ 57 + r.arg 32 8)),
    (40, decide (k < 10) || decide (20 < k)), (41, n == 0 || decide (64 < n)), (42, decide (2 ≤ r.arg 42 1)), (43, r.arg 43 1 != 0),
    (44, decide (4095 < r.arg 44 2)), (46, r.arg 46 2 == 0), (48, badBuffer s (r.arg 48 8) (8 * n))]
    ++ (List.range 4).flatMap (taskArgs s r size)
    ++ (List.range 4).map fun d => let v := r.arg (96 + 8 * d) 8; (96 + 8 * d, v % size != 0 || decide (2 ^ 32 < v + size))

/-- The context as CREATE makes it; its event ring's registers are system software's own. -/
def createdContext (old : Context) (r : Request) : Context :=
  { Context.free with
    state := .loading, root := r.arg 8 8, stopArea := r.arg 16 8, poolBase := r.arg 24 8 % 2 ^ 57, poolLen := r.arg 32 8
    taskK := r.arg 40 1, taskPhys := (List.range 4).map fun d => r.arg (64 + 8 * d) 8
    taskVirt := (List.range 4).map fun d => r.arg (96 + 8 * d) 8, sd := r.arg 42 1 == 1, grace := r.arg 44 2, btmo := r.arg 46 2
    tvec := BitVec.ofNat 57 (r.arg 56 8), ring := old.ring }

/-- The lowest context number that is free and that no KILL still names. -/
def freeNumber (s : State) : Option Nat := (List.range 256).find? fun c =>
  (s.ctx c).state == .free && !s.mgmt.inflight.any fun q => q.opcode == 2 && q.started && q.arg 8 1 == c

/-- In minimal mode, a page of an image is homed off VS0 (R397). -/
def farImage (s : State) (c b : Nat) : Bool :=
  s.boot.minimal && (let m := parseImage b (imageRead s c b 128)
    let far (o n : Nat) : Bool := (List.range ((o % 4096 + n + 4095) / 4096)).any fun i =>
      farPage s c (BitVec.ofNat 57 (b + (o - o % 4096) + 4096 * i))
    farPage s c (BitVec.ofNat 57 b) || far m.codeoff m.codesize || far m.dataoff m.datasize || far m.liveoff (64 * m.livecnt))

/-- The images are checked in order; the first refusal returns the context to Free, otherwise their code pages are pinned. -/
def loadImages (s : State) (r : Request) (c : Nat) : State :=
  let bases := (List.range (r.arg 41 1)).map fun i => leNat (mread s.mem (r.arg 48 8 + 8 * i) 8) % 2 ^ 57
  let lines := (List.range (r.arg 41 1)).any fun i => lineLost s (r.arg 48 8 + 8 * i)
  if lines || bases.any (fun b => farImage s c b) then complete (s.setCtx c { Context.free with ring := (s.ctx c).ring }) r 2 48 []
  else match (bases.map fun b => imageRefusal s c b).findIdx? (· != 0) with
  | some i =>
    let code := imageRefusal s c (bases.getD i 0)
    complete (s.setCtx c { Context.free with ring := (s.ctx c).ring }) r 5 (code + 256 * i) []
  | none =>
    let ims := bases.map fun b => parseImage b (imageRead s c b 128)
    let units := (ims.flatMap fun m => codeUnits s c m).eraseDups
    let s := s.modCtx c fun x => { x with images := ims, pinned := units.map (·.1) }
    modReq s r fun q => { q with waiting := units.map (fun u => 4 * u.1 + u.2), phase := 2 }

/-- Pin the code pages that are not yet Pin-ReadOnly, each after the transition in progress at it; then the context is
Ready. -/
def pinCode (s : State) (r : Request) (c : Nat) : State :=
  let open_ (s : State) (w : Nat) : Bool := (tget s.transits (w / 4)).isSome || (s.classOf (w / 4)).cls != 6
  let s := (r.waiting.filter (open_ s)).foldl (fun s w =>
    if (tget s.transits (w / 4)).isSome then s else startTransit s (w / 4) 6 (w % 4) (.load c)) s
  let left := r.waiting.filter (open_ s)
  if left.isEmpty then complete (s.modCtx c fun x => { x with state := .ready }) r 0 0 [BitVec.ofNat 8 c]
  else modReq s r fun q => { q with waiting := left }

def runCreate (s : State) (r : Request) : State :=
  let c := (r.result.headD 0).toNat
  match r.phase with
  | 0 => match freeNumber s with
    | none => complete s r 6 0 []
    | some c => modReq (s.setCtx c (createdContext (s.ctx c) r)) r fun q => { q with result := [BitVec.ofNat 8 c], phase := 1 }
  | 1 => loadImages s r c
  | _ => pinCode s r c

/-- CREATE. -/
def execCreate (s : State) : Out := requestEvent 0x01 createBad runCreate s

/-! ## KILL, RESUME, DEBUG-HALT (Table 4-2, R84, R112, R388) -/

/-- The arguments of a request that names a context in byte 8 alone. -/
def ctxArgs (_ : State) (r : Request) : List ArgCheck := zeroArgs r 9 128

/-- Earlier requests for the context complete with INVALID-STATE. -/
def overrideEarlier (s : State) (r : Request) (c : Nat) : State :=
  ((earlier s r).filter fun q => q.ctx? == some c).foldl (fun s q => invalidCtx s q c) s

def runKill (s : State) (r : Request) : State :=
  let c := r.arg 8 1
  match r.phase with
  | 2 => if (s.ctx c).state = .free then completeOk s r else s
  | p =>
    if (s.ctx c).state = .free then invalidCtx s r c
    else if killWaits s c then
      if p = 0 then modReq (overrideEarlier s r c) r fun q => { q with phase := 1 } else s
    else
      let s := if (s.ctx c).state = .killed then s else killContext s c
      modReq (overrideEarlier s r c) r fun q => { q with phase := 2 }

/-- KILL. -/
def execKill (s : State) : Out := requestEvent 0x02 ctxArgs runKill s

def runResume (s : State) (r : Request) : State :=
  let c := r.arg 8 1
  if (s.ctx c).state ≠ .halted then invalidCtx s r c
  else if !(s.ctx c).ring.held.isEmpty then complete s r 3 0 []
  else completeOk (resumeContext s c) r

/-- RESUME. -/
def execResume (s : State) : Out := requestEvent 0x03 ctxArgs runResume s

def runDebugHalt (s : State) (r : Request) : State :=
  let c := r.arg 8 1
  if r.phase = 0 then
    if (s.ctx c).state ≠ .running then invalidCtx s r c
    else
      let s := s.modCtx c fun x =>
        { x with state := .halting, firstFault := some debugHaltFault, firstUnit := none, summary := none, haltTime := s.time }
      modReq s r fun q => { q with phase := 1 }
  else if (s.ctx c).state = .halted then completeOk s r
  else s

/-- DEBUG-HALT. -/
def execDebugHalt (s : State) : Out := requestEvent 0x04 ctxArgs runDebugHalt s

/-! ## ASSIGN, PARTITION, QASSIGN (R85, R111) -/

/-- Ready, Saved, Halted or Free. -/
def settled (x : CtxState) : Bool :=
  match x with
  | .ready | .saved | .halted | .free => true
  | _ => false

def assignBad (_ : State) (r : Request) : List ArgCheck := [(9, decide (7 < r.arg 9 1))] ++ zeroArgs r 10 128

def runAssign (s : State) (r : Request) : State :=
  let c := r.arg 8 1
  let p := r.arg 9 1
  if !settled (s.ctx c).state ∨ (s.ctx c).state = .free then invalidCtx s r c
  else if (s.parts[p % 8]'(Nat.mod_lt _ (by decide))).mask = 0 then complete s r 6 0 []
  else completeOk (s.modCtx c fun x => { x with assigned := some p }) r

/-- ASSIGN. -/
def execAssign (s : State) : Out := requestEvent 0x05 assignBad runAssign s

/-- Masks disjoint and together 0xFF, time slices within 500 to 100,000 µs. -/
def partitionBad (s : State) (r : Request) : List ArgCheck :=
  let m (p : Nat) : Nat := r.arg (8 + p) 1
  let slices (p : Nat) : List Nat := (List.range 8).filter fun i => m p / 2 ^ i % 2 == 1
  let clash (p : Nat) : Bool := (List.range p).any fun j => (slices p).any (slices j).contains
  let whole := (List.range 8).all fun i => (List.range 8).any fun p => (slices p).contains i
  [(8, !whole || s.boot.minimal)] ++ (List.range 8).map (fun p => (8 + p, clash p))
    ++ (List.range 8).map (fun p => (16 + 4 * p, decide (r.arg (16 + 4 * p) 4 < 500) || decide (100000 < r.arg (16 + 4 * p) 4)))
    ++ zeroArgs r 48 128

def runPartition (s : State) (r : Request) : State :=
  match (List.range 256).find? fun c => !settled (s.ctx c).state with
  | some c => invalidCtx s r c
  | none =>
    completeOk { s with parts := Vector.ofFn fun p =>
      { mask := BitVec.ofNat 8 (r.arg (8 + p.val) 1), slice := r.arg (16 + 4 * p.val) 4 } } r

/-- PARTITION. -/
def execPartition (s : State) : Out := requestEvent 0x06 partitionBad runPartition s

def qassignBad (_ : State) (r : Request) : List ArgCheck := [(8, decide (255 < r.arg 8 2))] ++ zeroArgs r 11 128

def runQassign (s : State) (r : Request) : State :=
  let q := r.arg 8 2
  let c := r.arg 10 1
  let h := s.hostQueue q
  if c = 255 then
    match h.state with
    | .bound | .closed => completeOk (s.modHostQueue q fun h => { h with state := .unbound, ctx := 0, en := false }) r
    | _ => invalidQueue s r q
  else if (s.ctx c).state = .free ∨ (s.ctx c).state = .killed then invalidCtx s r c
  else if h.state ≠ .unbound then invalidQueue s r q
  else completeOk (s.modHostQueue q fun h => { h with state := .bound, ctx := c, en := false }) r

/-- QASSIGN. -/
def execQassign (s : State) : Out := requestEvent 0x07 qassignBad runQassign s

/-! ## INVAL (R260) -/

def invalBad (_ : State) (r : Request) : List ArgCheck :=
  zeroArgs r 9 16 ++ [(16, r.arg 16 8 % 4096 != 0 || decide (2 ^ 57 ≤ r.arg 16 8)),
    (24, r.arg 24 8 % 4096 != 0 || decide (2 ^ 57 < r.arg 16 8 + r.arg 24 8))] ++ zeroArgs r 32 128

/-- Some access of the context has been translated and waits, at a home or for the host's or another module's response. -/
def accessOut (s : State) (c : Nat) : Bool :=
  let out (p : Word) : Bool := waitsAtHome s p || s.messages.any (·.party == p)
  s.groups.any (fun p => p.2.ctx == c && (out (groupParty s p.1) || out (rowParty s p.1 true) || out (rowParty s p.1 false) || out (depositParty s p.1) || s.hostPending.contains p.1
      || (p.2.ops.any (fun o => o.isSst || o.stream.isSome) && out (streamParty s p.1))))
    || s.copies.any (fun p => p.2.ctx == c && out (copyParty s p.2))
    || (contextEngines s c).any (fun p => match headCmd s p.1 with
      | some (_, t) => out (engineParty s p.1 t)
      | none => false)
    || (commandParties s c).any out

/-- INVAL completes at an instant at which no access of the context waits under a translation: from then on no TLB holds one of
the range, and no walk that has failed for it, or is still to be made, is remembered (R260). An access that does not wait
performs at the instant at which it translates. -/
def runInval (s : State) (r : Request) : State :=
  let c := r.arg 8 1
  let a := r.arg 16 8
  let n := r.arg 24 8
  if (s.ctx c).state = .free then invalidCtx s r c
  else if accessOut s c then s
  else
    let s := { s with
      tlbs := tmap s.tlbs fun _ l => l.filter fun e => e.ctx != c || disjointRanges e.page e.size a n
      failed := s.failed.filter fun w => w.ctx != c || disjointRanges w.page 4096 a n }
    completeOk s r

/-- INVAL. -/
def execInval (s : State) : Out := requestEvent 0x10 invalBad runInval s

/-! ## UNCLASS, PIN, UNPIN (R274, Table 11-6) -/

/-- The classed unit that covers an address, or its granule. -/
def unitAt (s : State) (pa : Nat) : Nat × ClassEntry := (coverOf s (pa / 4096)).getD (pa / 4096, s.classOf (pa / 4096))

/-- The physical range that a page request names. -/
def pageRange (s : State) (r : Request) : Nat × Nat :=
  let a := r.arg 16 8
  if r.opcode = 0x14 then (a, r.arg 24 8)
  else if r.opcode = 0x15 then (a - a % 4096, 4096)
  else if r.opcode = 0x12 then (4096 * unitHead (a / 4096) (r.arg 25 1), 4096 * unitGranules (r.arg 25 1))
  else let u := unitAt s a; (4096 * u.1, 4096 * unitGranules u.2.unit)

/-- Another page request for an overlapping range is in progress. -/
def pageBusy (s : State) (r : Request) : Bool :=
  let x := pageRange s r
  s.mgmt.inflight.any fun q => q.n != r.n && q.started && [0x11, 0x12, 0x13, 0x14, 0x15].contains q.opcode
    && (let y := pageRange s q; !disjointRanges x.1 x.2 y.1 y.2)

/-- A request in the arrival order at a home. -/
def requestParty (r : Request) : Word := BitVec.ofNat 32 (7 * 2 ^ 29 + 1 + r.n % 2 ^ 20)

/-- A request waits at the home of unit `u`, and in no other arrival order: behind a transition in progress there, earlier parties and a
flip to device bias (R274). At its turn it takes its place no more. -/
def requestTurn (s : State) (r : Request) (u : Nat) : State × Bool :=
  let t := takeTicket (keepTicket s u (requestParty r)) u (requestParty r)
  if (tget s.transits u).isSome || !t.2 || flipHolds s u then (t.1, false) else (dropTicket t.1 u (requestParty r), true)

/-- The transition at `u` that this request triggered is in progress. -/
def ownTransit (s : State) (r : Request) (u : Nat) : Bool :=
  match tget s.transits u with
  | some t => t.trigger == .request r.n
  | none => false

/-- At the request's turn in the arrival order of its unit, `act` names the unit's new class and size, or the end of the
request; then the transition runs, and the request completes with it. -/
def transitRequest (act : State → Request → Nat → ClassEntry → Except Nat (Nat × Nat)) (unit : State → Request → Nat × ClassEntry)
    (s : State) (r : Request) : State :=
  if r.phase = 2 then
    if ownTransit s r (r.waiting.headD 0) then s else completeOk s r
  else if r.phase = 0 && pageBusy s r then complete s r 3 0 []
  else
    let u := unit s r
    let t := requestTurn s r u.1
    if !t.2 then modReq t.1 r fun q => { q with phase := 1 }
    else match act s r u.1 u.2 with
      | .error 0 => completeOk t.1 r
      | .error o => complete t.1 r 2 o []
      | .ok (cls, code) =>
        let s := startTransit t.1 u.1 cls code (.request r.n)
        if ownTransit s r u.1 then modReq s r fun q => { q with waiting := [u.1], phase := 2 } else completeOk s r

def addrBad (s : State) (r : Request) : List ArgCheck := zeroArgs r 8 16 ++ [(16, badAddr s (r.arg 16 8))]

def unclassBad (s : State) (r : Request) : List ArgCheck :=
  addrBad s r ++ [(16, decide (4 ≤ (unitAt s (r.arg 16 8)).2.cls))] ++ zeroArgs r 24 128

/-- UNCLASS: to Untouched; a pin is left alone. -/
def execUnclass (s : State) : Out :=
  requestEvent 0x11 unclassBad (transitRequest (fun _ _ _ e => if 4 ≤ e.cls then .error 16 else .ok (0, 0)) fun s r =>
    unitAt s (r.arg 16 8)) s

def pinBad (s : State) (r : Request) : List ArgCheck :=
  addrBad s r ++ [(16, decide (r.arg 25 1 ≤ 2) && sizeClash s (r.arg 16 8 / 4096) (r.arg 25 1)), (24, decide (r.arg 24 1 < 4) || decide (6 < r.arg 24 1)),
    (25, decide (2 < r.arg 25 1))] ++ zeroArgs r 26 128

/-- PIN: to the named pin, at the size that the request names. -/
def execPin (s : State) : Out :=
  requestEvent 0x12 pinBad (transitRequest
    (fun s r _ _ => if sizeClash s (r.arg 16 8 / 4096) (r.arg 25 1) then .error 16 else .ok (r.arg 24 1, r.arg 25 1))
    fun s r => let u := unitHead (r.arg 16 8 / 4096) (r.arg 25 1); (u, s.classOf u)) s

def unpinBad (s : State) (r : Request) : List ArgCheck := addrBad s r ++ zeroArgs r 24 128

/-- UNPIN: a pin goes to Untouched. A unit under host bias keeps its bias bits, here and at a PIN to another class: DESIGN CHOICE, R272
says that its class is Pin-Shared and not what these requests do to it (log entry 107). -/
def execUnpin (s : State) : Out :=
  requestEvent 0x13 unpinBad (transitRequest (fun _ _ _ e => if e.cls < 4 then .error 0 else .ok (0, 0)) fun s r =>
    unitAt s (r.arg 16 8)) s

/-! ## BIAS (R272, R273) -/

/-- A classed unit lies only in part in the range. -/
def partUnit (s : State) (a n : Nat) : Bool := s.classes.any fun p =>
  let b := 4096 * p.1
  let m := 4096 * unitGranules p.2.unit
  p.2.cls != 0 && !disjointRanges a n b m && !(decide (a ≤ b) && decide (b + m ≤ a + n))

def biasBad (s : State) (r : Request) : List ArgCheck :=
  let a := r.arg 16 8
  let n := r.arg 24 8
  zeroArgs r 8 16 ++ [(16, a % 4096 != 0 || badAddr s a || partUnit s a n),
    (24, n % 4096 != 0 || decide (2 ^ 39 < a + n) || (s.boot.minimal && decide (2 ^ 37 < a + n))), (32, decide (1 < r.arg 32 1)),
    (33, r.arg 33 1 != 0 && (decide (r.arg 33 1 < 4) || decide (6 < r.arg 33 1)))] ++ zeroArgs r 34 128

/-- The granules of a unit. -/
def granules (s : State) (u : Nat) : List Nat := (List.range (unitGranules (s.classOf u).unit)).map (u + ·)

/-- The unit at which a flip acts next: that of the lowest granule of its range whose bias bit it has to change. A unit that an access
has classed since the request was checked, and that reaches out of the range, flips whole: DESIGN CHOICE (log entry 106). -/
def nextFlip (s : State) (r : Request) : Option Nat :=
  (((List.range (r.arg 24 8 / 4096)).map (r.arg 16 8 / 4096 + ·)).find? fun g => s.bias.contains g != (r.arg 32 1 == 1)).map fun g =>
    ((coverOf s g).map (·.1)).getD g

/-- The transition of unit `u` that a flip makes, and what follows it. -/
def flipClass (s : State) (r : Request) (u cls code : Nat) (after : State → State) : State :=
  let s := startTransit s u cls code (.request r.n)
  if ownTransit s r u then modReq s r fun q => { q with waiting := [u], phase := 2 } else after s

/-- The end of a flip of unit `u`, whose class is the new one: to host bias, its bits set last. -/
def flipEnd (r : Request) (u : Nat) (s : State) : State :=
  let gs := granules s u
  let s := if r.arg 32 1 = 1 then { s with bias := s.bias ++ gs.filter fun g => !s.bias.contains g } else s
  modReq s r fun q => { q with waiting := [], phase := 1 }

/-- A flip to device bias holds every access to unit `u`: every line that the host may hold is snooped, then the bits clear and the class
is the named one. -/
def flipDevice (s : State) (r : Request) (u : Nat) : State :=
  let gs := granules s u
  let held := s.snoop.filter fun l => gs.contains (l / 64)
  if !held.isEmpty then { s with snoopInv := s.snoopInv ++ held.filter fun l => !s.snoopInv.contains l }
  else
    let cls := r.arg 33 1
    flipClass { s with bias := s.bias.filter fun g => !gs.contains g } r u cls (if cls = 0 then 0 else (s.classOf u).unit) (flipEnd r u)

/-- One event of a BIAS request. Phase 1 looks for the next unit and waits for its turn there, or holds the unit in `waiting`; phase 2 waits
for the transition. -/
def runBias (s : State) (r : Request) : State :=
  match r.phase, r.waiting with
  | 0, _ => if pageBusy s r then complete s r 3 0 [] else modReq s r fun q => { q with phase := 1 }
  | 1, u :: _ => flipDevice s r u
  | 1, [] => match nextFlip s r with
    | none => completeOk (dropTickets s (requestParty r)) r
    | some u =>
      let t := requestTurn s r u
      if !t.2 then t.1
      else if r.arg 32 1 = 1 then flipClass t.1 r u 4 (s.classOf u).unit (flipEnd r u)
      else modReq t.1 r fun q => { q with waiting := [u] }
  | _, w => let u := w.headD 0; if ownTransit s r u then s else flipEnd r u s

/-- BIAS. -/
def execBias (s : State) : Out := requestEvent 0x14 biasBad runBias s

/-! ## CLASSQ, LREC, RETLIST (Table 11-3, R378, R404) -/

/-- The 64 bits of a class entry. -/
def classWord (s : State) (gr : Nat) : Nat :=
  let e := s.classOf gr
  e.cls + 8 * e.unit + 32 * (if e.written then 1 else 0) + 64 * (if (tget s.transits gr).isSome then 1 else 0)
    + 2 ^ 16 * e.owner.toNat + 2 ^ 48 * e.hold.toNat + 2 ^ 56 * (if e.rhold then 1 else 0)

/-- The entry of the granule at the request's turn at its unit; BUSY while another page request for it is in progress. -/
def runClassq (s : State) (r : Request) : State :=
  if r.phase = 0 && pageBusy s r then complete s r 3 0 []
  else
    let t := requestTurn s r (unitAt s (r.arg 16 8)).1
    if t.2 then complete t.1 r 0 0 (leBytes 8 (classWord s (r.arg 16 8 / 4096))) else modReq t.1 r fun q => { q with phase := 1 }

/-- CLASSQ (R274). -/
def execClassq (s : State) : Out := requestEvent 0x15 (fun s r => addrBad s r ++ zeroArgs r 24 128) runClassq s

/-- The bytes of a line of which a holder has dropped stores are what its home's memory has had at some time: free values. -/
def freshLine (s : State) (l : Nat) : State :=
  if s.stale.contains l then
    { s with stale := s.stale.filter (· != l), freeIx := s.freeIx + 32
             mem := mwrite s.mem (128 * l) ((List.range 32).flatMap fun i => wordBytes (Config.freeWord (s.freeIx + i))) }
  else s

/-- LREC: the coherence-lost mark and the poison of a line clear; the line holds its home's memory value. -/
def execLrec (s : State) : Out :=
  requestEvent 0x16 (fun s r => addrBad s r ++ [(16, r.arg 16 8 % 128 != 0)] ++ zeroArgs r 24 128)
    (fun s r =>
      let l := r.arg 16 8 / 128
      completeOk (freshLine { s with coherenceLost := s.coherenceLost.filter (· != l), poison := s.poison.filter (· != l) } l) r) s

/-- RETLIST: the retired granules, ascending, up to the capacity. -/
def execRetlist (s : State) : Out :=
  requestEvent 0x17
    (fun s r => zeroArgs r 8 16 ++ [(16, badBuffer s (r.arg 16 8) (8 * r.arg 24 4))] ++ zeroArgs r 28 128)
    (fun s r =>
      let b := (s.retired.take (r.arg 24 4)).flatMap fun g => leBytes 8 (4096 * g)
      complete { s with mem := mwrite s.mem (r.arg 16 8) b } r 0 0 (leBytes 4 s.retired.length)) s

/-! ## DBGSET, DBGREAD (R381, R391, R392) -/

def parseICmp (b : List Byte) : ICmp :=
  { start := field b 0 8, end_ := field b 8 8, ctl := BitVec.ofNat 8 (field b 16 1), stage := field b 17 1, x := field b 18 2
    y := field b 20 2, z := field b 22 2, skip := field b 24 4 }

def parseDCmp (b : List Byte) : DCmp :=
  { start := field b 0 8, end_ := field b 8 8, ctl := BitVec.ofNat 8 (field b 16 1), value := BitVec.ofNat 32 (field b 20 4)
    skip := field b 24 4 }

/-- A comparator keeps Table 17-2 or 17-3; the range of one that is not enabled does not matter. -/
def icmpOk (b : List Byte) : Bool :=
  let c := parseICmp b
  decide (c.ctl.toNat < 8) && decide (c.stage < 8) && zeroBytes b 28 32
    && (!c.ctl.getLsbD 0 || (c.start % 4 == 0 && c.end_ % 4 == 0 && decide (c.start < c.end_)))

def dcmpOk (b : List Byte) : Bool :=
  let c := parseDCmp b
  decide (c.ctl.toNat < 16) && zeroBytes b 17 20 && zeroBytes b 28 32 && (!c.ctl.getLsbD 0 || decide (c.start < c.end_))

/-- The descriptor keeps Table 17-1; the size of a buffer that is not there does not matter. -/
def descriptorOk (b : List Byte) : Bool :=
  let base := field b 0 8
  let mask := field b 10 2
  let sl := field b 12 1
  (base == 0 || (base % 32 == 0 && decide (8 ≤ field b 8 1) && decide (field b 8 1 ≤ 24) && decide (base + 32 * 2 ^ field b 8 1 ≤ 2 ^ 39)))
    && decide (field b 9 1 < 2) && mask % 2 == 0 && decide (mask < 2 ^ 11) && (sl == 0 || (decide (10 ≤ sl) && decide (sl ≤ 24)))
    && zeroBytes b 13 16 && field b 32 8 % 64 == 0 && decide (field b 32 8 + 880 ≤ 2 ^ 39) && zeroBytes b 40 64
    && (pieces 32 16 (b.drop 64)).all icmpOk && (pieces 32 8 (b.drop 576)).all dcmpOk

/-- In minimal mode the buffers of a descriptor lie in the memory of VS0 (R397). -/
def debugPlace (s : State) (b : List Byte) : Bool :=
  !s.boot.minimal || (decide (field b 0 8 + (if field b 0 8 = 0 then 0 else 32 * 2 ^ field b 8 1) ≤ 2 ^ 37) && decide (field b 32 8 + 880 ≤ 2 ^ 37))

/-- The debug state that a descriptor at `a` sets up, its counters zero. -/
def parseDebug (a : Nat) (b : List Byte) : Debug :=
  { trbase := field b 0 8, trsize := field b 8 1, trmode := field b 9 1 == 1, trmask := BitVec.ofNat 16 (field b 10 2)
    samplog := field b 12 1, trcount := 0, drops := 0, profbase := field b 32 8
    icmp := (pieces 32 16 (b.drop 64)).map parseICmp, dcmp := (pieces 32 8 (b.drop 576)).map parseDCmp
    bins := (pieces 16 16 (b.drop 832)).map fun p => (field p 0 8, field p 8 8)
    counts := [], idle := 0, depevt := 0, runcyc := 0, at_ := a, nextSlot := [] }

def dbgsetBad (s : State) (r : Request) : List ArgCheck :=
  zeroArgs r 9 16 ++ [(16, r.arg 16 8 % 64 != 0 || (r.arg 16 8 != 0 && badBuffer s (r.arg 16 8) 1088))] ++ zeroArgs r 24 128

def runDbgset (s : State) (r : Request) : State :=
  let c := r.arg 8 1
  let a := r.arg 16 8
  let b := mread s.mem a 1088
  if !settled (s.ctx c).state ∨ (s.ctx c).state = .free then invalidCtx s r c
  else if a = 0 then completeOk (s.modCtx c fun x => { x with debug := none, dbg := false }) r
  else if !descriptorOk b || !debugPlace s b || (List.range 9).any (fun i => lineLost s (a + 128 * i)) then complete s r 2 16 []
  else
    let d := parseDebug a b
    let armed := d.icmp.any (·.ctl.getLsbD 0) || d.dcmp.any (·.ctl.getLsbD 0)
    completeOk (endCycles (s.modCtx c fun x => { x with debug := some d, dbg := armed })) r

/-- DBGSET. -/
def execDbgset (s : State) : Out := requestEvent 0x20 dbgsetBad runDbgset s

/-- The lane-cycle record (Table 17-7). -/
def profileRecord (time c : Nat) (d : Debug) : List Byte :=
  leBytes 8 time ++ leBytes 1 c ++ List.replicate 7 0 ++ leBytes 8 d.idle ++ leBytes 8 d.depevt ++ leBytes 8 d.runcyc
    ++ List.replicate 24 0 ++ (List.range 17).flatMap fun b =>
      let k := (tget d.counts b).getD ⟨0, 0, 0, 0, 0, 0⟩
      leBytes 8 k.active ++ leBytes 8 k.masked ++ leBytes 8 k.predoff ++ leBytes 8 k.absent ++ leBytes 8 k.scalar ++ leBytes 8 k.depev

def runDbgread (s : State) (r : Request) : State :=
  let c := r.arg 8 1
  match (s.ctx c).state, (s.ctx c).debug with
  | .free, _ => invalidCtx s r c
  | _, none => complete s r 2 8 []
  | _, some d =>
    if d.profbase = 0 then complete s r 2 8 []
    else
      let s := { s with mem := mwrite s.mem d.profbase (profileRecord s.time c d) }
      let d := if r.arg 9 1 = 1 then { d with counts := [], idle := 0, depevt := 0, runcyc := 0 } else d
      completeOk (endCycles (s.modCtx c fun x => { x with debug := some d })) r

/-- DBGREAD. -/
def execDbgread (s : State) : Out :=
  requestEvent 0x21 (fun _ r => [(9, decide (1 < r.arg 9 1))] ++ zeroArgs r 10 128) runDbgread s

/-! ## MCREAD, ATTEST (R399, R403) -/

/-- The capacity fields of Table 18-3: COREOK, ENGOK, COPYOK and RETIRED. Matrix and copy engines come up in stage 2 (R395). -/
def coresOk (s : State) (d : Nat) : Nat := ((List.range 48).filter fun c => s.coreUsable (48 * d + c)).length

/-- A mask of the 32 units that are up. -/
def okMask (up : Nat → Bool) : Nat := ((List.range 32).map fun i => if up i then 2 ^ i else 0).sum

def coreokWord (s : State) : Nat := ((List.range 4).map fun d => 2 ^ (8 * d) * coresOk s d).sum
def engokWord (s : State) : Nat := if s.boot.minimal || decide (s.boot.stage < 2) then 0 else okMask s.engineUp
def copyokWord (s : State) : Nat := if s.boot.minimal || decide (s.boot.stage < 2) then 0 else okMask s.copyUp

def capacityBytes (s : State) : List Byte :=
  leBytes 4 (coreokWord s) ++ leBytes 4 (engokWord s) ++ leBytes 4 (copyokWord s) ++ leBytes 4 s.retired.length

/-- MCREAD: the bank as it stands, into the buffer. -/
def execMcread (s : State) : Out :=
  requestEvent 0x30
    (fun s r => [(8, decide (191 < r.arg 8 2)), (10, decide (1 < r.arg 10 1))] ++ zeroArgs r 11 16
      ++ [(16, badBuffer s (r.arg 16 8) 32)] ++ zeroArgs r 24 128)
    (fun s r =>
      let n := r.arg 8 2
      let s := { s with mem := mwrite s.mem (r.arg 16 8) (s.bank n).bytes }
      completeOk (if r.arg 10 1 = 1 then { s with banks := terase s.banks n } else s) r) s

/-- What the report of ATTEST contains (R399): the nonce, the serial number and the stepping, the digest and the security version
of each accepted image, and the capacity fields of Table 18-3. -/
def reportParts (s : State) (nonce : List Byte) : List (List Byte) :=
  [nonce, leBytes 8 Config.serial.toNat, [Config.stepping]]
    ++ s.boot.digests.flatMap (fun d => [leBytes 32 d.1.toNat, [d.2]]) ++ [capacityBytes s]

/-- Bytes of the signed report that the manual does not lay out, `k` the place of the gap. -/
def reportGap (tick k : Nat) : List Byte :=
  (List.range (Config.attestLength (tick + 64 * k)).toNat).map fun i => Config.attestByte (tick + 64 * k) i

/-- The signed report with the certificate: its contents, in the rule's order (DESIGN CHOICE, log entry 78), and around them bytes
that are free, the signature and the certificate among them. -/
def attestation (s : State) (nonce : List Byte) : List Byte :=
  (reportParts s nonce).zipIdx.flatMap (fun p => reportGap s.tick p.2 ++ p.1) ++ reportGap s.tick (reportParts s nonce).length

/-- ATTEST (R399): the signed report and the certificate. -/
def execAttest (s : State) : Out :=
  requestEvent 0x31
    (fun s r => [(24, badBuffer s (r.arg 24 8) (r.arg 32 4)), (32, decide (r.arg 32 4 < (attestation s ((r.args.drop 8).take 16)).length))]
      ++ zeroArgs r 36 128)
    (fun s r =>
      let b := attestation s ((r.args.drop 8).take 16)
      complete { s with mem := mwrite s.mem (r.arg 24 8) b } r 0 0 (leBytes 4 b.length)) s

/-! ## POWER, SETPARAM, DOMAIN (R19, R124, R269, R373) -/

/-- POWER: the limit is in force; POWER_CLOCK_STEP then moves the clock. -/
def execPower (s : State) : Out :=
  requestEvent 0x40
    (fun _ r => [(8, decide (r.arg 8 2 < 1400) || decide (2800 < r.arg 8 2))] ++ zeroArgs r 10 128)
    (fun s r => completeOk { s with power := { s.power with limit := r.arg 8 2 } } r) s

/-- SETPARAM: GATHER in ns or QUIET in µs. -/
def execSetparam (s : State) : Out :=
  requestEvent 0x41
    (fun _ r =>
      let v := r.arg 12 4
      [(8, decide (1 < r.arg 8 1))] ++ zeroArgs r 9 12
        ++ [(12, if r.arg 8 1 = 0 then decide (65535 < v) else decide (v < 100) || decide (1000000 < v))] ++ zeroArgs r 16 128)
    (fun s r => completeOk (if r.arg 8 1 = 0 then { s with gather := r.arg 12 4 } else { s with quiet := r.arg 12 4 }) r) s

def runDomain (s : State) (r : Request) : State :=
  match (List.range 256).find? fun c => (s.ctx c).state != .free with
  | some c => invalidCtx s r c
  | none =>
    completeOk { s with
      domain := { own := r.arg 8 1, members := BitVec.ofNat 64 (r.arg 16 8) }
      links := s.links.map fun l => { l with en := true } } r

/-- DOMAIN: the load-store domain, with EN of every Strait link set. -/
def execDomain (s : State) : Out :=
  requestEvent 0x42
    (fun s r => [(8, decide (63 < r.arg 8 1) || s.boot.minimal)] ++ zeroArgs r 9 16
      ++ [(16, r.arg 16 8 / 2 ^ (r.arg 8 1 % 64) % 2 == 0)] ++ zeroArgs r 24 128) runDomain s

end Sys2Proof.Machine
end

