-- ==== Sys2Proof/Machine/Reliability.lean ====
section
/-! DEFINITION. Start-up, errors, triage, the fatal dump and the arithmetic clock ("Start-up, Checking and Error Handling",
R395 to R407; R19). -/
namespace Sys2Proof.Machine

/-! ## Reset and start-up (R395 to R398) -/

/-- The machine after a module reset: everything as after the first one, but for what is nonvolatile or outside the
module: FAILCNT, the fused minimum, withdrawals, retired granules, a held dump, memory, the model's own counters. -/
def resetState (s : State) (failcnt : Nat) : State :=
  { State.reset with
    tick := s.tick, freeIx := s.freeIx, agenda := s.agenda, mem := s.mem, hostMem := s.hostMem, peerMem := s.peerMem
    cores := (s.cores.filter (·.2.withdrawn)).map fun p => (p.1, { Core.reset with withdrawn := true })
    retired := s.retired, nextId := s.nextId, poison := s.poison, coherenceLost := s.coherenceLost, stale := s.stale
    boot := { Boot.reset with
      dumpv := s.boot.dumpv, failcnt := failcnt, svnmin := s.boot.svnmin, engBad := s.boot.engBad, copyBad := s.boot.copyBad
      sharedBad := s.boot.sharedBad } }

/-- MODULE_RESET (R395, R396): minimal mode starts again only at the host's request. -/
def execModuleReset (byHost : Bool) (s : State) : Out :=
  if s.boot.minimal && !byHost then .next s else .next (resetState s s.boot.failcnt)

/-- The one partition of minimal mode: slice 0, of which cores 0 to 3 of VS0 are up (R397). -/
def minimalParts : Vector PartDef 8 := Vector.ofFn fun p => { mask := (if p.val = 0 then 1 else 0), slice := 2000 }

/-- A start has failed (R396): FAILCNT rises; below 3 the module is reset, otherwise it stays in stage 1 in minimal mode. -/
def failStart (s : State) (reason : BitVec 8) : State :=
  let n := min (s.boot.failcnt + 1) 15
  if n < 3 then resetState s n
  else { s with parts := minimalParts, boot := { s.boot with failcnt := n, stage := 1, minimal := true, reason := reason } }

/-- The fused minimum security version: at least that of the highest image accepted (R398). -/
def svnMin (s : State) : BitVec 8 := if s.boot.svnmin < Config.fusedMinimum then Config.fusedMinimum else s.boot.svnmin

/-- The reason for which an image does not verify; 0 for none (R398, Table 18-2). -/
def imageReason (s : State) (i : FirmwareImage) : BitVec 8 := if !i.sigOk then 1 else if i.svn < svnMin s then 2 else 0

/-- The image that runs: the primary, or the backup when the primary does not verify (R398). -/
def chosenImage (s : State) (i : StageImages) : FirmwareImage := if imageReason s i.primary = 0 then i.primary else i.backup

/-- The reason for which a stage fails; 0 for none. When neither image verifies it is that of the backup, which was tried last:
DESIGN CHOICE (log entry 77). -/
def startReason (s : State) (i : FirmwareImage) : BitVec 8 :=
  if imageReason s i ≠ 0 then imageReason s i else if s.boot.sharedBad then 7 else i.testReason

/-- 30 s have passed since the reset (R396). -/
def startLate (s : State) : Bool := decide (30000000000 ≤ s.realTime)

/-- STAGE_ADVANCE (R395, R396, R398): an image of the next stage verifies and its start tests pass, or the start fails; it fails
too when 30 s have passed since the reset. -/
def execStageAdvance (images : StageImages) (s : State) : Out :=
  let b := s.boot
  let i := chosenImage s images
  if 2 ≤ b.stage ∨ b.minimal then .next s
  else if startLate s then .next (failStart s 6)
  else if startReason s i ≠ 0 then .next (failStart s (startReason s i))
  else
    let b := { b with stage := b.stage + 1, fwlevel := i.level, digests := b.digests ++ [(i.digest, i.svn)] }
    .next { s with boot := if b.stage = 2 then { b with failcnt := 0, svnmin := if b.svnmin < i.svn then i.svn else b.svnmin } else b }

/-- START_TIMEOUT (R396): 30 s after reset stage 2 is not reached. -/
def execStartTimeout (s : State) : Out :=
  if s.boot.stage < 2 ∧ !s.boot.minimal ∧ startLate s then .next (failStart s 6) else .next s

/-- Writing 1 to DUMPV frees the dump region. -/
def freeDump (s : State) : State := { s with boot := { s.boot with dumpv := false } }

/-- DUMPV_WRITE (R400, R406). The host reaches no register before stage 1 (R395). -/
def execDumpvWrite (s : State) : Out := .next (if s.boot.stage = 0 then s else freeDump s)

/-! ## Errors (R401, R402, R406, R407) -/

/-- Every partition's halt line asserts: a context that holds one turns Halting. -/
def haltEverything (s : State) : State :=
  let lines : BitVec 8 := (List.range 8).foldl (fun (m : BitVec 8) p =>
    if (s.parts[p % 8]'(Nat.mod_lt _ (by decide))).mask = 0 then m else m ||| 1 <<< p) 0
  let s := s.contexts.foldl (fun s p => match p.2.partition, p.2.state with
    | some _, .running | some _, .saving | some _, .restoring =>
      withdrawAll (clearStopArea (s.modCtx p.1 fun x => { x with state := .halting, haltTime := s.time }) p.1) p.1
    | some q, .halting => if s.haltLine.getLsbD (q % 8) then s else withdrawAll (clearStopArea s p.1) p.1
    | _, _ => s) s
  { s with haltLine := s.haltLine ||| lines }

/-- A Fatal error (R406): before stage 2 the start fails; otherwise every partition halts, the dump follows, and the module
accepts no command until a reset. A second one before the dump is complete cuts it off. -/
def fatalError (s : State) (bank : Nat) : State :=
  match s.fatal with
  | some (bank, time) => if s.boot.stage = 3 then s else writeDump s bank time false
  | none =>
    if s.boot.stage < 2 ∧ !s.boot.minimal then failStart s 8
    else settleFatal (haltEverything { s with fatal := some (bank, s.time) })

/-- The banks that Table 18-4 gives units to; the others are reserved and read zero. -/
def bankExists (n : Nat) : Bool :=
  decide (n < 192) && if 128 ≤ n then decide (n % 32 < 18) else decide (n % 32 < 25) && (n % 32 != 21 || decide (n < 32))

/-- The report can be: its bank is there, and a single-bit error, which ECC corrects, is a Corrected one (R401, R403). -/
def reportOk (e : ErrorReport) : Bool := e.sev != 0 && bankExists e.bank && (e.code != 1 || e.sev == 1)

/-- The line that an uncorrectable error poisons: one of the DRAM, or one elsewhere in the memory system (R402). -/
def poisons (e : ErrorReport) : Bool :=
  decide (2 ≤ e.sev) && (e.poisonLine || (decide (e.bank < 128) && (e.bank % 32 == 17 || e.bank % 32 == 18)))

/-- The operation of a group that met an error writes no result (R401): an SLD is redone at RESUME, like one that faults (R350), the
instruction whose ordered accesses are in progress stands before itself for every lane, and any other operation is lost. -/
def loseGroupOp (s : State) (g : Nat) (gr : Group) (o : Op) : State :=
  let inIssue := (currentOp gr).any fun x => x.id == o.id
  let s := if inIssue || o.stream.isSome then dropTickets s (opParty s g o) else s
  let s := if inIssue then { s with hostPending := s.hostPending.filter (· != g) } else s
  let s := s.modGroup g fun gr =>
    let lost := loseOp gr o
    if inIssue then stopHere { lost with issue := lost.issue.map fun i => { i with op := none } }
    else if o.stream.isSome then { lost with redo := lost.redo ++ [{ o with left := o.again, streamGot := [] }] }
    else lost
  releaseStream s (coreOf g)

/-- The operation of a group that met an error: the one named, or that of its instruction in progress. -/
def metOp (gr : Group) (op : Option Nat) : Option Op :=
  match op with
  | some id => gr.ops.find? (·.id == id)
  | none => currentOp gr

/-- The copy of engine `n` with this tag, when it has not stopped. -/
def metCopy (s : State) (n tag : Nat) : Option (Nat × Copy) :=
  s.copies.find? fun p => p.2.engine == n && p.2.tag == tag && !p.2.stopped

/-- Command `n` of queue `q` is about to start, or waits for a barrier. -/
def cmdActive (s : State) (q n : Nat) (k : HostCmd) : Bool := (waiting s q n).isSome || (startable s q n k.opcode).isSome

/-- The operation, transfer or command that met an error writes no result (R401). -/
def loseResult (s : State) (v : Victim) : State :=
  match v with
  | .none => s
  | .group g op => match s.group? g with
    | none => s
    | some gr => match metOp gr op with
      | some o => loseGroupOp s g gr o
      | none => s.modGroup g stopHere
  | .copy n tag => match metCopy s n tag with
    | some p => (dropTickets s (copyParty s p.2)).modCopy p.1 fun x => { x with buf := [] }
    | none => s
  | .engine n =>
    let s := freeReserved s n
    match headCmd s n with
    | some (_, t) => dropTickets s (engineParty s n t)
    | none => s
  | .command q n => match s.cmd? q n with
    | some k => dropTickets (dropTickets s (cmdParty s q)) (endParty s q k)
    | none => s

/-- At a Fatal error what met it does not go on to the stop of its unit: it stands still from now on, and no fault is its own. -/
def stopVictim (s : State) (v : Victim) : State :=
  match v with
  | .group g _ => match s.group? g with
    | some gr => stopGroup s g gr
    | none => s
  | .copy n tag => match metCopy s n tag with
    | some p => s.modCopy p.1 fun x => { x with stopped := true }
    | none => s
  | .engine n =>
    if (s.engine n).bound.isNone then s else s.modEngine n fun x => { x with state := .stopped, drainPos := 0, reserved := 0 }
  | _ => s

/-- The context takes the contained machine check (R402): in the group, the copy, the engine or the command that met the error; else as
a fault that no unit raised. -/
def containedFault (s : State) (e : ErrorReport) : State :=
  let c := e.ctx
  let v := BitVec.ofNat 64 e.bank
  let lost := loseResult s e.met
  let alone := chargeFault s c 0x29 v 0
  match e.met with
  | .none => alone
  | .group g op => match s.group? g with
    | none => alone
    | some gr =>
      if gr.ctx ≠ c then alone
      else
        let lanes := match metOp gr op with
          | some o => o.lanes
          | none => (gr.issue.map fun i => i.set &&& liveMask gr).getD (liveMask gr)
        groupFault lost g ⟨0x29, lanes, v, 0⟩
  | .copy n tag => match metCopy s n tag with
    | some p => if p.2.ctx = c then copyFault lost p.1 p.2 0x29 v else alone
    | none => alone
  | .engine n => if (contextEngines s c).any (·.1 == n) then engineFault lost n c 0x29 v 0 else alone
  | .command q n =>
    let id := if q < 256 then q else 0
    match s.cmd? q n with
    | none => alone
    | some k =>
      if (s.hostQueue q).ctx ≠ c then alone
      else if cmdActive s q n k then faultCmd lost q n 0x29 v
      else if k.done then dropCmd (chargeFault lost c 0x29 v id) q n
      else match k.launch.bind fun i => (s.launch? i).map fun l => (i, l) with
        | some (i, l) =>
          if l.tasks && decide (l.placed.length < l.taskCount) then noteCause (chargeFault (cutTasks lost i 4) c 0x29 v id) q n
          else alone
        | none => alone

/-- ERROR_DETECTED (R401 to R404, R406): the bank records the error and the block's test is taken up. An uncorrectable error of a
memory line poisons it, so that whoever would read it faults; what met an uncorrectable error writes no result, and a Contained one charges
its context, or that of the lost state, at once. -/
def execErrorDetected (e : ErrorReport) (s : State) : Out :=
  if !reportOk e then .next s
  else
    let s := logTriaged s e.bank e.sev e.code (if e.sev = 2 then BitVec.ofNat 8 e.ctx else 0) e.unit e.addr
    let l := e.addr.toNat / 128
    let s := if poisons e && !s.poison.contains l then { s with poison := l :: s.poison } else s
    if e.sev = 3 then .next (stopVictim (fatalError (loseResult s e.met) e.bank) e.met)
    else if e.sev = 1 || (poisons e && e.met == .none) then .next s
    else .next (containedFault s e)

/-! ## Triage (R404) -/

/-- Insert into an ascending list without repeats. -/
def insertAsc (n : Nat) : List Nat → List Nat
  | [] => [n]
  | m :: t => if n < m then n :: m :: t else if n = m then m :: t else m :: insertAsc n t

/-- The block is idle. -/
def blockIdle (s : State) (b : Block) : Bool :=
  match b with
  | .core k => !s.groups.any fun p => coreOf p.1 == k
  | .copy n => !s.copies.any fun p => p.2.engine == n
  | .engine e => (s.engine e).bound.isNone
  | _ => true

/-- The block is withdrawn for good, and teams bind elsewhere; a granule is retired and its lines poisoned; a lasting failure of
a block that has no test fails the next start. -/
def withdrawBlock (s : State) (b : Block) : State :=
  match b with
  | .core k => withdrawCore s k
  | .granule g =>
    let ls := (List.range 32).map (32 * g + ·)
    { s with retired := insertAsc g s.retired, poison := s.poison ++ ls.filter fun l => !s.poison.contains l }
  | .other _ => { s with boot := { s.boot with sharedBad := true } }
  | .copy n => { s with boot := { s.boot with copyBad := n :: s.boot.copyBad.filter (· != n) } }
  | .engine e =>
    let s := { s with boot := { s.boot with engBad := e :: s.boot.engBad.filter (· != e) } }
    s.cores.foldl (fun s p => withdrawWhere s p.1 (·.engine == e)) s

/-- UNIT and ADDR of a record about a block, those of its bank where the block does not settle them. -/
def blockUnit (b : Block) (u : BitVec 8) : BitVec 8 :=
  match b with
  | .core k => BitVec.ofNat 8 (k % 48)
  | .copy n => BitVec.ofNat 8 (n % 8)
  | _ => u
def blockAddr (b : Block) (a : BitVec 64) : BitVec 64 :=
  match b with
  | .granule g => BitVec.ofNat 64 (4096 * g)
  | _ => a

/-- The test of a block has ended: a pass returns it to binding; a failure withdraws it and leaves a Corrected record, which the
test itself has settled. A block without a test gets TRIAGE 3. -/
def endTest (s : State) (j : TestJob) (pass : Bool) : State :=
  let s := { s with tests := s.tests.erase j }
  let unit := blockUnit j.block (s.bank j.bank).unit
  let addr := blockAddr j.block (s.bank j.bank).addr
  match j.block with
  | .other _ =>
    let s := markTriage s j.bank j.block 3
    if pass then s else withdrawBlock s j.block
  | _ =>
    if pass then markTriage s j.bank j.block 1
    else withdrawBlock (markTriage (logError (markTriage s j.bank j.block 2) j.bank 1 7 0 unit addr) j.bank j.block 2) j.block

/-- The tests of blocks behind bank `n` that run, or that may begin: for a Corrected record a test waits until its block is idle. -/
def readyTests (s : State) (n : Nat) : List TestJob := s.tests.filter fun j => j.bank == n && (!j.waits || blockIdle s j.block)

/-- TRIAGE_SELFTEST (R404): of the tests behind bank `n`, one that has waited begins, and then runs like any other, or one that runs ends.
Which of them is next is free. -/
def execTriageSelftest (n : Nat) (pass : Bool) (s0 : State) : Out :=
  let (w, s) := s0.freeWord
  match (readyTests s n)[w.toNat % max 1 (readyTests s n).length]? with
  | none => .next s0
  | some j =>
    .next (if j.waits then { s with tests := s.tests.map fun t => if t = j then { t with waits := false } else t }
      else endTest s j (pass && !j.failed))

/-! ## The clock (R19) -/

/-- POWER_CLOCK_STEP (R19): the power averaged over the last 1 ms was `watts`; the clock goes down 50 MHz while it is over
the limit, to no less than 1.8 GHz. A limit that does not hold at 1.8 GHz is logged. That the clock rises again, 50 MHz a step
to 3.6 GHz, while the power is below the limit is a DESIGN CHOICE: the manual states only the lowering (log entry 76). -/
def execPowerClockStep (watts : Nat) (s : State) : Out :=
  let p := s.power
  if p.limit < watts then
    if p.clock ≤ 1800 then .next (logTriaged s 24 1 8 0 0 0)
    else .next { s with power := { p with clock := p.clock - 50 } }
  else if watts < p.limit ∧ p.clock < 3600 then .next { s with power := { p with clock := p.clock + 50 } }
  else .next s

end Sys2Proof.Machine
end

