-- ==== Sys2Proof/Machine/Registers.lean ====
section
/-! DEFINITION. The registers of BAR0 ("Links: Host, Peers and Time", R365, Tables 16-2, 16-4 and 16-5; R5, R108, R119,
R152, R400; Tables 4-12, 5-5, 6-7 and 18-3). -/
namespace Sys2Proof.Machine

/-- The state that an event leaves; each event used here always leaves one. -/
def Out.stateOr (o : Out) (s : State) : State :=
  match o with
  | .next t => t
  | _ => s

/-- The low or the high word of a 64-bit register replaced. -/
def setHalf (old : BitVec 64) (high : Bool) (v : Word) : BitVec 64 :=
  if high then BitVec.ofNat 64 (v.toNat * 2 ^ 32 + old.toNat % 2 ^ 32) else BitVec.ofNat 64 (old.toNat / 2 ^ 32 * 2 ^ 32 + v.toNat)

/-- A register with its `n` low bits zero. -/
def alignBits (x : BitVec 64) (n : Nat) : BitVec 64 := BitVec.ofNat 64 (x.toNat / 2 ^ n * 2 ^ n)

/-- A field value, or its default when it is out of range. -/
def inRange (v lo hi dflt : Nat) : Nat := if lo ≤ v ∧ v ≤ hi then v else dflt

def bitNat (b : Bool) (n : Nat) : Nat := if b then 2 ^ n else 0

/-! ## Blocks: what a word reads as -/

/-- IDSTAT (Table 18-3). -/
def readIdent (s : State) (o : Nat) : Nat :=
  let b := s.boot
  if o = 0 then 0x485A4D37
  else if o = 4 then Config.stepping.toNat + 2 ^ 8 * (svnMin s).toNat
  else if o = 8 then
    b.stage % 4 + bitNat b.minimal 2 + bitNat b.dumpv 3 + 2 ^ 4 * (b.failcnt % 16) + 2 ^ 8 * b.reason.toNat + 2 ^ 16 * b.fwlevel.toNat
  else if o = 0x10 then Config.serial.toNat % 2 ^ 32
  else if o = 0x14 then Config.serial.toNat / 2 ^ 32
  else if o = 0x18 then coreokWord s
  else if o = 0x1C then engokWord s
  else if o = 0x20 then copyokWord s
  else if o = 0x24 then s.retired.length % 2 ^ 32
  else 0

/-- The time block (Table 16-5). -/
def readTime (s : State) (o : Nat) : Nat :=
  let t := s.timeBlock
  if o = 0 then s.time % 2 ^ 32
  else if o = 4 then s.time / 2 ^ 32 % 2 ^ 32
  else if o = 8 then bitNat t.ptmen 0 + bitNat t.locked 1 + 2 ^ 8 * t.period
  else if o = 0xC then (wrap32 t.offset).toNat
  else if o = 0x10 then t.ptmcnt.toNat
  else if o = 0x14 then t.ptmfail.toNat
  else 0

/-- A Strait link block (Table 16-4). -/
def readLink (l : Link) (o : Nat) : Nat :=
  if o = 0 then bitNat l.up 0 + bitNat l.failed 1 + bitNat l.en 2 + 2 ^ 16 * l.peersw.toNat
  else if o = 8 then l.replays.toNat
  else if o = 0xC then l.feccor.toNat
  else if o = 0x10 then l.lostmsg.toNat
  else 0

/-- The management request block (Table 4-12). -/
def readMgmt (m : Mgmt) (o : Nat) : Nat :=
  if o = 0 then m.mrqbase.toNat % 2 ^ 32
  else if o = 4 then m.mrqbase.toNat / 2 ^ 32
  else if o = 8 then m.mrqsize + 2 ^ 4 * m.mcqsize + bitNat m.en 8 + bitNat m.ien 9
  else if o = 0xC then m.mvec.toNat
  else if o = 0x10 then m.mrqtail.toNat
  else if o = 0x14 then m.mrqhead.toNat
  else if o = 0x18 then m.mcqprod.toNat
  else if o = 0x1C then m.mcqcons.toNat
  else if o = 0x20 then m.mcqbase.toNat % 2 ^ 32
  else if o = 0x24 then m.mcqbase.toNat / 2 ^ 32
  else if o = 0x28 then (m.inflight.filter (·.started)).length
  else 0

/-- A host command queue (Table 5-5). -/
def readQueue (h : HostQueue) (o : Nat) : Nat :=
  if o = 0 then h.base.toNat % 2 ^ 32
  else if o = 4 then h.base.toNat / 2 ^ 32
  else if o = 8 then h.size
  else if o = 0xC then bitNat h.en 0 + 2 ^ 8 * h.ctx
  else if o = 0x10 then h.tail.toNat
  else if o = 0x14 then h.head.toNat
  else if o = 0x18 then h.done.toNat
  else if o = 0x1C then h.state.code + bitNat h.err 3 + 2 ^ 4 * h.code.toNat
  else 0

/-- An event ring (Table 6-7). -/
def readRing (r : EventRing) (o : Nat) : Nat :=
  if o = 0 then r.base.toNat % 2 ^ 32
  else if o = 4 then r.base.toNat / 2 ^ 32
  else if o = 8 then r.size
  else if o = 0xC then bitNat r.ien 0 + bitNat (!r.held.isEmpty) 1
  else if o = 0x10 then r.prod.toNat
  else if o = 0x14 then r.cons.toNat
  else if o = 0x18 then r.coalcnt
  else if o = 0x1C then r.coaltime
  else if o = 0x20 then r.vector.toNat
  else 0

/-- The 4-byte word at an aligned offset of BAR0; 0 outside every block (Table 16-2). -/
def barRead (s : State) (a : Nat) : Word :=
  BitVec.ofNat 32 (
    if a < 0x1000 then readIdent s a
    else if a < 0x1040 then readTime s (a - 0x1000)
    else if 0x2000 ≤ a ∧ a < 0x2480 then readLink (s.link ((a - 0x2000) / 64)) (a % 64)
    else if 0x3000 ≤ a ∧ a < 0x3040 then readMgmt s.mgmt (a - 0x3000)
    else if 0x100000 ≤ a ∧ a < 0x104000 then readQueue (s.hostQueue ((a - 0x100000) / 64)) (a % 64)
    else if 0x200000 ≤ a ∧ a < 0x204000 then readRing (s.ctx ((a - 0x200000) / 64)).ring (a % 64)
    else if 0x400000 ≤ a ∧ a < 0x408000 then (msixWord s ((a - 0x400000) / 16) (a % 16 / 4)).toNat
    else if 0x408000 ≤ a ∧ a < 0x408100 then
      ((List.range 32).map fun i => bitNat (s.msixPending.contains (8 * (a - 0x408000) + i)) i).sum
    else 0)

/-! ## Blocks: what a write does -/

def writeTime (s : State) (o : Nat) (v : Word) : State :=
  if o = 8 then
    setPtmen { s with timeBlock := { s.timeBlock with period := inRange (v.toNat / 2 ^ 8 % 2 ^ 7) 1 100 10 } } (v.getLsbD 0)
  else s

def writeLink (s : State) (n o : Nat) (v : Word) : State :=
  if o = 0 then
    let s := s.modLink n fun l => { l with en := v.getLsbD 2 }
    if v.getLsbD 3 then (execRetrain n s).stateOr s else s
  else s

/-- The bases and sizes of the rings keep while EN is 1 (R109). One write of the sizes and of EN finds the old EN: DESIGN CHOICE
(log entry 85). -/
def writeMgmt (s : State) (o : Nat) (v : Word) : State :=
  let m := s.mgmt
  if o = 0 ∨ o = 4 then if m.en then s else { s with mgmt := { m with mrqbase := alignBits (setHalf m.mrqbase (o == 4) v) 7 } }
  else if o = 8 then
    let m := if m.en then m
      else { m with mrqsize := inRange (v.toNat % 2 ^ 4) 4 12 6, mcqsize := inRange (v.toNat / 2 ^ 4 % 2 ^ 4) 6 14 8 }
    settleMgmt { s with mgmt := { m with en := v.getLsbD 8, ien := v.getLsbD 9 } }
  else if o = 0xC then { s with mgmt := { m with mvec := v.setWidth 11 } }
  else if o = 0x10 then (execMrqtailWrite v s).stateOr s
  else if o = 0x1C then (execMcqconsWrite v s).stateOr s
  else if o = 0x20 ∨ o = 0x24 then if m.en then s else { s with mgmt := { m with mcqbase := alignBits (setHalf m.mcqbase (o == 0x24) v) 5 } }
  else s

/-- HQBASE and HQSIZE may be written (R120). -/
def queueConfig (h : HostQueue) : Bool :=
  match h.state with
  | .bound | .closed => true
  | _ => false

/-- A write of a host queue's word. One that writes EN and CLR takes effect as a write of EN and then one of CLR: DESIGN
CHOICE, the manual gives no order (log entry 85). -/
def writeQueue (s : State) (q o : Nat) (v : Word) : State :=
  let h := s.hostQueue q
  if o = 0 ∨ o = 4 then
    if queueConfig h then s.modHostQueue q fun h => { h with base := alignBits (setHalf h.base (o == 4) v) 6 } else s
  else if o = 8 then if queueConfig h then s.modHostQueue q fun h => { h with size := inRange (v.toNat % 2 ^ 5) 6 16 6 } else s
  else if o = 0xC then
    let s := (execHqEnWrite q (v.getLsbD 0) s).stateOr s
    if v.getLsbD 1 then (execHqClrWrite q s).stateOr s else s
  else if o = 0x10 then (execHqtailWrite q v s).stateOr s
  else s

def writeRing (s : State) (c o : Nat) (v : Word) : State :=
  let r := (s.ctx c).ring
  let put (f : EventRing → EventRing) : State := s.modCtx c fun x => { x with ring := f x.ring }
  let still := r.prod == r.cons && r.held.isEmpty
  if o = 0 ∨ o = 4 then if still then put fun r => { r with base := alignBits (setHalf r.base (o == 4) v) 5 } else s
  else if o = 8 then if still then put fun r => { r with size := inRange (v.toNat % 2 ^ 5) 4 16 8 } else s
  else if o = 0xC then (execEventIenWrite c (v.getLsbD 0) s).stateOr s
  else if o = 0x14 then (execEvconsWrite c v s).stateOr s
  else if o = 0x18 then put fun r => { r with coalcnt := inRange (v.toNat % 2 ^ 9) 1 256 1 }
  else if o = 0x1C then put fun r => { r with coaltime := min (v.toNat % 2 ^ 10) 1000 }
  else if o = 0x20 then put fun r => { r with vector := v.setWidth 11 }
  else s

/-- A write of the aligned word at offset `a`. -/
def barWrite (s : State) (a : Nat) (v : Word) : State :=
  if a = 8 then if v.getLsbD 3 then freeDump s else s
  else if 0x1000 ≤ a ∧ a < 0x1040 then writeTime s (a - 0x1000) v
  else if 0x2000 ≤ a ∧ a < 0x2480 then writeLink s ((a - 0x2000) / 64) (a % 64) v
  else if 0x3000 ≤ a ∧ a < 0x3040 then writeMgmt s (a - 0x3000) v
  else if 0x100000 ≤ a ∧ a < 0x104000 then writeQueue s ((a - 0x100000) / 64) (a % 64) v
  else if 0x200000 ≤ a ∧ a < 0x204000 then writeRing s ((a - 0x200000) / 64) (a % 64) v
  else if 0x400000 ≤ a ∧ a < 0x408000 then
    flushMsi { s with msixTable := tset s.msixTable ((a - 0x400000) / 4) v } ((a - 0x400000) / 16)
  else s

/-- REGISTER_WRITE (R5, R365): a write of an aligned 4-byte or, `wide`, 8-byte word takes effect under the access codes of
its fields; any other has no effect. An 8-byte write takes effect as a write of its low word and then one of its high word:
DESIGN CHOICE (log entry 85). The host link is up from stage 1 on (R395). -/
def execRegisterWrite (off : Nat) (wide : Bool) (v : BitVec 64) (s : State) : Out :=
  if s.boot.stage = 0 ∨ off % (if wide then 8 else 4) ≠ 0 then .next s
  else
    let s := barWrite s off (v.setWidth 32)
    .next (if wide then barWrite s (off + 4) ((v >>> 32).setWidth 32) else s)

end Sys2Proof.Machine
end

