-- ==== Sys2Proof/Machine/Stream.lean ====
section
/-! DEFINITION. The stochastic-stream instructions, majors 0xC0 to 0xCB ("The Stochastic-Stream Engine", R341 to R363). -/
namespace Sys2Proof.Machine

/-! ## Generation (R347) -/

/-- One step of the LFSR. -/
def lfsrStep (s : Nat) : Nat := let t := s / 2; if s % 2 = 1 then t ^^^ 0x80200003 else t

/-- BitRev(i, k). -/
def bitRev : Nat → Nat → Nat
  | 0, _ => 0
  | k + 1, i => i % 2 * 2 ^ k + bitRev k (i / 2)

/-- The bits from step `i` on, as a number: `left` steps remain. -/
def genBits (mode len v : Nat) : Nat → Nat → Nat → Nat
  | 0, _, _ => 0
  | left + 1, i, s =>
    let s' := lfsrStep s
    let out := if mode = 0 then s' % 4096 else if mode = 1 then i * 4096 / len
      else bitRev (Nat.log2 len) i * 4096 / len
    (if out < v then 1 else 0) + 2 * genBits mode len v left (i + 1) s'

/-- Generate (R347). -/
def generate (mode seed len v : Nat) : BitVec 1024 := BitVec.ofNat 1024 (genBits mode len v len 0 seed)

/-! ## Tags (R342) -/

def StreamReg.valid (r : StreamReg) : Bool := r.tag.getLsbD 0
/-- Length code, 0 for an invalid register. -/
def StreamReg.code (r : StreamReg) : Nat := if r.valid then r.tag.toNat / 2 % 4 else 0
def StreamReg.anc (r : StreamReg) : Nat := r.tag.toNat / 2 ^ 16 % 2 ^ 16
def StreamReg.pol (r : StreamReg) : Bool := r.tag.getLsbD 3
/-- Length in bits of a code. -/
def codeLen (n : Nat) : Nat := 256 * 2 ^ (n - 1)
/-- Ones in bits 0 to L - 1. -/
def StreamReg.ones (r : StreamReg) : Nat := ((List.range (codeLen r.code)).filter r.data.getLsbD).length

/-- A valid tag. -/
def mkTag (code anc : Nat) (pol : Bool) : BitVec 64 := BitVec.ofNat 64 (1 + 2 * code + bit pol * 8 + anc * 2 ^ 16)

/-- Bits 0 to L - 1 of a stream; the others are not defined and are kept 0. -/
def cutData (code : Nat) (d : BitVec 1024) : BitVec 1024 := BitVec.ofNat 1024 (d.toNat % 2 ^ codeLen code)

def Thread.sq (t : Thread) (r : Reg) : StreamReg := t.streams[r.toNat % 8]'(Nat.mod_lt _ (by decide))
def Thread.setSq (t : Thread) (r : Reg) (v : StreamReg) : Thread :=
  { t with streams := Vector.ofFn fun i => if i.val = r.toNat % 8 then v else t.streams[i] }

/-! ## Slots and the engine (R345, R346, R351) -/

/-- Groups that hold a stream slot of core `k`. -/
def slotHolders (s : State) (k : Nat) : Nat := (s.groups.filter fun p => coreOf p.1 == k && p.2.streamSlot).length

/-- A group acquires a slot: every stream register becomes invalid. -/
def acquireSlot (g : Group) : Group :=
  onThreads { g with streamSlot := true } (presentMask g) fun _ t => { t with streams := Vector.replicate 8 .invalid }

/-- The group takes its place in the queue for a stream slot of its core. -/
def askSlot (s : State) (g : Nat) : State := s.modCore (coreOf g) fun k =>
  { k with slotWait := if k.slotWait.contains g then k.slotWait else k.slotWait ++ [g] }

/-- The instruction needs the engine: a stream slot, which the group acquires or its lanes wait for; and the engine's turn,
which does not come once the engine has stopped for a halt (R352).
`s0` is the state in which nothing has been popped, `s` the one after the pops (R37, R345, R346). -/
def withEngine (s0 s : State) (c : Ctl) (k : State → Ctl → State) : State :=
  let core := s0.core (coreOf c.g)
  if streamRecorded s0 (coreOf c.g) c.gr.ctx then s0
  else if c.gr.streamSlot then if core.streamBusy then s0 else k s c
  else if slotHolders s0 (coreOf c.g) < 4 ∧ core.slotWait.isEmpty then
    let gr := acquireSlot c.gr
    if core.streamBusy then s0.modGroup c.g acquireSlot else k (s.modGroup c.g acquireSlot) { c with gr := gr }
  else blockLanes (askSlot s0 c.g) c fun _ => .streamSlot

/-- Begin a stream instruction: pending names `ns` and stream registers `qs`, rows, sources; `k` gets the state before the
pops and the state after them. -/
def runStream (d : Reg) (fs : List Src) (qs : List Reg) (k : Ctl → State → State → List Row → State) (s : State) : Out :=
  withIssue s fun c s =>
    let ns := allNames fs d
    let pend l := (pendingName c.gr l ns).orElse fun _ =>
      (qs.find? fun q => pendingStream c.gr l q.toNat).map fun q => 128 + q.toNat
    withDeps s c pend fun s => withRows s c ns fun s0 => withSources s0 c fs 127 fun rows s => k c s0 s rows

/-- Write stream register `d` of the active lanes and pass the instruction. -/
def writeStream (s : State) (c : Ctl) (d : Reg) (v : Nat → Thread → StreamReg) : State :=
  finish (s.modGroup c.g fun g => onThreads g c.act fun l t => t.setSq d (v l t)) c false

/-- TVAL and TVALH of a stream trap (R349): TVAL, the major and the fields that name stream registers. -/
def streamTval (c : Ctl) (tval d a b : Nat) : BitVec 64 :=
  BitVec.ofNat 64 (tval + (c.word.toNat / 2 ^ 24 + d % 8 * 2 ^ 8 + a % 8 * 2 ^ 12 + b % 8 * 2 ^ 16) * 2 ^ 32)

/-- The stream traps of the active lanes (R349): `len` and `cor` give the TVAL of a lane that raises 0x07 or 0x06; `k`
runs for the lanes that raise neither. -/
def withStreamTraps (s : State) (c : Ctl) (len cor : Nat → Option Nat) (d a b : Nat) (k : State → Ctl → State) : State :=
  let trapped := maskOf fun l => has c.act l && ((len l).isSome || (cor l).isSome)
  let act := c.act &&& ~~~trapped
  let traps := if act = 0 then trapHere s c else trapSome s c.g
  let s := if trapped = 0 then s else
    traps trapped (fun l => if (len l).isSome then 0x07 else 0x06) fun l =>
      streamTval c (((len l).or (cor l)).getD 0) d a b
  match s.group? c.g with
  | none => s
  | some gr =>
    if act = 0 then s else if gr.phase ≠ .running then takeIssue s c false else k s { c with act := act, gr := gr }

/-- Trap 0x07 of these sources in order: invalid ones report 0, and every length code must be the same. -/
def lenTrap (rs : List StreamReg) : Option Nat :=
  let codes := rs.map (·.code)
  if rs.all (·.valid) && codes.all (· == codes.headD 0) then none
  else some ((codes.zipIdx.map fun p => p.1 * 16 ^ p.2).sum)

/-- The control words of the active lanes are legal (R348). -/
def controlFault (c : Ctl) (ctl : Nat → Word) : Mask := maskOf fun l => has c.act l && (ctl l).toNat / 64 != 0

/-- A control-word fault at issue, else `k`. -/
def withControl (s : State) (c : Ctl) (ctl : Nat → Word) (k : State) : State :=
  let bad := controlFault c ctl
  if bad = 0 then k else faultHere s c ⟨0x20, bad, c.pc.setWidth 64, c.word⟩

/-! ## SGEN, SREGEN (R354, R359) -/

def execSgen (d a b : Reg) (m : BitVec 3) (s : State) : Out :=
  runStream 127 [(a, 1), (b, 2)] [d] (fun c s0 s rows =>
    let ctl := (src rows 1).get
    withControl s0 c ctl (withEngine s0 s c fun s c =>
      writeStream s c d fun l t =>
        let n := if bits' (ctl l) = 0 then t.dlen.toNat else bits' (ctl l)
        let g := (ctl l).toNat % 16
        ⟨mkTag n (2 ^ g) (m.getLsbD 2),
          generate (m.toNat % 4) ((src rows 2).get l).toNat (codeLen n) ((src rows 0).get l).toNat⟩)) s
where bits' (w : Word) : Nat := w.toNat / 16 % 4

def execSregen (d a b : Reg) (m : BitVec 3) (s : State) : Out :=
  runStream 127 [(b, 2)] [a, d] (fun c s0 s rows =>
    let ctl := (src rows 0).get
    withControl s0 c ctl (withEngine s0 s c fun s c =>
      withStreamTraps s c (fun l => lenTrap [(c.thread l).sq a]) (fun _ => none) d.toNat a.toNat 0 fun s c =>
        writeStream s c d fun l t =>
          let r := t.sq a
          let n := if (ctl l).toNat / 16 % 4 = 0 then r.code else (ctl l).toNat / 16 % 4
          let v := r.ones * 4096 / codeLen r.code
          ⟨mkTag n (2 ^ ((ctl l).toNat % 16)) r.pol,
            generate (m.toNat % 4) ((src rows 1).get l).toNat (codeLen n) v⟩)) s

/-! ## SAND, SXNOR, SMUX, SNOT, SMOV (R355 to R357, R363) -/

/-- A product of two streams. -/
def streamProduct (pol : Bool) (op : BitVec 1024 → BitVec 1024 → BitVec 1024) (d a b : Reg) (s : State) : Out :=
  runStream 127 [] [a, b, d] (fun c s0 s _ =>
    withEngine s0 s c fun s c =>
      let x l := (c.thread l).sq a
      let y l := (c.thread l).sq b
      let both l := (x l).anc &&& (y l).anc
      withStreamTraps s c (fun l => lenTrap [x l, y l]) (fun l => if both l = 0 then none else some (both l))
        d.toNat a.toNat b.toNat fun s c => writeStream s c d fun l _ =>
          ⟨mkTag (x l).code ((x l).anc ||| (y l).anc) pol, cutData (x l).code (op (x l).data (y l).data)⟩) s

def execSand (d a b : Reg) (s : State) : Out := streamProduct false (fun x y => x &&& y) d a b s
def execSxnor (d a b : Reg) (s : State) : Out := streamProduct true (fun x y => ~~~(x ^^^ y)) d a b s

def execSmux (d a b : Reg) (s : State) : Out :=
  runStream 127 [] [a, b, d] (fun c s0 s _ =>
    withEngine s0 s c fun s c =>
      let x l := (c.thread l).sq a
      let y l := (c.thread l).sq b
      let z l := (c.thread l).sq d
      let both l := (z l).anc &&& ((x l).anc ||| (y l).anc)
      withStreamTraps s c (fun l => lenTrap [x l, y l, z l]) (fun l => if both l = 0 then none else some (both l))
        d.toNat a.toNat b.toNat fun s c => writeStream s c d fun l _ =>
          ⟨mkTag (x l).code ((z l).anc ||| (x l).anc ||| (y l).anc) (x l).pol,
            ((z l).data &&& (y l).data) ||| (~~~(z l).data &&& (x l).data)⟩) s

def execSnot (d a : Reg) (s : State) : Out :=
  runStream 127 [] [a, d] (fun c s0 s _ =>
    withEngine s0 s c fun s c =>
      let x l := (c.thread l).sq a
      withStreamTraps s c (fun l => lenTrap [x l]) (fun _ => none) d.toNat a.toNat 0 fun s c =>
        writeStream s c d fun l _ => ⟨(x l).tag, cutData (x l).code (~~~(x l).data)⟩) s

def execSmov (d a : Reg) (s : State) : Out :=
  runStream 127 [] [a, d] (fun c s0 s _ => withEngine s0 s c fun s c => writeStream s c d fun _ t => t.sq a) s

/-! ## SCNT, SLEN, SCLS (R358, R360, R361) -/

/-- The count that SCNT writes. -/
def streamCount (r : StreamReg) (val : Bool) : Word :=
  let len := codeLen r.code
  if !val then BitVec.ofNat 32 r.ones
  else if r.pol then wrap32 ((2 * (r.ones : Int) - len) * 4096 / len)
  else BitVec.ofNat 32 (r.ones * 4096 / len)

def execScnt (d a : Reg) (m : BitVec 3) (s : State) : Out :=
  runStream d [] [a] (fun c s0 s _ =>
    withFlag s0 c (flagOf c m) fun s0 => withEngine s0 s c fun s c =>
      let x l := (c.thread l).sq a
      withStreamTraps s c (fun l => lenTrap [x l]) (fun _ => none) 0 a.toNat 0 fun s c =>
        let s := startOp (issued s c false) c (flagOf c m) fun o =>
          { o with dest := destOf c.gr d 1
                   got := (lanesOf c.act).map fun l => (l, [streamCount (x l) (m.getLsbD 1)]) }
        s.modGroup c.g advance) s

def execSlen (m : BitVec 3) (s : State) : Out :=
  runStream 127 [] [] (fun c _ s _ =>
    finish (s.modGroup c.g fun g => onThreads g c.act fun _ t => { t with dlen := m.setWidth 2 }) c false) s

def execScls (d a : Reg) (s : State) : Out :=
  runStream d [] [a] (fun c _ s rows =>
    let w l : Word := if c.gr.streamSlot then ((c.thread l).sq a).tag.setWidth 32 else 0
    writeOut s c d rows ⟨.g (perLane w), sameThread⟩) s

/-! ## SLD and SST (R350, R352, R362) -/

/-- The bytes of a register's record (Table 15-5). -/
def recordBytes (r : StreamReg) : List Byte :=
  if r.valid then leBytes 8 r.tag.toNat ++ List.replicate 8 0 ++ leBytes (codeLen r.code / 8) r.data.toNat
  else List.replicate 16 0

/-- The 16-byte chunks of a record as stores of lane `l`. -/
def storeChunks (l : Nat) (va : VA) (b : List Byte) : List Acc :=
  (List.range (b.length / 16)).map fun i =>
    ⟨l, after va (16 * i), 16, .store ((b.drop (16 * i)).take 16), false⟩

/-- The check of a lane's record address (R362). -/
def recordReq (l : Nat) (va : VA) (store : Bool) : LaneReq :=
  ⟨⟨l, va, 16, if store then .store [] else .load, false⟩, if va.toNat % 16 = 0 then none else some (0x24, va.setWidth 64)⟩

/-- The comparators of every chunk of an SLD or SST before its first access (R385). -/
def withChunkDebug (s : State) (c : Ctl) (accs : List Acc) (k : State → State) : State :=
  withSeen s c (accs.map fun a => (a.lane, ⟨a.va.toNat, a.size, !a.op.stores, a.op.stores, match a.op with
    | .store b => words32 b
    | _ => []⟩)) k

/-- The chunks that an SLD would read, by the tags that memory holds now. -/
def sldChunks (s : State) (l : Nat) (va : VA) (e : TlbEntry) : List Acc :=
  let t := BitVec.ofNat 64 (leNat (frameRead s e va.toNat 8))
  ⟨l, va, 16, .load, false⟩ :: if tagOk t then dataChunks l va t else []

def execSld (d a : Reg) (m : BitVec 3) (s : State) : Out :=
  runStream 127 [(a, 2)] [d] (fun c s0 s rows =>
    withFlag s0 c (flagOf c m) fun s0 => withEngine s0 s c fun s c =>
      let va l := pairAddr (src rows 0) (src rows 1) l
      withChecks s c ((lanesOf c.act).map fun l => recordReq l (va l) false) fun s es =>
        withChunkDebug s c (es.flatMap fun p => sldChunks s p.1.lane p.1.va p.2) fun s =>
          let s := startOp (issued s c false) c (flagOf c m) fun o =>
            { o with stream := some d.toNat, left := es.map (·.1), again := es.map (·.1) }
          (s.modCore (coreOf c.g) fun k => { k with streamBusy := true }).modGroup c.g advance) s

def execSst (r a : Reg) (s : State) : Out :=
  runStream 127 [(a, 2)] [r] (fun c s0 s rows =>
    withEngine s0 s c fun s c =>
      let va l := pairAddr (src rows 0) (src rows 1) l
      withChecks s c ((lanesOf c.act).map fun l => recordReq l (va l) true) fun s _ =>
        let accs := (lanesOf c.act).flatMap fun l => storeChunks l (va l) (recordBytes ((c.thread l).sq r))
        withChunkDebug s c accs fun s =>
          let id := c.gr.nextOp
          let s := startOp (issued s c false) c none fun o => { o with fixed := true, left := accs }
          (s.modCore (coreOf c.g) fun k => { k with streamBusy := true }).modGroup c.g fun g => { g with issue := g.issue.map fun i => { i with op := some id } }) s

/-- STREAM_SLOT_GRANT (R345): a free slot of core `k` goes to the group that has waited longest, whose threads then run
on at their stream instruction. -/
def execStreamSlotGrant (k : Nat) (s : State) : Out :=
  match (s.core k).slotWait with
  | [] => .next s
  | g :: rest =>
    if 4 ≤ slotHolders s k then .next s
    else
      let s := s.modCore k fun x => { x with slotWait := rest }
      .next (s.modGroup g fun gr =>
        settle (onThreads (acquireSlot gr) (liveMask gr) fun _ t => match t.wait with
          | .streamSlot => { t with wait := .none }
          | _ => t))

end Sys2Proof.Machine
end

