-- ==== Sys2Proof/Machine/System.lean ====
section
/-! DEFINITION. TRAP, TRET, PHINT, the system registers, TIME, BKPT and TMARK, majors 0xD0 to 0xD7 ("Contexts", R88 to
R91, R103 to R107; "Debug, Trace and Profiling", R393, R394). -/
namespace Sys2Proof.Machine

/-! ## Traps (R103, R104) -/

def execTrap (i : BitVec 17) (s : State) : Out :=
  withIssue s fun c s => trapLanes (issued s c false) c.g c.act (fun _ => 0x0A) (fun _ => i.setWidth 64) c.iss.here c.iss.after c.word

def execTret (s : State) : Out :=
  runControl [] [] (fun c s _ =>
    let out := maskOf fun l => has c.act l && !(c.thread l).inHandler
    if out ≠ 0 then faultHere s c ⟨0x20, out, c.pc.setWidth 64, c.word⟩
    else
      let s := s.modGroup c.g fun g => onThreads g c.act fun _ t => leaveHandler t (resumePos t)
      branchTo s c fun l => resumePos (c.thread l)) s

/-! ## PHINT (R105) -/

def execPhint (i : BitVec 17) (s : State) : Out :=
  runControl [] [] (fun c s _ =>
    let entries := match s.image? c.gr.ctx c.gr.image with
      | some im => im.livecnt
      | none => 0
    let handler := (lanesOf (liveMask c.gr)).any fun l => (c.thread l).inHandler
    let apart := (lanesOf c.act).any fun l => (c.thread l).wb != (c.thread (lowest c.act)).wb
    if entries ≤ i.toNat then faultHere s c ⟨0x20, c.act, c.pc.setWidth 64, c.word⟩
    else if c.gr.preempt.isNone || c.act != liveMask c.gr || handler || apart then finish s c false
    else if opsOut c.gr then s
    else (issued s c false).modGroup c.g fun g => { endIssue g c.iss.after with phase := .saving (some i.toNat) }) s

/-! ## System registers (R88, R89, R106, Table 4-3) -/

/-- The scope is Context. -/
def ctxScope (n : Nat) : Bool := (decide (0x008 ≤ n) && decide (n ≤ 0x00C)) || n == 0x018 || n == 0x019 || decide (0x020 ≤ n)

/-- The scope is Thread. -/
def threadScope (n : Nat) : Bool := decide (n ≤ 0x007)

/-- A register of scope Thread. -/
def threadReg (t : Thread) (n : Nat) : Word :=
  match n with
  | 0 => t.tcause.setWidth 32
  | 1 => t.tpc.setWidth 32
  | 2 => t.tval.setWidth 32
  | 3 => (t.tval >>> 32).setWidth 32
  | 4 => t.wb
  | 5 => t.wres
  | 6 => t.stacklim
  | _ => (t.tpc >>> 32).setWidth 32

/-- CTXCTL (Table 4-4). -/
def ctxctl (x : Context) : Word := BitVec.ofNat 32 (bit x.sd + x.grace % 4096 * 2 ^ 4 + bit x.dbg * 2 ^ 16)

/-- A register of another scope. -/
def sharedReg (s : State) (c : Ctl) (n : Nat) : Word :=
  let x := s.ctx c.gr.ctx
  let t := s.team? c.gr.team
  let ofTeam (f : Team → Nat) : Word := match t with
    | some t => BitVec.ofNat 32 (f t)
    | none => 0
  match n with
  | 0x008 => x.frm.setWidth 32
  | 0x009 => ctxctl x
  | 0x00A => x.tvec.setWidth 32
  | 0x00B => (x.tvec >>> 32).setWidth 32
  | 0x00C => BitVec.ofNat 32 x.btmo
  | 0x010 => ofTeam (·.x)
  | 0x011 => ofTeam (·.y)
  | 0x012 => ofTeam (·.z)
  | 0x013 => ofTeam (·.stage)
  | 0x014 => BitVec.ofNat 32 c.gr.gid
  | 0x015 => ofTeam (·.restarts.toNat)
  | 0x016 => BitVec.ofNat 32 (dieOfGroup c.g)
  | 0x017 => BitVec.ofNat 32 (coreOf c.g % 48)
  | 0x018 => BitVec.ofNat 32 c.gr.ctx
  | 0x019 => (s.partMask c.gr.ctx).setWidth 32
  | _ => (tget x.compand (n - 0x020)).getD 0

def execSysr (d : Reg) (i : BitVec 10) (s : State) : Out :=
  let n := i.toNat
  runShared d [] 1 (fun c s0 s _ =>
    if ctxScope n && orderedOut c.gr then s0
    else
      let row : Row := if threadScope n then .g (perLane fun l => threadReg (c.thread l) n) else .u (sharedReg s c n)
      writeOut s c d [] ⟨row, sameThread⟩) s

/-- A write of a Thread-scope register other than WRES: its RW fields take the value. -/
def writeThreadReg (t : Thread) (n : Nat) (w : Word) : Thread :=
  match n with
  | 0 => { t with tcause := w.setWidth 8 }
  | 1 => { t with tpc := BitVec.ofNat 57 (t.tpc.toNat / 2 ^ 32 * 2 ^ 32 + w.toNat / 4 * 4), tpcWritten := true }
  | 2 => { t with tval := BitVec.ofNat 64 (t.tval.toNat / 2 ^ 32 * 2 ^ 32 + w.toNat) }
  | 3 => { t with tval := BitVec.ofNat 64 (w.toNat * 2 ^ 32 + t.tval.toNat % 2 ^ 32) }
  | 7 => { t with tpc := BitVec.ofNat 57 (w.toNat % 2 ^ 25 * 2 ^ 32 + t.tpc.toNat % 2 ^ 32), tpcWritten := true }
  | _ => t

/-- A SYSW to WRES of one thread (R185): the rows that join its resident part read 0. -/
def writeWres (g : Group) (l : Nat) (w : Word) : Group :=
  let old := (lane g.threads l).wres.toNat
  let joins := ((List.range g.budget).map (w.toNat + ·)).filter fun p => decide (p < old) || decide (old + g.budget ≤ p)
  let g := joins.foldl (fun g p => setLaneAt g (.stack p) l 0) g
  onThreads g (1 <<< l) fun _ t => { t with wres := w }

/-- The entries that a SYSW to WRES writes; one that is evicted stalls it until it is read back (R182). -/
def wresStall (c : Ctl) : Bool := !c.gr.evicted.isEmpty

/-- A write of a Context-scope register with a RW field. -/
def writeCtxReg (x : Context) (n : Nat) (w : Word) : Context :=
  if n = 0x008 then { x with frm := w.setWidth 2 }
  else if 0x020 ≤ n then { x with compand := tset x.compand (n - 0x020) w }
  else x

def execSysw (a : Reg) (i : BitVec 10) (s : State) : Out :=
  let n := i.toNat
  runShared 127 [(a, 1)] 1 (fun c s0 s rows =>
    let v := (src rows 0).get
    if ctxScope n && orderedOut c.gr then s0
    else if n = 5 then
      if wresStall c then s0
      else
        let s := s.modGroup c.g fun g => (lanesOf c.act).foldl (fun g l => writeWres g l (v l)) g
        finish (balanceRows s c.g []) c false
    else if threadScope n then
      finish (s.modGroup c.g fun g => onThreads g c.act fun l t => writeThreadReg t n (v l)) c false
    else finish (s.modCtx c.gr.ctx fun x => (lanesOf c.act).foldl (fun x l => writeCtxReg x n (v l)) x) c false) s

/-! ## TIME, BKPT, TMARK (R107, R393, R394) -/

def execTime (d : Reg) (s : State) : Out :=
  runShared d [] 2 (fun c _ s _ =>
    let t := s.time % 2 ^ 64
    let s := if d.toNat < 120 then s.modGroup c.g fun g =>
        let full := fullWrite g c.act
        writeName (writeName g c.act full d.toNat (.u (BitVec.ofNat 32 t))) c.act full (d.toNat + 1)
          (.u (BitVec.ofNat 32 (t / 2 ^ 32)))
      else s
    finish (balanceRows s c.g (entriesOf c (namesOf d 2))) c (wholeWrite c.gr c.act)) s

def execBkpt (_i : BitVec 17) (s : State) : Out :=
  withIssue s fun c s => faultHere s c ⟨0x28, c.act, 0xFF, c.word⟩

def execTmark (a : Reg) (i : BitVec 10) (s : State) : Out :=
  runShared 127 [(a, 1)] 1 (fun c _ s rows =>
    finish (traceGroup s c.g 1 i.toNat ((src rows 0).get (lowest c.act)).toNat) c false) s

end Sys2Proof.Machine
end

