-- ==== Sys2Proof/Machine/Dispatch.lean ====
section
/-! DEFINITION. The meaning of every instruction and event: one arm per constructor, in the order of Syntax.lean. -/
namespace Sys2Proof.Machine

/-- The effect of one instruction or event. -/
def exec (i : Instr) (s : State) : Host.Outcome State Fault Refusal :=
  match i with
  | .clauseIssue g lane => Sys2Proof.Machine.execClauseIssue g lane s
  | .longLatencyCompletion g n => Sys2Proof.Machine.execLongLatencyCompletion g n s
  | .gRowReadback g row => Sys2Proof.Machine.execGRowReadback g row s
  | .haltLineAssert part => Sys2Proof.Machine.execHaltLineAssert part s
  | .unitStop unit => Sys2Proof.Machine.execUnitStop unit s
  | .groupStopRecord g => Sys2Proof.Machine.execGroupStopRecord g s
  | .contextHalted ctx => Sys2Proof.Machine.execContextHalted ctx s
  | .preemptRequest ctx => Sys2Proof.Machine.execPreemptRequest ctx s
  | .gracePeriodExpiry g => Sys2Proof.Machine.execGracePeriodExpiry g s
  | .groupSave g => Sys2Proof.Machine.execGroupSave g s
  | .teamSave team => Sys2Proof.Machine.execTeamSave team s
  | .partitionGrant ctx part => Sys2Proof.Machine.execPartitionGrant ctx part s
  | .teamRestore team core => Sys2Proof.Machine.execTeamRestore team core s
  | .timeSliceEnd ctx => Sys2Proof.Machine.execTimeSliceEnd ctx s
  | .contextFreed ctx => Sys2Proof.Machine.execContextFreed ctx s
  | .mrqtailWrite v => Sys2Proof.Machine.execMrqtailWrite v s
  | .mcqconsWrite v => Sys2Proof.Machine.execMcqconsWrite v s
  | .hqtailWrite q v => Sys2Proof.Machine.execHqtailWrite q v s
  | .hqEnWrite q en => Sys2Proof.Machine.execHqEnWrite q en s
  | .hqClrWrite q => Sys2Proof.Machine.execHqClrWrite q s
  | .launch q n => Sys2Proof.Machine.execLaunch q n s
  | .copy q n => Sys2Proof.Machine.execCopy q n s
  | .signal q n => Sys2Proof.Machine.execSignal q n s
  | .wait q n => Sys2Proof.Machine.execWait q n s
  | .waitSatisfied q n => Sys2Proof.Machine.execWaitSatisfied q n s
  | .waitTimeout q n => Sys2Proof.Machine.execWaitTimeout q n s
  | .selftest q n => Sys2Proof.Machine.execSelftest q n s
  | .mark q n => Sys2Proof.Machine.execMark q n s
  | .commandComplete q n => Sys2Proof.Machine.execCommandComplete q n s
  | .launchComplete launch => Sys2Proof.Machine.execLaunchComplete launch s
  | .evconsWrite ctx v => Sys2Proof.Machine.execEvconsWrite ctx v s
  | .eventIenWrite ctx en => Sys2Proof.Machine.execEventIenWrite ctx en s
  | .coalesceTimerExpiry ctx => Sys2Proof.Machine.execCoalesceTimerExpiry ctx s
  | .registerWrite off wide v => Sys2Proof.Machine.execRegisterWrite off wide v s
  | .bindRecordWrite core slot rec => Sys2Proof.Machine.execBindRecordWrite core slot rec s
  | .teamStart core tslot => Sys2Proof.Machine.execTeamStart core tslot s
  | .carveOutChange core => Sys2Proof.Machine.execCarveOutChange core s
  | .groupRetire g => Sys2Proof.Machine.execGroupRetire g s
  | .engineRelease eng => Sys2Proof.Machine.execEngineRelease eng s
  | .gatherTimerExpiry ctx die => Sys2Proof.Machine.execGatherTimerExpiry ctx die s
  | .taskGroupPop ctx core => Sys2Proof.Machine.execTaskGroupPop ctx core s
  | .blockedPortResume g => Sys2Proof.Machine.execBlockedPortResume g s
  | .sleepExpiry g => Sys2Proof.Machine.execSleepExpiry g s
  | .migrateMove g => Sys2Proof.Machine.execMigrateMove g s
  | .bwaitSatisfied g => Sys2Proof.Machine.execBwaitSatisfied g s
  | .barrierTimeout g lane => Sys2Proof.Machine.execBarrierTimeout g lane s
  | .homeAccessAccept g => Sys2Proof.Machine.execHomeAccessAccept g s
  | .recallUnit unit gran => Sys2Proof.Machine.execRecall unit gran s
  | .drainPoint unit gran => Sys2Proof.Machine.execDrainPoint unit gran s
  | .drainAck unit gran => Sys2Proof.Machine.execDrainAck unit gran s
  | .quietExpiry gran => Sys2Proof.Machine.execQuietExpiry gran s
  | .pageWalk die ctx va => Sys2Proof.Machine.execPageWalk die ctx va s
  | .hostAccess store pa size data => Sys2Proof.Machine.execHostAccess store pa size data s
  | .birspReceive line data => Sys2Proof.Machine.execBirspReceive line data s
  | .hostCompletionReceive g => Sys2Proof.Machine.execHostCompletionReceive g s
  | .peerAccess a => Sys2Proof.Machine.execPeerAccess a s
  | .copyUnit id => Sys2Proof.Machine.execCopyUnit id s
  | .copyComplete id => Sys2Proof.Machine.execCopyComplete id s
  | .engineTakeCommand eng => Sys2Proof.Machine.execEngineTakeCommand eng s
  | .engineCommandStart eng => Sys2Proof.Machine.execEngineCommandStart eng s
  | .engineCommandComplete eng => Sys2Proof.Machine.execEngineCommandComplete eng s
  | .streamSlotGrant core => Sys2Proof.Machine.execStreamSlotGrant core s
  | .straitFlitReceive link seq fec crcOk => Sys2Proof.Machine.execStraitFlitReceive link seq fec crcOk s
  | .replayRequest link seq => Sys2Proof.Machine.execReplayRequest link seq s
  | .linkReplayTimeout link => Sys2Proof.Machine.execLinkReplayTimeout link s
  | .retrain link => Sys2Proof.Machine.execRetrain link s
  | .linkTrained link port => Sys2Proof.Machine.execLinkTrained link port s
  | .remoteRequestTimeout g => Sys2Proof.Machine.execRemoteRequestTimeout g s
  | .coherenceTimeout gran => Sys2Proof.Machine.execCoherenceTimeout gran s
  | .ptmenWrite en => Sys2Proof.Machine.execPtmenWrite en s
  | .ptmDialogue ok offset => Sys2Proof.Machine.execPtmDialogue ok offset s
  | .pcSample core quadrant => Sys2Proof.Machine.execPcSample core quadrant s
  | .moduleReset byHost => Sys2Proof.Machine.execModuleReset byHost s
  | .stageAdvance images => Sys2Proof.Machine.execStageAdvance images s
  | .errorDetected e => Sys2Proof.Machine.execErrorDetected e s
  | .triageSelftest bank pass => Sys2Proof.Machine.execTriageSelftest bank pass s
  | .selftestCoreEnd core pass => Sys2Proof.Machine.execSelftestCoreEnd core pass s
  | .powerClockStep watts => Sys2Proof.Machine.execPowerClockStep watts s
  | .iadd d a b m => Sys2Proof.Machine.execIadd d a b m s
  | .iaddc d a b p => Sys2Proof.Machine.execIaddc d a b p s
  | .isub d a b m => Sys2Proof.Machine.execIsub d a b m s
  | .isubb d a b p => Sys2Proof.Machine.execIsubb d a b p s
  | .imul d a b m => Sys2Proof.Machine.execImul d a b m s
  | .imulh d a b m => Sys2Proof.Machine.execImulh d a b m s
  | .imad d a b m => Sys2Proof.Machine.execImad d a b m s
  | .imin d a b m => Sys2Proof.Machine.execImin d a b m s
  | .imax d a b m => Sys2Proof.Machine.execImax d a b m s
  | .iabs d a m => Sys2Proof.Machine.execIabs d a m s
  | .and d a b => Sys2Proof.Machine.execAnd d a b s
  | .or d a b => Sys2Proof.Machine.execOr d a b s
  | .xor d a b => Sys2Proof.Machine.execXor d a b s
  | .andn d a b => Sys2Proof.Machine.execAndn d a b s
  | .shl d a b m => Sys2Proof.Machine.execShl d a b m s
  | .shr d a b m => Sys2Proof.Machine.execShr d a b m s
  | .sar d a b m => Sys2Proof.Machine.execSar d a b m s
  | .rotl d a b => Sys2Proof.Machine.execRotl d a b s
  | .bfx d a b m => Sys2Proof.Machine.execBfx d a b m s
  | .bfi d a b => Sys2Proof.Machine.execBfi d a b s
  | .popc d a => Sys2Proof.Machine.execPopc d a s
  | .clz d a => Sys2Proof.Machine.execClz d a s
  | .ctz d a => Sys2Proof.Machine.execCtz d a s
  | .brev d a => Sys2Proof.Machine.execBrev d a s
  | .iset c p a b m => Sys2Proof.Machine.execIset c p a b m s
  | .sel d a b src => Sys2Proof.Machine.execSel d a b src s
  | .plog t p a b => Sys2Proof.Machine.execPlog t p a b s
  | .pmovToReg d => Sys2Proof.Machine.execPmovToReg d s
  | .pmovToPred a => Sys2Proof.Machine.execPmovToPred a s
  | .clmul d a b => Sys2Proof.Machine.execClmul d a b s
  | .clmulh d a b => Sys2Proof.Machine.execClmulh d a b s
  | .padd2 d a b m => Sys2Proof.Machine.execPadd2 d a b m s
  | .psub2 d a b m => Sys2Proof.Machine.execPsub2 d a b m s
  | .pmac2 d a b m => Sys2Proof.Machine.execPmac2 d a b m s
  | .pdot4 d a b m => Sys2Proof.Machine.execPdot4 d a b m s
  | .pdot8 d a b m => Sys2Proof.Machine.execPdot8 d a b m s
  | .pshr2 d a b m => Sys2Proof.Machine.execPshr2 d a b m s
  | .psat2 d a b m => Sys2Proof.Machine.execPsat2 d a b m s
  | .ppack d a b m => Sys2Proof.Machine.execPpack d a b m s
  | .punpk d a b m => Sys2Proof.Machine.execPunpk d a b m s
  | .pmin2 d a b m => Sys2Proof.Machine.execPmin2 d a b m s
  | .pmax2 d a b m => Sys2Proof.Machine.execPmax2 d a b m s
  | .addi d a imm => Sys2Proof.Machine.execAddi d a imm s
  | .andi d a imm => Sys2Proof.Machine.execAndi d a imm s
  | .ori d a imm => Sys2Proof.Machine.execOri d a imm s
  | .xori d a imm => Sys2Proof.Machine.execXori d a imm s
  | .shli d a n => Sys2Proof.Machine.execShli d a n s
  | .shri d a n => Sys2Proof.Machine.execShri d a n s
  | .sari d a n => Sys2Proof.Machine.execSari d a n s
  | .iseti c p a imm => Sys2Proof.Machine.execIseti c p a imm s
  | .movi d imm => Sys2Proof.Machine.execMovi d imm s
  | .lui d imm => Sys2Proof.Machine.execLui d imm s
  | .orl d imm => Sys2Proof.Machine.execOrl d imm s
  | .fadd d a b m => Sys2Proof.Machine.execFadd d a b m s
  | .fsub d a b m => Sys2Proof.Machine.execFsub d a b m s
  | .fmul d a b m => Sys2Proof.Machine.execFmul d a b m s
  | .ffma d a b m => Sys2Proof.Machine.execFfma d a b m s
  | .fmin d a b m => Sys2Proof.Machine.execFmin d a b m s
  | .fmax d a b m => Sys2Proof.Machine.execFmax d a b m s
  | .fset c p a b m => Sys2Proof.Machine.execFset c p a b m s
  | .frcp d a m => Sys2Proof.Machine.execFrcp d a m s
  | .frsq d a m => Sys2Proof.Machine.execFrsq d a m s
  | .fsqrt d a m => Sys2Proof.Machine.execFsqrt d a m s
  | .fex2 d a m => Sys2Proof.Machine.execFex2 d a m s
  | .flg2 d a m => Sys2Proof.Machine.execFlg2 d a m s
  | .fsin d a m => Sys2Proof.Machine.execFsin d a m s
  | .fcos d a m => Sys2Proof.Machine.execFcos d a m s
  | .frnd d a m => Sys2Proof.Machine.execFrnd d a m s
  | .fcls d a => Sys2Proof.Machine.execFcls d a s
  | .hadd2 d a b m => Sys2Proof.Machine.execHadd2 d a b m s
  | .hmul2 d a b m => Sys2Proof.Machine.execHmul2 d a b m s
  | .hfma2 d a b m => Sys2Proof.Machine.execHfma2 d a b m s
  | .fcvt d a b m => Sys2Proof.Machine.execFcvt d a b m s
  | .f2i d a b m => Sys2Proof.Machine.execF2i d a b m s
  | .i2f d a b m => Sys2Proof.Machine.execI2f d a b m s
  | .qcvt d a b m => Sys2Proof.Machine.execQcvt d a b m s
  | .qdeq d a b m => Sys2Proof.Machine.execQdeq d a b m s
  | .fpxr d => Sys2Proof.Machine.execFpxr d s
  | .fpxc d a m => Sys2Proof.Machine.execFpxc d a m s
  | .frm d a => Sys2Proof.Machine.execFrm d a s
  | .ld8 d a o m => Sys2Proof.Machine.execLd8 d a o m s
  | .ld16 d a o m => Sys2Proof.Machine.execLd16 d a o m s
  | .ld32 d a o m => Sys2Proof.Machine.execLd32 d a o m s
  | .ld64 d a o m => Sys2Proof.Machine.execLd64 d a o m s
  | .ld128 d a o m => Sys2Proof.Machine.execLd128 d a o m s
  | .st8 src a o m => Sys2Proof.Machine.execSt8 src a o m s
  | .st16 src a o m => Sys2Proof.Machine.execSt16 src a o m s
  | .st32 src a o m => Sys2Proof.Machine.execSt32 src a o m s
  | .st64 src a o m => Sys2Proof.Machine.execSt64 src a o m s
  | .st128 src a o m => Sys2Proof.Machine.execSt128 src a o m s
  | .lds d a o m => Sys2Proof.Machine.execLds d a o m s
  | .sts src a o m => Sys2Proof.Machine.execSts src a o m s
  | .ldp d a o m => Sys2Proof.Machine.execLdp d a o m s
  | .stp src a o m => Sys2Proof.Machine.execStp src a o m s
  | .ldc d a o m => Sys2Proof.Machine.execLdc d a o m s
  | .atom d a b m => Sys2Proof.Machine.execAtom d a b m s
  | .atoms d a b m => Sys2Proof.Machine.execAtoms d a b m s
  | .cas d a b m => Sys2Proof.Machine.execCas d a b m s
  | .pref a o m => Sys2Proof.Machine.execPref a o m s
  | .cpy d a b m => Sys2Proof.Machine.execCpy d a b m s
  | .cpyr d a b m => Sys2Proof.Machine.execCpyr d a b m s
  | .bra c o => Sys2Proof.Machine.execBra c o s
  | .brx a => Sys2Proof.Machine.execBrx a s
  | .call src imm => Sys2Proof.Machine.execCall src imm s
  | .callx src a => Sys2Proof.Machine.execCallx src a s
  | .meet c o => Sys2Proof.Machine.execMeet c o s
  | .wbase imm => Sys2Proof.Machine.execWbase imm s
  | .sleep a n => Sys2Proof.Machine.execSleep a n s
  | .lshfl d a b m => Sys2Proof.Machine.execLshfl d a b m s
  | .lslide d a b m => Sys2Proof.Machine.execLslide d a b m s
  | .lbcast d a b m => Sys2Proof.Machine.execLbcast d a b m s
  | .vote d a m => Sys2Proof.Machine.execVote d a m s
  | .lreduce d a b m => Sys2Proof.Machine.execLreduce d a b m s
  | .lscan d a b m => Sys2Proof.Machine.execLscan d a b m s
  | .shape d a => Sys2Proof.Machine.execShape d a s
  | .expand d => Sys2Proof.Machine.execExpand d s
  | .rwrite d a b => Sys2Proof.Machine.execRwrite d a b s
  | .rwait a => Sys2Proof.Machine.execRwait a s
  | .rwaitId d => Sys2Proof.Machine.execRwaitId d s
  | .rwaitCnt d => Sys2Proof.Machine.execRwaitCnt d s
  | .migrate a => Sys2Proof.Machine.execMigrate a s
  | .qbind d a m => Sys2Proof.Machine.execQbind d a m s
  | .qclose a => Sys2Proof.Machine.execQclose a s
  | .qstat d a => Sys2Proof.Machine.execQstat d a s
  | .qtry d a => Sys2Proof.Machine.execQtry d a s
  | .tspawn a b m => Sys2Proof.Machine.execTspawn a b m s
  | .klaunch d a => Sys2Proof.Machine.execKlaunch d a s
  | .bincnt d a b m => Sys2Proof.Machine.execBincnt d a b m s
  | .binpatch a b m => Sys2Proof.Machine.execBinpatch a b m s
  | .binit d a b m => Sys2Proof.Machine.execBinit d a b m s
  | .barv d a b m => Sys2Proof.Machine.execBarv d a b m s
  | .bexp d a b m => Sys2Proof.Machine.execBexp d a b m s
  | .bwait a b m => Sys2Proof.Machine.execBwait a b m s
  | .btest d a b m => Sys2Proof.Machine.execBtest d a b m s
  | .mma a b m => Sys2Proof.Machine.execMma a b m s
  | .mdrain d a b m => Sys2Proof.Machine.execMdrain d a b m s
  | .mzero b => Sys2Proof.Machine.execMzero b s
  | .mrestart a => Sys2Proof.Machine.execMrestart a s
  | .ringset d a => Sys2Proof.Machine.execRingset d a s
  | .sgen d a b m => Sys2Proof.Machine.execSgen d a b m s
  | .sand d a b => Sys2Proof.Machine.execSand d a b s
  | .sxnor d a b => Sys2Proof.Machine.execSxnor d a b s
  | .smux d a b => Sys2Proof.Machine.execSmux d a b s
  | .snot d a => Sys2Proof.Machine.execSnot d a s
  | .scnt d a m => Sys2Proof.Machine.execScnt d a m s
  | .sregen d a b m => Sys2Proof.Machine.execSregen d a b m s
  | .slen m => Sys2Proof.Machine.execSlen m s
  | .scls d a => Sys2Proof.Machine.execScls d a s
  | .sld d a m => Sys2Proof.Machine.execSld d a m s
  | .sst src a => Sys2Proof.Machine.execSst src a s
  | .smov d a => Sys2Proof.Machine.execSmov d a s
  | .trap imm => Sys2Proof.Machine.execTrap imm s
  | .phint imm => Sys2Proof.Machine.execPhint imm s
  | .sysr d imm => Sys2Proof.Machine.execSysr d imm s
  | .sysw a imm => Sys2Proof.Machine.execSysw a imm s
  | .time d => Sys2Proof.Machine.execTime d s
  | .bkpt imm => Sys2Proof.Machine.execBkpt imm s
  | .tmark a imm => Sys2Proof.Machine.execTmark a imm s
  | .create => Sys2Proof.Machine.execCreate s
  | .kill => Sys2Proof.Machine.execKill s
  | .resume => Sys2Proof.Machine.execResume s
  | .debugHalt => Sys2Proof.Machine.execDebugHalt s
  | .assign => Sys2Proof.Machine.execAssign s
  | .partition => Sys2Proof.Machine.execPartition s
  | .qassign => Sys2Proof.Machine.execQassign s
  | .inval => Sys2Proof.Machine.execInval s
  | .unclass => Sys2Proof.Machine.execUnclass s
  | .pin => Sys2Proof.Machine.execPin s
  | .unpin => Sys2Proof.Machine.execUnpin s
  | .bias => Sys2Proof.Machine.execBias s
  | .classq => Sys2Proof.Machine.execClassq s
  | .lrec => Sys2Proof.Machine.execLrec s
  | .retlist => Sys2Proof.Machine.execRetlist s
  | .dbgset => Sys2Proof.Machine.execDbgset s
  | .dbgread => Sys2Proof.Machine.execDbgread s
  | .mcread => Sys2Proof.Machine.execMcread s
  | .attest => Sys2Proof.Machine.execAttest s
  | .power => Sys2Proof.Machine.execPower s
  | .setparam => Sys2Proof.Machine.execSetparam s
  | .domain => Sys2Proof.Machine.execDomain s
  | .startTimeout => Sys2Proof.Machine.execStartTimeout s
  | .dumpvWrite => Sys2Proof.Machine.execDumpvWrite s
  | .ret => Sys2Proof.Machine.execRet s
  | .exit => Sys2Proof.Machine.execExit s
  | .yield => Sys2Proof.Machine.execYield s
  | .nop => Sys2Proof.Machine.execNop s
  | .tsync => Sys2Proof.Machine.execTsync s
  | .tret => Sys2Proof.Machine.execTret s

end Sys2Proof.Machine
end

