-- ==== Sys2Proof/Machine/Schedule.lean ====
section
/-! DEFINITION. What the machine may do next of its own accord, the moves that have to come within a time, and the passing of time
(R4, R131, R301, R379, R391). A move whose condition does not hold changes nothing, so the list
may name more moves than can happen. -/
namespace Sys2Proof.Machine

/-! ## Groups -/

/-- The lanes that lead a convergence set. -/
def setLeaders (gr : Group) : List Nat := (List.range 32).filter fun l =>
  let m := convergenceSet gr l
  m != 0 && lowest m == l

/-- Insert into a descending list. -/
def insertDesc (n : Nat) : List Nat → List Nat
  | [] => [n]
  | m :: t => if m < n then n :: m :: t else m :: insertDesc n t

/-- Units that have waited for so many turns can all be served, one a turn, before any has waited for more than `bound`. -/
def canWait (bound : Nat) (waits : List Nat) : Bool :=
  ((waits.foldr insertDesc []).zipIdx).all fun p => decide (p.1 + p.2 ≤ bound)

/-- What the runnable sets that lead at the lanes `ls` have waited for: the longest of each set's threads. -/
def setWaits (s : State) (g : Nat) (gr : Group) (ls : List Nat) : List Nat :=
  (ls.filter (runnableSet s g gr)).map fun l =>
    (lanesOf (convergenceSet gr l)).foldl (fun n k => max n (lane gr.threads k).waited) 0

/-- The sets that may issue next (R177): issuing one leaves every other runnable set its turn before 256 clauses of others. -/
def fairLeaders (s : State) (g : Nat) (gr : Group) : List Nat :=
  let ls := setLeaders gr
  match ls.filter fun l => canWait 254 (setWaits s g gr (ls.filter (· != l))) with
  | [] => ls
  | fair => fair

/-- The group may issue next (R177): every other ready group of its quadrant keeps its turn within 64 of the quadrant's issue
cycles. -/
def fairGroup (s : State) (g : Nat) : Bool :=
  let others := s.groups.filter fun p => p.1 != g && quadrantOf p.1 == quadrantOf g && issuing (s.ctx p.2.ctx).state && readyGroup s p.1 p.2
  let waits := others.map fun p => (tget s.turns.starved p.1).getD 0
  canWait 62 waits || waits.all fun w => decide (w ≤ (tget s.turns.starved g).getD 0)

def groupMoves (s : State) (g : Nat) (gr : Group) : List Move :=
  (if !fairGroup s g then []
    else if gr.issue.isSome then [Move.issue g] else (fairLeaders s g gr).map fun l => .event (.clauseIssue g l))
  ++ gr.ops.map (fun o => .event (.longLatencyCompletion g o.id))
  ++ gr.evicted.map (fun e => .event (.gRowReadback g e))
  ++ ((List.range 32).filter fun l => (bwaitOf gr l).isSome).map (fun l => .event (.barrierTimeout g l))
  ++ [.homeAccessAccept g, .hostCompletionReceive g, .blockedPortResume g, .sleepExpiry g, .migrateMove g, .bwaitSatisfied g,
      .groupRetire g, .unitStop g, .groupStopRecord g, .gracePeriodExpiry g, .groupSave g].map Move.event

/-! ## Contexts -/

/-- Another context could take partition `p`. -/
def wantsPartition (s : State) (p : Nat) : Bool := s.contexts.any fun q => mayTake q.2 p

/-- The scheduler posts a request when the slice is over and another context waits for the partition (R87, R131). -/
def preemptDue (s : State) (x : Context) : Bool :=
  match x.state, x.partition with
  | .saving, _ => true
  | .running, some p => decide (x.sliceEnd ≤ s.realTime) && wantsPartition s p
  | _, _ => false

def contextMoves (s : State) (c : Nat) (x : Context) : List Move :=
  let cores := (List.range 192).filter fun k => (s.partMask c).getLsbD (sliceOfCore k)
  let busy (d : Nat) : Bool := let q := s.taskQueue c d; !q.queued.isEmpty || !q.formed.isEmpty
  ([.contextHalted c, .timeSliceEnd c, .contextFreed c, .coalesceTimerExpiry c].map Move.event)
  ++ (if preemptDue s x then [.event (.preemptRequest c)] else [])
  ++ (List.range 8).map (fun p => .event (.partitionGrant c p))
  ++ (List.range 4).map (fun d => .event (.gatherTimerExpiry c d))
  ++ (cores.filter fun k => busy (dieOfCore k)).map (fun k => .event (.taskGroupPop c k))
  ++ (if x.state = .running then bindMoves s c else [])
  ++ (if x.state = .restoring then
        (tkeys s.teams fun _ t => t.ctx == c && inImage t).flatMap fun t => cores.map fun k => .event (.teamRestore t k)
      else [])

/-! ## The rest of the module -/

def coreMoves (s : State) (k : Nat) : List Move :=
  [.event (.carveOutChange k), .event (.streamSlotGrant k)] ++ ((waitingRecs s k).map fun p => .event (.teamStart k p.2.tslot))
  ++ (if !s.groups.any fun p => coreOf p.1 == k then [] else (List.range 4).map fun q => .event (.pcSample k q))

/-- The units other than groups that a halt line stops (R94). -/
def haltMoves (s : State) : List Move :=
  if s.haltLine = 0 then []
  else (List.range 64).map (fun i => .event (.unitStop (12288 + i))) ++ (List.range 192).map fun k => .event (.unitStop (12352 + k))

def commandMoves (q : Nat) (k : HostCmd) : List Move :=
  let n := k.seq.toNat
  [.launch q n, .copy q n, .signal q n, .wait q n, .waitSatisfied q n, .waitTimeout q n, .selftest q n, .mark q n,
   .commandComplete q n].map Move.event

def engineMoves (e : Nat) : List Move :=
  [.engineTakeCommand e, .engineCommandStart e, .engineCommandComplete e, .engineRelease e].map Move.event

/-- The steps of a transition; the acknowledgements of other modules come from outside. -/
def transitMoves (u : Nat) (x : Transit) : List Move :=
  .event (.coherenceTimeout u) :: (x.owes.map fun t => .event (.recallUnit t u))
  ++ ((x.owes.filter (decide <| · < 20000)).flatMap fun t => [.event (.drainPoint t u), .event (.drainAck t u)])

/-- The requests of Table 4-15. -/
def requestMoves : List Move :=
  [.create, .kill, .resume, .debugHalt, .assign, .partition, .qassign, .inval, .unclass, .pin, .unpin, .bias, .classq, .lrec,
   .retlist, .dbgset, .dbgread, .mcread, .attest, .power, .setparam, .domain].map Move.event

/-- Every move that the machine may make of its own accord. -/
def moves (s : State) : List Move :=
  s.groups.flatMap (fun p => groupMoves s p.1 p.2)
  ++ s.contexts.flatMap (fun p => contextMoves s p.1 p.2)
  ++ ((List.range 8).filter fun p => (s.partCtx[p % 8]'(Nat.mod_lt _ (by decide))).isSome).map (fun p => .event (.haltLineAssert p))
  ++ haltMoves s
  ++ s.teams.map (fun p => .event (.teamSave p.1))
  ++ s.launches.map (fun p => .event (.launchComplete p.1))
  ++ s.cores.flatMap (fun p => coreMoves s p.1)
  ++ s.copies.flatMap (fun p => [.event (.copyUnit p.1), .event (.copyComplete p.1)])
  ++ s.engines.flatMap (fun p => engineMoves p.1)
  ++ s.hostQueues.flatMap (fun p => p.2.cmds.flatMap (commandMoves p.1))
  ++ s.transits.flatMap (fun p => transitMoves p.1 p.2)
  ++ s.classes.map (fun p => .event (.quietExpiry p.1))
  ++ s.walks.map (fun w => .event (.pageWalk w.die w.ctx (BitVec.ofNat 57 w.page)))
  ++ s.atHome.map Move.event
  ++ (if s.mgmt.inflight.isEmpty then [] else requestMoves)
  ++ (if s.boot.stage < 2 then [.event .startTimeout] else [])

/-! ## What has its time (R131, R301, R302, R422) -/

/-- The ns of real time in which `n` ns of device time pass at most (R379). -/
def slewed (n : Nat) : Nat := n - n / 5000

/-- The head of the classed unit in which line `l` lies. -/
def unitOfLine (s : State) (l : Nat) : Nat := ((coverOf s (l / 32)).map (·.1)).getD (l / 32)

/-- The limits of start-up (R396), of a link's replay (R369) and of the acknowledgements that a home awaits (R378), with the ns that are
left. -/
def linkDeadlines (s : State) : List (Nat × Move) :=
  (if s.boot.stage < 2 ∧ !s.boot.minimal then [(slewed (30000000000 - s.realTime), .event .startTimeout)] else [])
  ++ (List.range 18).flatMap (fun n =>
    if !(s.link n).up then []
    else ((s.link n).replayAt :: (s.link n).naks.map (·.at_)).filterMap fun t => t.map fun t => (slewed (t + 10000 - s.realTime), Move.event (.linkReplayTimeout n)))
  ++ s.messages.filterMap (fun x => if x.tag < 2 ^ 16 then none
    else some (slewed (x.sent + 1000000 - s.realTime), .event (.coherenceTimeout (unitOfLine s (x.tag - 2 ^ 16)))))
  ++ s.transits.filterMap fun p => if p.1 < 2 ^ 27 then some (slewed (p.2.since + 1000000 - s.realTime), .event (.coherenceTimeout p.1)) else none

/-- The words of evicted rows that other modules have not answered within 1 ms (R377). -/
def rowDeadlines (s : State) : List (Nat × Move) :=
  s.groups.flatMap fun p => (p.2.leaving.filter fun x => p.2.evicted.contains x.1).filterMap fun x =>
    (messageOf s (rowParty s p.1 false) x.2.1 x.2.2 (x.1 + 1)).map fun m =>
      (slewed (m.sent + 1000000 - s.realTime), .event (.gRowReadback p.1 x.1))

/-- The moves that must be made within a time, with the ns that are left: a BWAIT lane's trap and the end of a WAIT, 1 ms after
their T has passed (R301), the binding of a team and the start of a task group, one slice after it could be bound (R131), and the end
of a coalescing timer (R155). -/
def deadlines (s : State) : List (Nat × Move) :=
  let left (c t : Nat) : Nat := t + 1000000 - (s.ctx c).runNs
  s.groups.flatMap (fun p =>
    if p.2.phase = .running ∧ (s.ctx p.2.ctx).state = .running then
      (List.range 32).filterMap fun l => (bwaitLimit s p.1 p.2 l).map fun t => (left p.2.ctx t, .event (.barrierTimeout p.1 l))
    else [])
  ++ s.hostQueues.flatMap (fun p => p.2.cmds.filterMap fun k =>
    (waitLimit s p.1 k.seq.toNat).map fun t => (left p.2.ctx t, .event (.waitTimeout p.1 k.seq.toNat)))
  ++ s.contexts.flatMap (fun p => match p.2.partition with
    | some q =>
      let slice := 1000 * (s.parts[q % 8]'(Nat.mod_lt _ (by decide))).slice
      if p.2.state ≠ .running then []
      else (match nextLaunch s p.1 with
          | some (_, l, m :: _) => (l.since.map fun t => (slewed (t + slice - s.realTime), m)).toList
          | _ => [])
        ++ (List.range 4).filterMap fun d => match (s.taskQueue p.1 d).since, taskCore s p.1 d with
          | some t, some k => some (slewed (t + slice - s.realTime), .event (.taskGroupPop p.1 k))
          | _, _ => none
    | none => [])
  ++ s.contexts.filterMap (fun p => if p.2.ring.ien then p.2.ring.timer.map fun t => (slewed (t - s.realTime), .event (.coalesceTimerExpiry p.1)) else none)
  ++ linkDeadlines s ++ rowDeadlines s

/-- The moves whose time has come. -/
def dueMoves (s : State) : List Move := ((deadlines s).filter (·.1 == 0)).map (·.2)

/-- One of a list of moves. -/
def chooseMove (s : State) (l : List Move) : Option Move :=
  match l with
  | [] => none
  | [m] => some m
  | l => l[Config.pick s.tick % l.length]?

/-- The next move: the head of the agenda, else one whose time has come, else one that the machine makes of its own accord. -/
def nextMove (s : State) : Option Move :=
  match s.agenda with
  | m :: _ => some m
  | [] => match dueMoves s with
    | [] => chooseMove s (moves s)
    | l => chooseMove s l

/-- BWAIT lanes and WAIT commands observe their words at the first instant at which their condition holds (R302, R422). -/
def settleWaits (s : State) : State :=
  let s := s.groups.foldl (fun s p => match s.group? p.1 with
    | some gr => if bwaitDue s p.1 gr then (execBwaitSatisfied p.1 s).stateOr s else s
    | none => s) s
  s.hostQueues.foldl (fun s p => p.2.cmds.foldl (fun s k =>
    if waitDue s p.1 k.seq.toNat then (execWaitSatisfied p.1 k.seq.toNat s).stateOr s else s) s) s

/-- Since when the next launch of each context could have had a team bound, and the first formed group of each of its task queues
could have started (R131). -/
def noteBinding (s : State) : State :=
  s.contexts.foldl (fun s p =>
    let runs := p.2.state = .running
    let next := if runs then (nextLaunch s p.1).map (·.1) else none
    let s := { s with launches := s.launches.map fun q =>
        if q.2.ctx = p.1 then (q.1, { q.2 with since := if next = some q.1 then some (q.2.since.getD s.realTime) else none }) else q }
    (List.range 4).foldl (fun s d =>
      if (s.taskQueue p.1 d).formed.isEmpty then s
      else
        let can := runs ∧ (taskCore s p.1 d).isSome
        s.modTaskQueue p.1 d fun q => { q with since := if can then some (q.since.getD s.realTime) else none }) s) s

/-- The instruction that `.issue g` executes: the word in progress of the clause that group `g` has in issue. -/
def issueInstr (s : State) (g : Nat) : Option Instr :=
  match currentCtl { s with cur := g } with
  | none => none
  | some c => match decode c.gr.enc c.word with
    | .ok i => some i
    | .error _ => none

/-! ## A program loaded from outside -/

/-- A kernel image of one stage and one group a team, with its code at 2^16. -/
def plainImage : Image :=
  { base := 0x10000, enc := 3, stages := 1, engmask := 0, team := 1, window := 128, scratch := 0, argn := 0, livecnt := 0
    codeoff := 256, codesize := 8, dataoff := 0, datasize := 0, liveoff := 0, trapvec := none
    entries := [some 256, none, none, none, none, none, none, none], mmafmt := 0, stackn := 1024, privb := 4096 }

/-- The launch of that image with one team. -/
def plainLaunch : Launch :=
  { ctx := 0, image := 0, dx := 1, dy := 1, dz := 1, args := [], qtab := [], prio := 0, tasks := false, taskCount := 0
    tasksDone := 0, placed := [0], retired := 0, total := 1, status := 0, root := .zero, tag := 0, rec_ := false, bar := 0, die := 0
    rings := [], since := none, order := 0 }

/-- A clause of the one word `w` (flags 0 and 1, no guard) in issue for all 32 threads. -/
def wordIssue (w : Word) : Issue :=
  { hdr := 0x10100, header := 0x1100, words := [w], pos := 0, set := BitVec.allOnes 32, guard := BitVec.allOnes 32
    depCounted := false, checked := false, op := none, voted := none, taken := false }

/-- The group that has it in issue. -/
def wordGroup (w : Word) : Group :=
  { startGroup 0 0 0 0 plainImage 0 (perLane fun _ => startThread 0x10100 plainImage .zero 0) [] with
    issue := some (wordIssue w) }

/-- A Running context 0 whose one group stands before the word `w` and moves next. -/
def placeWord (s : State) (w : Word) : State :=
  { s with
    agenda := [.issue 0]
    contexts := tset s.contexts 0 { s.ctx 0 with state := .running, partition := some 0, images := [plainImage] }
    partCtx := Vector.ofFn fun i => if i.val = 0 then some 0 else s.partCtx[i]
    launches := tset s.launches 0 plainLaunch
    teams := tset s.teams 0 (newTeam 0 0 false 0 0 0 0 0 0 [0] 0 none)
    groups := tset s.groups 0 (wordGroup w) }

/-! ## Time -/

/-- Time that a Running context spends (R301), with the quadrant-cycles in which nothing of it issued (R391). -/
def Context.elapse (x : Context) (n idle : Nat) : Context :=
  if x.state = .running then
    { x with
      runNs := x.runNs + n
      debug := x.debug |>.map fun d => { d with runcyc := sat64 (d.runcyc + idle), idle := sat64 (d.idle + 32 * idle) } }
  else x

/-- The device time that passes in one step (R301): no more than some move leaves. -/
def stepTime (s : State) : Nat := (deadlines s).foldl (fun n d => min n d.1) (Config.elapsed s.tick)

/-- The waits that have ended, then the time of one step passes. -/
def elapse (s : State) : State :=
  let s := noteBinding (settleWaits s)
  let n := stepTime s
  let s := passTime s n
  let s := { s with turns := if Config.idleCycles s.tick = 0 then s.turns else endedTurns s.turns }
  let idle (c : Nat) : Nat := if s.groups.any (fun p => p.2.ctx == c) then Config.idleCycles s.tick else 0
  { s with tick := s.tick + 1, contexts := tmap s.contexts fun c x => x.elapse n (idle c) }

end Sys2Proof.Machine
end

