-- ==== Sys2Proof/Machine/Stalls.lean ====
section
/-! DEFINITION. Which groups' instructions in progress still cannot issue after a step, as samples report it ("Debug, Trace and
Profiling", R390). -/
namespace Sys2Proof.Machine

/-- The turns after group `g` would have tried its instruction in progress once more. -/
def turnsAfter (s : State) (g : Nat) : Turns :=
  match issueInstr s g with
  | none => s.turns
  | some i => match exec i { s with cur := g } with
    | .next t => t.turns
    | _ => s.turns

/-- Of the groups whose instructions have tried to issue and could not, those that still cannot, and those of them for which a
dependence is the reason now (R390, Table 17-6). -/
def settleStalls (s : State) : State :=
  { s with turns := { s.turns with
      stalled := s.turns.stalled.filter fun g => (turnsAfter s g).stalled.contains g
      depends := s.turns.stalled.filter fun g => (turnsAfter s g).depends.contains g } }

end Sys2Proof.Machine
end

