-- ==== Sys2Proof/Machine/Step.lean ====
section
/-! DEFINITION. One step of the machine: the next move is made, then time passes; and how a word is put where the next
step executes it. -/
namespace Sys2Proof.Machine

/-- Make one move: an event, the next instruction of a group's clause in issue, or a store that no event shows. -/
def runMove (m : Move) (s : State) : Host.Outcome State Fault Refusal :=
  match m with
  | .event i => exec i s
  | .issue g => match issueInstr s g with
    | some i => exec i { s with cur := g }
    | none => .next s
  | .hostStores a b => .next (storeOfHost s a b)
  | .peerStores a b => .next (storeOfPeer s a b)
  | .imageStores t i a b => .next (storeToImage s t i a b)
  | .hdmProgram base => .next (programHdm s base)
  | .hostAddress store hpa size data => hostAccessAt store hpa size data s

/-- Time passes after a move that leaves a next state. -/
def afterMove (o : Host.Outcome State Fault Refusal) : Host.Outcome State Fault Refusal :=
  match o with
  | .next s => .next (elapse (settleStalls s))
  | .fault f => .fault f
  | .refused r => .refused r

/-- One step: the head of the agenda or, with none, a move of the machine's own choice; time passes in any case. -/
def step (s : State) : Host.Outcome State Fault Refusal :=
  match nextMove s with
  | none => .next (elapse s)
  | some m => afterMove (runMove m { s with agenda := s.agenda.tail })

/-- The word `w` in the clause in issue of a group whose next instruction is the next move (log entry 3). -/
def State.withFetchWord (s : State) (nbits w : Nat) : State := placeWord s (BitVec.ofNat 32 (w % 2 ^ nbits))

end Sys2Proof.Machine
end

