-- ==== Sys2Proof/Safety.lean ====
section
/-! DEFINITION. The terms in which statements speak: what counts as a safe run, when an instruction in progress reaches its
effect, and what its result is. -/
namespace Sys2Proof.Machine

/-! ## Runs -/

/-- The three memories are in their canonical form. -/
def MemoriesOk (s : State) : Prop := s.mem.wf = true ∧ s.hostMem.wf = true ∧ s.peerMem.wf = true

/-- An outcome that is a next state with property `p`. -/
def Completes (o : Host.Outcome State Fault Refusal) (p : State → Prop) : Prop := ∃ t, o = .next t ∧ p t

/-! ## An instruction that reaches its effect -/

/-- No instruction comparator stops the instruction in progress (R384). -/
def debugPasses (s : State) (c : Ctl) : Prop :=
  c.iss.checked = true ∨ match (s.ctx c.gr.ctx).debug, s.team? c.gr.team with
    | some d, some t => (checkICmp c.gr t c.act c.pc.toNat 0 d.icmp).1 = none
    | _, _ => True

/-- The current group's instruction in progress is `c`; it has active lanes (R28), no ordered access of its own in progress
(R279), and no comparator stops it. -/
structure InProgress (s : State) (c : Ctl) : Prop where
  ctl : currentCtl s = some c
  fresh : c.iss.op = none
  active : c.act ≠ 0
  debug : debugPasses s c

/-- None of these names is pending for an active lane (R42), and their rows are on chip (R182). -/
def namesReady (c : Ctl) (ns : List Nat) : Prop :=
  (∀ l, has c.act l = true → pendingName c.gr l ns = none) ∧ (entriesOf c ns).any c.gr.evicted.contains = false

/-- The ports that the fields name are bound the right way, hold their entries and have room; no ordered access of the group
is outstanding then (R128, R424). -/
def portsReady (s : State) (c : Ctl) (fs : List Src) (d : Reg) : Prop :=
  (srcPorts fs = [] ∧ dstPort d = none) ∨
  (portFault c.gr (srcPorts fs) (dstPort d) = none ∧ orderedOut c.gr = false ∧ popAll s c.gr (srcPorts fs) = none ∧
    ∀ r, dstPort d = some r → ∃ p q, portOf c.gr r = some p ∧ portQueue s p = some q ∧ pushAns s q = .ready)

/-- An instruction with source fields `fs` and destination `d` reaches its effect. -/
structure Runs (s : State) (c : Ctl) (fs : List Src) (d : Reg) : Prop extends InProgress s c where
  names : namesReady c (allNames fs d)
  ports : portsReady s c fs d

/-- The rows that the source fields bring in: names as the active lanes read them, and the oldest entries of ports. -/
def operandRows (s : State) (c : Ctl) (fs : List Src) : List Row := srcRows c.gr c.act fs (doPops s c.gr (srcPorts fs)).1

/-- What lane `l` reads of them. -/
def operands (s : State) (c : Ctl) (fs : List Src) (l : Nat) : List Word := (operandRows s c fs).map (·.get l)

/-! ## Results -/

/-- In `t`, the threads of the group that executed `c`. -/
def threadIn (t : State) (c : Ctl) (l : Nat) : Thread :=
  match t.group? c.g with
  | some gr => lane gr.threads l
  | none => .absent

/-- In `t`, what lane `l` holds in the row that its name `n` stood for when `c` issued. -/
def nameIn (t : State) (c : Ctl) (n l : Nat) : Word :=
  match t.group? c.g with
  | some gr => (rowAt gr (refOf (c.thread l) n)).get l
  | none => 0

/-- Destination `d` has received `v`: a name holds it in every active lane, a port's queue has it as its newest entry, and
vz has discarded it (R37, R181). -/
def Received (t : State) (c : Ctl) (d : Reg) (v : Nat → Word) : Prop :=
  (d.toNat < 120 → ∀ l, l < 32 → has c.act l = true → nameIn t c d.toNat l = v l) ∧
  ∀ p, (dstPort d).bind (portOf c.gr) = some p →
    ∃ q, t.queue? p.inst = some q ∧ q.entries.getLast? = some (pushEntry q c.act (.g (perLane v)))

/-- No row has left its chip between two states, and no group has faulted for want of its page: the evicted entries and the
faults of every group are the same. -/
def NoEviction (s t : State) : Prop :=
  ∀ g, (t.group? g).map (fun x => (x.evicted, x.fault)) = (s.group? g).map fun x => (x.evicted, x.fault)

/-- Everything that no register instruction writes is the same. -/
def SameMachine (s t : State) : Prop :=
  t.mem = s.mem ∧ t.hostMem = s.hostMem ∧ t.peerMem = s.peerMem ∧ t.teams = s.teams ∧ t.launches = s.launches ∧
  t.taskQueues = s.taskQueues ∧ t.cores = s.cores ∧ t.copies = s.copies ∧ t.engines = s.engines ∧ t.tlbs = s.tlbs ∧
  t.classes = s.classes ∧ t.transits = s.transits ∧ t.mgmt = s.mgmt ∧ t.hostQueues = s.hostQueues ∧ t.links = s.links ∧
  t.timeBlock = s.timeBlock ∧ t.time = s.time ∧ t.parts = s.parts ∧ t.partCtx = s.partCtx ∧ t.banks = s.banks ∧
  t.boot = s.boot ∧ t.power = s.power ∧ t.poison = s.poison ∧ t.domain = s.domain ∧ t.haltLine = s.haltLine

end Sys2Proof.Machine
end

