-- ==== Sys2Proof/Certificates/Slice0/Obligations.lean ====
section
/-! DEFINITION. The statements about the M7 that the provers prove, with the rules of the manual written out where a statement
needs them. -/

section Statements
namespace Sys2Proof.Claims
end Sys2Proof.Claims
open Sys2Proof Sys2Proof.Machine Sys2Proof.Claims

/-! ## Register instructions -/

namespace Sys2Proof.Claims

/-- Operand `i` of a lane. -/
def opArg (v : List Word) (i : Nat) : Word := v.getD i 0

/-- A result clamped to a range, and the SAT flag when the clamp changed it. -/
def clampTo (lo hi t : Int) : Word × BitVec 7 :=
  if t < lo then (BitVec.ofInt 32 lo, fSAT) else if hi < t then (BitVec.ofInt 32 hi, fSAT) else (BitVec.ofInt 32 t, 0)

def clampS : Int → Word × BitVec 7 := clampTo (-2 ^ 31) (2 ^ 31 - 1)

def clampU : Int → Word × BitVec 7 := clampTo 0 (2 ^ 32 - 1)

def plainWord (t : Int) : Word × BitVec 7 := (BitVec.ofInt 32 t, 0)

/-- A register instruction: its destination, its source fields (vd last when it is read), and what a lane computes from the
operands: the result and the flags that are ORed into FPX. -/
abbrev LaneRule := Reg × List Src × (List Word → Word × BitVec 7)

def rule2 (d a b : Reg) (f : Word → Word → Word × BitVec 7) : Option LaneRule :=
  some (d, [(a, 1), (b, 1)], fun v => f (opArg v 0) (opArg v 1))

def rule3 (d a b : Reg) (f : Word → Word → Word → Word × BitVec 7) : Option LaneRule :=
  some (d, [(a, 1), (b, 1), (d, 1)], fun v => f (opArg v 0) (opArg v 1) (opArg v 2))

def rule1 (d a : Reg) (f : Word → Word × BitVec 7) : Option LaneRule := some (d, [(a, 1)], fun v => f (opArg v 0))

def rule0 (d : Reg) (w : Word) : Option LaneRule := some (d, [], fun _ => (w, 0))

/-- The count of a shift, and the three shifts as R220 gives them. -/
def shiftN (m : BitVec 3) (y : Word) : Nat := if m = 1 then y.toNat else y.toNat % 32

def shlRule (n : Nat) (x : Word) : Word × BitVec 7 := (if 32 ≤ n then 0 else BitVec.ofNat 32 (x.toNat * 2 ^ n), 0)

def shrRule (n : Nat) (x : Word) : Word × BitVec 7 := (if 32 ≤ n then 0 else BitVec.ofNat 32 (x.toNat / 2 ^ n), 0)

def sarRule (n : Nat) (x : Word) : Word × BitVec 7 := plainWord (x.toInt / 2 ^ min n 32)

/-- R216, R218 to R222, R226, R233, R34: the integer instructions that write a register and no predicate. -/
def integerRule : Instr → Option LaneRule
  | .iadd d a b m => rule2 d a b fun x y =>
      if m = 0 then (x + y, 0) else if m = 1 then clampS (x.toInt + y.toInt) else clampU (x.toNat + y.toNat : Nat)
  | .isub d a b m => rule2 d a b fun x y =>
      if m = 0 then (x - y, 0) else if m = 1 then clampS (x.toInt - y.toInt) else clampU ((x.toNat : Int) - y.toNat)
  | .imul d a b m => rule2 d a b fun x y => if m = 0 then (x * y, 0) else clampS (x.toInt * y.toInt)
  | .imulh d a b m => rule2 d a b fun x y =>
      plainWord ((if m = 0 then x.toInt * y.toInt else if m = 1 then (x.toNat : Int) * y.toNat else x.toInt * y.toNat) / 2 ^ 32)
  | .imad d a b m => rule3 d a b fun x y z =>
      if m = 0 then plainWord (x.toInt * y.toInt + z.toInt) else clampS (x.toInt * y.toInt + z.toInt)
  | .imin d a b m => rule2 d a b fun x y =>
      (if m = 1 then (if x.toNat ≤ y.toNat then x else y) else if x.toInt ≤ y.toInt then x else y, 0)
  | .imax d a b m => rule2 d a b fun x y =>
      (if m = 1 then (if x.toNat ≤ y.toNat then y else x) else if x.toInt ≤ y.toInt then y else x, 0)
  | .iabs d a m => rule1 d a fun x => if m = 0 then plainWord x.toInt.natAbs else clampS x.toInt.natAbs
  | .and d a b => rule2 d a b fun x y => (x &&& y, 0)
  | .or d a b => rule2 d a b fun x y => (x ||| y, 0)
  | .xor d a b => rule2 d a b fun x y => (x ^^^ y, 0)
  | .andn d a b => rule2 d a b fun x y => (x &&& ~~~y, 0)
  | .shl d a b m => rule2 d a b fun x y => shlRule (shiftN m y) x
  | .shr d a b m => rule2 d a b fun x y => shrRule (shiftN m y) x
  | .sar d a b m => rule2 d a b fun x y => sarRule (shiftN m y) x
  | .rotl d a b => rule2 d a b fun x y =>
      (BitVec.ofNat 32 (x.toNat * 2 ^ (y.toNat % 32) + x.toNat / 2 ^ (32 - y.toNat % 32)), 0)
  | .bfx d a b m => rule2 d a b fun x y =>
      let w := min (y.toNat / 256 % 64) 32
      let f := x.toNat / 2 ^ (y.toNat % 32) % 2 ^ w
      if m = 0 then plainWord f else plainWord (if w = 0 then 0 else if f < 2 ^ (w - 1) then f else (f : Int) - 2 ^ w)
  | .bfi d a b => rule3 d a b fun x y z =>
      let mask := BitVec.ofNat 32 ((2 ^ min (y.toNat / 256 % 64) 32 - 1) * 2 ^ (y.toNat % 32))
      ((z &&& ~~~mask) ||| (BitVec.ofNat 32 (x.toNat * 2 ^ (y.toNat % 32)) &&& mask), 0)
  | .popc d a => rule1 d a fun x => plainWord ((List.range 32).countP fun i => x.getLsbD i)
  | .clz d a => rule1 d a fun x => plainWord (((List.range 32).find? fun i => x.getLsbD (31 - i)).getD 32)
  | .ctz d a => rule1 d a fun x => plainWord (((List.range 32).find? fun i => x.getLsbD i).getD 32)
  | .brev d a => rule1 d a fun x => (x.reverse, 0)
  | .clmul d a b => rule2 d a b fun x y => ((clmul x y).extractLsb' 0 32, 0)
  | .clmulh d a b => rule2 d a b fun x y => ((clmul x y).extractLsb' 32 32, 0)
  | .addi d a i => rule1 d a fun x => plainWord (x.toInt + i.toInt)
  | .andi d a i => rule1 d a fun x => (x &&& i.signExtend 32, 0)
  | .ori d a i => rule1 d a fun x => (x ||| i.signExtend 32, 0)
  | .xori d a i => rule1 d a fun x => (x ^^^ i.signExtend 32, 0)
  | .shli d a n => rule1 d a fun x => shlRule n.toNat x
  | .shri d a n => rule1 d a fun x => shrRule n.toNat x
  | .sari d a n => rule1 d a fun x => sarRule n.toNat x
  | .movi d i => rule0 d (i.signExtend 32)
  | .lui d i => rule0 d (BitVec.ofNat 32 (i.toNat * 2 ^ 15))
  | .orl d i => rule1 d d fun x => (x ||| BitVec.ofNat 32 i.toNat, 0)
  | _ => none

/-- Element `i` of `w` bits, read signed or unsigned (R59). -/
def elem (sgn : Bool) (w i : Nat) (x : Word) : Int :=
  let e := x.toNat / 2 ^ (w * i) % 2 ^ w
  if sgn && decide (2 ^ (w - 1) ≤ e) then (e : Int) - 2 ^ w else e

/-- A word from integer elements of `w` bits, element 0 first, each clamped to a range when one is given; SAT on a clamp. -/
def joinElems (w : Nat) (range : Option (Int × Int)) (vs : List Int) : Word × BitVec 7 :=
  let vs' := match range with
    | some (lo, hi) => vs.map fun v => if v < lo then lo else if hi < v then hi else v
    | none => vs
  (BitVec.ofNat 32 (vs'.foldr (fun v n => (v % 2 ^ w).toNat + 2 ^ w * n) 0), if vs' = vs then 0 else fSAT)

def s16 : Option (Int × Int) := some (-32768, 32767)

/-- A dot product of `n` elements of `w` bits added to the destination (R228). -/
def dotRule (w n : Nat) (sa sb sat : Bool) (x y z : Word) : Word × BitVec 7 :=
  let t := z.toInt + ((List.range n).map fun i => elem sa w i x * elem sb w i y).sum
  if sat then clampS t else plainWord t

/-- R229: one word of a PSHR2. -/
def roundShift (how : BitVec 3) (n : Nat) (x : Int) : Int :=
  if how &&& 3 = 0 then x / 2 ^ n
  else if how &&& 3 = 1 then (x + 2 ^ n / 2) / 2 ^ n
  else
    let q := x / 2 ^ n
    if 2 * (x % 2 ^ n) = 2 ^ n ∧ q % 2 = 0 ∨ 2 * (x % 2 ^ n) < 2 ^ n then q else q + 1

/-- R227 to R232: the packed integer instructions. -/
def packedRule : Instr → Option LaneRule
  | .padd2 d a b m => rule2 d a b fun x y =>
      joinElems 16 (if m = 0 then none else if m = 1 then s16 else some (0, 65535))
        ((List.range 2).map fun i => elem (m != 2) 16 i x + elem (m != 2) 16 i y)
  | .psub2 d a b m => rule2 d a b fun x y =>
      joinElems 16 (if m = 0 then none else if m = 1 then s16 else some (0, 65535))
        ((List.range 2).map fun i => elem (m != 2) 16 i x - elem (m != 2) 16 i y)
  | .pmin2 d a b m => rule2 d a b fun x y =>
      joinElems 16 none ((List.range 2).map fun i => min (elem (m != 1) 16 i x) (elem (m != 1) 16 i y))
  | .pmax2 d a b m => rule2 d a b fun x y =>
      joinElems 16 none ((List.range 2).map fun i => max (elem (m != 1) 16 i x) (elem (m != 1) 16 i y))
  | .pmac2 d a b m => rule3 d a b (dotRule 16 2 true true (m == 1))
  | .pdot4 d a b m => rule3 d a b (dotRule 8 4 (m &&& 3 != 1) (m &&& 3 == 0) (m.getLsbD 2))
  | .pdot8 d a b m => rule3 d a b (dotRule 4 8 (m &&& 3 != 1) (m &&& 3 == 0) (m.getLsbD 2))
  | .pshr2 d a b m => some (d, [(a, 2), (b, 1)], fun v =>
      let n := (opArg v 2).toNat % 32
      joinElems 16 (if m.getLsbD 2 then s16 else none)
        [roundShift m n (opArg v 0).toInt, roundShift m n (opArg v 1).toInt])
  | .psat2 d a b m => rule2 d a b fun x y =>
      let b := y.toNat % 16 + 1
      joinElems 16 (if m = 0 then some (-2 ^ (b - 1), 2 ^ (b - 1) - 1) else some (0, 2 ^ b - 1))
        ((List.range 2).map fun i => elem true 16 i x)
  | .ppack d a b m => rule2 d a b fun x y =>
      let w := if m &&& 3 = 0 then 32 else if m &&& 3 = 1 then 16 else 8
      joinElems (w / 2) (if m.getLsbD 2 then some (-2 ^ (w / 2 - 1), 2 ^ (w / 2 - 1) - 1) else none)
        ((List.range (32 / w)).map (fun i => elem true w i x) ++ (List.range (32 / w)).map fun i => elem true w i y)
  | .punpk d a b m => rule2 d a b fun x y =>
      let w := if m.toNat / 2 = 0 then 16 else if m.toNat / 2 = 1 then 8 else 4
      plainWord (elem (m.toNat % 2 == 0) w (y.toNat % (32 / w)) x)
  | _ => none

/-- What a register instruction with rule `r` leaves: its result in vd, its flags ORed into FPX, the predicates as they were.
-/
def LaneRule.Holds (r : LaneRule) (s : State) (c : Ctl) (t : State) : Prop :=
  Received t c r.1 (fun l => (r.2.2 (operands s c r.2.1 l)).1) ∧
  ∀ l, l < 32 → has c.act l = true →
    (threadIn t c l).fpx = (c.thread l).fpx ||| (r.2.2 (operands s c r.2.1 l)).2 ∧ (threadIn t c l).preds = (c.thread l).preds

end Sys2Proof.Claims

/-- R227 to R232: each packed integer instruction completes, with the result of its rule. -/
def Obligations.PackedInstructionsCompute : Prop :=
  ∀ (i : Instr) (r : LaneRule) (s : State) (c : Ctl), packedRule i = some r → wellFormed c.gr.enc i = true →
    Runs s c r.2.1 r.1 → Completes (exec i s) (r.Holds s c)

namespace Sys2Proof.Claims

/-- An instruction that reads or writes predicates: destination, source fields, and from the operands and the old predicates
of a lane the result word and the new predicates. -/
abbrev PredRule := Reg × List Src × (List Word → BitVec 8 → Word × BitVec 8)

/-- Predicates with bit `i` set to `b`. -/
def withPred (ps : BitVec 8) (i : BitVec 3) (b : Bool) : BitVec 8 := if b then ps ||| (1 <<< i.toNat : BitVec 8) else ps &&& ~~~(1 <<< i.toNat : BitVec 8)

/-- R217, R223 to R225: predicates and carries. Table 9-2 and the truth tables are written out. -/
def predicateRule : Instr → Option PredRule
  | .iaddc d a b p => some (d, [(a, 1), (b, 1)], fun v ps =>
      let t := (opArg v 0).toNat + (opArg v 1).toNat + (ps.getLsbD p.toNat).toNat
      (BitVec.ofNat 32 t, withPred ps p (decide (2 ^ 32 ≤ t))))
  | .isubb d a b p => some (d, [(a, 1), (b, 1)], fun v ps =>
      let t : Int := (opArg v 0).toNat - (opArg v 1).toNat - (ps.getLsbD p.toNat).toNat
      (BitVec.ofInt 32 t, withPred ps p (decide (t < 0))))
  | .sel d a b p => some (d, [(a, 1), (b, 1)], fun v ps => (if ps.getLsbD p.toNat then opArg v 0 else opArg v 1, ps))
  | .iset c p a b m => some (127, [(a, 1), (b, 1)], fun v ps =>
      let r := intCond c (opArg v 0) (opArg v 1)
      let q := ps.getLsbD p.toNat
      (0, withPred ps p (if m = 0 then r else if m = 1 then q && r else q || r)))
  | .iseti c p a i => some (127, [(a, 1)], fun v ps => (0, withPred ps p (intCond c (opArg v 0) (i.signExtend 32))))
  | .plog t p a b => some (127, [], fun _ ps =>
      (0, withPred ps p (t.getLsbD (2 * (ps.getLsbD a.toNat).toNat + (ps.getLsbD b.toNat).toNat))))
  | .pmovToReg d => some (d, [], fun _ ps => (ps.setWidth 32, ps))
  | .pmovToPred a => some (127, [(a, 1)], fun v _ => (0, (opArg v 0).setWidth 8))
  | _ => none

end Sys2Proof.Claims

/-- R216, R218, R219, R220, R221, R222, R233: each integer register instruction completes, with the result of its rule. R217,
R223, R224, R225: each of these instructions completes; the result, the predicates and the unchanged FPX. -/
def Obligations.IntegerAndPredicateInstructionsCompute : Prop :=
  (∀ (i : Instr) (r : LaneRule) (s : State) (c : Ctl), integerRule i = some r → wellFormed c.gr.enc i = true →
    Runs s c r.2.1 r.1 → Completes (exec i s) (r.Holds s c)) ∧
  (∀ (i : Instr) (d : Reg) (fs : List Src) (f : List Word → BitVec 8 → Word × BitVec 8) (s : State) (c : Ctl),
    predicateRule i = some (d, fs, f) → wellFormed c.gr.enc i = true → Runs s c fs d →
    Completes (exec i s) fun t =>
      Received t c d (fun l => (f (operands s c fs l) (c.thread l).preds).1) ∧
      ∀ l, l < 32 → has c.act l = true →
        (threadIn t c l).preds = (f (operands s c fs l) (c.thread l).preds).2 ∧ (threadIn t c l).fpx = (c.thread l).fpx)

/-! ## Floating instructions -/

namespace Sys2Proof.Claims

/-- The rounding mode of a scalar floating instruction (Table 3-4): FPX.RM, or the mode m[2:1] names. -/
def modeRule (m : BitVec 3) (t : Thread) : BitVec 2 := if m.toNat / 2 = 0 then t.rm else BitVec.ofNat 2 (m.toNat / 2)

/-- Two half-precision results side by side. -/
def halves (m : BitVec 3) (f : FFmt → (Word → Nat) → Nat × BitVec 7) : Word × BitVec 7 :=
  let g := if m.getLsbD 2 then bf16 else fp16
  let lo := f g fun w => w.toNat % 2 ^ 16
  let hi := f g fun w => w.toNat / 2 ^ 16
  (BitVec.ofNat 32 (lo.1 + 2 ^ 16 * hi.1), lo.2 ||| hi.2)

/-- A floating instruction of fixed latency: destination, source fields, m, and the result of a lane in the thread's mode.
The arithmetic of one pair of values is that of the model's `Float` definitions (R239, R240, R242, R245). -/
def floatRule : Instr → Option (Reg × List Src × BitVec 3 × (Thread → List Word → Word × BitVec 7))
  | .fadd d a b m => some (d, [(a, 1), (b, 1)], m, fun t v => fadd (modeRule m t) (opArg v 0) (opArg v 1))
  | .fsub d a b m => some (d, [(a, 1), (b, 1)], m, fun t v => fsub (modeRule m t) (opArg v 0) (opArg v 1))
  | .fmul d a b m => some (d, [(a, 1), (b, 1)], m, fun t v => fmul (modeRule m t) (opArg v 0) (opArg v 1))
  | .ffma d a b m => some (d, [(a, 1), (b, 1), (d, 1)], m, fun t v => ffma (modeRule m t) (opArg v 0) (opArg v 1) (opArg v 2))
  | .fmin d a b m => some (d, [(a, 1), (b, 1)], m, fun _ v => fminmax false (opArg v 0) (opArg v 1))
  | .fmax d a b m => some (d, [(a, 1), (b, 1)], m, fun _ v => fminmax true (opArg v 0) (opArg v 1))
  | .frnd d a m => some (d, [(a, 1)], m, fun t v => frndWord (modeRule m t) (opArg v 0))
  | .hadd2 d a b m => some (d, [(a, 1), (b, 1)], m, fun t v =>
      let rm := if m.getLsbD 1 then 1 else t.rm
      halves m fun g e => fbin g (xadd rm) rm (e (opArg v 0)) (e (opArg v 1)))
  | .hmul2 d a b m => some (d, [(a, 1), (b, 1)], m, fun t v =>
      let rm := if m.getLsbD 1 then 1 else t.rm
      halves m fun g e => fbin g xmul rm (e (opArg v 0)) (e (opArg v 1)))
  | .hfma2 d a b m => some (d, [(a, 1), (b, 1), (d, 1)], m, fun t v =>
      let rm := if m.getLsbD 1 then 1 else t.rm
      halves m fun g e => ffused g rm (e (opArg v 0)) (e (opArg v 1)) (e (opArg v 2)))
  | _ => none

end Sys2Proof.Claims

/-- R239, R240, R242, R245, R63: each fixed-latency floating instruction completes with its result in vd; unless m[0]
suppresses them its flags are ORed into FPX. The readings and choices of the model behind it: log entry 81. -/
def Obligations.FloatInstructionsCompute : Prop :=
  ∀ (i : Instr) (d : Reg) (fs : List Src) (m : BitVec 3) (f : Thread → List Word → Word × BitVec 7) (s : State) (c : Ctl),
    floatRule i = some (d, fs, m, f) → wellFormed c.gr.enc i = true → Runs s c fs d →
    Completes (exec i s) fun t =>
      Received t c d (fun l => (f (c.thread l) (operands s c fs l)).1) ∧
      ∀ l, l < 32 → has c.act l = true → (threadIn t c l).fpx =
        if m.getLsbD 0 then (c.thread l).fpx else (c.thread l).fpx ||| (f (c.thread l) (operands s c fs l)).2

namespace Sys2Proof.Claims

/-- FPX of no active lane is pending (R67). -/
def fpxReady (c : Ctl) : Prop := ∀ l, has c.act l = true → pendingFpx c.gr l = false

end Sys2Proof.Claims

/-- R241, R243: FSET writes its predicate from Table 10-3 and ORs its flags into FPX; FCLS writes the class and no flag.
R250, R251, R252: FPXR reads FPX; FPXC reads it and clears the flags its source names, or with m = 1 writes them; FRM reads
the mode and writes a new one. The readings and choices of the model behind it: log entry 81. -/
def Obligations.FloatTestsAndFpx : Prop :=
  ((∀ (k : BitVec 4) (p m : BitVec 3) (a b : Reg) (s : State) (c : Ctl), wellFormed c.gr.enc (.fset k p a b m) = true →
    Runs s c [(a, 1), (b, 1)] 127 → Completes (exec (.fset k p a b m) s) fun t => ∀ l, l < 32 → has c.act l = true →
      let r := floatCond k (opArg (operands s c [(a, 1), (b, 1)] l) 0) (opArg (operands s c [(a, 1), (b, 1)] l) 1)
      let q := (c.thread l).preds.getLsbD p.toNat
      (threadIn t c l).preds = withPred (c.thread l).preds p
        (if m.toNat / 2 = 0 then r.1 else if m.toNat / 2 = 1 then q && r.1 else q || r.1) ∧
      (threadIn t c l).fpx = if m.getLsbD 0 then (c.thread l).fpx else (c.thread l).fpx ||| r.2) ∧
  (∀ (d a : Reg) (s : State) (c : Ctl), wellFormed c.gr.enc (.fcls d a) = true → Runs s c [(a, 1)] d →
    Completes (exec (.fcls d a) s) fun t => Received t c d (fun l => fclsWord (opArg (operands s c [(a, 1)] l) 0)) ∧
      ∀ l, l < 32 → has c.act l = true → (threadIn t c l).fpx = (c.thread l).fpx)) ∧
  ((∀ (d : Reg) (s : State) (c : Ctl), wellFormed c.gr.enc (.fpxr d) = true → Runs s c [] d → fpxReady c →
    Completes (exec (.fpxr d) s) fun t =>
      Received t c d (fun l => BitVec.ofNat 32 ((c.thread l).rm.toNat * 256 + (c.thread l).fpx.toNat)) ∧
      ∀ l, l < 32 → has c.act l = true → (threadIn t c l).fpx = (c.thread l).fpx ∧ (threadIn t c l).rm = (c.thread l).rm) ∧
  (∀ (d a : Reg) (m : BitVec 3) (s : State) (c : Ctl), wellFormed c.gr.enc (.fpxc d a m) = true → Runs s c [(a, 1)] d → fpxReady c →
    Completes (exec (.fpxc d a m) s) fun t =>
      Received t c d (fun l => BitVec.ofNat 32 ((c.thread l).rm.toNat * 256 + (c.thread l).fpx.toNat)) ∧
      ∀ l, l < 32 → has c.act l = true →
        let v : BitVec 7 := (opArg (operands s c [(a, 1)] l) 0).setWidth 7
        (threadIn t c l).fpx = (if m = 0 then (c.thread l).fpx &&& ~~~v else v) ∧ (threadIn t c l).rm = (c.thread l).rm) ∧
  (∀ (d a : Reg) (s : State) (c : Ctl), wellFormed c.gr.enc (.frm d a) = true → Runs s c [(a, 1)] d → fpxReady c →
    Completes (exec (.frm d a) s) fun t =>
      Received t c d (fun l => (c.thread l).rm.setWidth 32) ∧
      ∀ l, l < 32 → has c.act l = true → (threadIn t c l).rm = (opArg (operands s c [(a, 1)] l) 0).setWidth 2 ∧
        (threadIn t c l).fpx = (c.thread l).fpx))

namespace Sys2Proof.Claims

/-- The conversions: which of Table 10-6, destination, source fields, m. -/
def convRule : Instr → Option (ConvOp × Reg × List Src × BitVec 3)
  | .fcvt d a b m => some (.fcvt, d, [(a, 1), (b, 1), (d, 1)], m)
  | .f2i d a b m => some (.f2i, d, [(a, 1), (b, 1), (d, 1)], m)
  | .i2f d a b m => some (.i2f, d, [(a, 1), (b, 1), (d, 1)], m)
  | .qcvt d a b m => some (.qcvt, d, [(a, 1), (b, 1), (d, 1)], m)
  | .qdeq d a b m => some (.qdeq, d, [(a, 1), (b, 1)], m)
  | _ => none

end Sys2Proof.Claims

/-- R247, R248: a conversion whose control words are accepted completes with its result in vd; one with a control word that
is not accepted in some active lane raises fault 0x20 for those lanes, and its group stops. The readings and choices of the
model behind it: log entry 81. -/
def Obligations.ConversionsCompute : Prop :=
  ∀ (i : Instr) (op : ConvOp) (d : Reg) (fs : List Src) (m : BitVec 3) (s : State) (c : Ctl),
    convRule i = some (op, d, fs, m) → wellFormed c.gr.enc i = true → Runs s c fs d →
    let ok (l : Nat) : Bool := convAccepted op (convCtl (opArg (operands s c fs l) 1))
    let r (l : Nat) : Word × BitVec 7 := convert op (compandTable (s.ctx c.gr.ctx)) (modeRule m (c.thread l))
      (opArg (operands s c fs l) 0) (opArg (operands s c fs l) 1) (opArg (operands s c fs l) 2)
    ((∀ l, l < 32 → has c.act l = true → ok l = true) → Completes (exec i s) fun t =>
      Received t c d (fun l => (r l).1) ∧ ∀ l, l < 32 → has c.act l = true → (threadIn t c l).fpx =
        if m.getLsbD 0 then (c.thread l).fpx else (c.thread l).fpx ||| (r l).2) ∧
    ((∃ l, l < 32 ∧ has c.act l = true ∧ ok l = false) → Completes (exec i s) fun t => ∃ gr, t.group? c.g = some gr ∧
      gr.phase = .stopped ∧ ∃ f, gr.fault = some f ∧ f.cause = 0x20 ∧
        ∀ l, l < 32 → (has f.flanes l = true ↔ has c.act l = true ∧ ok l = false))

/-! ## What register instructions leave alone -/

namespace Sys2Proof.Claims

/-- Destination and source fields of the fixed-latency register instructions. -/
def registerForm (i : Instr) : Option (Reg × List Src) :=
  match integerRule i, packedRule i, predicateRule i, floatRule i, convRule i with
  | some r, _, _, _, _ => some (r.1, r.2.1)
  | _, some r, _, _, _ => some (r.1, r.2.1)
  | _, _, some r, _, _ => some (r.1, r.2.1)
  | _, _, _, some r, _ => some (r.1, r.2.1)
  | _, _, _, _, some r => some (r.2.1, r.2.2.1)
  | _, _, _, _, _ => match i with
    | .fset _ _ a b _ => some (127, [(a, 1), (b, 1)])
    | .fcls d a => some (d, [(a, 1)])
    | .fpxr d => some (d, [])
    | .fpxc d a _ => some (d, [(a, 1)])
    | .frm d a => some (d, [(a, 1)])
    | _ => none

/-- The instructions that wait for a pending FPX (R67). -/
def usesFpx : Instr → Bool
  | .fpxr _ | .fpxc _ _ _ | .frm _ _ => true
  | _ => false

/-- Two references name the same storage of a group: the same entry of its window, or the same row of its handler bank. -/
def sameSlot (g : Group) (r q : RowRef) : Prop :=
  match r, q with
  | .stack a, .stack b => a % g.budget = b % g.budget
  | .bank a, .bank b => a = b
  | _, _ => False

/-- What a register instruction never writes in a thread: everything but its position, its predicates and FPX. -/
def threadRest (t : Thread) : Thread := { t with at_ := .zero, meeting := 0, held := false, preds := 0, fpx := 0, rm := 0 }

/-- What it never writes in a group: everything but threads, rows, the clause in issue and the record of a stop. -/
def groupRest (g : Group) : Group :=
  { g with
    threads := Vector.replicate 32 .absent, rows := [], bank := [], evicted := [], use := [], issue := none, touched := [], phase := .running
    fault := none, haltTime := 0, skipCmp := [], leaving := [] }

/-- The ports that an instruction names. -/
def portsNamed (g : Group) (d : Reg) (fs : List Src) : List Port := ((dstPort d).toList ++ srcPorts fs).filterMap (portOf g)

end Sys2Proof.Claims

/-- R37, R173, R181, R182, R209: when a register instruction reaches its effect, only its destination in the active lanes,
the predicates and FPX of its active lanes, and the queues of the ports it names change: no other row or thread, no flag, no
operation, no port, nothing of another group, and, unless a row had to leave the chip, no byte of memory and nothing else of
the machine. Absent lanes hold no thread and are not counted. The readings and choices of the model behind it: log entries
22, 62. -/
def Obligations.RegisterInstructionsFrame : Prop :=
  ∀ (i : Instr) (d : Reg) (fs : List Src) (s t : State) (c : Ctl), registerForm i = some (d, fs) → wellFormed c.gr.enc i = true →
    Runs s c fs d → (usesFpx i = true → fpxReady c) → exec i s = .next t →
    (∃ gr, t.group? c.g = some gr ∧ groupRest gr = groupRest c.gr ∧
      (∀ l, l < 32 → threadRest (lane gr.threads l) = threadRest (c.thread l)) ∧
      (∀ l, l < 32 → has c.act l = false → (lane gr.threads l).preds = (c.thread l).preds ∧
        (lane gr.threads l).fpx = (c.thread l).fpx ∧ (lane gr.threads l).rm = (c.thread l).rm) ∧
      ∀ r l, l < 32 → (c.thread l).present = true →
        ¬ (has c.act l = true ∧ d.toNat < 120 ∧ sameSlot c.gr r (refOf (c.thread l) d.toNat)) →
        (rowAt gr r).get l = (rowAt c.gr r).get l) ∧
    (∀ h gr, h ≠ c.g → s.group? h = some gr → ∃ gr', t.group? h = some gr' ∧ gr'.rows = gr.rows ∧ gr'.bank = gr.bank ∧
      gr'.flags = gr.flags ∧ gr'.ops = gr.ops ∧ gr'.ports = gr.ports ∧
      ∀ l, l < 32 → threadRest (lane gr'.threads l) = threadRest (lane gr.threads l) ∧
        (lane gr'.threads l).preds = (lane gr.threads l).preds ∧ (lane gr'.threads l).fpx = (lane gr.threads l).fpx ∧
        (lane gr'.threads l).rm = (lane gr.threads l).rm) ∧
    (∀ n, (∀ p ∈ portsNamed c.gr d fs, p.inst ≠ n) → t.queue? n = s.queue? n) ∧
    (NoEviction s t → SameMachine s t ∧ ∀ a, mget t.mem a = mget s.mem a)

/-! ## Clauses and long-latency operations -/

/-- R23, R24: CLAUSE_ISSUE at a group that has no clause in issue and may issue. When the header and the words at the lane's
position can be fetched and decode, and the wait mask is clear or the set resumes inside the clause, the clause is in issue
for the convergence set, before the word at which the set stands, with the words that were fetched. R3, R20: a word of code
on an executable device page is the four bytes at its address, the first the lowest. The readings and choices of the model
behind it: log entry 27. -/
def Obligations.ClausesAreFetchedAndIssued : Prop :=
  (∀ (s s₀ s₁ s₂ s₃ : State) (g l : Nat) (gr : Group) (h : Word) (hd : Header) (ws : List Word),
    s.group? g = some gr → gr.issue = none → gr.phase = .running → issuing (s.ctx gr.ctx).state = true → convergenceSet gr l ≠ 0 →
    (∀ k, fetchLink s g gr (convergenceSet gr l) (lane gr.threads l).at_.hdr k = k s₀) →
    fetchWord s₀ g gr (convergenceSet gr l) (lane gr.threads l).at_.hdr = .ok [h] s₁ → decodeHeader gr.enc h = .ok hd →
    (∀ k, fetchNextPage s₁ g gr (convergenceSet gr l) (lane gr.threads l).at_.hdr hd.len k = k s₃) →
    fetchWords s₃ g gr (convergenceSet gr l) ((lane gr.threads l).at_.hdr + 4) hd.len = .ok ws s₂ →
    clauseFault gr.enc (convergenceSet gr l) ((lane gr.threads l).at_.hdr + 4) ws = none →
    ((lane gr.threads l).at_.pos = 0 → ∀ n, n < 12 → hd.wait.getLsbD n = true → flagCount gr n = 0) →
    Completes (exec (.clauseIssue g l) s) fun t => ∃ gr' i, t.group? g = some gr' ∧ gr'.issue = some i ∧ i.words = ws ∧
      i.header = h ∧ i.hdr = (lane gr.threads l).at_.hdr ∧ i.pos = (lane gr.threads l).at_.pos - 1 ∧ i.set = convergenceSet gr l ∧
      (∀ k, k < 32 → { lane gr'.threads k with waited := 0 } = { lane gr.threads k with waited := 0 }) ∧ gr'.rows = gr.rows) ∧
  (∀ (s s' : State) (g : Nat) (gr : Group) (m : Mask) (va : VA) (e : TlbEntry),
    translate s (coreOf g) (dieOfGroup g) gr.ctx va.toNat (groupParty s g) = .hit e s' → e.x = true → e.host = false → e.rmt = none →
    s'.poison.contains (e.phys va.toNat / 128) = false → s'.coherenceLost.contains (e.phys va.toNat / 128) = false →
    (∀ k, k < 4 → shadowed s' e (va.toNat + k) = false ∧ debugArea s' (e.phys (va.toNat + k)) = false) → e.page ≤ va.toNat →
    fetchWord s g gr m va = .ok [BitVec.ofNat 32
      ((mget s'.mem (e.phys va.toNat)).toNat + 2 ^ 8 * (mget s'.mem (e.phys va.toNat + 1)).toNat
        + 2 ^ 16 * (mget s'.mem (e.phys va.toNat + 2)).toNat + 2 ^ 24 * (mget s'.mem (e.phys va.toNat + 3)).toNat)] s')

namespace Sys2Proof.Claims

/-- The special function of an instruction, with vd, va and m (R244). -/
def specialForm : Instr → Option (SpecialFn × Reg × Reg × BitVec 3)
  | .frcp d a m => some (.rcp, d, a, m)
  | .frsq d a m => some (.rsq, d, a, m)
  | .fsqrt d a m => some (.sqrt, d, a, m)
  | .fex2 d a m => some (.ex2, d, a, m)
  | .flg2 d a m => some (.lg2, d, a, m)
  | .fsin d a m => some (.sin, d, a, m)
  | .fcos d a m => some (.cos, d, a, m)
  | _ => none

end Sys2Proof.Claims

/-- R40, R236, R244: a special function whose flag FA has room starts an operation that counts on FA, holds the result of
every active lane in the mode that the lane had at issue, and leaves vd as it was; a port destination receives the result at
once. The readings and choices of the model behind it: log entries 12, 20. -/
def Obligations.SpecialFunctionsStart : Prop :=
  ∀ (i : Instr) (f : SpecialFn) (d a : Reg) (m : BitVec 3) (s : State) (c : Ctl), specialForm i = some (f, d, a, m) →
    wellFormed c.gr.enc i = true → Runs s c [(a, 1)] d → flagFull c.gr c.hd.fa = false →
    Completes (exec i s) fun t =>
      ∃ gr o, t.group? c.g = some gr ∧ gr.ops = c.gr.ops ++ [o] ∧ o.flag = c.hd.fa ∧ o.lanes = c.act ∧
        (∀ n, n < 12 → flagCount gr n = flagCount c.gr n + if c.hd.fa = some n then 1 else 0) ∧
        (∀ l, l < 32 → has c.act l = true →
          o.value l 0 = (special f (modeRule m (c.thread l)) (opArg (operands s c [(a, 1)] l) 0)).1 ∧
          lane o.fflags l = (special f (modeRule m (c.thread l)) (opArg (operands s c [(a, 1)] l) 0)).2) ∧
        o.fpxPending = (!m.getLsbD 0) ∧ gr.rows = c.gr.rows ∧
        (120 ≤ d.toNat → Received t c d fun l => (special f (modeRule m (c.thread l)) (opArg (operands s c [(a, 1)] l) 0)).1)

/-- R40, R67, R181, R185: when a long-latency operation that has nothing outstanding completes, its flag's count falls by
one, its flags are ORed into FPX of its lanes, and, once rows of it that were evicted are back on chip, each lane's value
stands in the row it was issued for, where that row is still resident and no later name of the same operation shares its
storage. R182: a row that was evicted and can be read from the register stack comes back as a General row of what stands
there, once its words have reached other modules and the requests for those that lie there have been answered. The readings
and choices of the model behind it: log entries 22, 60, 100. -/
def Obligations.LongLatencyResultsAndRowsReturn : Prop :=
  (∀ (s : State) (g n : Nat) (gr : Group) (o : Op), s.group? g = some gr → gr.ops.find? (·.id == n) = some o →
    o.fixed = false → (currentOp gr).any (·.id == n) = false → o.finished = true → o.stream = none →
    (∀ gr₁, (bringOp s g o).group? g = some gr₁ → opOnChip gr₁ o = true) →
    Completes (exec (.longLatencyCompletion g n) s) fun t => ∃ gr', t.group? g = some gr' ∧
      gr'.ops = gr.ops.filter (·.id != n) ∧
      (∀ k, k < 12 → flagCount gr' k = flagCount gr k - if o.flag = some k then 1 else 0) ∧
      (∀ l, l < 32 → has o.lanes l = true → (lane gr'.threads l).fpx =
        if o.fpxPending then (lane gr.threads l).fpx ||| lane o.fflags l else (lane gr.threads l).fpx) ∧
      ∀ i rows l, o.dest[i]? = some rows → l < 32 → has o.lanes l = true → residentRef gr l (lane rows l) = true →
        lane rows l ≠ .nowhere →
        (∀ (j : Nat) (rows' : Lanes RowRef) (k : Nat), i < j → o.dest[j]? = some rows' → k < 32 →
          ¬ sameSlot gr (lane rows l) (lane rows' k)) →
        (o.full = true → o.uni = true → ∀ k, k < 32 → has o.lanes k = true → o.value k i = o.value l i) →
        (rowAt gr' (lane rows l)).get l = o.value l i) ∧
  (∀ (s s₁ : State) (g e : Nat) (gr : Group), s.group? g = some gr → e ∈ gr.evicted → (∀ x ∈ gr.leaving, x.1 ≠ e) →
    gatherCells s g gr (rowCells gr e (liveMask gr)) = .ok s₁ →
    Completes (exec (.gRowReadback g e) s) fun t => ∃ gr', t.group? g = some gr' ∧
      tget gr'.rows e = some (.g (readStackRow s₁ g gr e)) ∧ e ∉ gr'.evicted)

/-! ## Control flow -/

namespace Sys2Proof.Claims

/-- An instruction reaches its effect when it reads and writes the names `ns`. -/
def Reaches (s : State) (c : Ctl) (fs : List Src) (d : Reg) (ns : List Nat) : Prop :=
  InProgress s c ∧ namesReady c ns ∧ portsReady s c fs d

/-- Lane `l` stands at the clause header `a`. -/
def standsAt (t : State) (c : Ctl) (l : Nat) (a : VA) : Prop := (threadIn t c l).at_ = ⟨a, 0, true⟩

/-- The clause of `c` is no longer in issue; its predicated-off lanes stand at the next header (R175). -/
def clauseLeft (t : State) (c : Ctl) : Prop :=
  (∃ gr, t.group? c.g = some gr ∧ gr.issue = none) ∧
  ∀ l, l < 32 → has c.iss.set l = true → has c.act l = false → standsAt t c l c.iss.next

/-- Table 2-4: the condition of a branch for a thread. -/
def branchTaken (k : BitVec 4) (t : Thread) : Bool :=
  if k = 0 then true else if k.toNat < 8 then !t.preds.getLsbD k.toNat else t.preds.getLsbD (k.toNat - 8)

/-- The 64-bit value of a pair of operands, low word first, as an address of 57 bits. -/
def pairOf (v : List Word) (i : Nat) : VA := BitVec.ofNat 57 ((opArg v (i + 1)).toNat * 2 ^ 32 + (opArg v i).toNat)

end Sys2Proof.Claims

/-- R33, R193, R194: BRA sends each active lane whose condition holds to the word offset from the branch and the others to
the next header; BRX sends each to the aligned address in its pair, and faults (0x24) when some lane's is not a multiple of
4. -/
def Obligations.BranchesMoveEachThread : Prop :=
  (∀ (k : BitVec 4) (o : BitVec 20) (s : State) (c : Ctl), Runs s c [] 127 → Completes (exec (.bra k o) s) fun t =>
    clauseLeft t c ∧ ∀ l, l < 32 → has c.act l = true →
      standsAt t c l (if branchTaken k (c.thread l) then c.pc + BitVec.ofInt 57 (4 * o.toInt) else c.iss.next)) ∧
  (∀ (a : Reg) (s : State) (c : Ctl), Runs s c [(a, 2)] 127 →
    (∀ l, l < 32 → has c.act l = true → (pairOf (operands s c [(a, 2)] l) 0).toNat % 4 = 0) →
    Completes (exec (.brx a) s) fun t => clauseLeft t c ∧ ∀ l, l < 32 → has c.act l = true →
      standsAt t c l (pairOf (operands s c [(a, 2)] l) 0)) ∧
  (∀ (a : Reg) (s : State) (c : Ctl), Runs s c [(a, 2)] 127 →
    (∃ l, l < 32 ∧ has c.act l = true ∧ (pairOf (operands s c [(a, 2)] l) 0).toNat % 4 ≠ 0) →
    Completes (exec (.brx a) s) fun t => ∃ gr f, t.group? c.g = some gr ∧ gr.phase = .stopped ∧ gr.fault = some f ∧ f.cause = 0x24)

namespace Sys2Proof.Claims

/-- The base that names count from: WB, or HWB in a handler (R186). -/
def frameBase (t : Thread) : Int := if t.inHandler then t.hwb else (t.wb.toNat : Int)

/-- A thread's base has moved to `b`, and nothing else of its window. -/
def movedTo (t u : Thread) (b : Int) : Prop :=
  u.inHandler = t.inHandler ∧ u.wres = t.wres ∧ if t.inHandler then u.hwb = b ∧ u.wb = t.wb else u.wb = BitVec.ofInt 32 b ∧ u.hwb = t.hwb

/-- No active lane's move of `n l` names traps (R185). -/
def movesFit (c : Ctl) (n : Nat → Int) : Prop :=
  ∀ l, l < 32 → has c.act l = true → moveTrap c.gr (c.thread l) (frameBase (c.thread l) + n l) = none

/-- The rows that hold the link of a call are neither pending nor evicted (R42, R182). -/
def linkReady (c : Ctl) (n : Nat) : Prop :=
  ∀ l, l < 32 → has c.act l = true → ∀ r ∈ linkRefs (c.thread l) (frameBase (c.thread l) + n), pendingRow c.gr l r = false ∧
    ∀ p, r = .stack p → c.gr.evicted.contains (p % c.gr.budget) = false

/-- What a call with shift `n` to targets `a` leaves (R195): each active lane at its target, its window moved up by `n`, and
the link in names 0 and 1 of the moved window: the next header's low word, and its high word with the shift above. -/
def Called (c : Ctl) (n : Nat) (a : Nat → VA) (t : State) : Prop :=
  clauseLeft t c ∧ ∀ l, l < 32 → has c.act l = true →
    standsAt t c l (a l) ∧ movedTo (c.thread l) (threadIn t c l) (frameBase (c.thread l) + n) ∧
    ∃ gr, t.group? c.g = some gr ∧
      (rowAt gr (refOf (lane gr.threads l) 0)).get l = BitVec.ofNat 32 c.iss.next.toNat ∧
      (rowAt gr (refOf (lane gr.threads l) 1)).get l = BitVec.ofNat 32 (n * 2 ^ 25 + c.iss.next.toNat / 2 ^ 32)

end Sys2Proof.Claims

/-- R195, R196: CALL and CALLX with an aligned target and a move that fits link and move the window up by the shift; RET goes
back to the aligned link address and moves the window down by the shift that the link holds. -/
def Obligations.CallsLinkAndReturnsUnlink : Prop :=
  (∀ (n : BitVec 7) (i : BitVec 17) (s : State) (c : Ctl), wellFormed c.gr.enc (.call n i) = true → Runs s c [] 127 →
    (c.pc + BitVec.ofInt 57 (4 * i.toInt)).toNat % 4 = 0 → movesFit c (fun _ => n.toNat) → linkReady c n.toNat →
    Completes (exec (.call n i) s) (Called c n.toNat fun _ => c.pc + BitVec.ofInt 57 (4 * i.toInt))) ∧
  (∀ (n : BitVec 7) (a : Reg) (s : State) (c : Ctl), wellFormed c.gr.enc (.callx n a) = true → Runs s c [(a, 2)] 127 →
    (∀ l, l < 32 → has c.act l = true → (pairOf (operands s c [(a, 2)] l) 0).toNat % 4 = 0) →
    movesFit c (fun _ => n.toNat) → linkReady c n.toNat →
    Completes (exec (.callx n a) s) (Called c n.toNat fun l => pairOf (operands s c [(a, 2)] l) 0)) ∧
  (∀ (s : State) (c : Ctl), Runs s c [(0, 2)] 127 →
    let hi l := (opArg (operands s c [(0, 2)] l) 1).toNat
    let a l : VA := BitVec.ofNat 57 (hi l % 2 ^ 25 * 2 ^ 32 + (opArg (operands s c [(0, 2)] l) 0).toNat)
    (∀ l, l < 32 → has c.act l = true → (a l).toNat % 4 = 0) → movesFit c (fun l => -((hi l / 2 ^ 25 : Nat) : Int)) →
    Completes (exec .ret s) fun t => clauseLeft t c ∧ ∀ l, l < 32 → has c.act l = true → standsAt t c l (a l) ∧
      movedTo (c.thread l) (threadIn t c l) (frameBase (c.thread l) - (hi l / 2 ^ 25 : Nat)))

/-- R185, R197: WBASE moves the window of each active lane by its immediate when every move fits; a lane whose move would
leave its resident rows traps with cause 0x01 above or 0x02 below and is in its handler with its base as it was. -/
def Obligations.WbaseMovesOrTraps : Prop :=
  (∀ (i : BitVec 10) (s : State) (c : Ctl), Runs s c [] 127 → movesFit c (fun _ => i.toInt) →
    Completes (exec (.wbase i) s) fun t => ∀ l, l < 32 → has c.act l = true →
      movedTo (c.thread l) (threadIn t c l) (frameBase (c.thread l) + i.toInt)) ∧
  (∀ (i : BitVec 10) (s : State) (c : Ctl) (l : Nat) (k : BitVec 8), Runs s c [] 127 → l < 32 → has c.act l = true →
    trapVector s c.gr ≠ 0 → (∀ j, j < 32 → has c.act j = true → (c.thread j).inHandler = false) →
    moveTrap c.gr (c.thread l) (frameBase (c.thread l) + i.toInt) = some k →
    Completes (exec (.wbase i) s) fun t => (threadIn t c l).inHandler = true ∧ (threadIn t c l).tcause = k ∧
      (threadIn t c l).tval = BitVec.ofInt 64 (frameBase (c.thread l) + i.toInt) ∧ (threadIn t c l).wb = (c.thread l).wb ∧
      (threadIn t c l).hwb = (c.thread l).wb.toNat) ∧
  ∀ i : BitVec 10, clauseTerminal (.wbase i) = false

namespace Sys2Proof.Claims

/-- The set of `c` stands after the instruction: at its next word, or at the next header. -/
def setAfter (t : State) (c : Ctl) : Prop :=
  (∃ gr, t.group? c.g = some gr ∧ gr.issue = none) ∧ ∀ l, l < 32 → has c.iss.set l = true →
    (threadIn t c l).at_ = if c.iss.pos + 1 < c.iss.words.length then ⟨c.iss.hdr, c.iss.pos + 2, has c.iss.guard l⟩ else ⟨c.iss.next, 0, true⟩

/-- The clause goes on with its next word, or is over and its set stands at the next header (R23). -/
def goesOnAfter (t : State) (c : Ctl) : Prop :=
  if c.iss.pos + 1 < c.iss.words.length then ∃ gr i, t.group? c.g = some gr ∧ gr.issue = some i ∧ i.hdr = c.iss.hdr ∧
    i.pos = c.iss.pos + 1 ∧ i.set = c.iss.set ∧ i.words = c.iss.words
  else (∃ gr, t.group? c.g = some gr ∧ gr.issue = none) ∧ ∀ l, l < 32 → has c.iss.set l = true → standsAt t c l c.iss.next

/-- The ticks that a SLEEP sleeps: the lowest active lane's word plus the immediate, at most 2^20 − 1 (R200). -/
def sleepTime (s : State) (c : Ctl) (a : Reg) (n : BitVec 10) : Nat :=
  min ((opArg (operands s c [(a, 1)] (lowest c.act)) 0).toNat + n.toNat) (2 ^ 20 - 1)

end Sys2Proof.Claims

/-- R198, R117, R130: EXIT ends each active lane's thread, unless it is the last of a team that still has held commands: then
it raises the queue-misuse fault that names the lowest of them and ends no thread. -/
def Obligations.ExitEndsThreads : Prop :=
  (∀ (s : State) (c : Ctl), Runs s c [] 127 →
    (∀ t, s.team? c.gr.team = some t → t.held = [] ∨ liveMask c.gr &&& ~~~c.act ≠ 0) →
    Completes (exec .exit s) fun t => ∀ l, l < 32 → has c.act l = true → (threadIn t c l).exited = true) ∧
  (∀ (s : State) (c : Ctl) (tm : Team) (i : Nat) (h : HeldCmd) (hs : List (Nat × HeldCmd)), Runs s c [] 127 →
    s.team? c.gr.team = some tm → tm.held = (i, h) :: hs → liveMask c.gr &&& ~~~c.act = 0 →
    (∀ g ∈ tm.groups, g ≠ c.g → ∀ gr, s.group? g = some gr → liveMask gr = 0) → (∀ x ∈ tm.saved, liveMask x.group = 0) →
    Completes (exec .exit s) fun t => ∃ gr f, t.group? c.g = some gr ∧ gr.fault = some f ∧ f.cause = 0x26 ∧
      f.value = BitVec.ofNat 64 (0xE0000100 + i) ∧ gr.phase = .stopped ∧
      ∀ l, l < 32 → (lane gr.threads l).exited = (c.thread l).exited)

/-- R176, R193: MEET sets the meeting register of each active lane whose condition holds and leaves the others' alone; where
the MEET is not the clause's last word, or the meeting address is not the next header, that is what stands afterwards. R199,
R200: a SLEEP of no time acts as YIELD does; otherwise each active lane sleeps until its wake time, to resume after the
SLEEP. R200, R128, R424: the sleepers of a running group whose wake time has come stand after their SLEEP and wait no more;
threads blocked at a port whose instruction can go on no longer wait, and stand at that instruction. The readings and choices
of the model behind it: log entry 19. -/
def Obligations.MeetSleepAndResume : Prop :=
  (∀ (k : BitVec 4) (o : BitVec 20) (s : State) (c : Ctl) (l : Nat), Runs s c [] 127 → l < 32 → has c.act l = true →
    (c.thread l).held = false →
    let a := if branchTaken k (c.thread l) then c.pc + BitVec.ofInt 57 (4 * o.toInt) else (c.thread l).meeting
    c.iss.pos + 1 < c.iss.words.length ∨ a ≠ c.iss.next →
    Completes (exec (.meet k o) s) fun t => (threadIn t c l).meeting = a) ∧
  ((∀ (a : Reg) (n : BitVec 10) (s : State) (c : Ctl), Runs s c [(a, 1)] 127 → sleepTime s c a n = 0 →
    Completes (exec (.sleep a n) s) (setAfter · c)) ∧
  (∀ (a : Reg) (n : BitVec 10) (s : State) (c : Ctl), Runs s c [(a, 1)] 127 → sleepTime s c a n ≠ 0 →
    Completes (exec (.sleep a n) s) fun t => ∀ l, l < 32 → has c.act l = true →
      (threadIn t c l).wait = .sleep (s.time + sleepTime s c a n) c.iss.set ∧ (threadIn t c l).after = c.iss.after l)) ∧
  ((∀ (s : State) (g l w : Nat) (m : Mask) (gr : Group), s.group? g = some gr → (s.ctx gr.ctx).state = .running →
    gr.phase = .running → l < 32 → (lane gr.threads l).live = true → (lane gr.threads l).wait = .sleep w m → w ≤ s.time →
    Completes (exec (.sleepExpiry g) s) fun t => ∃ gr', t.group? g = some gr' ∧ (lane gr'.threads l).wait = .none ∧
      (lane gr'.threads l).at_ = (lane gr.threads l).after) ∧
  (∀ (s : State) (g l : Nat) (w : Word) (gr : Group), s.group? g = some gr → issuing (s.ctx gr.ctx).state = true →
    gr.phase = .running → l < 32 → (lane gr.threads l).live = true → (lane gr.threads l).wait = .port w → portReady s gr w = true →
    Completes (exec (.blockedPortResume g) s) fun t => ∃ gr', t.group? g = some gr' ∧ (lane gr'.threads l).wait = .none ∧
      (lane gr'.threads l).at_ = (lane gr.threads l).at_))

/-! ## Traps and system registers -/

/-- R90, R103: TRAP in threads that are in no handler, with a handler address set: each active lane enters its handler.
TCAUSE is 0x0A, TVAL the code, TPC the TRAP's address, HWB the window base; the lane stands at the handler, to resume after
the TRAP. A trap without a handler address, or in a thread that is in its handler, faults with cause 0x2A: VALUE 0 in the
first case, the trap's cause in the second. R104: TRET of threads that are all in their handlers: each leaves it and stands
where the trap returns to, or at TPC when the handler wrote that; in a thread outside its handler it is an illegal
instruction. R105: PHINT of an entry that the image has is a NOP while no pre-emption waits or the issue is not that of every
live thread; when one waits and all live threads issue it together, outside handlers and in one window, with no operation
outstanding, the group stops to be saved under that entry, after the PHINT. The readings and choices of the model behind it:
log entry 82. -/
def Obligations.TrapsReturnsAndHints : Prop :=
  ((∀ (i : BitVec 17) (s : State) (c : Ctl), InProgress s c → trapVector s c.gr ≠ 0 →
    (∀ l, l < 32 → has c.act l = true → (c.thread l).inHandler = false) →
    Completes (exec (.trap i) s) fun t => ∀ l, l < 32 → has c.act l = true →
      let u := threadIn t c l
      u.inHandler = true ∧ u.tcause = 0x0A ∧ u.tval = i.setWidth 64 ∧ u.tpc = (c.iss.here l).pc ∧ u.resume = c.iss.here l ∧
      u.resumeNext = c.iss.after l ∧
      u.hwb = (c.thread l).wb.toNat ∧ u.tpcWritten = false ∧ standsAt t c l (trapVector s c.gr &&& ~~~3)) ∧
  (∀ (i : BitVec 17) (s : State) (c : Ctl), InProgress s c →
    ((trapVector s c.gr = 0 ∧ ∀ l, l < 32 → has c.act l = true → (c.thread l).inHandler = false) →
      Completes (exec (.trap i) s) fun t => ∃ gr, t.group? c.g = some gr ∧ gr.phase = .stopped ∧
        gr.fault = some ⟨0x2A, c.act, 0, c.word⟩) ∧
    ((∃ l, l < 32 ∧ has c.act l = true ∧ (c.thread l).inHandler = true) →
      Completes (exec (.trap i) s) fun t => ∃ gr f, t.group? c.g = some gr ∧ gr.phase = .stopped ∧ gr.fault = some f ∧
        f.cause = 0x2A ∧ f.value = 0x0A ∧ f.word = c.word ∧
        ∀ l, l < 32 → (has f.flanes l = true ↔ has c.act l = true ∧ (c.thread l).inHandler = true)))) ∧
  ((∀ (s : State) (c : Ctl), Runs s c [] 127 → (∀ l, l < 32 → has c.act l = true → (c.thread l).inHandler = true) →
    Completes (exec .tret s) fun t => clauseLeft t c ∧ ∀ l, l < 32 → has c.act l = true →
      (threadIn t c l).inHandler = false ∧ (threadIn t c l).at_ =
        if (c.thread l).tpcWritten then ⟨(c.thread l).tpc, 0, true⟩
        else if (c.thread l).tcause = 0x0A then (c.thread l).resumeNext else (c.thread l).resume) ∧
  (∀ (s : State) (c : Ctl) (l : Nat), Runs s c [] 127 → l < 32 → has c.act l = true → (c.thread l).inHandler = false →
    Completes (exec .tret s) fun t => ∃ gr f, t.group? c.g = some gr ∧ gr.phase = .stopped ∧ gr.fault = some f ∧
      f.cause = 0x20 ∧ has f.flanes l = true)) ∧
  ((∀ (i : BitVec 17) (s : State) (c : Ctl) (im : Image), Runs s c [] 127 → s.image? c.gr.ctx c.gr.image = some im →
    i.toNat < im.livecnt → (c.gr.preempt = none ∨ c.act ≠ liveMask c.gr) → Completes (exec (.phint i) s) (goesOnAfter · c)) ∧
  (∀ (i : BitVec 17) (s : State) (c : Ctl) (im : Image), Runs s c [] 127 → s.image? c.gr.ctx c.gr.image = some im →
    i.toNat < im.livecnt → c.gr.preempt ≠ none → c.act = liveMask c.gr → c.gr.ops = [] →
    (∀ l, l < 32 → has c.act l = true → (c.thread l).inHandler = false ∧ (c.thread l).wb = (c.thread (lowest c.act)).wb) →
    Completes (exec (.phint i) s) fun t => (∃ gr, t.group? c.g = some gr ∧ gr.phase = .saving (some i.toNat)) ∧ setAfter t c))

namespace Sys2Proof.Claims

/-- Two names side by side stand in two rows: the window has two entries at least, and a handler base lies no further below
the stack than the bank reaches, as every move leaves it (R182, R185). -/
def pairApart (c : Ctl) : Prop := 2 ≤ c.gr.budget ∧ ∀ l, l < 32 → has c.act l = true → (c.thread l).inHandler = true → -16 ≤ (c.thread l).hwb

/-- Table 4-3: what SYSR of a Thread-scope register gives. -/
def threadRegister (t : Thread) (n : Nat) : Word :=
  if n = 0 then BitVec.ofNat 32 t.tcause.toNat
  else if n = 1 then BitVec.ofNat 32 t.tpc.toNat
  else if n = 2 then BitVec.ofNat 32 t.tval.toNat
  else if n = 3 then BitVec.ofNat 32 (t.tval.toNat / 2 ^ 32)
  else if n = 4 then t.wb
  else if n = 5 then t.wres
  else if n = 6 then t.stacklim
  else BitVec.ofNat 32 (t.tpc.toNat / 2 ^ 32)

end Sys2Proof.Claims

/-- R88, R106, R107: SYSR writes the register that its number names: a Thread-scope one per lane (Table 4-3), any other the
same in every lane; it waits for no ordered access unless the register is the context's. TIME writes the low and the high
word of device time into its pair, the same in every active lane. R89, R106, R185: SYSW of a Thread-scope register other than
WRES writes the writable fields of each active lane's own; of FRM or a compand register the context's, the highest active
lane's value standing in the end; of WRES, with no row of the group evicted, the resident base of each active lane. The
readings and choices of the model behind it: log entry 35. -/
def Obligations.SystemRegistersReadAndWrite : Prop :=
  ((∀ (d : Reg) (i : BitVec 10) (s : State) (c : Ctl), wellFormed c.gr.enc (.sysr d i) = true → Runs s c [] d →
    (ctxScope i.toNat = true → orderedOut c.gr = false) →
    Completes (exec (.sysr d i) s) fun t => Received t c d fun l =>
      if i.toNat < 8 then threadRegister (c.thread l) i.toNat else sharedReg s c i.toNat) ∧
  (∀ (d : Reg) (s : State) (c : Ctl), wellFormed c.gr.enc (.time d) = true → pairApart c →
    Reaches s c [] d (namesOf d 2) → Completes (exec (.time d) s) fun t => d.toNat < 120 →
      ∀ l, l < 32 → has c.act l = true → nameIn t c d.toNat l = BitVec.ofNat 32 s.time ∧
        nameIn t c (d.toNat + 1) l = BitVec.ofNat 32 (s.time / 2 ^ 32))) ∧
  (((∀ (a : Reg) (i : BitVec 10) (s : State) (c : Ctl), wellFormed c.gr.enc (.sysw a i) = true → Runs s c [(a, 1)] 127 →
    i.toNat < 8 → i.toNat ≠ 5 → Completes (exec (.sysw a i) s) fun t => ∀ l, l < 32 → has c.act l = true →
      let v := opArg (operands s c [(a, 1)] l) 0
      let o := c.thread l
      let u := threadIn t c l
      u.tcause = (if i = 0 then v.setWidth 8 else o.tcause) ∧
      u.tval.toNat = (if i = 2 then o.tval.toNat / 2 ^ 32 * 2 ^ 32 + v.toNat
        else if i = 3 then v.toNat * 2 ^ 32 + o.tval.toNat % 2 ^ 32 else o.tval.toNat) ∧
      u.tpc.toNat = (if i = 1 then o.tpc.toNat / 2 ^ 32 * 2 ^ 32 + v.toNat / 4 * 4
        else if i = 7 then v.toNat % 2 ^ 25 * 2 ^ 32 + o.tpc.toNat % 2 ^ 32 else o.tpc.toNat) ∧
      u.wb = o.wb ∧ u.wres = o.wres ∧ u.stacklim = o.stacklim) ∧
  (∀ (a : Reg) (i : BitVec 10) (s : State) (c : Ctl), wellFormed c.gr.enc (.sysw a i) = true → Runs s c [(a, 1)] 127 →
    orderedOut c.gr = false → i.toNat = 8 ∨ 32 ≤ i.toNat → Completes (exec (.sysw a i) s) fun t =>
      ∀ l, l < 32 → has c.act l = true → (∀ j, j < 32 → l < j → has c.act j = false) →
        (i.toNat = 8 → (t.ctx c.gr.ctx).frm = (opArg (operands s c [(a, 1)] l) 0).setWidth 2) ∧
        (32 ≤ i.toNat → tget (t.ctx c.gr.ctx).compand (i.toNat - 32) = some (opArg (operands s c [(a, 1)] l) 0)))) ∧
  (∀ (a : Reg) (s : State) (c : Ctl), Runs s c [(a, 1)] 127 → c.gr.evicted = [] →
    Completes (exec (.sysw a 5) s) fun t => ∀ l, l < 32 → has c.act l = true →
      (threadIn t c l).wres = opArg (operands s c [(a, 1)] l) 0 ∧ (threadIn t c l).wb = (c.thread l).wb))

namespace Sys2Proof.Claims

/-- Table 17-4: the trace record with this header that a team's group makes: time, place, core, coordinate engine, group,
root command, coordinate and data. -/
def teamRecord (s : State) (g ctx gid kind code : Nat) (x : Team) (data : Word) : List Byte :=
  let byte (n : Nat) : Byte := BitVec.ofNat 8 n
  let r := rootOf s x
  leBytes 8 s.time ++ leBytes 2 (kind * 2 ^ 12 + code) ++ [byte ctx, byte (dieOfGroup g + 8 * x.stage), byte (coreOf g % 48), byte (x.engine.getD 255), byte gid, 0]
    ++ leBytes 2 (if r.klaunch then 2 ^ 15 + r.qnum % 256 else r.qnum % 256) ++ leBytes 4 r.seq.toNat ++ leBytes 2 x.x ++ leBytes 2 x.y ++ leBytes 2 x.z
    ++ leBytes 4 data.toNat

end Sys2Proof.Claims

/-! ## Cross-lane instructions -/

namespace Sys2Proof.Claims

/-- A cross-lane instruction reaches its effect: its own fields are ready, and the rows of the lanes `reach` that it reads
are neither pending nor evicted (R188). -/
def CrossReady (s : State) (c : Ctl) (d a : Reg) (fs : List Src) (reach : Nat → List Nat) : Prop :=
  Runs s c fs d ∧ (∀ l, has c.act l = true → pendingSource c a l (reach l) = none) ∧
  evictedSource c a ((lanesOf c.act).flatMap reach) = false

/-- Words of name `a` of the lanes `js` that lie outside their resident part are read from private memory: `s₁` is the
machine once that can be done (R188, R377). -/
def RowsGathered (s s₁ : State) (c : Ctl) (a : Reg) (js : List Nat) : Prop :=
  gatherCells s c.g c.gr (mappedCells s c.g c.gr (crossCells c a js)) = .ok s₁

/-- The source lane that a shuffle gives lane `l` for the word `w` (R201): `w` itself or `l` XOR `w` for LSHFL, `l` minus the
signed word, wrapped with m[2], for LSLIDE; LBCAST takes the word of the lowest active lane. -/
def sourceLane (i : Instr) (l : Nat) (w : Word) : Int :=
  match i with
  | .lshfl _ _ _ m => if m.getLsbD 2 then ((l ^^^ w.toNat : Nat) : Int) else w.toNat
  | .lslide _ _ _ m => if m.getLsbD 2 then (l - w.toInt) % 32 else l - w.toInt
  | _ => w.toNat

/-- Fields of a shuffle: destination, va, vb and m. -/
def shuffleForm : Instr → Option (Reg × Reg × Reg × BitVec 3)
  | .lshfl d a b m => some (d, a, b, m)
  | .lslide d a b m => some (d, a, b, m)
  | .lbcast d a b m => some (d, a, b, m)
  | _ => none

/-- The source fields of a shuffle: va, vb, and vd when out-of-range lanes keep it. -/
def shuffleFields (d a b : Reg) (m : BitVec 3) : List Src := [(a, 1), (b, 1)] ++ if m.toNat % 4 = 2 then [(d, 1)] else []

/-- The slots of a reduction: an active lane's value, the identity of the operation elsewhere (R203). -/
def slotValues (s : State) (c : Ctl) (a b : Reg) : List Word :=
  (List.range 32).map fun l => if has c.act l then opArg (operands s c [(a, 1)] l) 0 else reduceIdentity (b.toNat % 16)

/-- The integer operations of Table 8-6 as folds. -/
def foldOp (op : Nat) (x y : Word) : Word :=
  if op = 0 then x + y
  else if op = 1 then (if x.toInt ≤ y.toInt then x else y)
  else if op = 2 then (if x.toInt ≤ y.toInt then y else x)
  else if op = 3 then (if x.toNat ≤ y.toNat then x else y)
  else if op = 4 then (if x.toNat ≤ y.toNat then y else x)
  else if op = 5 then x &&& y
  else if op = 6 then x ||| y
  else x ^^^ y

end Sys2Proof.Claims

/-- R201, R188: each active lane of a shuffle receives what its source lane gives of va (Table 8-2), once words of it in
private memory can be read, or with a source lane out of range 0, its own va, or its old vd, as m[1:0] says. R202, R203, R76,
R77: VOTE gives every active lane the same word: all non-zero, any non-zero, the mask of the non-zero, or all equal. An
LREDUCE of an integer operation gives every active lane the operation over all active lanes' values, a floating one the value
of the pairwise tree of R76 over the 32 slots. An LSCAN of an integer operation gives lane l the operation over the slots up
to l, or with vb[4] those below l; a floating one the values of the scan of R77. R204: SHAPE gives the tag of its row, 0
Uniform, 1 Affine, 2 General; EXPAND makes the row of its name General and changes no lane's value. The readings and choices
of the model behind it: log entry 21. -/
def Obligations.CrossLaneInstructions : Prop :=
  (∀ (i : Instr) (d a b : Reg) (m : BitVec 3) (s s₁ : State) (c : Ctl), shuffleForm i = some (d, a, b, m) →
    wellFormed c.gr.enc i = true →
    let fs := shuffleFields d a b m
    let j (l : Nat) : Int := sourceLane i l (opArg (operands s c fs (match i with
      | .lbcast _ _ _ _ => lowest c.act
      | _ => l)) 1)
    let reach (l : Nat) : List Nat := if 0 ≤ j l ∧ j l < 32 then [(j l).toNat] else []
    CrossReady s c d a fs reach → RowsGathered s s₁ c a ((lanesOf c.act).flatMap reach) →
    Completes (exec i s) fun t => Received t c d fun l =>
      if 0 ≤ j l ∧ j l < 32 then fieldOfLane s₁ c a (src (operandRows s c fs) 0) l (j l).toNat
      else if m.toNat % 4 = 0 then 0 else opArg (operands s c fs l) (if m.toNat % 4 = 1 then 0 else 2)) ∧
  ((∀ (d a : Reg) (m : BitVec 3) (s : State) (c : Ctl), wellFormed c.gr.enc (.vote d a m) = true →
    CrossReady s c d a [(a, 1)] (fun _ => lanesOf c.act) →
    let x (l : Nat) : Word := opArg (operands s c [(a, 1)] l) 0
    Completes (exec (.vote d a m) s) fun t => Received t c d fun _ =>
      if m = 0 then (if ∀ l ∈ lanesOf c.act, x l ≠ 0 then 1 else 0)
      else if m = 1 then (if ∃ l ∈ lanesOf c.act, x l ≠ 0 then 1 else 0)
      else if m = 2 then maskOf (fun l => has c.act l && x l != 0)
      else if ∀ l ∈ lanesOf c.act, x l = x (lowest c.act) then 1 else 0) ∧
  (∀ (d a b : Reg) (m : BitVec 3) (s : State) (c : Ctl), wellFormed c.gr.enc (.lreduce d a b m) = true →
    CrossReady s c d a [(a, 1)] (fun _ => lanesOf c.act) →
    Completes (exec (.lreduce d a b m) s) fun t =>
      (b.toNat < 8 → Received t c d fun _ => (slotValues s c a b).foldl (foldOp b.toNat) (reduceIdentity b.toNat)) ∧
      (8 ≤ b.toNat → Received t c d fun _ =>
        (reduceTree b.toNat (modeRule m (c.thread (lowest c.act))) 5 (slotValues s c a b)).1)) ∧
  (∀ (d a b : Reg) (m : BitVec 3) (s : State) (c : Ctl), wellFormed c.gr.enc (.lscan d a b m) = true →
    CrossReady s c d a [(a, 1)] (fun _ => lanesOf c.act) →
    let op := b.toNat % 16
    Completes (exec (.lscan d a b m) s) fun t =>
      (op < 8 → Received t c d fun l =>
        ((slotValues s c a b).take (if b.getLsbD 4 then l else l + 1)).foldl (foldOp op) (reduceIdentity op)) ∧
      (8 ≤ op → Received t c d fun l =>
        let r := (scanSlots op (modeRule m (c.thread (lowest c.act))) (slotValues s c a b)).1
        if b.getLsbD 4 then (if l = 0 then reduceIdentity op else r.getD (l - 1) 0) else r.getD l 0))) ∧
  ((∀ (d a : Reg) (s : State) (c : Ctl), wellFormed c.gr.enc (.shape d a) = true → Runs s c [(a, 1)] d →
    Completes (exec (.shape d a) s) fun t => Received t c d fun _ => match src (operandRows s c [(a, 1)]) 0 with
      | .u _ => 0
      | .a _ _ => 1
      | .g _ => 2) ∧
  (∀ (d : Reg) (s : State) (c : Ctl), wellFormed c.gr.enc (.expand d) = true → Runs s c [] d → d.toNat < 120 →
    Completes (exec (.expand d) s) fun t => ∃ gr, t.group? c.g = some gr ∧ ∀ l, l < 32 → has c.act l = true →
      (rowAt gr (refOf (c.thread l) d.toNat)).tag = 2 ∧ ∀ r k, k < 32 → (rowAt gr r).get k = (rowAt c.gr r).get k))

/-! ## Remote writes and migration -/

namespace Sys2Proof.Claims

/-- Serial comparison of an arrival counter with a value (R206). -/
def arrived (n v : BitVec 16) : Prop := (n - v).toNat < 2 ^ 15

end Sys2Proof.Claims

/-- R190, R205: RWRITE when each active lane's handle names a group of the context in its slot that is not being saved, with
no ordered access outstanding, each target lane's row on chip and no deposit for another module: each live lane of a target
whose writer is active holds the value in the name vd, and its arrival counter has risen; here for one target other than the
issuer's own group. R206: RWAIT passes for a set whose counters have all reached their values; a lane whose counter has not
waits for it, to resume after the RWAIT. RWAIT_ID gives the group's handle, RWAIT_CNT each lane's counter. R191, R207:
MIGRATE of every live thread of a movable group, with no operation outstanding, towards the die that homes the address of its
lowest lane: on that die already it only passes; towards another die its threads wait for a landing slot. When one is free,
and no word of an evicted row is on its way to another module, the group moves to the lowest, its threads stand after the
MIGRATE, its flags are clear, and its old slot is empty. The readings and choices of the model behind it: log entries 23, 69,
98, 99. -/
def Obligations.RemoteRowsAndMigration : Prop :=
  (∀ (d a b : Reg) (s : State) (c : Ctl) (g l : Nat) (gr : Group), wellFormed c.gr.enc (.rwrite d a b) = true →
    Reaches s c [(a, 1), (b, 1)] 127 (allNames [(a, 1), (b, 1)] 127) → orderedOut c.gr = false →
    (∀ k, has c.act k = true → handleSlot c.g (opArg (operands s c [(a, 1), (b, 1)] k) 0) = some g) →
    (∀ k j, has c.act k = true → has c.act j = true →
      opArg (operands s c [(a, 1), (b, 1)] k) 0 = opArg (operands s c [(a, 1), (b, 1)] j) 0) →
    s.group? g = some gr → g ≠ c.g → gr.ctx = c.gr.ctx → gr.phase = .running → l < 32 → has c.act l = true →
    (lane gr.threads l).live = true → (lane gr.threads l).wres.toNat ≤ (lane gr.threads l).wb.toNat + d.toNat →
    (lane gr.threads l).wb.toNat + d.toNat < (lane gr.threads l).wres.toNat + gr.budget → gr.evicted = [] →
    (∀ k, has c.act k = true → depositFault s (coreOf c.g) gr d.toNat k = none ∧ depositFar s gr d.toNat k = none) →
    Completes (exec (.rwrite d a b) s) fun t => ∃ gr', t.group? g = some gr' ∧
      (rowAt gr' (.stack ((lane gr.threads l).wb.toNat + d.toNat))).get l = opArg (operands s c [(a, 1), (b, 1)] l) 1 ∧
      (lane gr'.threads l).counter = (lane gr.threads l).counter + 1) ∧
  ((∀ (a : Reg) (s : State) (c : Ctl), Runs s c [(a, 1)] 127 →
    (∀ l, l < 32 → has c.act l = true → arrived (c.thread l).counter ((opArg (operands s c [(a, 1)] l) 0).setWidth 16)) →
    Completes (exec (.rwait a) s) (goesOnAfter · c)) ∧
  (∀ (a : Reg) (s : State) (c : Ctl) (l : Nat), Runs s c [(a, 1)] 127 → l < 32 → has c.act l = true →
    ¬ arrived (c.thread l).counter ((opArg (operands s c [(a, 1)] l) 0).setWidth 16) →
    Completes (exec (.rwait a) s) fun t =>
      (threadIn t c l).wait = .rwait ((opArg (operands s c [(a, 1)] l) 0).setWidth 16) ∧ (threadIn t c l).after = c.iss.after l) ∧
  (∀ (d : Reg) (s : State) (c : Ctl), wellFormed c.gr.enc (.rwaitId d) = true → Runs s c [] d →
    Completes (exec (.rwaitId d) s) fun t => Received t c d fun _ => handleOf c.g) ∧
  (∀ (d : Reg) (s : State) (c : Ctl), wellFormed c.gr.enc (.rwaitCnt d) = true → Runs s c [] d →
    Completes (exec (.rwaitCnt d) s) fun t => Received t c d fun l => (c.thread l).counter.setWidth 32)) ∧
  ((∀ (a : Reg) (s : State) (c : Ctl) (t : Team) (e : TlbEntry), Runs s c [(a, 2)] 127 → c.act = liveMask c.gr → c.gr.ops = [] →
    lookup s (coreOf c.g) c.gr.ctx (pairOf (operands s c [(a, 2)] (lowest c.act)) 0).toNat = some e →
    farFrame s e (pairOf (operands s c [(a, 2)] (lowest c.act)) 0).toNat = false →
    (∀ v, classFault s c.g ⟨lowest c.act, pairOf (operands s c [(a, 2)] (lowest c.act)) 0, 1, .load, false⟩ e ≠ some (0x23, v)) →
    s.team? c.gr.team = some t → unmovable t c.gr = false →
    let d := homeDie e (pairOf (operands s c [(a, 2)] (lowest c.act)) 0).toNat
    partCores s c.gr.ctx d ≠ [] →
    Completes (exec (.migrate a) s) fun u =>
      (d = dieOfGroup c.g → clauseLeft u c ∧ ∀ l, l < 32 → has c.act l = true → standsAt u c l c.iss.next) ∧
      (d ≠ dieOfGroup c.g → ∀ l, l < 32 → has c.act l = true →
        (threadIn u c l).wait = .landing d ∧ (threadIn u c l).after = c.iss.after l)) ∧
  (∀ (s : State) (g d h : Nat) (gr : Group), tsorted s.groups = true → s.group? g = some gr → landingDie gr = some d → landingSlot s gr.ctx d = some h →
    gr.phase = .running → issuing (s.ctx gr.ctx).state = true → gr.leaving = [] →
    Completes (exec (.migrateMove g) s) fun t => t.group? g = none ∧ ∃ gr', t.group? h = some gr' ∧
      gr'.flags = Vector.replicate 12 0 ∧ gr'.rows = gr.rows ∧
      ∀ l k, l < 32 → (lane gr.threads l).live = true → (lane gr.threads l).wait = .landing k →
        (lane gr'.threads l).wait = .none ∧ (lane gr'.threads l).at_ = (lane gr.threads l).after))

/-! ## Memory instructions -/

namespace Sys2Proof.Claims

/-- What a memory instruction asks for: source fields, the destination with its names, the port a result may go to, its flag,
whether its active lanes share one access, whether its group waits until it has performed, each lane's access, and the fault
of a lane's operands. `v l` are the operands of lane `l`. -/
structure AccessForm where
  fields : List Src
  dst : Reg
  span : Nat
  port : Reg
  flag : Ctl → Option Nat
  once : List Row → Bool
  fixed : Bool
  access : Ctl → State → (Nat → List Word) → Nat → Acc
  bad : Ctl → State → (Nat → List Word) → Nat → Option (BitVec 8 × BitVec 64)

/-- The lane-window address or the offset `va + size × off` modulo 2^32 (R282, R289, R290). -/
def laneOffset (x : Word) (o : BitVec 7) (size : Nat) : Nat := (((x.toNat : Int) + o.toInt * size) % 2 ^ 32).toNat

/-- R288: an address that is not a multiple of the access size. -/
def misalignedAt (a size : Nat) : Option (BitVec 8 × BitVec 64) := if a % size = 0 then none else some (0x24, BitVec.ofNat 64 a)

/-- R288: an offset that is not a multiple of 4, or not below the size of its space; bit `mark` marks VALUE. -/
def offsetBad (o limit mark : Nat) : Option (BitVec 8 × BitVec 64) :=
  if o % 4 ≠ 0 then some (0x24, BitVec.ofNat 64 (o + 2 ^ mark)) else if limit ≤ o then some (0x23, BitVec.ofNat 64 (o + 2 ^ mark)) else none

def spanNames (size : Nat) : Nat := if size ≤ 4 then 1 else size / 4

/-- The low `size` bytes of these words, the first word lowest (R289). -/
def lowBytes (ws : List Word) (size : Nat) : List Byte :=
  (List.range size).map fun i => BitVec.ofNat 8 ((ws.getD (i / 4) 0).toNat / 2 ^ (8 * (i % 4)))

def loadForm (size : Nat) (d a : Reg) (o : BitVec 7) (m : BitVec 3) : AccessForm :=
  { fields := [(a, 1)], dst := d, span := spanNames size, port := 127, flag := fun c => if m.getLsbD 0 then c.hd.fb else c.hd.fa
    once := fun rows => rows.all (·.tag == 0), fixed := false
    access := fun _ _ v l => ⟨l, BitVec.ofNat 57 (laneOffset (opArg (v l) 0) o size), size, .load, false⟩
    bad := fun _ _ v l => misalignedAt (laneOffset (opArg (v l) 0) o size) size }

def storeForm (size : Nat) (x a : Reg) (o : BitVec 7) (m : BitVec 3) : AccessForm :=
  { fields := [(a, 1), (x, spanNames size)], dst := 127, span := 1, port := 127
    flag := fun c => if m.getLsbD 0 then c.hd.fb else c.hd.fa, once := fun _ => false, fixed := false
    access := fun _ _ v l =>
      ⟨l, BitVec.ofNat 57 (laneOffset (opArg (v l) 0) o size), size, .store (lowBytes ((v l).drop 1) size), false⟩
    bad := fun _ _ v l => misalignedAt (laneOffset (opArg (v l) 0) o size) size }

/-- Offset `o` of lane `l` in private memory (R283). -/
def privatePlace (g : Group) (l o : Nat) : VA := BitVec.ofNat 57 (g.pbase.toNat + o / 4 * 128 + 4 * l + o % 4)

/-- The constant segment of a group's image: its base and its size (R285). -/
def constantSegment (s : State) (g : Group) : Nat × Nat :=
  match s.image? g.ctx g.image with
  | some im => (im.base.toNat + im.dataoff, im.datasize)
  | none => (0, 0)

/-- A barrier operation on the 16 bytes at va; with m = 1 once, with the operands of the lowest active lane (R306). -/
def barrierForm (d a b : Reg) (m : BitVec 3) (op : Word → BarOp) (bad : Word → Bool) : AccessForm :=
  let who (c : Ctl) (l : Nat) : Nat := if m = 1 then lowest c.act else l
  { fields := [(a, 1), (b, 1)], dst := d, span := 1, port := 127, flag := fun _ => none, once := fun _ => m == 1, fixed := true
    access := fun c _ v l => ⟨l, (opArg (v l) 0).setWidth 57, 16, .bar (op (opArg (v (who c l)) 1)), false⟩
    bad := fun c _ v l =>
      if bad (opArg (v (who c l)) 1) then some (0x20, c.pc.setWidth 64) else misalignedAt (opArg (v l) 0).toNat 16 }

/-- The forms of the memory, barrier, TSPAWN and KLAUNCH instructions that access translated memory (R136, R156, R282 to
R292, R306 to R310). -/
def accessForm : Instr → Option AccessForm
  | .ld8 d a o m => some (loadForm 1 d a o m)
  | .ld16 d a o m => some (loadForm 2 d a o m)
  | .ld32 d a o m => some (loadForm 4 d a o m)
  | .ld64 d a o m => some (loadForm 8 d a o m)
  | .ld128 d a o m => some (loadForm 16 d a o m)
  | .st8 x a o m => some (storeForm 1 x a o m)
  | .st16 x a o m => some (storeForm 2 x a o m)
  | .st32 x a o m => some (storeForm 4 x a o m)
  | .st64 x a o m => some (storeForm 8 x a o m)
  | .st128 x a o m => some (storeForm 16 x a o m)
  | .ldp d a o m => some { loadForm 4 d a o m with
      once := fun _ => false
      access := fun c _ v l => ⟨l, privatePlace c.gr l (laneOffset (opArg (v l) 0) o 4), 4, .load, true⟩
      bad := fun c _ v l => offsetBad (laneOffset (opArg (v l) 0) o 4) c.gr.privb 63 }
  | .stp x a o m => some { storeForm 4 x a o m with
      access := fun c _ v l =>
        ⟨l, privatePlace c.gr l (laneOffset (opArg (v l) 0) o 4), 4, .store (lowBytes ((v l).drop 1) 4), true⟩
      bad := fun c _ v l => offsetBad (laneOffset (opArg (v l) 0) o 4) c.gr.privb 63 }
  | .ldc d a o m => some { loadForm 4 d a o m with
      access := fun c s v l =>
        ⟨l, BitVec.ofNat 57 ((constantSegment s c.gr).1 + laneOffset (opArg (v l) 0) o 4), 4, .load, false⟩
      bad := fun c s v l => offsetBad (laneOffset (opArg (v l) 0) o 4) (constantSegment s c.gr).2 63 }
  | .atom d a b m => some
      { fields := [(a, 1), (b, 1)], dst := d, span := 1, port := 127, flag := fun c => c.hd.fa, once := fun _ => false, fixed := false
        access := fun _ _ v l => ⟨l, (opArg (v l) 0).setWidth 57, 4, .atom m (opArg (v l) 1), false⟩
        bad := fun _ _ v l => misalignedAt (opArg (v l) 0).toNat 4 }
  | .cas d a b m => if m = 0 then some
      { fields := [(a, 1), (b, 2)], dst := d, span := 1, port := 127, flag := fun c => c.hd.fa, once := fun _ => false, fixed := false
        access := fun _ _ v l => ⟨l, (opArg (v l) 0).setWidth 57, 4, .cas (opArg (v l) 1) (opArg (v l) 2), false⟩
        bad := fun _ _ v l => misalignedAt (opArg (v l) 0).toNat 4 } else none
  | .binit d a b m => some (barrierForm d a b m .binit fun v =>
      v.getLsbD 31 || v.getLsbD 30 || v.toNat / 2 ^ 28 % 4 == 3 || v.toNat % 2 ^ 24 == 0 || v.toNat / 2 ^ 24 % 16 != 0)
  | .barv d a b m => some (barrierForm d a b m .barv fun _ => false)
  | .bexp d a b m => some (barrierForm d a b m .bexp (·.getLsbD 31))
  | .btest d a b m => some (barrierForm d a b m .btest fun _ => false)
  | .tspawn a b m => some
      { fields := [(a, 2), (b, 2)], dst := 127, span := 1, port := 127, flag := fun _ => none, once := fun _ => false, fixed := true
        access := fun c _ v l =>
          ⟨l, pairOf (v l) 2, 64, .spawn (pairOf (v l) 0) (if m = 0 then some (dieOfGroup c.g) else none)
            ((c.gr.skipCmp.filter fun p => has p.2 l).map (·.1)), false⟩
        bad := fun c s v l =>
          if imageOfEntry (s.ctx c.gr.ctx) (pairOf (v l) 0) = none then
            some (0x26, (BitVec.ofNat 32 (2 ^ 29 + spawnDie s c m (pairOf (v l) 2))).setWidth 64)
          else misalignedAt (pairOf (v l) 2).toNat 64 }
  | .klaunch d a => some
      { fields := [(a, 2)], dst := d, span := 1, port := d, flag := fun _ => none, once := fun _ => true, fixed := true
        access := fun c _ v l => ⟨l, pairOf (v (lowest c.act)) 0, 64, .klaunch d c.act (dieOfGroup c.g), false⟩
        bad := fun c _ v _ => misalignedAt (pairOf (v (lowest c.act)) 0).toNat 64 }
  | _ => none

/-- The instruction comes to its checks: operands ready, no ordered access of the group outstanding (R279), room in its flag.
-/
structure AccessReady (s : State) (c : Ctl) (f : AccessForm) : Prop extends InProgress s c where
  names : namesReady c ((f.fields.flatMap fun x => namesOf x.1 x.2) ++ namesOf f.dst f.span)
  ports : portsReady s c f.fields f.port
  idle : orderedOut c.gr = false
  room : flagFull c.gr (f.flag c) = false

/-- Lane `l`'s access under operands of the state. -/
def AccessForm.acc (f : AccessForm) (s : State) (c : Ctl) (l : Nat) : Acc := f.access c s (operands s c f.fields) l

/-- The fault of lane `l`'s operands. -/
def AccessForm.fault (f : AccessForm) (s : State) (c : Ctl) (l : Nat) : Option (BitVec 8 × BitVec 64) :=
  f.bad c s (operands s c f.fields) l

/-- An access is translated by the core's TLB, permitted by its entry (R261), and not refused by minimal mode, a class or a
marked line as far as that is known at issue (R267, R268, R367, R373, R378, R397, R402). -/
def permitted (s : State) (c : Ctl) (a : Acc) (e : TlbEntry) : Prop :=
  lookup s (coreOf c.g) c.gr.ctx a.va.toNat = some e ∧ farFrame s e a.va.toNat = false ∧
    ((a.op.stores || a.needW) = true → e.w = true) ∧ classFault s c.g a e = none

/-- The context has no enabled data comparator (R385). -/
def noDataComparator (s : State) (c : Ctl) : Prop := ∀ d, (s.ctx c.gr.ctx).debug = some d → ∀ k ∈ d.dcmp, k.ctl.getLsbD 0 = false

/-- The lanes that make an access: every active one, or the lowest for one access of all. -/
def accessLanes (s : State) (c : Ctl) (f : AccessForm) : List Nat :=
  if f.once (operandRows s c f.fields) then (lanesOf c.act).take 1 else lanesOf c.act

end Sys2Proof.Claims

/-- R278, R283, R285, R289, R290: a load all of whose accesses are issue-placed reads the bytes of its frames at once, low
byte first, and passes: its operation holds a word for each 4 bytes. A store likewise writes its bytes, and every byte of
device memory outside them is as before. Stack rows on chip and debug areas are left out, whose bytes the manual does not
give. The readings and choices of the model behind it: log entry 17. -/
def Obligations.PlacedAccessesPerformAtIssue : Prop :=
  ∀ (i : Instr) (f : AccessForm) (s : State) (c : Ctl) (e : Nat → TlbEntry), accessForm i = some f → wellFormed c.gr.enc i = true →
    AccessReady s c f → noDataComparator s c →
    (∀ l, l < 32 → has c.act l = true → f.fault s c l = none ∧ permitted s c (f.acc s c l) (e l) ∧ (e l).host = false ∧
      (e l).rmt = none ∧ issuePlaced s c.g (f.acc s c l) (e l) = true) →
    let pa (l : Nat) : Nat := (e l).phys (f.acc s c l).va.toNat
    ((∀ l, l < 32 → has c.act l = true → (f.acc s c l).op = .load ∧ ∀ k, k < (f.acc s c l).size →
        shadowed s (e l) ((f.acc s c l).va.toNat + k) = false ∧ debugArea s ((e l).phys ((f.acc s c l).va.toNat + k)) = false) →
      Completes (exec i s) (fun t => goesOnAfter t c ∧ (∀ a, mget t.mem a = mget s.mem a) ∧
        ∃ gr o, t.group? c.g = some gr ∧ gr.ops = c.gr.ops ++ [o] ∧ o.left = [] ∧ o.flag = f.flag c ∧
          ∀ l k, l < 32 → has c.act l = true → k < f.span → o.value l k = BitVec.ofNat 32
            (((List.range (min 4 (f.acc s c l).size)).map fun n =>
              (mget s.mem (pa (if f.once (operandRows s c f.fields) then lowest c.act else l) + 4 * k + n)).toNat * 2 ^ (8 * n)).sum))) ∧
    (MemoriesOk s → (∀ l, l < 32 → has c.act l = true → ∃ b, (f.acc s c l).op = .store b) →
      Completes (exec i s) (fun t => goesOnAfter t c ∧
        (∀ l n b, l < 32 → has c.act l = true → (f.acc s c l).op = .store b → n < b.length →
          (∀ k, l < k → k < 32 → has c.act k = true → pa l + n < pa k ∨ pa k + (f.acc s c k).size ≤ pa l + n) →
          mget t.mem (pa l + n) = b.getD n 0) ∧
        ∀ a, (∀ l, l < 32 → has c.act l = true → a < pa l ∨ pa l + (f.acc s c l).size ≤ a) → mget t.mem a = mget s.mem a))

/-- R40, R278 to R280: a memory instruction whose accesses are all translated and permitted, and not all issue-placed,
issues: its flag's count rises by one, one operation holds its lanes' accesses in ascending lane order, and the group stands
at the instruction until they have performed. No register, no thread and no byte of memory has changed. R262, R288, R307: a
memory instruction with a lane whose operands fault, every other active lane's access being translated and permitted, raises
the fault of the lowest such lane: its cause, its VALUE, and FLANES every lane whose operands fault with that cause. Its
group stops and no byte of memory changes. The readings and choices of the model behind it: log entries 16, 24. -/
def Obligations.MemoryInstructionsIssueOrFault : Prop :=
  (∀ (i : Instr) (f : AccessForm) (s : State) (c : Ctl) (e : Nat → TlbEntry), accessForm i = some f → wellFormed c.gr.enc i = true →
    AccessReady s c f → noDataComparator s c →
    (∀ l, l < 32 → has c.act l = true → f.fault s c l = none ∧ permitted s c (f.acc s c l) (e l)) →
    (∃ l ∈ accessLanes s c f, issuePlaced s c.g (f.acc s c l) (e l) = false) →
    Completes (exec i s) fun t => ∃ gr o j, t.group? c.g = some gr ∧ gr.ops = c.gr.ops ++ [o] ∧ gr.issue = some j ∧
      j.op = some o.id ∧ j.pos = c.iss.pos ∧ j.hdr = c.iss.hdr ∧
      o.left = (accessLanes s c f).map (f.acc s c) ∧ o.got = [] ∧ o.lanes = c.act ∧ o.flag = f.flag c ∧ o.fixed = f.fixed ∧
      o.dest = (namesOf f.dst f.span).map (fun n => perLane fun l => refOf (c.thread l) n) ∧
      (∀ n, n < 12 → flagCount gr n = flagCount c.gr n + if f.flag c = some n then 1 else 0) ∧
      gr.rows = c.gr.rows ∧ gr.bank = c.gr.bank ∧ gr.threads = c.gr.threads ∧ gr.ports = c.gr.ports ∧
      (∀ a, mget t.mem a = mget s.mem a) ∧ t.teams = s.teams) ∧
  (∀ (i : Instr) (f : AccessForm) (s : State) (c : Ctl) (e : Nat → TlbEntry) (l : Nat) (k : BitVec 8) (v : BitVec 64),
    accessForm i = some f → wellFormed c.gr.enc i = true → AccessReady s c f →
    (∀ j, j < 32 → has c.act j = true → f.fault s c j ≠ none ∨ permitted s c (f.acc s c j) (e j)) →
    l < 32 → has c.act l = true → f.fault s c l = some (k, v) → (∀ j, j < l → has c.act j = true → f.fault s c j = none) →
    Completes (exec i s) fun t => ∃ gr x, t.group? c.g = some gr ∧ gr.phase = .stopped ∧ gr.fault = some x ∧ x.cause = k ∧
      x.value = v ∧ x.word = c.word ∧
      (∀ j, j < 32 → (has x.flanes j = true ↔ has c.act j = true ∧ ∃ w, f.fault s c j = some (k, w))) ∧
      (∀ a, mget t.mem a = mget s.mem a) ∧ gr.rows = c.gr.rows ∧ gr.ops = c.gr.ops)

namespace Sys2Proof.Claims

/-- R284, R290, R291, R292: the scratchpad forms, with the offset of lane `l`. -/
def scratchForm : Instr → Option (List Src × Reg × (Ctl → Option Nat) × (List Word → Nat) × (List Word → AccOp))
  | .lds d a o m => some ([(a, 1)], d, (fun c => if m.getLsbD 0 then c.hd.fb else c.hd.fa), (fun v => laneOffset (opArg v 0) o 4), fun _ => .load)
  | .sts x a o m => some ([(a, 1), (x, 1)], 127, (fun c => if m.getLsbD 0 then c.hd.fb else c.hd.fa),
      (fun v => laneOffset (opArg v 0) o 4), fun v => .store (lowBytes [opArg v 1] 4))
  | .atoms d a b m => some ([(a, 1), (b, 1)], d, (fun c => c.hd.fa), (fun v => (opArg v 0).toNat), fun v => .atom m (opArg v 1))
  | .cas d a b m => if m = 0 then none else
      some ([(a, 1), (b, 2)], d, (fun c => c.hd.fa), (fun v => (opArg v 0).toNat), fun v => .cas (opArg v 1) (opArg v 2))
  | _ => none

/-- The word of a scratchpad at offset `o`. -/
def scratchWord (t : Team) (o : Nat) : Word :=
  BitVec.ofNat 32 (((List.range 4).map fun n => ((tget t.scratch (o + n)).getD 0).toNat * 2 ^ (8 * n)).sum)

/-- What one access leaves at its word, by the operations of R291 and R292. -/
def wordAfter (op : AccOp) (old : Word) : Word :=
  match op with
  | .store b => BitVec.ofNat 32 (((List.range 4).map fun n => (b.getD n 0).toNat * 2 ^ (8 * n)).sum)
  | .atom m v =>
    if m = 0 then old + v
    else if m = 1 then (if old.toInt ≤ v.toInt then old else v)
    else if m = 2 then (if old.toInt ≤ v.toInt then v else old)
    else if m = 3 then old &&& v
    else if m = 4 then old ||| v
    else if m = 5 then old ^^^ v
    else if m = 6 then v
    else atomFadd old v
  | .cas cmp new => if old = cmp then new else old
  | _ => old

end Sys2Proof.Claims

/-- R284, R290 to R292: a scratchpad instruction whose offsets are aligned and inside the team's scratchpad passes at once.
With no two active lanes at one offset, each lane's operation holds the old word (nothing for STS), the word at its offset is
what the operation leaves, every other byte of the scratchpad is as before, and so is every byte of memory. A misaligned
offset raises fault 0x24 and one outside the scratchpad 0x23, with the mark of bit 62 in VALUE. R293: PREF passes and changes
no register, no flag and no memory. The readings and choices of the model behind it: log entry 28. -/
def Obligations.ScratchpadAndPrefetch : Prop :=
  (∀ (i : Instr) (fs : List Src) (d : Reg) (flag : Ctl → Option Nat) (off : List Word → Nat) (op : List Word → AccOp) (s : State)
    (c : Ctl) (tm : Team), scratchForm i = some (fs, d, flag, off, op) → wellFormed c.gr.enc i = true → InProgress s c →
    namesReady c ((fs.flatMap fun x => namesOf x.1 x.2) ++ namesOf d 1) → portsReady s c fs 127 → orderedOut c.gr = false →
    flagFull c.gr (flag c) = false → s.team? c.gr.team = some tm →
    let o (l : Nat) : Nat := off (operands s c fs l)
    ((∀ l, l < 32 → has c.act l = true → o l % 4 = 0 ∧ o l < tm.scratchLen) →
      (∀ l k, l < 32 → k < 32 → has c.act l = true → has c.act k = true → l ≠ k → o l ≠ o k) →
      Completes (exec i s) fun t => goesOnAfter t c ∧ t.mem = s.mem ∧
        (∃ gr x, t.group? c.g = some gr ∧ gr.ops = c.gr.ops ++ [x] ∧ x.left = [] ∧ x.flag = flag c ∧
          ∀ l, l < 32 → has c.act l = true → d.toNat < 120 → x.value l 0 = scratchWord tm (o l)) ∧
        ∃ tm', t.team? c.gr.team = some tm' ∧
          (∀ l, l < 32 → has c.act l = true → scratchWord tm' (o l) = wordAfter (op (operands s c fs l)) (scratchWord tm (o l))) ∧
          ∀ a, (∀ l, l < 32 → has c.act l = true → a < o l ∨ o l + 4 ≤ a) →
            (tget tm'.scratch a).getD 0 = (tget tm.scratch a).getD 0) ∧
    (∀ l k v, l < 32 → has c.act l = true → offsetBad (o l) tm.scratchLen 62 = some (k, v) →
      (∀ j, j < l → has c.act j = true → offsetBad (o j) tm.scratchLen 62 = none) →
      Completes (exec i s) fun t => ∃ gr x, t.group? c.g = some gr ∧ gr.phase = .stopped ∧ gr.fault = some x ∧ x.cause = k ∧
        x.value = v ∧ t.mem = s.mem ∧ t.teams = s.teams)) ∧
  (∀ (a : Reg) (o : BitVec 7) (m : BitVec 3) (s : State) (c : Ctl), Runs s c [(a, 1)] 127 →
    Completes (exec (.pref a o m) s) fun t => (NoEviction s t → goesOnAfter t c ∧ t.mem = s.mem) ∧
      ∀ x, t.group? c.g = some x → x.flags = c.gr.flags ∧ x.ops = c.gr.ops ∧ x.rows = c.gr.rows)

/-! ## Accesses at their homes -/

namespace Sys2Proof.Claims

/-- `n` bytes of a memory from `a`, the first lowest, as a number. -/
def numberAt (m : Memory) (a n : Nat) : Nat := ((List.range n).map fun k => (mget m (a + k)).toNat * 2 ^ (8 * k)).sum

/-- The 32-bit word at `a`. -/
def wordAt (m : Memory) (a : Nat) : Word := BitVec.ofNat 32 (numberAt m a 4)

/-- A memory in which `b` stands from `a` on, and everything else is that of `m`. -/
def stored (m m' : Memory) (a : Nat) (b : List Byte) : Prop :=
  ∀ x, mget m' x = if a ≤ x ∧ x < a + b.length then b.getD (x - a) 0 else mget m x

/-- The next ordered access of group `g`'s instruction in progress: its group, operation, access, the accesses after it and
its translation, which permits it (R261, R280). -/
structure NextAccess (s : State) (g : Nat) (gr : Group) (o : Op) (a : Acc) (rest : List Acc) (e : TlbEntry) : Prop where
  group : s.group? g = some gr
  op : currentOp gr = some o
  left : o.left = a :: rest
  hit : lookup s (coreOf g) gr.ctx a.va.toNat = some e
  near : farFrame s e a.va.toNat = false
  may : (a.op.stores || a.needW) = true → e.w = true

/-- The bytes of the access are given by the manual: no stack row on chip, no debug area (R182, R381), and no poison in a
line that it reads (R402). -/
def plainBytes (s : State) (e : TlbEntry) (a : Acc) : Prop :=
  (∀ k, k < a.size → shadowed s e (a.va.toNat + k) = false ∧ (e.host = false → debugArea s (e.phys (a.va.toNat + k)) = false)) ∧
  (a.op.reads = true → poisonAt s e a.va.toNat = none)

/-- The rows that an instruction writes as soon as its access performs are on chip (R182). -/
def landsOnChip (gr : Group) (o : Op) : Prop := o.fixed = true → opOnChip gr o = true

/-- No row has left its chip between two states. -/
def rowsStay (s t : State) : Prop := ∀ h, (t.group? h).map (·.evicted) = (s.group? h).map (·.evicted)

/-- A load, a store, an atomic or a CAS. -/
def dataAccess : AccOp → Bool
  | .load | .store _ | .atom .. | .cas .. => true
  | _ => false

/-- The words that an access returns from memory `m` at `pa`. -/
def returned (m : Memory) (pa : Nat) (a : Acc) : List Word :=
  match a.op with
  | .load => (List.range (spanNames a.size)).map fun k => BitVec.ofNat 32 (numberAt m (pa + 4 * k) (min 4 a.size))
  | .store _ => []
  | _ => [wordAt m pa]

/-- The bytes it writes at `pa`. -/
def written (m : Memory) (pa : Nat) (a : Acc) : List Byte :=
  match a.op with
  | .load => []
  | .store b => b
  | op => lowBytes [wordAfter op (wordAt m pa)] 4

/-- How the instruction in progress stands after an access: with accesses left it stays; after the last one it has passed. -/
def passedIf (last : Bool) (gr gr' : Group) : Prop :=
  ∀ i, gr.issue = some i → if last then
      (if i.pos + 1 < i.words.length then gr'.issue = some { i with pos := i.pos + 1, depCounted := false, checked := false, op := none, voted := none, taken := false }
        else gr'.issue = none)
    else gr'.issue = gr.issue

/-- What an access of a long-latency operation leaves in its group. -/
def accessLeft (t : State) (g : Nat) (gr : Group) (o : Op) (a : Acc) (rest : List Acc) (ws : List Word) : Prop :=
  ∃ gr' o', t.group? g = some gr' ∧ gr'.ops.find? (·.id == o.id) = some o' ∧ o'.left = rest ∧ o'.got = o.got ++ [(a.lane, ws)] ∧
    passedIf rest.isEmpty gr gr'

end Sys2Proof.Claims

/-- R280, R281, R289, R291, R292: when the home of a device frame accepts the next access of a long-latency instruction, the
access performs: its lane receives the words it returns, low byte first, its bytes are written, and no other byte of memory
changes; after the last access the group passes the instruction. The readings and choices of the model behind it: log entries
16, 17. -/
def Obligations.HomeAccessesPerform : Prop :=
  ∀ (s s' : State) (g : Nat) (gr : Group) (o : Op) (a : Acc) (rest : List Acc) (e : TlbEntry), NextAccess s g gr o a rest e →
    MemoriesOk s → e.host = false → e.rmt = none → dataAccess a.op = true → (∀ m v, a.op = .atom m v → a.size = 4) →
    (∀ c n, a.op = .cas c n → a.size = 4) → a.size ∈ [1, 2, 4, 8, 16] → plainBytes s e a → o.once = false → o.fixed = false →
    homeAccess s (coreOf g) (opParty s g o) e a.va.toNat a.op.stores a.op.atomic = .ok s' →
    Completes (exec (.homeAccessAccept g) s) fun t =>
      accessLeft t g gr o a rest (returned s.mem (e.phys a.va.toNat) a) ∧
      stored s.mem t.mem (e.phys a.va.toNat) (written s.mem (e.phys a.va.toNat) a) ∧ t.hostMem = s.hostMem ∧ t.peerMem = s.peerMem

/-- R367, R377: an access to a HOST frame leaves first and changes nothing but its waiting; when the host's completion comes,
a load or store performs in host memory. An access to another module that its unit's cache cannot serve leaves as a request
and changes nothing else; once it is answered it performs in that module's memory (byte a of module m is byte m × 2^39 + a of
the modules' memory), or stops its group with the fault that the answer gives (what another module answers is free: log entry
69); one that is given up stops its group, with fault 0x29, VALUE the machine-check bank of its cluster, unless the group has
a fault already; the bank holds a record then. The readings and choices of the model behind it: log entries 26, 73, 84. -/
def Obligations.OutsideAccessesPerform : Prop :=
  (∀ (s : State) (g : Nat) (gr : Group) (o : Op) (a : Acc) (rest : List Acc) (e : TlbEntry), NextAccess s g gr o a rest e →
    e.host = true → a.op.atomic = false →
    Completes (exec (.homeAccessAccept g) s) fun t => g ∈ t.hostPending ∧ t.groups = s.groups ∧ t.hostMem = s.hostMem ∧ t.mem = s.mem) ∧
  (∀ (s : State) (g : Nat) (gr : Group) (o : Op) (a : Acc) (rest : List Acc) (e : TlbEntry), NextAccess s g gr o a rest e →
    MemoriesOk s → e.host = true → g ∈ s.hostPending → dataAccess a.op = true → a.op.atomic = false → a.size ∈ [1, 2, 4, 8, 16] →
    plainBytes s e a → o.once = false → o.fixed = false →
    Completes (exec (.hostCompletionReceive g) s) fun t =>
      accessLeft t g gr o a rest (returned s.hostMem (e.phys a.va.toNat) a) ∧ g ∉ t.hostPending ∧
      stored s.hostMem t.hostMem (e.phys a.va.toNat) (written s.hostMem (e.phys a.va.toNat) a) ∧ t.mem = s.mem) ∧
  (∀ (s : State) (g m : Nat) (gr : Group) (o : Op) (a : Acc) (rest : List Acc) (e : TlbEntry), NextAccess s g gr o a rest e →
    e.host = false → e.rmt = some m → s.domain.members.getLsbD m = true → landsOnChip gr o →
    messageOf s (opParty s g o) m (e.phys a.va.toNat / 4096) = none → messageHeld s m (e.phys a.va.toNat / 4096) = false →
    a.op.atomic = true ∨ classAllows e (opParty s g o) a.op.stores = false →
    Completes (exec (.homeAccessAccept g) s) fun t => messageOf t (opParty s g o) m (e.phys a.va.toNat / 4096) ≠ none ∧
      t.groups = s.groups ∧ t.mem = s.mem ∧ t.peerMem = s.peerMem) ∧
  (∀ (s : State) (g m : Nat) (gr : Group) (o : Op) (a : Acc) (rest : List Acc) (e : TlbEntry), NextAccess s g gr o a rest e →
    MemoriesOk s → e.host = false → e.rmt = some m → s.domain.members.getLsbD m = true → dataAccess a.op = true → (∀ k v, a.op = .atom k v → a.size = 4) →
    (∀ c n, a.op = .cas c n → a.size = 4) → a.size ∈ [1, 2, 4, 8, 16] → plainBytes s e a → o.once = false → o.fixed = false →
    (∃ x, messageOf s (opParty s g o) m (e.phys a.va.toNat / 4096) = some x ∧ x.awaited s.realTime = true ∧ x.lost = false) →
    let pa := m * 2 ^ 39 + e.phys a.va.toNat
    Completes (exec (.homeAccessAccept g) s) fun t =>
      messageOf t (opParty s g o) m (e.phys a.va.toNat / 4096) = none ∧
      (∀ s', homeAccess s (coreOf g) (opParty s g o) e a.va.toNat a.op.stores a.op.atomic = .ok s' →
        accessLeft t g gr o a rest (returned s.peerMem pa a) ∧ stored s.peerMem t.peerMem pa (written s.peerMem pa a) ∧
        t.mem = s.mem ∧ t.hostMem = s.hostMem) ∧
      ∀ f v s', homeAccess s (coreOf g) (opParty s g o) e a.va.toNat a.op.stores a.op.atomic = .fault f v s' →
        (f = 0x23 ∨ f = 0x29) ∧ (opOnChip gr o = true → rowsStay s t → t.peerMem = s.peerMem) ∧ ∃ gr' x, t.group? g = some gr' ∧ gr'.phase = .stopped ∧ gr'.fault = some x ∧
          (gr.phase = .running → x.cause = f)) ∧
  (∀ (s : State) (g : Nat) (gr : Group) (o : Op) (a : Acc) (rest : List Acc) (e : TlbEntry), NextAccess s g gr o a rest e →
    ∀ (m : Nat) (x : Message), e.host = false → e.rmt = some m → s.domain.members.getLsbD m = true → landsOnChip gr o →
    messageOf s (opParty s g o) m (e.phys a.va.toNat / 4096) = some x → x.sent + 1000000 ≤ s.realTime →
    Completes (exec (.remoteRequestTimeout g) s) fun t =>
      (∃ gr' f, t.group? g = some gr' ∧ gr'.phase = .stopped ∧ gr'.fault = some f ∧ (gr.fault = none → f.cause = 0x29 ∧
        f.value = BitVec.ofNat 64 (32 * (g / 3072) + g / 64 % 48 / 4) ∧ f.word = 0)) ∧
      (t.bank (32 * (g / 3072) + g / 64 % 48 / 4)).valid = true ∧ (opOnChip gr o = true → rowsStay s t → t.mem = s.mem))

/-- R123, R136, R156: a TSPAWN's access that no data comparator watches pushes its task: the next free slot of the die's
queue (which one is the model's choice, log entry 86) holds the entry address and the record's 64 bytes; the die is the one
named, or the one that homes the record. A KLAUNCH's access accepts a well-formed LAUNCH while fewer than 64 are out, with a
row, a port that has room or nothing as its destination: the count rises, the command stands last in the list of its die, and
a port receives the status word. The readings and choices of the model behind it: log entries 33, 67, 68, 86, 104. -/
def Obligations.SpawnsAndLaunchesPerform : Prop :=
  (∀ (s s' : State) (g : Nat) (gr : Group) (o : Op) (a : Acc) (rest : List Acc) (e : TlbEntry) (entry : VA) (od : Option Nat) (n : Nat) (ps : List Nat),
    NextAccess s g gr o a rest e → MemoriesOk s → e.host = false → e.rmt = none → a.op = .spawn entry od ps → a.size = 64 →
    plainBytes s e a → landsOnChip gr o →
    homeAccess s (coreOf g) (opParty s g o) e a.va.toNat a.op.stores a.op.atomic = .ok s' →
    let d := od.getD (e.phys a.va.toNat / 2 ^ 37 % 4)
    nextSlot s gr.ctx d = some n →
    pushFault s' gr.ctx d = none → (∀ x, (s.ctx gr.ctx).debug = some x → ∀ k ∈ x.dcmp, k.ctl.getLsbD 0 = false) →
    Completes (exec (.homeAccessAccept g) s) fun t =>
      let at_ := (s.ctx gr.ctx).taskPhys.getD d 0 + 128 * n
      (NoEviction s t → (∀ k, k < 64 → mget t.mem (at_ + 64 + k) = mget s.mem (e.phys a.va.toNat + k)) ∧
        numberAt t.mem at_ 8 = entry.toNat ∧ (∀ x, x < at_ ∨ at_ + 128 ≤ x → mget t.mem x = mget s.mem x)) ∧
      n ∈ (t.taskQueue gr.ctx d).used) ∧
  (∀ (s s' : State) (g : Nat) (gr : Group) (o : Op) (a : Acc) (rest : List Acc) (e : TlbEntry) (dst : Reg) (act : Mask) (d : Nat),
    NextAccess s g gr o a rest e → e.host = false → e.rmt = none → a.op = .klaunch dst act d → a.size = 64 → plainBytes s e a → landsOnChip gr o →
    homeAccess s (coreOf g) (opParty s g o) e a.va.toNat a.op.stores a.op.atomic = .ok s' →
    (isPort dst = true → ∃ p q, portOf gr dst = some p ∧ s.queue? p.inst = some q ∧ pushAns s' q = .ready) →
    let b := mread s.mem (e.phys a.va.toNat) 64
    b.getD 0 0 = 1 → launchBad b = false → imageAt (s.ctx gr.ctx) (field b 8 8) ≠ none → (s.ctx gr.ctx).klaunchOut < 64 →
    Completes (exec (.homeAccessAccept g) s) fun t =>
      (isPort dst = true → ∀ p q, portOf gr dst = some p → s.queue? p.inst = some q → t.queue? p.inst =
        some (q.push (pushEntry q act (.u (BitVec.ofNat 32 ((s.ctx gr.ctx).klaunchSeq.toNat % 2 ^ 24 * 256)))))) ∧
      (isPort dst = false → rest = [] → o.fixed = true → o.once = true → o.got = [] → ∃ gr', t.group? g = some gr' ∧ ∀ rows l, o.dest = [rows] →
        l < 32 → has o.lanes l = true → residentRef gr l (lane rows l) = true → lane rows l ≠ .nowhere →
          (rowAt gr' (lane rows l)).get l = BitVec.ofNat 32 ((s.ctx gr.ctx).klaunchSeq.toNat % 2 ^ 24 * 256)) ∧
      (t.ctx gr.ctx).klaunchOut = (s.ctx gr.ctx).klaunchOut + 1 ∧
      (t.ctx gr.ctx).klaunchSeq = (s.ctx gr.ctx).klaunchSeq + 1 ∧
      (t.hostQueue (256 + 4 * gr.ctx + d)).cmds = (s.hostQueue (256 + 4 * gr.ctx + d)).cmds ++ [freshCmd (s.ctx gr.ctx).klaunchSeq b])

/-! ## Barriers -/

namespace Sys2Proof.Claims

/-- The four words of a barrier: ARRIVALS, BYTES, PHASE, CONFIG (Table 13-1). -/
abbrev BarWords := Word × Word × Word × Word

/-- R296: a configuration word that no barrier has. -/
def badConfig (c : Word) : Bool :=
  c.toNat % 2 ^ 24 == 0 || c.toNat / 2 ^ 28 % 4 == 3 || c.getLsbD 30 || c.toNat / 2 ^ 24 % 16 != 0

/-- R297: an update by `da` arrivals and `db` bytes; none for an overrun. -/
def barUpdated (w : BarWords) (da : Nat) (db : Int) : Option BarWords :=
  let (a, b, p, c) := w
  let n := b.toInt + db
  if badConfig c || c.getLsbD 31 then none
  else if a.toNat < da then none
  else if n < -2 ^ 31 ∨ 2 ^ 31 - 1 < n then none
  else if a.toNat = da then
    if n = 0 then some (BitVec.ofNat 32 (c.toNat % 2 ^ 24), 0, p + 1, c) else if n < 0 then none else some (0, BitVec.ofInt 32 n, p, c)
  else some (a - BitVec.ofNat 32 da, BitVec.ofInt 32 n, p, c)

/-- What a barrier operation leaves (R307, R308, R310). -/
def barResult (op : BarOp) (w : BarWords) : Option BarWords :=
  match op with
  | .binit cfg => some (BitVec.ofNat 32 (cfg.toNat % 2 ^ 24), 0, w.2.2.1, cfg)
  | .barv n => barUpdated w n.toNat 0
  | .bexp n => barUpdated w 0 n.toNat
  | .btest _ => some w

/-- A phase `q` is past phase `p` (R298). -/
def phaseDone (q p : Word) : Bool := decide (1 ≤ (q - p).toNat) && decide ((q - p).toNat ≤ 2 ^ 31)

/-- The word a barrier operation returns: the old PHASE, or the bits of BTEST. -/
def barReturns (op : BarOp) (w : BarWords) : Word :=
  match op with
  | .btest p => BitVec.ofNat 32 ((phaseDone w.2.2.1 p).toNat + 2 * (w.2.2.2.getLsbD 31).toNat + 4 * (badConfig w.2.2.2).toNat)
  | _ => w.2.2.1

def barWordsAt (m : Memory) (a : Nat) : BarWords := (wordAt m a, wordAt m (a + 4), wordAt m (a + 8), wordAt m (a + 12))

end Sys2Proof.Claims

/-- R297, R300, R306 to R308, R310: when the home of a device frame accepts a barrier operation, the barrier's words are
those the operation leaves, or with an overrun the old ones with OVR set; no other byte changes. After the last access of the
instruction its operation is gone and its lane's row holds what the operation returns; an overrun stops the group with fault
0x25, VALUE the barrier's address, or with a fault that the group has already. The readings and choices of the model behind
it: log entries 24, 108. -/
def Obligations.BarrierOperationsPerform : Prop :=
  ∀ (s s' : State) (g : Nat) (gr : Group) (o : Op) (a : Acc) (e : TlbEntry) (op : BarOp), NextAccess s g gr o a [] e →
    e.host = false → e.rmt = none → a.op = .bar op → o.fixed = true → o.once = o.uni → a.lane < 32 → has o.lanes a.lane = true →
    (∀ p ∈ o.got, p.1 ≠ a.lane) → a.size = 16 → MemoriesOk s → plainBytes s e a → opOnChip gr o = true →
    homeAccess s (coreOf g) (opParty s g o) e a.va.toNat a.op.stores a.op.atomic = .ok s' →
    let pa := e.phys a.va.toNat
    let w := barWordsAt s.mem pa
    Completes (exec (.homeAccessAccept g) s) fun t =>
      match barResult op w with
      | some w' => (NoEviction s t → barWordsAt t.mem pa = w' ∧ ∀ x, x < pa ∨ pa + 16 ≤ x → mget t.mem x = mget s.mem x) ∧
          ∃ gr', t.group? g = some gr' ∧ gr'.ops = gr.ops.filter (·.id != o.id) ∧
            ∀ rows, o.dest = [rows] → residentRef gr a.lane (lane rows a.lane) = true → lane rows a.lane ≠ .nowhere →
              (rowAt gr' (lane rows a.lane)).get a.lane = barReturns op w
      | none => (rowsStay s t → barWordsAt t.mem pa = (w.1, w.2.1, w.2.2.1, w.2.2.2 ||| 2 ^ 31) ∧
            ∀ x, x < pa ∨ pa + 16 ≤ x → mget t.mem x = mget s.mem x) ∧
          ∃ gr' f, t.group? g = some gr' ∧ gr'.phase = .stopped ∧ gr'.fault = some f ∧ (gr.fault = none → f.cause = 0x25 ∧
            f.value = a.va.setWidth 64 ∧ f.word = 0)

namespace Sys2Proof.Claims

/-- The lanes' operands of a BWAIT; with m = 1 those of the lowest active lane (R306). -/
def bwaitLane (c : Ctl) (m : BitVec 3) (l : Nat) : Nat := if m = 1 then lowest c.act else l

/-- A group of which lane `l` alone waits in BWAIT for phase `p` of the barrier at `a`, since Running time `st`. -/
def waitsAlone (gr : Group) (l : Nat) (a : VA) (p : Word) (st : Nat) : Prop :=
  l < 32 ∧ (∃ m w, bwaitOf gr l = some (a, p, st, m, w)) ∧ ∀ k, k < 32 → k ≠ l → bwaitOf gr k = none

end Sys2Proof.Claims

/-- R301, R302, R309: a BWAIT whose addresses are aligned, translated and permitted makes each active lane wait for its
phase. A lane that waits alone and whose barrier is past the phase, its home serving the load, waits no more and stands after
the BWAIT. A lane that has waited for its barrier's timeout of Running time, its phase not done, traps with cause 0x09 and
TVAL the address. R303, R304: a TSYNC of every live thread of a group waits while another group of the team with live threads
has not arrived; the last group to arrive flips the team's phase and passes. Issued by some of the live threads it is trap
0x05, and in a handler an illegal instruction. The readings and choices of the model behind it: log entry 18. -/
def Obligations.BarrierWaitsAndTeamBarrier : Prop :=
  ((∀ (a b : Reg) (m : BitVec 3) (s : State) (c : Ctl) (e : Nat → TlbEntry), wellFormed c.gr.enc (.bwait a b m) = true →
    Runs s c [(a, 1), (b, 1)] 127 → orderedOut c.gr = false → noDataComparator s c →
    let v (l : Nat) : List Word := operands s c [(a, 1), (b, 1)] (bwaitLane c m l)
    (∀ l, l < 32 → has c.act l = true → (opArg (v l) 0).toNat % 16 = 0 ∧
      permitted s c ⟨l, (opArg (v l) 0).setWidth 57, 16, .bar (.btest 0), false⟩ (e l)) →
    Completes (exec (.bwait a b m) s) fun t => ∀ l, l < 32 → has c.act l = true → (threadIn t c l).after = c.iss.after l ∧
      (threadIn t c l).wait = .bwait ((opArg (v l) 0).setWidth 57) (opArg (v l) 1) (s.ctx c.gr.ctx).runNs false c.act c.word) ∧
  (∀ (s s' : State) (g l : Nat) (gr : Group) (a : VA) (p : Word) (st : Nat) (e : TlbEntry), s.group? g = some gr → gr.phase = .running →
    issuing (s.ctx gr.ctx).state = true → waitsAlone gr l a p st → lookup s (coreOf g) gr.ctx a.toNat = some e →
    e.host = false → e.rmt = none →
    let w := barWordsAt s.mem (e.phys a.toNat)
    phaseDone w.2.2.1 p = true → w.2.2.2.getLsbD 31 = false → badConfig w.2.2.2 = false →
    (∀ k, k < 16 → shadowed s e (a.toNat + k) = false ∧ debugArea s (e.phys (a.toNat + k)) = false) →
    homeAccess (tlbInsert s (coreOf g) e) (coreOf g) (groupParty s g) e a.toNat false = .ok s' →
    Completes (exec (.bwaitSatisfied g) s) fun t => ∃ gr', t.group? g = some gr' ∧ (lane gr'.threads l).wait = .none ∧
      (lane gr'.threads l).at_ = (lane gr.threads l).after) ∧
  (∀ (s : State) (g l : Nat) (gr : Group) (a : VA) (p : Word) (st : Nat) (m : Mask) (word : Word) (e : TlbEntry), s.group? g = some gr →
    gr.phase = .running → (s.ctx gr.ctx).state = .running → bwaitOf gr l = some (a, p, st, m, word) → l < 32 →
    watchEntry s (coreOf g) (dieOfGroup g) gr.ctx a.toNat = .ok e → e.host = false → e.rmt = none →
    let w := barWordsAt s.mem (e.phys a.toNat)
    phaseDone w.2.2.1 p = false → w.2.2.2.getLsbD 31 = false → badConfig w.2.2.2 = false →
    (w.2.2.2.toNat / 2 ^ 28 % 4 = 0 ∧ st + (s.ctx gr.ctx).btmo * 1000000 ≤ (s.ctx gr.ctx).runNs ∨
      w.2.2.2.toNat / 2 ^ 28 % 4 = 1 ∧ st + 16 * (s.ctx gr.ctx).btmo * 1000000 ≤ (s.ctx gr.ctx).runNs) →
    (∀ k, k < 16 → shadowed s e (a.toNat + k) = false ∧ debugArea s (e.phys (a.toNat + k)) = false) →
    trapVector s gr ≠ 0 → (lane gr.threads l).inHandler = false →
    Completes (exec (.barrierTimeout g l) s) fun t => ∃ gr', t.group? g = some gr' ∧ (lane gr'.threads l).inHandler = true ∧
      (lane gr'.threads l).tcause = 0x09 ∧ (lane gr'.threads l).tval = a.setWidth 64 ∧
      (lane gr'.threads l).resume = (lane gr.threads l).at_)) ∧
  ((∀ (s : State) (c : Ctl) (tm : Team), Runs s c [] 127 → c.act = liveMask c.gr → orderedOut c.gr = false →
    (∀ l, l < 32 → has c.act l = true → (c.thread l).inHandler = false) → s.team? c.gr.team = some tm → has tm.tw c.gr.gid = false →
    c.gr.gid < 32 → c.g ∈ tm.groups →
    ((∀ h ∈ tm.groups, h ≠ c.g → ∀ gr, s.group? h = some gr → liveMask gr = 0 ∨ has tm.arrived gr.gid = true) →
      (∀ x ∈ tm.saved, liveMask x.group = 0 ∨ has tm.arrived x.group.gid = true) →
      Completes (exec .tsync s) fun t => (∃ tm', t.team? c.gr.team = some tm' ∧ tm'.tph = !tm.tph ∧ tm'.arrived = 0) ∧
        ∀ l, l < 32 → has c.act l = true → (threadIn t c l).wait = .none ∧ (threadIn t c l).at_ = c.iss.after l) ∧
    ((∃ h ∈ tm.groups, h ≠ c.g ∧ ∃ gr, s.group? h = some gr ∧ liveMask gr ≠ 0 ∧ has tm.arrived gr.gid = false ∧ gr.gid ≠ c.gr.gid) →
      Completes (exec .tsync s) fun t => (∃ tm', t.team? c.gr.team = some tm' ∧ tm'.tph = tm.tph ∧ has tm'.arrived c.gr.gid = true) ∧
        ∀ l, l < 32 → has c.act l = true → (threadIn t c l).wait = .tsync ∧ (threadIn t c l).after = c.iss.after l)) ∧
  (∀ (s : State) (c : Ctl), Runs s c [] 127 → c.act ≠ liveMask c.gr → trapVector s c.gr ≠ 0 →
    (∀ l, l < 32 → has c.act l = true → (c.thread l).inHandler = false) →
    Completes (exec .tsync s) fun t => ∀ l, l < 32 → has c.act l = true → (threadIn t c l).inHandler = true ∧
      (threadIn t c l).tcause = 0x05) ∧
  (∀ (s : State) (c : Ctl) (l : Nat), Runs s c [] 127 → l < 32 → has c.act l = true → (c.thread l).inHandler = true →
    Completes (exec .tsync s) fun t => ∃ gr f, t.group? c.g = some gr ∧ gr.phase = .stopped ∧ gr.fault = some f ∧ f.cause = 0x20))

/-! ## Copies -/

namespace Sys2Proof.Claims

/-- The quads of a CPY or CPYR of a lane: v0 v1 source, v2 v3 destination (v2 the ring of a CPYR), v4 length, v5 zero, v6 v7
barrier. The fault of R294 and R340, `scratch` the size of the team's scratchpad. -/
def copyFaultOf (c : Ctl) (ring sp : Bool) (scratch : Nat) (v : List Word) : Option (BitVec 8 × BitVec 64) :=
  let n := (opArg v 4).toNat
  if 2 ^ 24 ≤ n ∨ opArg v 5 ≠ 0 then some (0x20, c.pc.setWidth 64)
  else if ring = true ∧ (8 ≤ (opArg v 2).toNat ∨ opArg v 3 ≠ 0) then some (0x20, c.pc.setWidth 64)
  else if ring = false ∧ sp = true ∧ opArg v 3 ≠ 0 then some (0x20, c.pc.setWidth 64)
  else if (pairOf v 6).toNat % 16 ≠ 0 then some (0x24, (pairOf v 6).setWidth 64)
  else if ring = false ∧ sp = true then
    if (pairOf v 2).toNat % 4 ≠ 0 then some (0x24, BitVec.ofNat 64 ((pairOf v 2).toNat + 2 ^ 62))
    else if scratch < (pairOf v 2).toNat + n then some (0x23, BitVec.ofNat 64 ((pairOf v 2).toNat + 2 ^ 62)) else none
  else none

/-- A CPY or CPYR comes to its checks: it is in progress, its names are ready, its flag has room, its team is `tm`. -/
structure CopyReady (s : State) (c : Ctl) (d a b : Reg) (m : BitVec 3) (tm : Team) : Prop extends InProgress s c where
  names : namesReady c (allNames [(a, 4), (b, 4)] d)
  room : flagFull c.gr (if m.getLsbD 0 then c.hd.fb else c.hd.fa) = false
  team : s.team? c.gr.team = some tm

/-- What lane `l` reads of the two quads. -/
def quads (s : State) (c : Ctl) (a b : Reg) (l : Nat) : List Word := operands s c [(a, 4), (b, 4)] l

/-- The operation that waits for the statuses of the copies of all active lanes; its group has passed the instruction. -/
def copiesPending (t : State) (c : Ctl) (m : BitVec 3) (o : Op) : Prop :=
  goesOnAfter t c ∧ ∃ gr, t.group? c.g = some gr ∧ gr.ops = c.gr.ops ++ [o] ∧ o.copies = (lanesOf c.act).length ∧
    o.flag = (if m.getLsbD 0 then c.hd.fb else c.hd.fa) ∧ gr.rows = c.gr.rows

/-- A copy under way, on an engine of its context's partition, at an instant at which its context lets it go on (R86, R92,
R97). -/
structure CopyGoes (s : State) (n : Nat) (x : Copy) : Prop where
  copy : s.copy? n = some x
  runs : x.stopped = false
  inside : copyInside s x = true
  context : (s.ctx x.ctx).state = .running ∨ (s.ctx x.ctx).state = .saving ∨ (s.ctx x.ctx).state = .restoring ∨
    (s.ctx x.ctx).state = .halting

/-- The copy engine's TLB translates the address to a device frame of this module (R258). -/
def copyHit (s : State) (x : Copy) (va : VA) (e : TlbEntry) : Prop :=
  lookup s (192 + x.engine) x.ctx va.toNat = some e ∧ farFrame s e va.toNat = false ∧ e.host = false ∧ e.rmt = none

/-- The address `n` bytes after `a`. -/
def bytesOn (a : VA) (n : Nat) : VA := a + BitVec.ofNat 57 n

/-- The length of the next unit: up to the next multiple of 16 of the destination, or what is left (R286). -/
def nextUnit (x : Copy) : Nat :=
  min (x.len - x.pos) (16 - (match x.dst with
    | .mem va => (bytesOn va x.pos).toNat
    | .scratch _ off => off + x.pos
    | .ring .. => x.pos) % 16)

/-- The row that a lane's copy writes its status to is on chip (R182). -/
def statusOnChip (s : State) (x : Copy) : Prop :=
  ∀ g o l gr op, x.origin = .lane g o l → s.group? g = some gr → gr.ops.find? (·.id == o) = some op → opOnChip gr (op.oneLane l) = true

end Sys2Proof.Claims

/-- R286, R294, R340, R130: CPY starts one copy for each active lane when a place is free for each; CPYR likewise, with space
reserved in the rings of the coordinate's engine. With m[1] the commands go to the team's held list, lowest free indices
first in ascending lane order, and no copy starts. R286, R294: a copy's unit is read, then written. A unit whose source lies
in one aligned chunk is read when the addresses of both ends are translated and permitted, no class check refuses them
(R261), and the home serves it: the copy holds the bytes and nothing is written. A unit that is held is written: to device
memory with no other byte changed, to the scratchpad, or to its ring's reservation; the copy moves on by its length. When all
is written and the row of its status is on chip, a copy without a barrier ends: the word of Table 12-4 reaches its operation,
and the copy is gone; one with a barrier first makes its arrival of the length in bytes. The readings and choices of the
model behind it: log entries 29, 30, 66. -/
def Obligations.CopiesStartAndMove : Prop :=
  ((∀ (d a b : Reg) (m : BitVec 3) (s : State) (c : Ctl) (tm : Team), wellFormed c.gr.enc (.cpy d a b m) = true →
    CopyReady s c d a b m tm →
    (∀ l, l < 32 → has c.act l = true → copyFaultOf c false (m.getLsbD 2) tm.scratchLen (quads s c a b l) = none) →
    (m.getLsbD 1 = false → (lanesOf c.act).length ≤ (copyPlaces s c.gr.ctx (dieOfGroup c.g) (lanesOf c.act).length).length →
      Completes (exec (.cpy d a b m) s) fun t => (∃ o, copiesPending t c m o ∧ o.id = c.gr.nextOp) ∧ t.mem = s.mem ∧
        ∀ l, l < 32 → has c.act l = true → ∃ n x, t.copy? n = some x ∧ x.origin = .lane c.g c.gr.nextOp l ∧
          x.src = pairOf (quads s c a b l) 0 ∧ x.len = (opArg (quads s c a b l) 4).toNat ∧ x.pos = 0 ∧ x.ctx = c.gr.ctx ∧
          x.bar = pairOf (quads s c a b l) 6 ∧ x.dst = if m.getLsbD 2 then .scratch c.gr.team (pairOf (quads s c a b l) 2).toNat
            else .mem (pairOf (quads s c a b l) 2)) ∧
    (m.getLsbD 1 = true → (lanesOf c.act).length ≤ (freeHeld tm).length →
      Completes (exec (.cpy d a b m) s) fun t => (∃ o, copiesPending t c m o) ∧ t.copies = s.copies ∧ t.mem = s.mem ∧
        ∃ tm', t.team? c.gr.team = some tm' ∧ ∀ k l, (lanesOf c.act)[k]? = some l →
          (tget tm'.held ((freeHeld tm).getD k 0)) = some (.cpy c.g l c.gr.nextOp (pairOf (quads s c a b l) 0)
            (pairOf (quads s c a b l) 2) (m.getLsbD 2) (opArg (quads s c a b l) 4).toNat (pairOf (quads s c a b l) 6) c.word))) ∧
  (∀ (d a b : Reg) (m : BitVec 3) (s : State) (c : Ctl) (tm : Team) (e : Nat), wellFormed c.gr.enc (.cpyr d a b m) = true →
    CopyReady s c d a b m tm → teamEngine s tm = .ok e →
    (∀ l, l < 32 → has c.act l = true → copyFaultOf c true false tm.scratchLen (quads s c a b l) = none) →
    let needs := ringNeeds ((lanesOf c.act).map fun l =>
      ((opArg (quads s c a b l) 2).toNat, if m.getLsbD 1 then 0 else (opArg (quads s c a b l) 4).toNat))
    ringFault (s.engine e) needs = none → ringRoom (s.engine e) needs = true →
    (m.getLsbD 1 = false → (lanesOf c.act).length ≤ (copyPlaces s c.gr.ctx (dieOfGroup c.g) (lanesOf c.act).length).length →
      Completes (exec (.cpyr d a b m) s) fun t => (∃ o, copiesPending t c m o ∧ o.id = c.gr.nextOp) ∧
        ∀ l, l < 32 → has c.act l = true → ∃ n x seg, t.copy? n = some x ∧ x.origin = .lane c.g c.gr.nextOp l ∧
          x.src = pairOf (quads s c a b l) 0 ∧ x.len = (opArg (quads s c a b l) 4).toNat ∧ x.pos = 0 ∧
          x.dst = .ring e (opArg (quads s c a b l) 2).toNat seg) ∧
    (m.getLsbD 1 = true → (lanesOf c.act).length ≤ (freeHeld tm).length →
      Completes (exec (.cpyr d a b m) s) fun t => (∃ o, copiesPending t c m o) ∧ t.copies = s.copies ∧ t.engines = s.engines ∧
        ∃ tm', t.team? c.gr.team = some tm' ∧ ∀ k l, (lanesOf c.act)[k]? = some l →
          (tget tm'.held ((freeHeld tm).getD k 0)) = some (.cpyr c.g l c.gr.nextOp (pairOf (quads s c a b l) 0)
            (opArg (quads s c a b l) 2).toNat (opArg (quads s c a b l) 4).toNat (pairOf (quads s c a b l) 6) c.word)))) ∧
  ((∀ (s s' : State) (n : Nat) (x : Copy) (e : TlbEntry), CopyGoes s n x → x.pos < x.len → x.buf = [] → (s.ctx x.ctx).debug = none →
    (bytesOn x.src x.pos).toNat % 16 + nextUnit x ≤ 16 → copyHit s x (bytesOn x.src x.pos) e →
    unitFault s x e (bytesOn x.src x.pos) false = none →
    (match x.dst with
      | .mem va => ∃ w, lookup s (192 + x.engine) x.ctx (bytesOn va x.pos).toNat = some w ∧ farFrame s w (bytesOn va x.pos).toNat = false ∧
          w.w = true ∧ unitFault s x w (bytesOn va x.pos) true = none
      | .scratch t off => ∃ tm, s.team? t = some tm ∧ off % 4 = 0 ∧ off + x.len ≤ tm.scratchLen
      | .ring .. => True) →
    homeAccess s (192 + x.engine) (copyParty s x) e (bytesOn x.src x.pos).toNat false = .ok s' →
    (∀ k, k < nextUnit x → shadowed s e ((bytesOn x.src x.pos).toNat + k) = false ∧
      debugArea s (e.phys ((bytesOn x.src x.pos).toNat + k)) = false) →
    Completes (exec (.copyUnit n) s) fun t => t.mem = s.mem ∧
      t.copy? n = some { x with buf := (List.range (nextUnit x)).map fun k => mget s.mem (e.phys (bytesOn x.src x.pos).toNat + k) }) ∧
  (∀ (s s' : State) (n : Nat) (x : Copy) (va : VA) (e : TlbEntry), CopyGoes s n x → MemoriesOk s → x.pos < x.len → x.buf.length = nextUnit x →
    x.dst = .mem va → copyHit s x (bytesOn va x.pos) e → e.w = true →
    homeAccess s (192 + x.engine) (copyParty s x) e (bytesOn va x.pos).toNat true = .ok s' →
    Completes (exec (.copyUnit n) s) fun t => stored s.mem t.mem (e.phys (bytesOn va x.pos).toNat) x.buf ∧
      t.copy? n = some { x with pos := x.pos + nextUnit x, buf := [], skipCmp := [] }) ∧
  (∀ (s : State) (n : Nat) (x : Copy) (tm off : Nat) (w : Team), CopyGoes s n x → x.pos < x.len → x.buf.length = nextUnit x →
    x.dst = .scratch tm off → s.team? tm = some w → Completes (exec (.copyUnit n) s) fun t => t.mem = s.mem ∧
      (∃ w', t.team? tm = some w' ∧ ∀ k, k < nextUnit x → (tget w'.scratch (off + x.pos + k)).getD 0 = x.buf.getD k 0) ∧
      t.copy? n = some { x with pos := x.pos + nextUnit x, buf := [], skipCmp := [] }) ∧
  (∀ (s : State) (n : Nat) (x : Copy), CopyGoes s n x → x.len ≤ x.pos → x.bar = 0 → statusOnChip s x →
    Completes (exec (.copyComplete n) s) fun t =>
      (tsorted s.copies = true → t.copy? n = none) ∧ ∀ g o l gr op, x.origin = .lane g o l → g < 12288 → s.group? g = some gr →
        gr.ops.find? (·.id == o) = some op → ∃ gr' op', t.group? g = some gr' ∧ gr'.ops.find? (·.id == o) = some op' ∧
          op'.copies = op.copies - 1 ∧ ∀ rows, op.dest = [rows] → l < 32 → residentRef gr l (lane rows l) = true →
            lane rows l ≠ .nowhere →
            (rowAt gr' (lane rows l)).get l = BitVec.ofNat 32 (2 ^ 31 + x.len % 2 ^ 24 +
              2 ^ 28 * if x.len = 0 then 2 else match x.dst with
                | .mem va => if x.src.toNat < va.toNat + x.len ∧ va.toNat < x.src.toNat + x.len then 1 else 0
                | _ => 0)) ∧
  (∀ (s s' : State) (n : Nat) (x : Copy) (e : TlbEntry) (w : BarWords), CopyGoes s n x → MemoriesOk s → x.len ≤ x.pos → x.bar ≠ 0 →
    statusOnChip s x → (s.ctx x.ctx).debug = none → copyHit s x x.bar e → e.w = true →
    homeAccess s (192 + x.engine) (copyParty s x) e x.bar.toNat true true = .ok s' → poisonAt s e x.bar.toNat = none →
    (∀ k, k < 16 → shadowed s e (x.bar.toNat + k) = false ∧ debugArea s (e.phys (x.bar.toNat + k)) = false) →
    barUpdated (barWordsAt s.mem (e.phys x.bar.toNat)) 0 (-(x.len : Int)) = some w →
    Completes (exec (.copyComplete n) s) fun t =>
      (rowsStay s t → barWordsAt t.mem (e.phys x.bar.toNat) = w) ∧
      (tsorted s.copies = true → t.copy? n = none)))

/-! ## Queues, tasks and bins -/

namespace Sys2Proof.Claims

/-- A queue after one of its ends has been closed with QCLOSE (Table 5-4). -/
def closedEnd (q : QueueInst) (producer : Bool) : QueueInst :=
  if producer = false then { q with consumers := q.consumers - 1 }
  else if q.producers - 1 ≠ 0 ∨ (q.state ≠ .bound ∧ q.state ≠ .open_) then { q with producers := q.producers - 1 }
  else { q with producers := q.producers - 1
                state := if q.lost then .open_ else if q.entries = [] then .closed else .draining }

/-- The status word of QTRY for an empty queue (Table 5-8). -/
def emptyStatus (q : QueueInst) : Word :=
  if q.state = .closed ∨ q.state = .draining then 2
  else if q.state = .orphaned then 3 else if q.producers = 0 ∧ q.lost = true then 3 else 0

/-- The active lanes below `l` in ascending order. -/
def lanesBelow (c : Ctl) (l : Nat) : List Nat := (lanesOf c.act).filter (· < l)

end Sys2Proof.Claims

/-- R132 to R135, R425: QBIND of a free port to an end that the launch's queue table gives the team's stage binds it: the
port names the instance, which counts one more end; any other identity is queue misuse with VALUE the identity. QCLOSE frees
the port and closes its end; an unbound port is queue misuse. QSTAT gives the word of Table 5-9. QTRY pops the oldest entry
with status 1, or with none gives 0 and the status of Table 5-8. R137: with m = 0 a bin counts up by vb, with m = 1 it is set
to vb; a lane receives what the lanes below it left in its bin. R138: a BINPATCH with m = 1 gives each held command that a
lane names, and that no other lane names, the length its bin holds, shifted; with m = 0 it releases the commands, here
copies, which start with that length; one that names no held command is queue misuse, VALUE the place in the list. The
readings and choices of the model behind it: log entries 30, 64. -/
def Obligations.QueueAndBinInstructions : Prop :=
  ((∀ (d a : Reg) (m : BitVec 3) (s : State) (c : Ctl) (tm : Team) (k : Launch) (q : QDesc), wellFormed c.gr.enc (.qbind d a m) = true →
    Runs s c [(a, 1)] 127 → s.team? c.gr.team = some tm → tm.task = false → s.launch? tm.launch = some k →
    let id := opArg (operands s c [(a, 1)] (lowest c.act)) 0
    let idx := id.toNat / 2 ^ 24 % 32
    k.qtab[idx]? = some q → q.kind = id.toNat / 2 ^ 29 → q.kind = 3 ∨ q.kind = 4 → id.toNat % 2 ^ 24 < instancesOf s k q →
    (if m = 1 then q.pstage else q.cstage) = tm.stage → ¬ (m = 1 ∧ q.kind = 4) → portOf c.gr d = none →
    (∀ n, findQueue s tm.launch idx (id.toNat % 2 ^ 24) = some n → ∃ x, s.queue? n = some x ∧
      x.state ≠ .draining ∧ x.state ≠ .closed ∧ x.state ≠ .orphaned ∧ x.launch = tm.launch ∧ x.index = idx ∧ x.inst = id.toNat % 2 ^ 24) →
    Completes (exec (.qbind d a m) s) fun t => goesOnAfter t c ∧ ∃ gr n x, t.group? c.g = some gr ∧
      portOf gr d = some ⟨n, id, m == 1⟩ ∧ t.queue? n = some x ∧ x.launch = tm.launch ∧ x.index = idx ∧
      x.inst = id.toNat % 2 ^ 24 ∧ 1 ≤ (if m = 1 then x.producers else x.consumers)) ∧
  (∀ (d a : Reg) (m : BitVec 3) (s : State) (c : Ctl) (tm : Team), wellFormed c.gr.enc (.qbind d a m) = true →
    Runs s c [(a, 1)] 127 → s.team? c.gr.team = some tm → tm.task = true ∨ portOf c.gr d ≠ none →
    Completes (exec (.qbind d a m) s) fun t => ∃ gr, t.group? c.g = some gr ∧ gr.phase = .stopped ∧
      gr.fault = some ⟨0x26, c.act, (opArg (operands s c [(a, 1)] (lowest c.act)) 0).setWidth 64, c.word⟩) ∧
  (∀ (a : Reg) (s : State) (c : Ctl) (p : Port) (q : QueueInst), wellFormed c.gr.enc (.qclose a) = true → Runs s c [] 127 →
    portOf c.gr a = some p → s.queue? p.inst = some q → Completes (exec (.qclose a) s) fun t =>
      (t.queue? p.inst = some (closedEnd q p.producer) ∨
        t.queue? p.inst = some { closedEnd q p.producer with state := .orphaned }) ∧
      (∃ gr, t.group? c.g = some gr ∧ portOf gr a = none) ∧
      ((∀ h gr l w, s.group? h = some gr → (lane gr.threads l).live = true → (lane gr.threads l).wait ≠ .port w) →
        goesOnAfter t c ∧ t.queue? p.inst = some (closedEnd q p.producer))) ∧
  (∀ (a : Reg) (s : State) (c : Ctl), wellFormed c.gr.enc (.qclose a) = true → Runs s c [] 127 → portOf c.gr a = none →
    Completes (exec (.qclose a) s) fun t => ∃ gr, t.group? c.g = some gr ∧ gr.phase = .stopped ∧
      gr.fault = some ⟨0x26, c.act, BitVec.ofNat 64 (0xE0000000 + a.toNat), c.word⟩) ∧
  (∀ (d a : Reg) (s : State) (c : Ctl), wellFormed c.gr.enc (.qstat d a) = true → Runs s c [] d →
    Completes (exec (.qstat d a) s) fun t => Received t c d fun _ => match (portOf c.gr a).map fun p => (p, s.queue? p.inst) with
      | some (p, some q) => BitVec.ofNat 32 ((match q.state with
          | .unbound => 0
          | .bound => 1
          | .open_ => 2
          | .draining => 3
          | .closed => 4
          | .orphaned => 5) * 2 ^ 29 + p.producer.toNat * 2 ^ 28 + q.lost.toNat * 2 ^ 27 + q.desc.uni.toNat * 2 ^ 26
          + q.entries.length * 2 ^ 13 + 2 ^ q.desc.depth)
      | _ => BitVec.ofNat 32 (7 * 2 ^ 29)) ∧
  (∀ (d a : Reg) (s : State) (c : Ctl) (p : Port) (q : QueueInst), wellFormed c.gr.enc (.qtry d a) = true →
    Reaches s c [] d (namesOf d 2) → pairApart c → portOf c.gr a = some p → p.producer = false → orderedOut c.gr = false →
    s.queue? p.inst = some q → Completes (exec (.qtry d a) s) fun t =>
      (t.queue? p.inst).map (·.entries) = some (q.entries.drop 1) ∧ (d.toNat < 120 → ∀ l, l < 32 → has c.act l = true →
        nameIn t c d.toNat l = (match q.entries with
          | [] => 0
          | e :: _ => if q.desc.uni then e.headD 0 else e.getD l 0) ∧
        nameIn t c (d.toNat + 1) l = if q.entries = [] then emptyStatus q else 1))) ∧
  ((∀ (d a b : Reg) (m : BitVec 3) (s : State) (c : Ctl) (tm : Team), wellFormed c.gr.enc (.bincnt d a b m) = true →
    Runs s c [(a, 1), (b, 1)] d → s.team? c.gr.team = some tm →
    let bin (l : Nat) : Nat := (opArg (operands s c [(a, 1), (b, 1)] l) 0).toNat % 256
    let val (l : Nat) : Word := opArg (operands s c [(a, 1), (b, 1)] l) 1
    let run (ls : List Nat) (n : Nat) : Word :=
      ls.foldl (fun w l => if bin l = n then (if m = 1 then val l else w + val l) else w) ((tget tm.bins n).getD 0)
    Completes (exec (.bincnt d a b m) s) fun t => Received t c d (fun l => run (lanesBelow c l) (bin l)) ∧
      ∃ tm', t.team? c.gr.team = some tm' ∧ ∀ n, (tget tm'.bins n).getD 0 = run (lanesOf c.act) n) ∧
  (∀ (a b : Reg) (s : State) (c : Ctl) (tm : Team), wellFormed c.gr.enc (.binpatch a b 1) = true →
    Runs s c [(a, 1), (b, 1)] 127 → s.team? c.gr.team = some tm → (∀ e, (s.engine e).queue.length ≤ 256) →
    let w (l : Nat) : Nat := (opArg (operands s c [(a, 1), (b, 1)] l) 1).toNat
    let n (l : Nat) : Word := BitVec.ofNat 32
      (((tget tm.bins ((opArg (operands s c [(a, 1), (b, 1)] l) 0).toNat % 256)).getD 0).toNat * 2 ^ (w l / 256 % 32))
    (∀ l, l < 32 → has c.act l = true → w l < 2 ^ 13 ∧ (tget tm.held (w l % 256)).isSome = true) →
    Completes (exec (.binpatch a b 1) s) fun t => goesOnAfter t c ∧ ∃ tm', t.team? c.gr.team = some tm' ∧
      ∀ l h, l < 32 → has c.act l = true → (∀ k, k < 32 → has c.act k = true → k ≠ l → w k % 256 ≠ w l % 256) →
        tget tm.held (w l % 256) = some h → tget tm'.held (w l % 256) = some (match h with
          | .cpy g i o sr ds sp _ bar x => .cpy g i o sr ds sp (n l).toNat bar x
          | .cpyr g i o sr r _ bar x => .cpyr g i o sr r (n l).toNat bar x
          | .mma f k tab x => .mma f (BitVec.ofNat 32 (k.toNat % 2 ^ 8 + (n l).toNat % 2 ^ 16 * 2 ^ 8 + k.toNat / 2 ^ 24 * 2 ^ 24)) tab x)) ∧
  (∀ (a b : Reg) (s : State) (c : Ctl) (tm : Team), wellFormed c.gr.enc (.binpatch a b 0) = true →
    Runs s c [(a, 1), (b, 1)] 127 → s.team? c.gr.team = some tm → (∀ e, (s.engine e).queue.length ≤ 256) → tsorted tm.held = true →
    (lanesOf c.act).length ≤ (copyPlaces s c.gr.ctx (dieOfGroup c.g) (lanesOf c.act).length).length →
    let w (l : Nat) : Nat := (opArg (operands s c [(a, 1), (b, 1)] l) 1).toNat
    let n (l : Nat) : Word := BitVec.ofNat 32
      (((tget tm.bins ((opArg (operands s c [(a, 1), (b, 1)] l) 0).toNat % 256)).getD 0).toNat * 2 ^ (w l / 256 % 32))
    (∀ l, l < 32 → has c.act l = true → w l < 2 ^ 13 ∧ ∃ g i o sr ds sp k bar x, tget tm.held (w l % 256) = some (.cpy g i o sr ds sp k bar x)) →
    (∀ l k, l < 32 → k < 32 → has c.act l = true → has c.act k = true → l ≠ k → w l % 256 ≠ w k % 256) →
    Completes (exec (.binpatch a b 0) s) fun t => goesOnAfter t c ∧ ∃ tm', t.team? c.gr.team = some tm' ∧
      ∀ l g i o sr ds sp k bar x, l < 32 → has c.act l = true → tget tm.held (w l % 256) = some (.cpy g i o sr ds sp k bar x) →
        tget tm'.held (w l % 256) = none ∧ ∃ z y, t.copy? z = some y ∧ y.origin = .lane g o i ∧ y.src = sr ∧
          y.len = (n l).toNat ∧ y.bar = bar ∧ y.pos = 0) ∧
  (∀ (a b : Reg) (m : BitVec 3) (s : State) (c : Ctl) (tm : Team) (l : Nat), wellFormed c.gr.enc (.binpatch a b m) = true →
    Runs s c [(a, 1), (b, 1)] 127 → s.team? c.gr.team = some tm → l < 32 → has c.act l = true →
    let w (l : Nat) : Nat := (opArg (operands s c [(a, 1), (b, 1)] l) 1).toNat
    2 ^ 13 ≤ w l ∨ tget tm.held (w l % 256) = none →
    (∀ k, k < l → has c.act k = true → m = 1 ∧ w k < 2 ^ 13 ∧ (tget tm.held (w k % 256)).isSome = true) →
    Completes (exec (.binpatch a b m) s) fun t => ∃ gr f, t.group? c.g = some gr ∧ gr.phase = .stopped ∧ gr.fault = some f ∧
      f.cause = 0x26 ∧ f.value = BitVec.ofNat 64 (0xE0000100 + w l % 256) ∧ has f.flanes l = true ∧ t.teams = s.teams))

/-! ## Matrix engines -/

namespace Sys2Proof.Claims

/-- A matrix instruction of all live threads of a team whose coordinate has engine `e` (R324, R330): it is in progress, its
names and ports are ready, nothing ordered is outstanding and the engine's queue has room. -/
structure EngineReady (s : State) (c : Ctl) (fs : List Src) (d : Reg) (tm : Team) (e : Nat) : Prop extends InProgress s c where
  names : namesReady c (allNames fs d)
  ports : portsReady s c fs 127
  whole : c.act = liveMask c.gr
  team : s.team? c.gr.team = some tm
  engine : teamEngine s tm = .ok e
  idle : orderedOut c.gr = false
  room : (s.engine e).queue.length < 256

/-- Every active lane votes as the lowest one (R324). -/
def votesAgree (s : State) (c : Ctl) (fs : List Src) : Prop :=
  ∀ l, l < 32 → has c.act l = true → operands s c fs l = operands s c fs (lowest c.act)

/-- The engine's queue has command `k` as its newest. -/
def appended (s t : State) (e : Nat) (k : EngCmd) : Prop := (t.engine e).queue = (s.engine e).queue ++ [k]

/-- What a group's image gives as the format word of an MMA under N1 and N2 (Table 6-3). -/
def imageFormat (s : State) (c : Ctl) : Word :=
  match s.image? c.gr.ctx c.gr.image with
  | some im => im.mmafmt
  | none => 0

/-- The collective matrix instructions with their source fields and destination, and whether their operands are voted: those
of an MMA under N3 alone (R324, Table 6-3). -/
def collectiveForm (enc : Nat) : Instr → Option (List Src × Reg × Bool)
  | .mma a b _ => some ([(a, 1), (b, 1)], 127, enc == 3)
  | .mdrain d a b _ => some ([(a, 4), (b, 1)], d, true)
  | .mzero b => some ([(b, 1)], 127, true)
  | _ => none

end Sys2Proof.Claims

/-- R324, R335 to R337: MMA, MDRAIN and MZERO of all live threads with equal votes append one command to the coordinate's
engine queue: its kind, its words, and for MDRAIN its addresses and the operation that waits for its status. An MMA with m[0]
goes to the lowest free place of the held list and the queue stays as it is. Issued by some of the live threads each is trap
0x05, and with votes that differ trap 0x04, TVAL the lanes that differ from the lowest. The readings and choices of the model
behind it: log entry 32. -/
def Obligations.MatrixInstructionsQueueCommands : Prop :=
  (∀ (a b : Reg) (m : BitVec 3) (s : State) (c : Ctl) (tm : Team) (e : Nat), wellFormed c.gr.enc (.mma a b m) = true →
    EngineReady s c [(a, 1), (b, 1)] 127 tm e → (c.gr.enc = 3 → votesAgree s c [(a, 1), (b, 1)]) →
    let v := operands s c [(a, 1), (b, 1)] (lowest c.act)
    let f := if c.gr.enc = 3 then opArg v 0 else imageFormat s c
    (m = 0 → Completes (exec (.mma a b m) s) fun t => goesOnAfter t c ∧ appended s t e
      { kind := 1, fmt := f, ctl := opArg v 1, dest := 0, bar := 0, status := none, team := c.gr.team
        table := c.iss.voted.getD (compandTable (s.ctx c.gr.ctx)), word := c.word, seq := none, skipCmp := [] }) ∧
    (∀ n ns, m = 1 → freeHeld tm = n :: ns → Completes (exec (.mma a b m) s) fun t => goesOnAfter t c ∧ t.engines = s.engines ∧
      ∃ tm', t.team? c.gr.team = some tm' ∧ tget tm'.held n = some (.mma f (opArg v 1) (c.iss.voted.getD (compandTable (s.ctx c.gr.ctx))) c.word))) ∧
  (∀ (d a b : Reg) (m : BitVec 3) (s : State) (c : Ctl) (tm : Team) (e : Nat), wellFormed c.gr.enc (.mdrain d a b m) = true →
    EngineReady s c [(a, 4), (b, 1)] d tm e → votesAgree s c [(a, 4), (b, 1)] →
    flagFull c.gr (if m.getLsbD 0 then c.hd.fb else c.hd.fa) = false →
    let v := operands s c [(a, 4), (b, 1)] (lowest c.act)
    Completes (exec (.mdrain d a b m) s) fun t => goesOnAfter t c ∧ appended s t e
      { kind := 2, fmt := 0, ctl := opArg v 4, dest := BitVec.ofNat 64 ((opArg v 1).toNat * 2 ^ 32 + (opArg v 0).toNat), bar := pairOf v 2, status := some (c.g, c.gr.nextOp)
        team := c.gr.team, table := [], word := c.word, seq := none, skipCmp := [] } ∧
      ∃ gr o, t.group? c.g = some gr ∧ gr.ops = c.gr.ops ++ [o] ∧ o.id = c.gr.nextOp ∧ o.drain = true ∧ o.lanes = c.act ∧
        o.flag = if m.getLsbD 0 then c.hd.fb else c.hd.fa) ∧
  (∀ (b : Reg) (s : State) (c : Ctl) (tm : Team) (e : Nat), wellFormed c.gr.enc (.mzero b) = true →
    EngineReady s c [(b, 1)] 127 tm e → votesAgree s c [(b, 1)] →
    Completes (exec (.mzero b) s) fun t => goesOnAfter t c ∧ appended s t e
      { kind := 3, fmt := 0, ctl := opArg (operands s c [(b, 1)] (lowest c.act)) 0, dest := 0, bar := 0, status := none
        team := c.gr.team, table := [], word := c.word, seq := none, skipCmp := [] }) ∧
  (∀ (i : Instr) (fs : List Src) (d : Reg) (votes : Bool) (s : State) (c : Ctl) (tm : Team) (e : Nat),
    collectiveForm c.gr.enc i = some (fs, d, votes) → wellFormed c.gr.enc i = true → InProgress s c → namesReady c (allNames fs d) →
    portsReady s c fs 127 → trapVector s c.gr ≠ 0 → (∀ l, l < 32 → has c.act l = true → (c.thread l).inHandler = false) →
    (c.act ≠ liveMask c.gr → Completes (exec i s) fun t => ∀ l, l < 32 → has c.act l = true → (threadIn t c l).inHandler = true ∧
      (threadIn t c l).tcause = 0x05) ∧
    (c.act = liveMask c.gr → s.team? c.gr.team = some tm → teamEngine s tm = .ok e → votes = true → ¬ votesAgree s c fs →
      Completes (exec i s) fun t => ∀ l, l < 32 → has c.act l = true → (threadIn t c l).inHandler = true ∧
        (threadIn t c l).tcause = 0x04 ∧ ∀ j, j < 64 → ((threadIn t c l).tval.getLsbD j = true ↔
          j < 32 ∧ has c.act j = true ∧ operands s c fs j ≠ operands s c fs (lowest c.act))))

/-- R330, R338: MRESTART sets the team's label to the address of its pair, or clears it with 0; an address that is not a
multiple of 4 faults with 0x24, and one that is not 0 and not in the code of the group's image with 0x23. R316, R319, R339:
RINGSET of a ring that no command in the queue names and that holds no reservation, while the die's 2,048 units suffice,
gives the ring its capacity in units of 64 KiB and returns 0; of a ring in use it returns 2 and without enough units 1, and
changes no ring. A capacity above 128 or a bit outside Table 14-11 is fault 0x20. -/
def Obligations.RestartLabelsAndRings : Prop :=
  (∀ (a : Reg) (s : State) (c : Ctl) (tm : Team) (im : Image), wellFormed c.gr.enc (.mrestart a) = true → Runs s c [(a, 2)] 127 →
    s.team? c.gr.team = some tm → s.image? c.gr.ctx c.gr.image = some im →
    let v := pairOf (operands s c [(a, 2)] (lowest c.act)) 0
    let inside : Prop := im.base.toNat + im.codeoff ≤ v.toNat ∧ v.toNat < im.base.toNat + im.codeoff + im.codesize
    (v.toNat % 4 = 0 → v = 0 ∨ inside → Completes (exec (.mrestart a) s) fun t => goesOnAfter t c ∧
      ∃ tm', t.team? c.gr.team = some tm' ∧ tm'.label = (if v = 0 then none else some v) ∧ tm'.engineTeam = true) ∧
    (v.toNat % 4 ≠ 0 ∨ v ≠ 0 ∧ ¬ inside → Completes (exec (.mrestart a) s) fun t => ∃ gr f, t.group? c.g = some gr ∧
      gr.phase = .stopped ∧ gr.fault = some f ∧ f.cause = (if v.toNat % 4 ≠ 0 then 0x24 else 0x23) ∧ f.value = v.setWidth 64 ∧
      t.teams = s.teams)) ∧
  (∀ (d a : Reg) (s : State) (c : Ctl) (tm : Team) (e : Nat), wellFormed c.gr.enc (.ringset d a) = true → Runs s c [(a, 1)] d →
    s.team? c.gr.team = some tm → teamEngine s tm = .ok e →
    let w := (opArg (operands s c [(a, 1)] (lowest c.act)) 0).toNat
    let r := w % 8
    let u := w / 256 % 256
    let old := match (s.engine e).ring r with
      | some g => g.units
      | none => 0
    let busy : Prop := ringNamed (s.engine e) r = true ∨ ∃ g, (s.engine e).ring r = some g ∧ g.segs ≠ []
    (w / 8 % 32 = 0 → w / 2 ^ 16 = 0 → u ≤ 128 →
      (u ≠ old → ¬ busy → unitsUsed s e - old + u ≤ 2048 → Completes (exec (.ringset d a) s) fun t => Received t c d (fun _ => 0) ∧
        ((t.engine e).ring r).map (·.units) = (if u = 0 then none else some u)) ∧
      (u ≠ old → busy → Completes (exec (.ringset d a) s) fun t => Received t c d (fun _ => 2) ∧ t.engines = s.engines) ∧
      (u ≠ old → ¬ busy → 2048 < unitsUsed s e - old + u → Completes (exec (.ringset d a) s) fun t =>
        Received t c d (fun _ => 1) ∧ t.engines = s.engines)) ∧
    (w / 8 % 32 ≠ 0 ∨ w / 2 ^ 16 ≠ 0 ∨ 128 < u → Completes (exec (.ringset d a) s) fun t => ∃ gr f, t.group? c.g = some gr ∧
      gr.phase = .stopped ∧ gr.fault = some f ∧ f.cause = 0x20 ∧ t.engines = s.engines))

namespace Sys2Proof.Claims

/-- The engine has command `k` of team `tm` at its head, and the context lets engines go on, no halt line being asserted
(R92, R97). -/
structure EngineGoes (s : State) (e : Nat) (k : EngCmd) (tm : Team) : Prop where
  head : ∃ ks, (s.engine e).queue = k :: ks
  team : s.team? k.team = some tm
  context : (s.ctx tm.ctx).state = .running ∨ (s.ctx tm.ctx).state = .saving ∨ (s.ctx tm.ctx).state = .restoring ∨
    (s.ctx tm.ctx).state = .halting
  line : lineAsserted s tm.ctx = false

/-- Bytes of a panel of elements of `w` bits (Table 14-4). -/
def panelBytes (w spar : Nat) (scaled : Bool) : Nat :=
  (if spar = 1 then 256 * w + 512 else if spar = 2 then 128 * w + 512 else 512 * w) + if scaled then 128 else 0

/-- Bits of an element of a format code (Table 3-1). -/
def codeBits (code : Nat) : Nat := if code ≤ 2 then 16 else if code = 5 ∨ code = 8 then 4 else 8

/-- Bytes of the A and the B panel of an MMA (Tables 14-4 and 14-5). -/
def panelsOf (k : EngCmd) : Nat × Nat :=
  (panelBytes (codeBits (k.fmt.toNat % 16)) (k.fmt.toNat / 2 ^ 12 % 16) (k.fmt.getLsbD 24),
    panelBytes (codeBits (k.fmt.toNat / 16 % 16)) 0 (k.fmt.getLsbD 25))

/-- KB, RA and RB of an MMA (Table 14-6). -/
def extentOf (k : EngCmd) : Nat := k.ctl.toNat / 2 ^ 8 % 2 ^ 16

def ringA (k : EngCmd) : Nat := k.ctl.toNat / 4 % 8

def ringB (k : EngCmd) : Nat := k.ctl.toNat / 32 % 8

/-- Bytes that an MMA takes from ring `r` (R320). -/
def takenFrom (k : EngCmd) (r : Nat) : Nat :=
  extentOf k * ((if ringA k = r then (panelsOf k).1 else 0) + if ringB k = r then (panelsOf k).2 else 0)

/-- The bytes of a ring from its head on. -/
def fromHead (r : Ring) : List Byte := (r.segs.flatMap (·.data)).drop r.taken

/-- The complete reservations at a ring's head hold `n` bytes past it, and no reservation holds more bytes than it reserves.
-/
structure RingHolds (r : Ring) (n : Nat) : Prop where
  covered : r.taken + n ≤ completeBytes r.segs
  within : ∀ g ∈ r.segs, g.data.length ≤ g.len

/-- Element `n` of integer format code 6 (INT8), 7 (UINT8) or 8 (INT4) of packed bytes (R58, R59). -/
def integerAt (b : List Byte) (code n : Nat) : Int :=
  if code = 8 then
    let v := (b.getD (n / 2) 0).toNat / 16 ^ (n % 2) % 16
    if v < 8 then v else (v : Int) - 16
  else if code = 7 then (b.getD n 0).toNat else (b.getD n 0).toInt

end Sys2Proof.Claims

/-- R315, R318, R325 to R328, R337, R144: an idle engine takes its head command, which has no fault, and waits; a command
taken for the first time raises SEQ by one and bears that number. A waiting command whose ring bytes and queue space are
there runs. A running MZERO that is complete zeroes its tile, or with bit 2 all tiles, and with bit 3 the sticky bits; it
leaves the queue and the engine is idle. A running MMA takes the bytes of Table 14-4 from the heads of its rings and does the
same: every word of its tile becomes the sum of R80 or R81 over its operand bytes, with ACC 1 and dense operands of two rings
the old word plus every product, modulo 2^32; no other tile changes, ESTAT keeps its bits, and with TOK a token is pushed. An
MDRAIN to memory writes its next chunk of 16 bytes, and after the last one the status word of Table 14-9 reaches the
operation that waits. An idle engine with an empty queue whose coordinate's teams have all retired is released, unless a halt
is to stop it. The readings and choices of the model behind it: log entries 32, 80, 109. -/
def Obligations.EngineEvents : Prop :=
  (∀ (s : State) (e : Nat) (k : EngCmd) (tm : Team), EngineGoes s e k tm → (s.engine e).state = .idle →
    (s.ctx tm.ctx).debug = none → takeFault s e k tm = none → Completes (exec (.engineTakeCommand e) s) fun t =>
      (t.engine e).state = .waiting ∧ (t.engine e).seq = (s.engine e).seq + (if k.seq = none then 1 else 0) ∧
      (t.engine e).queue.head?.map (·.seq) = some (some (k.seq.getD ((s.engine e).seq + 1)))) ∧
  (∀ (s : State) (e : Nat) (k : EngCmd) (tm : Team) (f : BitVec 8) (v : BitVec 64) (w : Word), EngineGoes s e k tm →
    (s.engine e).state = .idle → takeFault s e k tm = some (f, v, w) → Completes (exec (.engineTakeCommand e) s) fun t =>
      (t.engine e).state = .stopped ∧ (t.engine e).fault = some ⟨f, 0, v, w⟩) ∧
  (∀ (s : State) (e : Nat) (k : EngCmd) (tm : Team), EngineGoes s e k tm → (s.engine e).state = .waiting →
    underrunValue s e = none → (∀ p ∈ k.needs, ∃ r, (s.engine e).ring p.1 = some r ∧ p.2 ≤ r.frontier) →
    ((s.engine e).maskChecked = true ∨ k.kind ≠ 1 ∨ badMask (s.engine e) k = none) → queueRoom s tm k = .ready →
    Completes (exec (.engineCommandStart e) s) fun t => (t.engine e).state = .running ∧ (t.engine e).queue = (s.engine e).queue) ∧
  (∀ (s s' : State) (e : Nat) (k : EngCmd) (tm : Team) (x : TlbEntry), EngineGoes s e k tm → MemoriesOk s → (s.engine e).state = .running →
    k.kind = 2 → k.ctl.getLsbD 2 = false → (s.engine e).drainPos < 4096 →
    let n := (s.engine e).drainPos
    let va := bytesOn (k.dest.setWidth 57) (16 * (k.ctl.toNat / 2 ^ 12) * (n / 32) + 16 * (n % 32))
    lookup s (224 + e) tm.ctx va.toNat = some x → x.w = true → x.host = false → x.rmt = none → farFrame s x va.toNat = false →
    homeAccess s (224 + e) (engineParty s e tm) x va.toNat true = .ok s' →
    Completes (exec (.engineCommandStart e) s) fun t => (t.engine e).drainPos = n + 1 ∧
      stored s.mem t.mem (x.phys va.toNat) ((List.range 16).map fun i =>
        BitVec.ofNat 8 ((tileWord (s.engine e) (k.ctl.toNat % 4) (n / 32) (4 * (n % 32) + i / 4)).toNat / 2 ^ (8 * (i % 4))))) ∧
  (∀ (s : State) (e : Nat) (k : EngCmd) (tm : Team), EngineGoes s e k tm → (s.engine e).state = .running → k.kind = 3 →
    Completes (exec (.engineCommandComplete e) s) fun t => (t.engine e).state = .idle ∧
      (t.engine e).queue = (s.engine e).queue.drop 1 ∧ (t.engine e).estat = (if k.ctl.getLsbD 3 then 0 else (s.engine e).estat) ∧
      ∀ n i j, n < 4 → i < 128 → j < 128 → tileWord (t.engine e) n i j =
        if k.ctl.getLsbD 2 ∨ n = k.ctl.toNat % 4 then 0 else tileWord (s.engine e) n i j) ∧
  (∀ (s : State) (e : Nat) (k : EngCmd) (tm : Team), EngineGoes s e k tm → (s.engine e).state = .running → k.kind = 1 →
    badField s tm k = none → tsorted (s.engine e).tiles = true →
    (∀ r g, r = ringA k ∨ r = ringB k → (s.engine e).ring r = some g → RingHolds g (takenFrom k r)) →
    let tile := k.ctl.toNat % 4
    Completes (exec (.engineCommandComplete e) s) fun t => (t.engine e).state = .idle ∧
      (t.engine e).queue = (s.engine e).queue.drop 1 ∧ (t.engine e).seq = (s.engine e).seq ∧
      (∀ r g, r < 8 → (s.engine e).ring r = some g → ∃ g', (t.engine e).ring r = some g' ∧ g'.units = g.units ∧
        fromHead g' = (fromHead g).drop (takenFrom k r) ∧ g'.used + takenFrom k r = g.used) ∧
      (∀ n i j, n < 4 → i < 128 → j < 128 → tileWord (t.engine e) n i j = if n = tile
        then (mmaWord (s.engine e) k (operandBytes (s.engine e) k).1 (operandBytes (s.engine e) k).2 i j).1
        else tileWord (s.engine e) n i j) ∧
      (∀ b, (s.engine e).estat.getLsbD b = true → (t.engine e).estat.getLsbD b = true) ∧
      (∀ ra rb i j, i < 128 → j < 128 → ringA k ≠ ringB k → (s.engine e).ring (ringA k) = some ra → (s.engine e).ring (ringB k) = some rb →
        k.fmt.toNat / 2 ^ 8 % 16 = 1 → k.fmt.toNat / 2 ^ 12 % 16 = 0 →
        tileWord (t.engine e) tile i j = BitVec.ofInt 32 ((tileWord (s.engine e) tile i j).toInt +
          ((List.range (32 * extentOf k)).map fun n =>
            integerAt ((fromHead ra).drop (n / 32 * (panelsOf k).1)) (k.fmt.toNat % 16) (32 * i + n % 32) *
            integerAt ((fromHead rb).drop (n / 32 * (panelsOf k).2)) (k.fmt.toNat / 16 % 16) (32 * j + n % 32)).sum)) ∧
      (k.ctl.getLsbD 29 = false → t.queues = s.queues) ∧
      ∀ q x, k.ctl.getLsbD 29 = true → cmdQueue s tm (k.ctl.toNat / 2 ^ 24 % 32) = some (q, x) → (t.queue? q).map (·.entries) =
        some (x.entries ++ [[k.seq.getD 0, (t.engine e).estat.setWidth 32, BitVec.ofNat 32 tile] ++ List.replicate 29 0])) ∧
  (∀ (s : State) (e g o : Nat) (k : EngCmd) (tm : Team) (gr : Group) (op : Op), EngineGoes s e k tm → (s.engine e).state = .running →
    k.kind = 2 → (s.engine e).drainPos = k.events → k.bar = 0 → k.status = some (g, o) → s.group? g = some gr →
    gr.ops.find? (·.id == o) = some op → Completes (exec (.engineCommandComplete e) s) fun t => (t.engine e).state = .idle ∧
      ∃ gr' op', t.group? g = some gr' ∧ gr'.ops.find? (·.id == o) = some op' ∧ op'.drain = false ∧
        ∀ l, l < 32 → has op.lanes l = true → op'.value l 0 = BitVec.ofNat 32 (2 ^ 31 + (s.engine e).estat.toNat * 2 ^ 24 + 65536)) ∧
  (∀ (s : State) (e l i : Nat), (s.engine e).bound = some (l, i) → (s.engine e).state = .idle → (s.engine e).queue = [] →
    coordRetired s l i = true → (∀ k, s.launch? l = some k → lineAsserted s k.ctx = false) → Completes (exec (.engineRelease e) s) fun t => (t.engine e).bound = none ∧ (t.engine e).state = .unbound ∧
      ∀ r, r < 8 → (t.engine e).ring r = none)

/-! ## Streams -/

namespace Sys2Proof.Claims

/-- A group that holds a stream slot, on a core whose stream engine is not at work and has not been stopped by a halt (R345,
R350, R352), comes to a stream instruction with source fields `fs`, vector destination `d` and stream registers `qs`, none of
them pending (R351). -/
structure StreamReady (s : State) (c : Ctl) (fs : List Src) (d : Reg) (qs : List Reg) : Prop extends InProgress s c where
  names : namesReady c (allNames fs d)
  ports : portsReady s c fs 127
  loaded : ∀ l, has c.act l = true → ∀ q ∈ qs, pendingStream c.gr l q.toNat = false
  slot : c.gr.streamSlot = true
  free : (s.core (coreOf c.g)).streamBusy = false
  unstopped : streamRecorded s (coreOf c.g) c.gr.ctx = false

/-- Stream register `q` of a thread. -/
def streamOf (t : Thread) (q : Reg) : StreamReg := t.streams[q.toNat % 8]'(Nat.mod_lt _ (by decide))

/-- Fields of a tag (Table 15-1): length in bits, ancestry, polarity. -/
def lengthOf (n : Nat) : Nat := 256 * 2 ^ (n - 1)

def ancestry (r : StreamReg) : Nat := r.tag.toNat / 2 ^ 16 % 2 ^ 16

def lengthCode (r : StreamReg) : Nat := r.tag.toNat / 2 % 4

def validStream (r : StreamReg) : Bool := r.tag.getLsbD 0

def tagWord (code anc : Nat) (pol : Bool) : BitVec 64 := BitVec.ofNat 64 (1 + 2 * code + 8 * pol.toNat + 2 ^ 16 * anc)

/-- Ones among the bits of a stream. -/
def onesOf (r : StreamReg) : Nat := (List.range (lengthOf (lengthCode r))).countP r.data.getLsbD

/-- What a stream instruction writes to its stream register: the fields it reads, the stream registers it names, its
destination, whether its operands are legal in a thread, and the new register (R347, R354 to R359, R363). -/
abbrev StreamRule := List Src × List Reg × Reg × (List Word → Thread → Bool) × (List Word → Thread → StreamReg)

/-- Two streams that a product may combine: valid, of one length, with no common ancestor (R343, R349). -/
def combine (x y : StreamReg) : Bool := validStream x && validStream y && lengthCode x == lengthCode y && ancestry x &&& ancestry y == 0

def streamRule : Instr → Option StreamRule
  | .sgen d a b m => some ([(a, 1), (b, 2)], [d], d, (fun v _ => (opArg v 1).toNat < 64), fun v t =>
      let n := if (opArg v 1).toNat / 16 % 4 = 0 then t.dlen.toNat else (opArg v 1).toNat / 16 % 4
      ⟨tagWord n (2 ^ ((opArg v 1).toNat % 16)) (m.getLsbD 2), generate (m.toNat % 4) (opArg v 2).toNat (lengthOf n) (opArg v 0).toNat⟩)
  | .sregen d a b m => some ([(b, 2)], [a, d], d, (fun v t => (opArg v 0).toNat < 64 && validStream (streamOf t a)), fun v t =>
      let r := streamOf t a
      let n := if (opArg v 0).toNat / 16 % 4 = 0 then lengthCode r else (opArg v 0).toNat / 16 % 4
      ⟨tagWord n (2 ^ ((opArg v 0).toNat % 16)) (r.tag.getLsbD 3),
        generate (m.toNat % 4) (opArg v 1).toNat (lengthOf n) (onesOf r * 4096 / lengthOf (lengthCode r))⟩)
  | .sand d a b => some ([], [a, b, d], d, (fun _ t => combine (streamOf t a) (streamOf t b)), fun _ t =>
      let x := streamOf t a
      let y := streamOf t b
      ⟨tagWord (lengthCode x) (ancestry x ||| ancestry y) false,
        BitVec.ofNat 1024 ((x.data &&& y.data).toNat % 2 ^ lengthOf (lengthCode x))⟩)
  | .sxnor d a b => some ([], [a, b, d], d, (fun _ t => combine (streamOf t a) (streamOf t b)), fun _ t =>
      let x := streamOf t a
      let y := streamOf t b
      ⟨tagWord (lengthCode x) (ancestry x ||| ancestry y) true,
        BitVec.ofNat 1024 ((~~~(x.data ^^^ y.data)).toNat % 2 ^ lengthOf (lengthCode x))⟩)
  | .smux d a b => some ([], [a, b, d], d, (fun _ t =>
      let x := streamOf t a
      let y := streamOf t b
      let z := streamOf t d
      validStream x && validStream y && validStream z && lengthCode x == lengthCode z && lengthCode y == lengthCode z &&
        ancestry z &&& (ancestry x ||| ancestry y) == 0), fun _ t =>
      let x := streamOf t a
      let y := streamOf t b
      let z := streamOf t d
      ⟨tagWord (lengthCode x) (ancestry z ||| ancestry x ||| ancestry y) (x.tag.getLsbD 3), (z.data &&& y.data) ||| (~~~z.data &&& x.data)⟩)
  | .snot d a => some ([], [a, d], d, (fun _ t => validStream (streamOf t a)), fun _ t =>
      let x := streamOf t a
      ⟨x.tag, BitVec.ofNat 1024 ((~~~x.data).toNat % 2 ^ lengthOf (lengthCode x))⟩)
  | .smov d a => some ([], [a, d], d, (fun _ _ => true), fun _ t => streamOf t a)
  | _ => none

/-- The instructions that check their source streams: their vector fields and vector destination, the streams that must not
be pending, their sources in the order of R349, the ancestry that must be 0, their major, and the fields that TVALH reports.
-/
def streamChecks : Instr → Option (List Src × Reg × List Reg × List Reg × (List StreamReg → Nat) × Nat × Nat)
  | .sand d a b => some ([], 127, [a, b, d], [a, b], both, 0xC1, fields d a b)
  | .sxnor d a b => some ([], 127, [a, b, d], [a, b], both, 0xC2, fields d a b)
  | .smux d a b => some ([], 127, [a, b, d], [a, b, d],
      (fun r => ancestry (r.getD 2 .invalid) &&& (ancestry (r.getD 0 .invalid) ||| ancestry (r.getD 1 .invalid))), 0xC3, fields d a b)
  | .snot d a => some ([], 127, [a, d], [a], fun _ => 0, 0xC4, fields d a 0)
  | .scnt d a _ => some ([], d, [a], [a], fun _ => 0, 0xC5, fields 0 a 0)
  | .sregen d a b _ => some ([(b, 2)], 127, [a, d], [a], fun _ => 0, 0xC6, fields d a 0)
  | _ => none
where
  fields (d a b : Reg) : Nat := d.toNat * 2 ^ 8 + a.toNat * 2 ^ 12 + b.toNat * 2 ^ 16
  both (r : List StreamReg) : Nat := ancestry (r.getD 0 .invalid) &&& ancestry (r.getD 1 .invalid)

/-- The flag of a stream instruction of long latency. -/
def streamFlag (c : Ctl) : Instr → Option Nat
  | .scnt _ _ m | .sld _ _ m => if m.getLsbD 0 then c.hd.fb else c.hd.fa
  | _ => none

/-- The control words of SGEN and SREGEN have bits [31:6] zero in every active lane (R348). -/
def controlLegal (s : State) (c : Ctl) : Instr → Prop
  | .sgen _ a b _ => ∀ l, l < 32 → has c.act l = true → (opArg (operands s c [(a, 1), (b, 2)] l) 1).toNat < 64
  | .sregen _ _ b _ => ∀ l, l < 32 → has c.act l = true → (opArg (operands s c [(b, 2)] l) 0).toNat < 64
  | _ => True

/-- R349: cause and TVAL of the trap of a thread with these source streams. -/
def streamTrap (rs : List StreamReg) (overlap : Nat) : Option (BitVec 8 × Nat) :=
  if ∀ r ∈ rs, validStream r = true ∧ lengthCode r = lengthCode (rs.headD .invalid) then
    if overlap = 0 then none else some (0x06, overlap)
  else some (0x07, (rs.zipIdx.map fun p => (if validStream p.1 then lengthCode p.1 else 0) * 16 ^ p.2).sum)

/-- The instructions that acquire a slot: their vector fields, vector destination and stream registers (R345). -/
def streamUse : Instr → Option (List Src × Reg × List Reg)
  | .sgen d a b _ => some ([(a, 1), (b, 2)], 127, [d])
  | .sregen d a b _ => some ([(b, 2)], 127, [a, d])
  | .sand d a b => some ([], 127, [a, b, d])
  | .sxnor d a b => some ([], 127, [a, b, d])
  | .smux d a b => some ([], 127, [a, b, d])
  | .snot d a => some ([], 127, [a, d])
  | .smov d a => some ([], 127, [a, d])
  | .scnt d a _ => some ([], d, [a])
  | .sld d a _ => some ([(a, 2)], 127, [d])
  | .sst r a => some ([(a, 2)], 127, [r])
  | _ => none

end Sys2Proof.Claims

/-- R347, R354 to R359, R363: a stream instruction whose operands are legal in every active lane completes, with its stream
register as its rule gives it; every other stream register and every name is as before. R349: a stream instruction whose
sources are not legal in some active lanes traps there with cause 0x07, TVAL the length codes of the sources in order, or
0x06, TVAL the ancestry that they share; TVALH holds the major and the fields that name stream registers. The registers of
these lanes are as before; the other lanes get their results. R345, R351, R358, R361, R362: SCNT starts an operation that
holds the count of ones, or with m[1] the value in units of 1/4096; SCLS gives the tag's low word, or 0 in a group without a
slot, which gets none. SLD starts an operation that holds a load of each lane's record, its engine at work; SST one that
holds the stores of the record's chunks. A group without a slot gets one with its first stream instruction but SLEN and SCLS
when fewer than four groups of its core hold one and none waits, every register that the instruction does not name then
invalid; otherwise its lanes wait for a slot; a freed slot goes to the group that waited first. The readings and choices of
the model behind it: log entry 34. -/
def Obligations.StreamInstructions : Prop :=
  (∀ (i : Instr) (fs : List Src) (qs : List Reg) (d : Reg) (ok : List Word → Thread → Bool) (f : List Word → Thread → StreamReg) (s : State)
    (c : Ctl), streamRule i = some (fs, qs, d, ok, f) → wellFormed c.gr.enc i = true → StreamReady s c fs 127 qs →
    (∀ l, l < 32 → has c.act l = true → ok (operands s c fs l) (c.thread l) = true) →
    Completes (exec i s) fun t => goesOnAfter t c ∧ t.mem = s.mem ∧
      (∃ gr, t.group? c.g = some gr ∧ gr.rows = c.gr.rows ∧ gr.bank = c.gr.bank) ∧ ∀ l q, l < 32 → has c.act l = true → streamOf (threadIn t c l) q =
        if q.toNat % 8 = d.toNat then f (operands s c fs l) (c.thread l) else streamOf (c.thread l) q) ∧
  (∀ (i : Instr) (fs : List Src) (dst : Reg) (qs srcs : List Reg) (overlap : List StreamReg → Nat) (major fields : Nat) (s : State) (c : Ctl),
    streamChecks i = some (fs, dst, qs, srcs, overlap, major, fields) → wellFormed c.gr.enc i = true → StreamReady s c fs dst qs →
    flagFull c.gr (streamFlag c i) = false → controlLegal s c i → c.word.toNat / 2 ^ 24 = major → trapVector s c.gr ≠ 0 →
    let trap (l : Nat) : Option (BitVec 8 × Nat) :=
      let rs := srcs.map (streamOf (c.thread l))
      streamTrap rs (overlap rs)
    (∀ l, l < 32 → has c.act l = true → trap l ≠ none → (c.thread l).inHandler = false) →
    Completes (exec i s) fun t => ∀ l, l < 32 → has c.act l = true →
      (∀ k v, trap l = some (k, v) → (threadIn t c l).inHandler = true ∧ (threadIn t c l).tcause = k ∧
        (threadIn t c l).tval = BitVec.ofNat 64 (v + (major + fields) * 2 ^ 32) ∧
        ∀ q, streamOf (threadIn t c l) q = streamOf (c.thread l) q) ∧
      (trap l = none → (threadIn t c l).inHandler = (c.thread l).inHandler ∧ (NoEviction s t → ∀ fs' qs' d ok f,
        streamRule i = some (fs', qs', d, ok, f) → ∀ q, streamOf (threadIn t c l) q =
          if q.toNat % 8 = d.toNat then f (operands s c fs' l) (c.thread l) else streamOf (c.thread l) q))) ∧
  ((∀ (d a : Reg) (m : BitVec 3) (s : State) (c : Ctl), wellFormed c.gr.enc (.scnt d a m) = true → StreamReady s c [] d [a] →
    flagFull c.gr (if m.getLsbD 0 then c.hd.fb else c.hd.fa) = false →
    (∀ l, l < 32 → has c.act l = true → validStream (streamOf (c.thread l) a) = true) →
    Completes (exec (.scnt d a m) s) fun t => goesOnAfter t c ∧ ∃ gr o, t.group? c.g = some gr ∧ gr.ops = c.gr.ops ++ [o] ∧
      o.flag = (if m.getLsbD 0 then c.hd.fb else c.hd.fa) ∧ ∀ l, l < 32 → has c.act l = true →
        let r := streamOf (c.thread l) a
        let n := lengthOf (lengthCode r)
        o.value l 0 = if m.getLsbD 1 = false then BitVec.ofNat 32 (onesOf r)
          else if r.tag.getLsbD 3 then BitVec.ofInt 32 ((2 * (onesOf r : Int) - n) * 4096 / n) else BitVec.ofNat 32 (onesOf r * 4096 / n)) ∧
  (∀ (d a : Reg) (s : State) (c : Ctl), wellFormed c.gr.enc (.scls d a) = true → Runs s c [] d →
    (∀ l, has c.act l = true → pendingStream c.gr l a.toNat = false) → Completes (exec (.scls d a) s) fun t =>
      Received t c d (fun l => if c.gr.streamSlot then (streamOf (c.thread l) a).tag.setWidth 32 else 0) ∧
      ∃ gr, t.group? c.g = some gr ∧ gr.streamSlot = c.gr.streamSlot) ∧
  (∀ (d a : Reg) (m : BitVec 3) (s : State) (c : Ctl) (e : Nat → TlbEntry), wellFormed c.gr.enc (.sld d a m) = true →
    StreamReady s c [(a, 2)] 127 [d] → flagFull c.gr (if m.getLsbD 0 then c.hd.fb else c.hd.fa) = false → noDataComparator s c →
    (∀ l, l < 32 → has c.act l = true → (pairOf (operands s c [(a, 2)] l) 0).toNat % 16 = 0 ∧
      permitted s c ⟨l, pairOf (operands s c [(a, 2)] l) 0, 16, .load, false⟩ (e l)) →
    Completes (exec (.sld d a m) s) fun t => goesOnAfter t c ∧ (t.core (coreOf c.g)).streamBusy = true ∧
      ∃ gr o, t.group? c.g = some gr ∧ gr.ops = c.gr.ops ++ [o] ∧ o.stream = some d.toNat ∧
        o.left = (lanesOf c.act).map fun l => ⟨l, pairOf (operands s c [(a, 2)] l) 0, 16, .load, false⟩) ∧
  (∀ (r a : Reg) (s : State) (c : Ctl) (e : Nat → TlbEntry), wellFormed c.gr.enc (.sst r a) = true →
    StreamReady s c [(a, 2)] 127 [r] → noDataComparator s c →
    (∀ l, l < 32 → has c.act l = true → (pairOf (operands s c [(a, 2)] l) 0).toNat % 16 = 0 ∧
      permitted s c ⟨l, pairOf (operands s c [(a, 2)] l) 0, 16, .store [], false⟩ (e l)) →
    Completes (exec (.sst r a) s) fun t => ∃ gr o j, t.group? c.g = some gr ∧ gr.ops = c.gr.ops ++ [o] ∧ gr.issue = some j ∧
      j.op = some o.id ∧ o.fixed = true ∧ o.left = (lanesOf c.act).flatMap fun l =>
        let q := streamOf (c.thread l) r
        let b : List Byte := if validStream q then (List.range 8).map (fun i => BitVec.ofNat 8 (q.tag.toNat / 2 ^ (8 * i))) ++
            List.replicate 8 0 ++ (List.range (lengthOf (lengthCode q) / 8)).map (fun i => BitVec.ofNat 8 (q.data.toNat / 2 ^ (8 * i)))
          else List.replicate 16 0
        (List.range (b.length / 16)).map fun i =>
          ⟨l, pairOf (operands s c [(a, 2)] l) 0 + BitVec.ofNat 57 (16 * i), 16, .store ((b.drop (16 * i)).take 16), false⟩) ∧
  (∀ (i : Instr) (fs : List Src) (d : Reg) (qs : List Reg) (s : State) (c : Ctl), streamUse i = some (fs, d, qs) →
    wellFormed c.gr.enc i = true → InProgress s c → namesReady c (allNames fs d) → portsReady s c fs 127 → c.gr.streamSlot = false →
    (∀ l, has c.act l = true → ∀ q ∈ qs, pendingStream c.gr l q.toNat = false) → streamRecorded s (coreOf c.g) c.gr.ctx = false →
    flagFull c.gr (streamFlag c i) = false → controlLegal s c i →
    let held := (s.groups.filter fun p => coreOf p.1 == coreOf c.g && p.2.streamSlot).length
    (held < 4 → (s.core (coreOf c.g)).slotWait = [] → Completes (exec i s) fun t => ∃ gr, t.group? c.g = some gr ∧
      gr.streamSlot = true ∧ ∀ l q, l < 32 → (c.thread l).present = true → q.toNat < 8 → q ∉ qs →
        streamOf (lane gr.threads l) q = .invalid) ∧
    (4 ≤ held ∨ (s.core (coreOf c.g)).slotWait ≠ [] → Completes (exec i s) fun t => c.g ∈ (t.core (coreOf c.g)).slotWait ∧
      ∀ l, l < 32 → has c.act l = true → (threadIn t c l).wait = .streamSlot)) ∧
  (∀ (s : State) (k g : Nat) (rest : List Nat) (gr : Group), (s.core k).slotWait = g :: rest → s.group? g = some gr →
    (s.groups.filter fun p => coreOf p.1 == k && p.2.streamSlot).length < 4 →
    Completes (exec (.streamSlotGrant k) s) fun t => (t.core k).slotWait = rest ∧ ∃ gr', t.group? g = some gr' ∧
      gr'.streamSlot = true ∧ ∀ l, l < 32 → (lane gr.threads l).live = true → (lane gr.threads l).wait = .streamSlot →
        (lane gr'.threads l).wait = .none))

/-! ## Page walks, classes and transitions -/

namespace Sys2Proof.Claims

/-- No line of the access is marked, and no unit of another size covers it (R262, R268, R378, R402). -/
def lineClear (s : State) (pa code : Nat) : Prop :=
  pa / 128 ∉ s.coherenceLost ∧ pa / 128 ∉ s.poison ∧ sizeClash s (pa / 4096) code = false

/-- The unit's home serves the next comer: no transition, no flip to device bias, nobody before it (R270, R273). -/
def homeOpen (s : State) (u : Nat) : Prop :=
  tget s.transits u = none ∧ (tget s.tickets u).getD [] = [] ∧ flipHolds s u = false

end Sys2Proof.Claims

/-- R266 to R270, Table 11-5: what the home of a device frame answers a local access, no snoop being needed. An untouched
unit becomes Private to the party; its owner goes on; another party's load of a unit the owner has not written starts a
transition to ReadShared, any other access of another party one to Shared, as does a store to a ReadShared unit, and the
access waits; a load of a ReadShared unit and any access to a Shared one pass, a store to a line that units of other modules
may hold once the invalidation has left for each of those modules and been acknowledged by it within 1 ms (R370, R375, R378).
A store to a pinned unit is refused with cause 0x23. The readings and choices of the model behind it: log entry 75. -/
def Obligations.HomesClassUnits : Prop :=
  ∀ (s : State) (p : Word) (pa code : Nat) (store : Bool) (sl : Option Nat), pa < 2 ^ 39 → lineClear s pa code →
    let u := unitHead (pa / 4096) code
    let k := s.classOf u
    homeOpen s u → (pa / 4096 ∉ s.bias ∨ pa / 64 ∉ s.snoop) →
    (k.cls = 0 → ∃ t, homeServe s p pa code store false sl = .ok t ∧ (t.classOf u).cls = 1 ∧ (t.classOf u).owner = p ∧
      (t.classOf u).written = store) ∧
    (k.cls = 1 → k.owner = p → ∃ t, homeServe s p pa code store false sl = .ok t ∧ (t.classOf u).cls = 1 ∧ (t.classOf u).owner = p ∧
      (t.classOf u).written = (k.written || store)) ∧
    (k.cls = 1 → k.owner ≠ p → ∃ t, homeServe s p pa code store false sl = .wait t ∧
      ((∃ x, tget t.transits u = some x ∧ x.newCls = if store || k.written then 3 else 2) ∨
        (t.classOf u).cls = if store || k.written then 3 else 2)) ∧
    (k.cls = 2 → store = true → ∃ t, homeServe s p pa code store false sl = .wait t ∧
      ((∃ x, tget t.transits u = some x ∧ x.newCls = 3) ∨ (t.classOf u).cls = 3)) ∧
    (k.cls = 2 ∧ store = false ∨ k.cls = 3 ∨ k.cls = 6 ∧ store = false →
      (k.cls = 3 → store = true → k.rhold = true → ∀ m ∈ peerUnits s, ∃ x,
        messageOf s p (m - 20000) (pa / 4096) (2 ^ 16 + pa / 128) = some x ∧ x.lost = false ∧ s.realTime < x.sent + 1000000) →
      ∃ t, homeServe s p pa code store false sl = .ok t ∧ (t.classOf u).cls = k.cls) ∧
    (k.cls = 3 → store = true → k.rhold = true → peerUnits s ≠ [] → (p, pa / 128) ∉ s.overdue →
      (∀ m ∈ peerUnits s, messageOf s p (m - 20000) (pa / 4096) (2 ^ 16 + pa / 128) = none ∧
        messageHeld s (m - 20000) (pa / 4096) = false) →
      ∃ t, homeServe s p pa code store false sl = .wait t ∧
        ∀ m ∈ peerUnits s, messageOf t p (m - 20000) (pa / 4096) (2 ^ 16 + pa / 128) ≠ none) ∧
    (k.cls = 6 → store = true → ∃ t, homeServe s p pa code store false sl = .fault 0x23 none t)

/-- R256, R259, R269 to R271, R378: a page walk that succeeds gives its translation to every TLB that waits and to the L2 TLB
of its die, one that fails leaves the cause for those that had joined it. A Recall makes a unit of this module forget the
class; it then reaches its drain point, and its DrainAck within 1 ms takes it off the list; with the last one the unit has
its new class. Firmware makes a quiet Shared unit Untouched. A transition that has waited 1 ms ends with every line of the
unit marked lost, those whose stores a holder had not written back as stale, the copies of the TLBs that owed an
acknowledgement dropped, and a record in the bank of its home. A store that has waited 1 ms for an acknowledgement has its
line marked lost and may complete; where nothing is awaited, a line whose ownership grant is lost is marked. The readings and
choices of the model behind it: log entries 27, 57, 75. -/
def Obligations.CoherenceEvents : Prop :=
  (∀ (s : State) (d c : Nat) (va : VA) (w : WalkReq) (e : TlbEntry),
    ((s.walks.filter (·.die == d)).take 48).find? (fun w => w.ctx == c && w.page == va.toNat - va.toNat % 4096) = some w →
    walk s c va.toNat = .ok e → Completes (exec (.pageWalk d c va) s) fun t => ∀ k, k ∈ w.misses.map (·.1) ∨ k = 256 + d → lookup t k c va.toNat = some e) ∧
  (∀ (s : State) (d c : Nat) (va : VA) (w : WalkReq) (f : BitVec 8),
    ((s.walks.filter (·.die == d)).take 48).find? (fun w => w.ctx == c && w.page == va.toNat - va.toNat % 4096) = some w →
    w.misses ≠ [] → walk s c va.toNat = .error f → Completes (exec (.pageWalk d c va) s) fun t =>
      ∃ x ∈ t.failed, x.ctx = c ∧ x.page = va.toNat - va.toNat % 4096 ∧ x.cause = f ∧ x.misses = w.misses) ∧
  (∀ (s : State) (k u : Nat) (x : Transit), tget s.transits u = some x → k < 20000 → k ∈ x.owes → k ∉ x.recalled →
    Completes (exec (.recallUnit k u) s) fun t => (∃ y, tget t.transits u = some y ∧ k ∈ y.recalled) ∧
      ∀ e ∈ (tget t.tlbs k).getD [], e.host = false → e.rmt = none → e.frame / 4096 = u → e.cls = none) ∧
  (∀ (s : State) (k u : Nat) (x : Transit), tget s.transits u = some x → k ∈ x.recalled → k ∉ x.drained → unitDrained s k u = true →
    Completes (exec (.drainPoint k u) s) fun t => ∃ y, tget t.transits u = some y ∧ k ∈ y.drained) ∧
  (∀ (s : State) (k u : Nat) (x : Transit), u < 2 ^ 27 → tget s.transits u = some x → k ∈ x.drained → k ∈ x.owes → s.realTime < x.since + 1000000 →
    Completes (exec (.drainAck k u) s) fun t =>
      if x.owes.filter (· != k) = [] then (t.classOf u).cls = x.newCls ∧ (t.classOf u).unit = x.newUnit ∧ (t.classOf u).owner = x.newOwner
      else ∃ y, tget t.transits u = some y ∧ y.owes = x.owes.filter (· != k)) ∧
  (∀ (s : State) (u : Nat), u < 2 ^ 27 → (s.classOf u).cls = 3 → tget s.transits u = none → (tget s.tickets u).getD [] = [] →
    (s.classOf u).since + 1000 * s.quiet ≤ s.realTime → Completes (exec (.quietExpiry u) s) fun t =>
      (t.classOf u).cls = 0 ∨ ∃ y, tget t.transits u = some y ∧ y.newCls = 0 ∧ y.owes ≠ []) ∧
  (∀ (s : State) (u : Nat) (x : Transit), u < 2 ^ 27 → tget s.transits u = some x → x.since + 1000000 ≤ s.realTime →
    Completes (exec (.coherenceTimeout u) s) fun t => (t.classOf u).cls = x.newCls ∧ (t.bank (32 * (u / 2 ^ 25) + 13)).valid = true ∧
      (∀ l, 32 * u ≤ l → l < 32 * u + 32 * unitGranules (s.classOf u).unit → l ∈ t.coherenceLost) ∧
      (∀ l ∈ (s.classOf u).dirty, l ∈ t.stale) ∧ ∀ k, k < 20000 → k ∈ x.owes →
        ∀ e ∈ (tget t.tlbs k).getD [], e.host = false → e.rmt = none → e.frame / 4096 = u → e.cls = none) ∧
  (∀ (s : State) (u : Nat) (x : Message), u < 2 ^ 27 → tget s.transits u = none → x ∈ s.messages → ∀ l, x.tag = 2 ^ 16 + l →
    32 * u ≤ l → l < 32 * u + 32 * unitGranules (s.classOf u).unit → x.sent + 1000000 ≤ s.realTime →
    Completes (exec (.coherenceTimeout u) s) fun t => l ∈ t.coherenceLost ∧ (x.party, l) ∈ t.overdue ∧
      (l ∈ (s.classOf u).dirty → l ∈ t.stale) ∧ (t.bank (32 * (u / 2 ^ 25) + 13)).valid = true) ∧
  (∀ (s : State) (u : Nat), u < 2 ^ 27 → tget s.transits u = none → (∀ x ∈ s.messages, s.realTime < x.sent + 1000000) →
    (s.classOf u).cls = 3 ∨ (s.classOf u).cls = 4 → (s.classOf u).hold ≠ 0 ∨ (s.classOf u).rhold = true →
    Completes (exec (.coherenceTimeout u) s) fun t => (t.bank (32 * (u / 2 ^ 25) + 13)).valid = true ∧
      ∃ l, 32 * u ≤ l ∧ l < 32 * u + 32 * unitGranules (s.classOf u).unit ∧ l ∈ t.coherenceLost)

/-- R16, R272, R277, R366, R374 to R376, R395: a host access inside one chunk of 16 bytes that is not reserved, whose memory
is up and before which no other waits at its unit, performs when its home serves it: a store writes its bytes, a load is
answered with them, where no row on chip hides them (R182); an access past 2^39 stops the machine. A snoop answer writes the
line back, and after an invalidation the host holds it no more. An access of another module inside one chunk, whose response
no older traffic holds back, performs likewise, and its module may hold the class then. The readings and choices of the model
behind it: log entries 9, 10, 14, 42, 55. -/
def Obligations.OutsidePartiesAccessMemory : Prop :=
  (∀ (s s' : State) (store : Bool) (pa size : Nat) (b : List Byte), MemoriesOk s → pa + size ≤ 2 ^ 39 → 0 < size → pa % 16 + size ≤ 16 →
    b.length = size → s.boot.stage ≠ 0 → (∀ k, k < size → reservedPa s (pa + k) = false ∧ memoryUp s (pa + k) = true) →
    (store = false → ∀ k, k < size → shadowed s physEntry (pa + k) = false) →
    hostBehind s (.hostAccess store pa size b) pa = false → homeServe s hostParty pa 0 store true none = .ok s' →
    Completes (exec (.hostAccess store pa size b) s) fun t => stored s.mem t.mem pa (if store then b else []) ∧
      (store = false → t.hostAnswer = some ⟨pa, mread s.mem pa size, false⟩)) ∧
  (∀ (s : State) (store : Bool) (pa size : Nat) (b : List Byte), 2 ^ 39 < pa + size →
    exec (.hostAccess store pa size b) s = .fault .noSuchAddress) ∧
  (∀ (s : State) (l : Nat) (b : List Byte), MemoriesOk s → l ∈ s.snoopInv ∨ l ∈ s.snoopData → Completes (exec (.birspReceive l b) s) fun t =>
    l ∉ t.snoopInv ∧ l ∉ t.snoopData ∧ (l ∈ s.snoopInv → l ∉ t.snoop) ∧ (l ∉ s.snoopInv → t.snoop = s.snoop) ∧
    stored s.mem t.mem (64 * l) (b.take 64)) ∧
  (∀ (s s' : State) (a : PeerAccess), MemoriesOk s → 2 ≤ s.boot.stage → a.pa / 128 ∉ s.poison →
    messageHeld s (accessModule a) (a.pa / 4096) = false → a.pa + peerSize a.op ≤ 2 ^ 39 → 0 < peerSize a.op → a.pa % 16 + peerSize a.op ≤ 16 →
    ((∀ b, a.op ≠ .store b) → ∀ k, k < peerSize a.op → shadowed s physEntry (a.pa + k) = false) →
    homeServe s a.party a.pa a.pageSize (peerStores a.op) false none (peerAtomic a.op) = .ok s' →
    Completes (exec (.peerAccess a) s) fun t => (t.classOf (unitHead (a.pa / 4096) a.pageSize)).rhold = true ∧ match a.op with
      | .load n => t.mem = s.mem ∧ t.peerAnswer = some ⟨a.pa, mread s.mem a.pa n, false⟩
      | .store b => stored s.mem t.mem a.pa b
      | .atom m v => stored s.mem t.mem a.pa (lowBytes [wordAfter (.atom m v) (wordAt s.mem a.pa)] 4)
      | .cas c n => stored s.mem t.mem a.pa (lowBytes [wordAfter (.cas c n) (wordAt s.mem a.pa)] 4)
      | .update n m => ∀ w, barUpdated (barWordsAt s.mem a.pa) n m = some w → barWordsAt t.mem a.pa = w
      | .binit c => barResult (.binit c) (barWordsAt s.mem a.pa) = some (barWordsAt t.mem a.pa)) ∧
  (∀ (s : State) (a : PeerAccess), 2 ^ 39 < a.pa + peerSize a.op → exec (.peerAccess a) s = .fault .noSuchAddress)

/-! ## Halting -/

namespace Sys2Proof.Claims

/-- The context is Halting, holds partition `p`, and the halt line of `p` is asserted (R92). -/
def lineHigh (s : State) (c p : Nat) : Prop := (s.ctx c).state = .halting ∧ (s.ctx c).partition = some p ∧ s.haltLine.getLsbD p = true

end Sys2Proof.Claims

/-- R92 to R95, R101, R426, R329: the halt line of a partition rises when its context is Halting, and the unit slots of the
context's stop area then hold KIND 0. A group under it stops; a matrix engine that runs no command stops, its statuses
abandoned; the copies of a copy engine stop at unit boundaries. A stream engine with no instruction in progress stops. A
stopped group with nothing outstanding, whose image can be written, writes its record (KIND 1, its cause) and leaves its slot
for its team's image. When everything has stopped and is recorded the context is Halted, without partition, and its line
falls. The readings and choices of the model behind it: log entries 25, 39, 40, 70, 71. -/
def Obligations.HaltingEvents : Prop :=
  (∀ (s : State) (p c : Nat), (h : p < 8) → s.partCtx[p] = some c → (s.ctx c).state = .halting → s.haltLine.getLsbD p = false → s.fatal = none →
    Completes (exec (.haltLineAssert p) s) fun t => t.haltLine = s.haltLine ||| (1 <<< p : BitVec 8) ∧ (t.ctx c).state = .halting ∧
      ∀ u, u < 12544 → (∀ x ∈ s.teams, ∀ y ∈ x.2.saved, x.2.ctx = c → y.slot ≠ u) → mget t.mem ((s.ctx c).stopArea + 64 * u + 8) = 0) ∧
  (∀ (s : State) (g p : Nat) (gr : Group), g < 12288 → s.group? g = some gr → lineHigh s gr.ctx p → gr.phase = .running →
    (∀ o, currentOp gr = some o → o.isSst = false) → Completes (exec (.unitStop g) s) fun t => ∃ gr', t.group? g = some gr' ∧
      gr'.phase = .stopped ∧ gr'.issue = none ∧ gr'.haltTime = s.time) ∧
  (∀ (s : State) (e c l i : Nat) (k : Launch), e < 32 → c ∈ haltedLines s → (s.engine e).bound = some (l, i) → s.launch? l = some k →
    k.ctx = c → (s.engine e).recorded = false → (s.engine e).state ≠ .running → Completes (exec (.unitStop (12320 + e)) s) fun t =>
      (t.engine e).state = .stopped ∧ (t.engine e).recorded = true ∧ ∀ x ∈ (t.engine e).queue, x.status = none) ∧
  (∀ (s : State) (n c : Nat), n < 32 → c ∈ haltedLines s → tsorted s.copies = true →
    (∀ p ∈ s.copies, p.2.engine = n → p.2.recorded = false ∧ p.2.buf = []) →
    Completes (exec (.unitStop (12288 + n)) s) fun t => ∀ i x, s.copy? i = some x → x.engine = n → x.ctx = c →
      ∃ y, t.copy? i = some y ∧ y.stopped = true ∧ y.recorded = true) ∧
  (∀ (s : State) (k c : Nat), k < 192 → c ∈ haltedLines s → streamWork s k c = true → (s.core k).streamBusy = false →
    Completes (exec (.unitStop (12352 + k)) s) fun t => k ∈ (t.ctx c).streamStops) ∧
  (∀ (s s' : State) (g p : Nat) (gr : Group) (tm : Team), MemoriesOk s → tsorted s.groups = true → s.group? g = some gr →
    gr.phase = .stopped → gr.issue = none → imageReady (abandonHeld s g gr) g gr none = .ok s' → s.fatal = none →
    (s.ctx gr.ctx).partition = some p → s.haltLine.getLsbD p = true → gr.ops = [] → gr.streamSlot = false → (s.ctx gr.ctx).debug = none →
    s.team? gr.team = some tm → tm.held = [] → Completes (exec (.groupStopRecord g) s) fun t => t.group? g = none ∧
      mget t.mem ((s.ctx gr.ctx).stopArea + 64 * g + 8) = 1 ∧
      (∀ f, gr.fault = some f → mget t.mem ((s.ctx gr.ctx).stopArea + 64 * g + 9) = f.cause) ∧
      ∃ tm' x, t.team? gr.team = some tm' ∧ tm'.state = .stopped ∧ tm'.saved = tm.saved ++ [x] ∧ x.slot = g) ∧
  (∀ (s : State) (c p : Nat), p < 8 → lineHigh s c p → allStopped s c = true → Completes (exec (.contextHalted c) s) fun t =>
    (t.ctx c).state = .halted ∧ (t.ctx c).partition = none ∧ t.haltLine.getLsbD p = false) ∧
  (∀ (s : State) (c : Nat), (s.ctx c).state = .halting → (s.ctx c).partition = none →
    Completes (exec (.contextHalted c) s) fun t => (t.ctx c).state = .halted)

/-! ## Pre-emption -/

/-- R97 to R99, R102, R83, R86, R87: a request turns a Running context to Saving, or with nothing on its partition to Saved
(or, under a grace of 0, a group that stops at once faults), and every group of it has the request. A group that has not been
saved when its grace period ends stops to be saved, its issue over, or, with loads, stores or atomics of its instruction
still to perform, issues nothing more but completes these first. A group that stopped for it, or whose live threads are all
blocked, with no operation outstanding and all that its image holds at hand, leaves its slot for its team's image; a team
whose groups are all saved is Saved. A free partition is granted, while no context of a higher priority waits for it, to a
Ready context, which runs until its slice ends, and to a Saved one, which is Restoring while it has teams in its image. A
team of it takes a core with room: its groups stand in free slots and run. A slice ends with nothing left to do. The readings
and choices of the model behind it: log entries 43, 44, 46, 72. -/
def Obligations.PreemptionEvents : Prop :=
  (∀ (s : State) (c : Nat), (s.ctx c).state = .running → Completes (exec (.preemptRequest c) s) fun t =>
    ((t.ctx c).state = .saving ∨ (t.ctx c).state = .saved ∧ (t.ctx c).partition = none ∨
      (s.ctx c).grace = 0 ∧ (t.ctx c).state = .halting) ∧
    ∀ g gr, s.group? g = some gr → gr.ctx = c → ∃ gr', t.group? g = some gr' ∧ gr'.preempt = some s.realTime) ∧
  (∀ (s : State) (g p : Nat) (gr : Group), s.group? g = some gr → (s.ctx gr.ctx).state = .saving → gr.preempt = some p →
    p + 1000 * (s.ctx gr.ctx).grace ≤ s.realTime → gr.phase = .running → liveMask gr ≠ 0 →
    Completes (exec (.gracePeriodExpiry g) s) fun t => ∃ gr', t.group? g = some gr' ∧
      if completesFirst gr = true then gr'.phase = .drained ∧ gr'.issue = gr.issue ∧ gr'.ops = gr.ops
      else gr'.phase = .saving none ∧ gr'.issue = none) ∧
  (∀ (s s' : State) (g : Nat) (gr : Group) (tm : Team) (e : Option Nat), tsorted s.groups = true → s.group? g = some gr →
    imageReady (s.setGroup g { gr with phase := .saving e }) g { gr with phase := .saving e } e = .ok s' →
    (s.ctx gr.ctx).state = .saving → gr.preempt ≠ none → gr.ops = [] → strayCopy s gr = false → s.team? gr.team = some tm →
    (gr.phase = .saving e ∨ gr.phase = .running ∧ groupBlocked gr = true ∧ e = none) →
    Completes (exec (.groupSave g) s) fun t => t.group? g = none ∧ ∃ tm' x, t.team? gr.team = some tm' ∧
      tm'.saved = tm.saved ++ [x] ∧ x.slot = g ∧ x.entry = e) ∧
  (∀ (s : State) (n : Nat) (tm : Team), s.team? n = some tm → (s.ctx tm.ctx).state = .saving → tm.state = .resident → tm.groups = [] →
    tm.saved ≠ [] → teamWaits s tm = false → Completes (exec (.teamSave n) s) fun t => ∃ tm', t.team? n = some tm' ∧ tm'.state = .saved) ∧
  (∀ (s : State) (c p : Nat), (h : p < 8) → s.partCtx[p] = none → s.parts[p].mask ≠ 0 →
    ((s.ctx c).assigned = none ∨ (s.ctx c).assigned = some p) → s.fatal = none → higherWaits s c p (ctxPrio s c) = false →
    ((s.ctx c).state = .ready → Completes (exec (.partitionGrant c p) s) fun t => (t.ctx c).state = .running ∧
      (t.ctx c).partition = some p ∧ (t.ctx c).sliceEnd = s.realTime + 1000 * s.parts[p].slice ∧ t.partCtx[p] = some c) ∧
    ((s.ctx c).state = .saved → Completes (exec (.partitionGrant c p) s) fun t => (t.ctx c).partition = some p ∧
      (t.ctx c).state = if s.teams.any (fun x => x.2.ctx == c && x.2.groups.isEmpty && !x.2.saved.isEmpty && x.2.state != .retired)
        then .restoring else .running)) ∧
  (∀ (s : State) (n k : Nat) (tm : Team), s.team? n = some tm → (s.ctx tm.ctx).state = .restoring → (s.ctx tm.ctx).partition ≠ none →
    tm.groups = [] → tm.saved ≠ [] → tm.state ≠ .retired → k < 192 → tm.engine = none → (s.partMask tm.ctx).getLsbD (sliceOfCore k) = true →
    s.coreUsable k = true → (freeSlots s k tm.saved.length).length = tm.saved.length →
    (tm.saved.filter usesStreams).length + (s.groups.filter fun p => coreOf p.1 == k && p.2.streamSlot).length ≤ 4 →
    coreFits (carveFor s k tm.scratchLen) k tm.saved.length ((tm.saved.map fun x => x.group.budget).headD 0)
      (teamLocks (carveFor s k tm.scratchLen) tm) tm.scratchLen = true →
    gRowsOfCore s k + (tm.saved.map fun x => gRows (resumed s x tm.discarded)).sum ≤ 4096 →
    Completes (exec (.teamRestore n k) s) fun t => (∃ tm', t.team? n = some tm' ∧ tm'.state = .resident ∧ tm'.core = k ∧ tm'.saved = [] ∧
      tm'.groups = (freeSlots s k tm.saved.length).map (64 * k + ·)) ∧
      ∀ i ∈ freeSlots s k tm.saved.length, ∃ gr, t.group? (64 * k + i) = some gr ∧ gr.phase = .running) ∧
  (∀ (s : State) (c p : Nat), p < 8 → (s.ctx c).state = .running → (s.ctx c).partition = some p → (s.ctx c).sliceEnd ≤ s.realTime →
    (∀ x ∈ s.groups, x.2.ctx ≠ c) → (∀ x ∈ contextEngines s c, (s.engine x.1).queue = []) →
    runnableTeam s c = false → Completes (exec (.timeSliceEnd c) s) fun t => (t.ctx c).state = .ready ∧ (t.ctx c).partition = none)

/-! ## Host queues and events -/

/-- R120, R122, R153, R155, R395, Table 5-4: before stage 1 the host reaches no register, and a write changes nothing. From
then on a tail that covers more than the ring is an error with code 6; otherwise it stands, and an Open queue without error
takes the command it covers: 64 bytes of its ring, HQHEAD one further. EN opens a Bound or Closed queue and turns an Open one
to Draining, or with no command to Closed; CLR ends the error. EVCONS and IEN hold what is written; the coalescing timer that
has run out ends the count, and sends the ring's vector if it is enabled and not masked. The readings and choices of the
model behind it: log entries 7, 36, 61, 85. -/
def Obligations.HostQueueRegisters : Prop :=
  (∀ (s : State) (q c : Nat) (v : Word) (b : Bool), s.boot.stage = 0 →
    ∀ i ∈ [Instr.hqtailWrite q v, .hqEnWrite q b, .hqClrWrite q, .evconsWrite c v, .eventIenWrite c b], exec i s = .next s) ∧
  (∀ (s : State) (q : Nat) (v : Word), s.boot.stage ≠ 0 → 2 ^ (s.hostQueue q).size < (v - (s.hostQueue q).head).toNat →
    Completes (exec (.hqtailWrite q v) s) fun t => (t.hostQueue q).err = true ∧ (t.hostQueue q).code = 6 ∧ (t.hostQueue q).tail = v ∧
      (t.hostQueue q).cmds = (s.hostQueue q).cmds) ∧
  (∀ (s : State) (q : Nat), s.boot.stage ≠ 0 → tsorted s.hostQueues = true → (s.hostQueue q).state = .open_ → (s.hostQueue q).err = false →
    (s.ctx (s.hostQueue q).ctx).ring.held = [] → fetchedOf s (s.hostQueue q).ctx < 1024 → s.fatal = none →
    let h := s.hostQueue q
    let a := h.base.toNat + 64 * (h.head.toNat % 2 ^ h.size)
    lineLost s a = false → Completes (exec (.hqtailWrite q (h.head + 1)) s) fun t => (t.hostQueue q).tail = h.head + 1 ∧ (t.hostQueue q).head = h.head + 1 ∧
      (t.hostQueue q).cmds = h.cmds ++ [freshCmd h.head (mread (if a + 64 ≤ 2 ^ 39 then s.mem else s.hostMem) a 64)]) ∧
  (∀ (s : State) (q : Nat), s.boot.stage ≠ 0 → (s.hostQueue q).state = .bound ∨ (s.hostQueue q).state = .closed →
    Completes (exec (.hqEnWrite q true) s) fun t => (t.hostQueue q).state = .open_ ∧ (t.hostQueue q).en = true) ∧
  (∀ (s : State) (q : Nat), s.boot.stage ≠ 0 → (s.hostQueue q).state = .open_ → Completes (exec (.hqEnWrite q false) s) fun t =>
    (t.hostQueue q).en = false ∧ (t.hostQueue q).state = if (s.hostQueue q).cmds = [] then .closed else .draining) ∧
  (∀ (s : State) (q : Nat) (b : Bool), s.boot.stage ≠ 0 → Completes (exec (.hqEnWrite q b) s) fun t => (t.hostQueue q).en = b) ∧
  (∀ (s : State) (q : Nat), s.boot.stage ≠ 0 → Completes (exec (.hqClrWrite q) s) fun t => (t.hostQueue q).err = false) ∧
  (∀ (s : State) (c : Nat) (v : Word), s.boot.stage ≠ 0 → Completes (exec (.evconsWrite c v) s) fun t => (t.ctx c).ring.cons = v) ∧
  (∀ (s : State) (c : Nat) (b : Bool), s.boot.stage ≠ 0 → Completes (exec (.eventIenWrite c b) s) fun t => (t.ctx c).ring.ien = b ∧
    (b = true → (s.ctx c).ring.ien = false → (s.ctx c).ring.count ≠ 0 → (msixWord s (s.ctx c).ring.vector.toNat 3).getLsbD 0 = false →
      t.msixSent = s.msixSent ++ [(s.ctx c).ring.vector.toNat])) ∧
  (∀ (s : State) (c n : Nat), (s.ctx c).ring.timer = some n → n ≤ s.realTime → Completes (exec (.coalesceTimerExpiry c) s) fun t =>
    ((s.ctx c).ring.ien = false → t.contexts = s.contexts ∧ t.msixSent = s.msixSent) ∧
    ((s.ctx c).ring.ien = true → (t.ctx c).ring.timer = none ∧ (t.ctx c).ring.count = 0 ∧
      ((msixWord s (s.ctx c).ring.vector.toNat 3).getLsbD 0 = false → t.msixSent = s.msixSent ++ [(s.ctx c).ring.vector.toNat])))

namespace Sys2Proof.Claims

/-- What the command has become. -/
def cmdEnds (t : State) (q n : Nat) (st : BitVec 8) : Prop := ∃ k, t.cmd? q n = some k ∧ k.started = true ∧ k.ended = some st

/-- The management core's TLB of VS0 translates the barrier's address to a device frame, with memory behind it. -/
def hostHit (s : State) (c : Nat) (va : VA) (e : TlbEntry) : Prop :=
  lookup s 256 c va.toNat = some e ∧ e.host = false ∧ e.rmt = none ∧ farFrame s e va.toNat = false

/-- The 16 bytes of a barrier word are given by the manual (R182, R381, R402). -/
def plainBarrier (s : State) (e : TlbEntry) (va : VA) : Prop := plainBytes s e ⟨0, va, 16, .load, false⟩

/-- All of these bytes of a command are zero. -/
def zeroAt (b : List Byte) (lo hi : Nat) : Bool := (List.range (hi - lo)).all fun i => b.getD (lo + i) 0 == 0

/-- A command breaks Table 5-6: a flag or a byte that the table marks zero is not, or an arrival count is 0. That bytes 20
and 21 of SIGNAL and WAIT, to which the table gives no meaning, are such bytes is the model's choice (log entry 103). -/
def illFormed (b : List Byte) : Bool :=
  let op := (b.getD 0 0).toNat
  let flags := decide (4 ≤ (b.getD 1 0).toNat) || !zeroAt b 2 4
  if op = 1 then launchBad b
  else if op = 2 then flags || !zeroAt b 40 64
  else if op = 3 then flags || field b 16 4 == 0 || !zeroAt b 20 64
  else if op = 4 then flags || !zeroAt b 20 32 || !zeroAt b 40 64
  else if op = 5 then flags || !zeroAt b 9 32 || !zeroAt b 40 64
  else if op = 6 then flags || !zeroAt b 8 32 || !zeroAt b 40 64
  else false

/-- The command names a barrier whose page has no memory behind it in minimal mode, or is a LAUNCH with TASKS for another die
than VS0 (R397). -/
def needsFarPage (s : State) (q : Nat) (k : HostCmd) : Prop :=
  let far (va : VA) : Prop := ∃ e, walk s (s.hostQueue q).ctx va.toNat = .ok e ∧ farFrame s e va.toNat = true
  k.opcode = 1 ∧ (k.bytes.getD 1 0).toNat / 4 % 2 = 1 ∧ k.bytes.getD 49 0 ≠ 0 ∨ k.bar ≠ 0 ∧ far k.bar ∨
    (k.opcode = 3 ∨ k.opcode = 4) ∧ far k.addr

end Sys2Proof.Claims

/-- R121, R301, R302, R405, R422, R423: what a command does at its turn. MARK ends with OK. SIGNAL makes its arrivals and
ends with OK. WAIT starts; it ends with OK when the phase is done, and with TIMEOUT when its time has run out. COPY starts a
copy. SELFTEST puts the usable cores of its slices to the test; a core's test ends, a failure withdraws it. A COPY, SIGNAL,
WAIT or SELFTEST that breaks Table 5-6, or needs a page that minimal mode has not, ends BADARG, as does a COPY in minimal
mode and a SELFTEST of a slice outside the partition. The readings and choices of the model behind it: log entries 31, 37,
103. -/
def Obligations.HostCommandsRun : Prop :=
  (∀ (s : State) (q n : Nat) (k : HostCmd), startable s q n 6 = some k →
    Completes (exec (.mark q n) s) (cmdEnds · q n (if badCommand s q k then 2 else 0))) ∧
  (∀ (s s' : State) (q n : Nat) (k : HostCmd) (e : TlbEntry) (w : BarWords), MemoriesOk s → startable s q n 3 = some k → badCommand s q k = false →
    k.addr.toNat % 16 = 0 → hostHit s (s.hostQueue q).ctx k.addr e → e.w = true → plainBarrier s e k.addr →
    homeAccess s 256 (cmdParty s q) e k.addr.toNat true true = .ok s' →
    barUpdated (barWordsAt s.mem (e.phys k.addr.toNat)) (field k.bytes 16 4) 0 = some w →
    Completes (exec (.signal q n) s) fun t => cmdEnds t q n 0 ∧ barWordsAt t.mem (e.phys k.addr.toNat) = w) ∧
  (∀ (s : State) (q n op : Nat) (i : Instr) (k : HostCmd), (op, i) ∈ [(2, .copy q n), (3, .signal q n), (4, .wait q n), (5, .selftest q n)] →
    startable s q n op = some k → badCommand s q k = true ∨ op = 2 ∧ s.boot.minimal = true → Completes (exec i s) (cmdEnds · q n 2)) ∧
  (∀ (s : State) (q : Nat) (k : HostCmd), badCommand s q k = true ↔ illFormed k.bytes = true ∨ s.boot.minimal = true ∧ needsFarPage s q k) ∧
  (∀ (s : State) (q n : Nat) (k : HostCmd), startable s q n 4 = some k → badCommand s q k = false → k.addr.toNat % 16 = 0 →
    Completes (exec (.wait q n) s) fun t => ∃ j, t.cmd? q n = some j ∧ j.started = true ∧ j.ended = none) ∧
  (∀ (s s' : State) (q n : Nat) (k : HostCmd) (e : TlbEntry), waiting s q n = some k →
    watchEntry s 256 0 (s.hostQueue q).ctx k.addr.toNat = .ok e → e.host = false → e.rmt = none → plainBarrier s e k.addr →
    let w := barWordsAt s.mem (e.phys k.addr.toNat)
    phaseDone w.2.2.1 (BitVec.ofNat 32 (field k.bytes 16 4)) = true → w.2.2.2.getLsbD 31 = false → badConfig w.2.2.2 = false →
    homeAccess (tlbInsert s 256 e) 256 (cmdParty s q) e k.addr.toNat false = .ok s' → Completes (exec (.waitSatisfied q n) s) (cmdEnds · q n 0)) ∧
  (∀ (s : State) (q n : Nat) (k : HostCmd) (e : TlbEntry), waiting s q n = some k →
    watchEntry s 256 0 (s.hostQueue q).ctx k.addr.toNat = .ok e →
    e.host = false → e.rmt = none → plainBarrier s e k.addr →
    let w := barWordsAt s.mem (e.phys k.addr.toNat)
    let x := s.ctx (s.hostQueue q).ctx
    phaseDone w.2.2.1 (BitVec.ofNat 32 (field k.bytes 16 4)) = false → w.2.2.2.getLsbD 31 = false → badConfig w.2.2.2 = false →
    (w.2.2.2.toNat / 2 ^ 28 % 4 = 0 ∧ k.start + x.btmo * 1000000 ≤ x.runNs ∨
      w.2.2.2.toNat / 2 ^ 28 % 4 = 1 ∧ k.start + 16 * x.btmo * 1000000 ≤ x.runNs) →
    Completes (exec (.waitTimeout q n) s) (cmdEnds · q n 3)) ∧
  (∀ (s : State) (q n : Nat) (k : HostCmd), startable s q n 2 = some k → badCommand s q k = false → s.boot.minimal = false →
    (s.ctx (s.hostQueue q).ctx).state = .running → copyPlaces s (s.hostQueue q).ctx 0 1 ≠ [] →
    Completes (exec (.copy q n) s) fun t => (∃ j, t.cmd? q n = some j ∧ j.started = true ∧ j.ended = none) ∧ ∃ i x, t.copy? i = some x ∧
      x.origin = .host q n ∧ x.src = BitVec.ofNat 57 (field k.bytes 8 8) ∧ x.dst = .mem (BitVec.ofNat 57 (field k.bytes 16 8)) ∧
      x.len = field k.bytes 24 8 ∧ x.pos = 0) ∧
  (∀ (s : State) (q n : Nat) (k : HostCmd), startable s q n 5 = some k → badCommand s q k = false →
    (s.ctx (s.hostQueue q).ctx).state = .running →
    let m := BitVec.ofNat 8 (k.bytes.getD 8 0).toNat
    (m &&& ~~~(s.partMask (s.hostQueue q).ctx) ≠ 0 → Completes (exec (.selftest q n) s) (cmdEnds · q n 2)) ∧
    (m &&& ~~~(s.partMask (s.hostQueue q).ctx) = 0 → Completes (exec (.selftest q n) s) fun t =>
      ∀ c, c < 192 → m.getLsbD (sliceOfCore c) = true → s.coreUsable c = true → (t.core c).testing = some (q, n))) ∧
  (∀ (s : State) (k q n : Nat) (pass : Bool), (s.core k).testing = some (q, n) → (∀ p ∈ s.groups, coreOf p.1 ≠ k) →
    let good := pass && !(s.core k).testBad
    Completes (exec (.selftestCoreEnd k pass) s) fun t => (t.core k).testing = none ∧
      (t.core k).withdrawn = ((s.core k).withdrawn || !good) ∧ (good = false → (t.bank (32 * (k / 48) + k % 48 / 4)).valid = true))

/-- R121, R146, R151, R153: a LAUNCH at its turn whose argument block and queue table are read and legal becomes a launch
with the command's extents, arguments and queues. A command that ended OK counts in HQDONE and, with REC, writes one record,
of the bytes of Table 6-8, to the event ring. A launch that is over is gone with its teams, its command ended. The readings
and choices of the model behind it: log entries 37, 38, 65, 68, 104. -/
def Obligations.LaunchesStartAndEnd : Prop :=
  (∀ (s s₁ s₂ : State) (q n i : Nat) (k : HostCmd) (im : Image) (ab qb : List Byte) (as : List ArgEntry) (ds : List QDesc), q < 256 →
    startable s q n 1 = some k → launchBad k.bytes = false → k.bytes.getD 1 0 &&& 4 = 0 →
    imageAt (s.ctx (s.hostQueue q).ctx) (field k.bytes 8 8) = some i → s.image? (s.hostQueue q).ctx i = some im →
    (s.boot.minimal = false ∨ im.engmask = 0) → farCommand s q k = false → field k.bytes 24 8 % 16 = 0 →
    let qn := if field k.bytes 40 8 = 0 then 0 else (k.bytes.getD 48 0).toNat
    let id := k.launch.getD (freeLaunch s)
    let s₀ := s.modCmd q n fun k => { k with launch := some id }
    let c := (s.hostQueue q).ctx
    readOn s₀ q n 0 c (launchParty s 0 id) (BitVec.ofNat 57 (field k.bytes 24 8)) (16 * im.argn) 0 = .ok ab s₁ →
    readOn s₁ q n 0 c (launchParty s 0 id) (BitVec.ofNat 57 (field k.bytes 40 8)) (16 * qn) (16 * im.argn) = .ok qb s₂ →
    allSome ((pieces 16 im.argn ab).map argEntry) = some as → allSome ((pieces 16 qn qb).map (queueDesc im.engmask)) = some ds →
    (∀ st ∈ ordinaryStages im, lockedBytes ds st ≤ 65536) →
    Completes (exec (.launch q n) s) fun t => (∃ l, t.launch? id = some l ∧ l.ctx = c ∧ l.image = i ∧
        l.dx = field k.bytes 16 2 ∧ l.dy = field k.bytes 18 2 ∧ l.dz = field k.bytes 20 2 ∧ l.args = as ∧ l.qtab = ds ∧ l.tasks = false ∧
        l.placed = [] ∧ l.prio = (k.bytes.getD 2 0).toNat) ∧
      ∃ j, t.cmd? q n = some j ∧ j.started = true ∧ j.ended = none ∧ j.launch = some id) ∧
  (∀ (s : State) (q n : Nat) (k : HostCmd), startable s q n 1 = some k → launchBad k.bytes = true →
    Completes (exec (.launch q n) s) (cmdEnds · q n 2)) ∧
  (∀ (s : State) (q n : Nat) (k : HostCmd), q < 256 → s.cmd? q n = some k → k.ended = some 0 → k.done = false → k.bar = 0 →
    let c := (s.hostQueue q).ctx
    commandsRun (s.ctx c).state = true → k.recorded = false → (s.ctx c).ring.held = [] →
    (s.ctx c).ring.used < 2 ^ (s.ctx c).ring.size →
    Completes (exec (.commandComplete q n) s) fun t => (t.hostQueue q).done = (s.hostQueue q).done + 1 ∧
      (t.ctx c).ring.prod = (s.ctx c).ring.prod + (if (k.bytes.getD 1 0).getLsbD 0 then 1 else 0) ∧
      (MemoriesOk s → (k.bytes.getD 1 0).getLsbD 0 = true →
        busRead t ((s.ctx c).ring.base.toNat + 32 * ((s.ctx c).ring.prod.toNat % 2 ^ (s.ctx c).ring.size)) 32 =
          leBytes 8 s.time ++ leBytes 4 k.tag.toNat ++ [0, 0] ++ leBytes 2 q ++ leBytes 4 k.seq.toNat ++ [BitVec.ofNat 8 k.opcode, 0, 0, 0] ++
            leBytes 4 k.count ++ [BitVec.ofNat 8 c, 1, 0, 0])) ∧
  (∀ (s : State) (n : Nat) (l : Launch), tsorted s.launches = true → s.launch? n = some l → launchOver s n l = true →
    commandsRun (s.ctx l.ctx).state = true ∨ (s.ctx l.ctx).state = .halting → Completes (exec (.launchComplete n) s) fun t => t.launch? n = none ∧ ∀ p ∈ t.teams, p.2.launch = n → p.2.task = true)

/-! ## Teams and tasks -/

/-- R62, R124, R125, R144, R145, R149, R150: a bind record with its slot empty is written. A waiting team that can start
stands in its slots: a resident team on its core, each thread at the stage's entry, its predicates and FPX clear and its
rounding mode the context's FRM, every flag clear. A core without resident team takes the carve-out of a waiting record. The
gatherer forms a group of the oldest task when its time is over; an idle core takes the oldest group formed, when no work of
a higher priority waits for its partition (whose priority that is, is the model's reading: log entry 72), or its request
waits. A group whose threads have all exited, with nothing outstanding, is gone, and with its team's last group the team is
retired. The readings and choices of the model behind it: log entries 58, 59, 63, 69, 72. -/
def Obligations.TeamEvents : Prop :=
  (∀ (s : State) (k i : Nat) (b : BitVec 128), i < 60 → k < 192 → (parseBind b s.tick).op = 1 → tget (s.core k).slots i = none →
    recWaits s k i = true → Completes (exec (.bindRecordWrite k i b) s) fun t => tget (t.core k).slots i = some (parseBind b s.tick)) ∧
  (∀ (s : State) (k n tslot : Nat) (r : BindRec) (l : Launch) (im : Image) (entry : VA) (recs : List (Nat × BindRec)),
    teamRecs s k tslot = some ((n, r) :: recs, l, im) → (startTeam s k tslot).isSome = true → yieldsSlot s k tslot = false → stageEntry im r.stage = some entry →
    Completes (exec (.teamStart k tslot) s) fun t => ∃ i tm, t.team? i = some tm ∧ tm.state = .resident ∧ tm.core = k ∧ tm.stage = r.stage ∧
      tm.groups = ((n, r) :: recs).map (fun p => 64 * k + p.1) ∧ ∀ g ∈ tm.groups, ∃ gr, t.group? g = some gr ∧ gr.team = i ∧
        gr.phase = .running ∧ gr.flags = Vector.replicate 12 0 ∧ ∀ j, j < 32 → (lane gr.threads j).live = true ∧
          (lane gr.threads j).at_ = ⟨entry, 0, true⟩ ∧ (lane gr.threads j).rm = (s.ctx l.ctx).frm ∧ (lane gr.threads j).fpx = 0 ∧
          (lane gr.threads j).preds = 0) ∧
  (∀ (s : State) (k i : Nat) (r : BindRec), waitingRecs s k = [(i, r)] → residentTeams s k = [] → r.carve ≤ 8 →
    Completes (exec (.carveOutChange k) s) fun t => (t.core k).carve = r.carve) ∧
  (∀ (s : State) (c d : Nat), (s.taskQueue c d).queued ≠ [] → (s.taskQueue c d).requests ≠ [] →
    (s.taskQueue c d).oldestSince + s.gather ≤ s.realTime → Completes (exec (.gatherTimerExpiry c d) s) fun t =>
      ∃ ts rest, (t.taskQueue c d).formed = (s.taskQueue c d).formed ++ ts :: rest ∧ ts.head? = (s.taskQueue c d).queued.head? ∧ ts.length ≤ 32 ∧
        ∀ x ∈ ts, ∀ y ∈ ts, x.entry = y.entry) ∧
  (∀ (s : State) (c k : Nat), (s.ctx c).state = .running → (s.partMask c).getLsbD (sliceOfCore k) = true → s.coreUsable k = true →
    (s.taskQueue c (k / 48)).formed = [] → (s.taskQueue c (k / 48)).queued ≠ [] → k ∉ (s.taskQueue c (k / 48)).requests →
    Completes (exec (.taskGroupPop c k) s) fun t => k ∈ (t.taskQueue c (k / 48)).requests) ∧
  (∀ (s s' : State) (c k : Nat) (ts : List Task) (rest : List (List Task)), (s.ctx c).state = .running →
    (s.partMask c).getLsbD (sliceOfCore k) = true → s.coreUsable k = true → (s.taskQueue c (k / 48)).formed = ts :: rest →
    outranked s c (formedPrio s c (k / 48)) = false → startTasks s c k ts = some s' → Completes (exec (.taskGroupPop c k) s) fun t => (t.taskQueue c (k / 48)).formed = rest ∧
      ∃ g gr, t.group? g = some gr ∧ g / 64 = k ∧ gr.ctx = c ∧ ∀ l, l < 32 → (lane gr.threads l).present = decide (l < ts.length) ∧
        (l < ts.length → (lane gr.threads l).rm = (s.ctx c).frm)) ∧
  (∀ (s : State) (g : Nat) (gr : Group) (tm : Team), tsorted s.groups = true → s.group? g = some gr → liveMask gr = 0 → gr.ops = [] →
    gr.issue = none → gr.phase = .running → lineAsserted s gr.ctx = false → strayCopy s gr = false → s.team? gr.team = some tm →
    (tm.groups.filter (· != g) ≠ [] ∨ tm.saved ≠ [] →
      Completes (exec (.groupRetire g) s) fun t => t.group? g = none ∧ ∃ tm', t.team? gr.team = some tm' ∧ tm'.groups = tm.groups.filter (· != g)) ∧
    (tm.groups.filter (· != g) = [] → tm.saved = [] → tm.held = [] → teamCopies s gr.team = false → tm.task = false → ∀ l, s.launch? tm.launch = some l →
      Completes (exec (.groupRetire g) s) fun t => t.group? g = none ∧ (t.team? gr.team).map (·.state) = some .retired ∧
        (t.launch? tm.launch).map (·.retired) = some (l.retired + 1)))

/-! ## Management requests -/

namespace Sys2Proof.Claims

/-- Bytes `lo` to `hi − 1` of a request are zero. -/
def ZeroArgs (r : Request) (lo hi : Nat) : Prop := ∀ i, lo ≤ i → i < hi → r.arg i 1 = 0

/-- `r` is the one request in flight, with opcode `op`; the ring holds no further one. -/
structure InFlight (s : State) (op : Nat) (r : Request) : Prop where
  one : s.mgmt.inflight = [r]
  opcode : r.opcode = op
  ring : s.mgmt.mrqtail = s.mgmt.mrqhead
  memories : MemoriesOk s

/-- Its turn to start has come, with space for its completion (R109, R112); bytes 1 to 3 are zero. -/
structure Turn (s : State) (op : Nat) (r : Request) : Prop extends InFlight s op r where
  start : canStart s r = true
  zero : ZeroArgs r 1 4
  fresh : r.phase = 0

/-- It has started and has reached `phase`; its completion finds space. -/
structure Going (s : State) (op phase : Nat) (r : Request) : Prop extends InFlight s op r where
  started : r.started = true
  phase : r.phase = phase
  held : s.mgmt.held = []
  space : (s.mgmt.mcqprod - s.mgmt.mcqcons).toNat < 2 ^ s.mgmt.mcqsize

/-- Where the next completion goes (R108). -/
def completionAt (s : State) : Nat := s.mgmt.mcqbase.toNat + 32 * (s.mgmt.mcqprod.toNat % 2 ^ s.mgmt.mcqsize)

/-- Between `s` and `t` the request has completed: it is in flight no more, and the completion of Table 4-13 stands in the
ring. -/
def Answered (s : State) (r : Request) (status detail : Nat) (result : List Byte) (t : State) : Prop :=
  t.mgmt.inflight = [] ∧ t.mgmt.mcqprod = s.mgmt.mcqprod + 1 ∧
  busRead t (completionAt s) 32 = leBytes 8 s.time ++ wordBytes r.tag ++ leBytes 1 status ++ leBytes 1 r.opcode ++ leBytes 2 detail ++
    (result ++ List.replicate 16 0).take 16

/-- The request is in flight still, started, and satisfies `p`. -/
def StillGoing (r : Request) (p : Request → Prop) (t : State) : Prop :=
  ∃ r', t.mgmt.inflight = [r'] ∧ r'.n = r.n ∧ r'.started = true ∧ r'.args = r.args ∧ p r'

/-- The events of the 22 requests with their opcodes (Table 4-15). -/
def requestRows : List (Instr × Nat) :=
  [(.create, 0x01), (.kill, 0x02), (.resume, 0x03), (.debugHalt, 0x04), (.assign, 0x05), (.partition, 0x06), (.qassign, 0x07),
    (.inval, 0x10), (.unclass, 0x11), (.pin, 0x12), (.unpin, 0x13), (.bias, 0x14), (.classq, 0x15), (.lrec, 0x16), (.retlist, 0x17),
    (.dbgset, 0x20), (.dbgread, 0x21), (.mcread, 0x30), (.attest, 0x31), (.power, 0x40), (.setparam, 0x41), (.domain, 0x42)]

end Sys2Proof.Claims

/-- R108 to R111, Tables 4-13 and 4-14: a tail one further makes the firmware fetch the 128 bytes of the request; an unknown
opcode completes BADOP. A tail that covers more than the ring completes BADTAIL and disables the rings. A completion that
waited for space is written when the consumer moves on. Any request whose byte 1 is not zero completes BADARG with DETAIL 1.
The readings and choices of the model behind it: log entries 7, 48, 94. -/
def Obligations.RequestRings : Prop :=
  (∀ s : State, s.mgmt.inflight = [] → s.mgmt.en = true → firmwareUp s = true →
    let a := s.mgmt.mrqbase.toNat + 128 * (s.mgmt.mrqhead.toNat % 2 ^ s.mgmt.mrqsize)
    let b := busRead s a 128
    lineLost s a = false →
    ((b.getD 0 0).toNat ∈ requestRows.map (·.2) → Completes (exec (.mrqtailWrite (s.mgmt.mrqhead + 1)) s) fun t =>
      t.mgmt.mrqhead = s.mgmt.mrqhead + 1 ∧ ∃ r, t.mgmt.inflight = [r] ∧ r.args = b ∧ r.opcode = (b.getD 0 0).toNat ∧ r.started = false) ∧
    ((b.getD 0 0).toNat ∉ requestRows.map (·.2) → s.mgmt.held = [] →
      (s.mgmt.mcqprod - s.mgmt.mcqcons).toNat < 2 ^ s.mgmt.mcqsize → MemoriesOk s →
      Completes (exec (.mrqtailWrite (s.mgmt.mrqhead + 1)) s) fun t => t.mgmt.inflight = [] ∧ t.mgmt.mcqprod = s.mgmt.mcqprod + 1 ∧
        (busRead t (completionAt s) 32).getD 12 0 = 1)) ∧
  (∀ (s : State) (v : Word), s.mgmt.en = true → firmwareUp s = true → s.mgmt.inflight = [] → 2 ^ s.mgmt.mrqsize < (v - s.mgmt.mrqhead).toNat →
    s.mgmt.held = [] → (s.mgmt.mcqprod - s.mgmt.mcqcons).toNat < 2 ^ s.mgmt.mcqsize → MemoriesOk s →
    Completes (exec (.mrqtailWrite v) s) fun t => t.mgmt.en = false ∧ t.mgmt.mrqtail = v ∧ t.mgmt.mcqprod = s.mgmt.mcqprod + 1 ∧
      (busRead t (completionAt s) 32).getD 12 0 = 7) ∧
  (∀ (s : State) (v : Word) (b : List Byte), s.mgmt.held = [b] → s.mgmt.inflight = [] → s.mgmt.mrqtail = s.mgmt.mrqhead →
    s.boot.stage ≠ 0 → MemoriesOk s → b.length = 32 → (s.mgmt.mcqprod - v).toNat < 2 ^ s.mgmt.mcqsize → Completes (exec (.mcqconsWrite v) s) fun t =>
      t.mgmt.mcqcons = v ∧ t.mgmt.held = [] ∧ t.mgmt.mcqprod = s.mgmt.mcqprod + 1 ∧ busRead t (completionAt s) 32 = b) ∧
  ∀ p ∈ requestRows, ∀ (s : State) (r : Request), InFlight s p.2 r → canStart s r = true → r.arg 1 1 ≠ 0 →
    Completes (exec p.1 s) (Answered s r 2 1 [])

namespace Sys2Proof.Claims

/-- The context that byte 8 of a request names. -/
def ctxOf (r : Request) : Nat := r.arg 8 1

/-- Ready, Saved or Halted. -/
def AtRest (x : CtxState) : Prop := x = .ready ∨ x = .saved ∨ x = .halted

end Sys2Proof.Claims

/-- R83, R84, R108 to R112, R141, R381, R388, R391, R392, Tables 4-2 and 4-15: what the requests about contexts do. CREATE
takes the lowest free context, checks its images, pins their code and makes it Ready. KILL makes a context Killed, with
nothing of it left in a unit; once its pins are gone and its commands have ended it is Free. RESUME takes a Halted context to
Restoring. DEBUG-HALT takes a Running one to Halting and completes when it is Halted. ASSIGN names its partition; PARTITION
sets the eight masks and slices; QASSIGN binds a queue or frees it. DBGSET sets up the descriptor or ends it (that a
descriptor in a line that cannot be read is refused is the model's choice, log entry 94); DBGREAD writes the lane-cycle
record, and with CLEAR its counts are zero. The readings and choices of the model behind it: log entries 47, 48, 83, 94. -/
def Obligations.ContextRequests : Prop :=
  (∀ (s : State) (r : Request) (c : Nat), Turn s 0x01 r → firstBad (createBad s r) = none → c < 256 → (s.ctx c).state = .free →
    (∀ d, d < c → (s.ctx d).state ≠ .free) → Completes (exec .create s) fun t => StillGoing r (fun r' => r'.result = [BitVec.ofNat 8 c] ∧ r'.phase = 1) t ∧
      let x := t.ctx c
      x.state = .loading ∧ x.root = r.arg 8 8 ∧ x.stopArea = r.arg 16 8 ∧ x.poolLen = r.arg 32 8 ∧ x.grace = r.arg 44 2 ∧
      x.btmo = r.arg 46 2 ∧ x.tvec = BitVec.ofNat 57 (r.arg 56 8) ∧ (x.sd = true ↔ r.arg 42 1 = 1)) ∧
  (∀ (s : State) (r : Request), Turn s 0x01 r → firstBad (createBad s r) = none → (∀ c, c < 256 → (s.ctx c).state ≠ .free) →
    Completes (exec .create s) (Answered s r 6 0 [])) ∧
  (∀ (s : State) (r : Request) (c : BitVec 8), Going s 0x01 1 r → r.result = [c] → s.boot.minimal = false →
    let base (i : Nat) : Nat := leNat (mread s.mem (r.arg 48 8 + 8 * i) 8) % 2 ^ 57
    (∀ i, i < r.arg 41 1 → lineLost s (r.arg 48 8 + 8 * i) = false) →
    (∀ i, i < r.arg 41 1 → (∀ j, j < i → imageRefusal s c.toNat (base j) = 0) → imageRefusal s c.toNat (base i) ≠ 0 →
      Completes (exec .create s) fun t => (t.ctx c.toNat).state = .free ∧ Answered s r 5 (imageRefusal s c.toNat (base i) + 256 * i) [] t) ∧
    ((∀ i, i < r.arg 41 1 → imageRefusal s c.toNat (base i) = 0) → Completes (exec .create s) fun t =>
      (t.ctx c.toNat).images.map (·.base.toNat) = (List.range (r.arg 41 1)).map base ∧ StillGoing r (fun r' => r'.phase = 2) t)) ∧
  (∀ (s : State) (r : Request) (c : BitVec 8), Going s 0x01 2 r → r.result = [c] →
    (∀ w ∈ r.waiting, tget s.transits (w / 4) = none ∧ (s.classOf (w / 4)).cls = 6) →
    Completes (exec .create s) fun t => (t.ctx c.toNat).state = .ready ∧ Answered s r 0 0 [c] t) ∧
  (∀ (s : State) (r : Request), Turn s 0x02 r → ZeroArgs r 9 128 → tsorted s.groups = true → tsorted s.copies = true → (s.ctx (ctxOf r)).state ≠ .free →
    (s.ctx (ctxOf r)).state ≠ .halting → (s.ctx (ctxOf r)).state ≠ .killed → Completes (exec .kill s) fun t =>
      (t.ctx (ctxOf r)).state = .killed ∧ (∀ p ∈ t.groups, p.2.ctx ≠ ctxOf r) ∧ (∀ p ∈ t.copies, p.2.ctx ≠ ctxOf r) ∧
      (∀ p ∈ t.teams, p.2.ctx ≠ ctxOf r) ∧ (∀ p ∈ t.launches, p.2.ctx ≠ ctxOf r) ∧ StillGoing r (fun r' => r'.phase = 2) t) ∧
  (∀ (s : State) (c : Nat), (s.ctx c).state = .killed → ownPins s c = [] →
    (∀ p ∈ s.hostQueues, p.2.ctx = c → ∀ k ∈ p.2.cmds, k.done = true) → Completes (exec (.contextFreed c) s) fun t => (t.ctx c).state = .free) ∧
  (∀ (s : State) (r : Request), Going s 0x02 2 r → (s.ctx (ctxOf r)).state = .free → Completes (exec .kill s) (Answered s r 0 0 [])) ∧
  (∀ (s : State) (r : Request), Turn s 0x03 r → ZeroArgs r 9 128 → (s.ctx (ctxOf r)).state = .halted →
    ((s.ctx (ctxOf r)).ring.held = [] → (∀ p ∈ s.hostQueues, p.2.ctx = ctxOf r → ∀ i, i < 2 ^ p.2.size → lineLost s (p.2.base.toNat + 64 * i) = false) → Completes (exec .resume s) fun t => (t.ctx (ctxOf r)).state = .restoring ∧
      (t.ctx (ctxOf r)).firstFault = none ∧ Answered s r 0 0 [] t) ∧
    ((s.ctx (ctxOf r)).ring.held ≠ [] → Completes (exec .resume s) (Answered s r 3 0 []))) ∧
  (∀ (s : State) (r : Request), Turn s 0x03 r → ZeroArgs r 9 128 → (s.ctx (ctxOf r)).state = .running →
    Completes (exec .resume s) (Answered s r 4 (3 + 256 * ctxOf r) [])) ∧
  (∀ (s : State) (r : Request), Turn s 0x04 r → ZeroArgs r 9 128 → (s.ctx (ctxOf r)).state = .running →
    Completes (exec .debugHalt s) fun t => (t.ctx (ctxOf r)).state = .halting ∧ (t.ctx (ctxOf r)).haltTime = s.time ∧
      (t.ctx (ctxOf r)).firstFault = some ⟨0x28, 0, 0xFF, 0⟩ ∧ StillGoing r (fun r' => r'.phase = 1) t) ∧
  (∀ (s : State) (r : Request), Going s 0x04 1 r → (s.ctx (ctxOf r)).state = .halted → Completes (exec .debugHalt s) (Answered s r 0 0 [])) ∧
  (∀ (s : State) (r : Request) (p : Fin 8), Turn s 0x05 r → ZeroArgs r 10 128 → r.arg 9 1 = p.val → AtRest (s.ctx (ctxOf r)).state →
    (s.parts[p].mask ≠ 0 → Completes (exec .assign s) fun t => (t.ctx (ctxOf r)).assigned = some p.val ∧ Answered s r 0 0 [] t) ∧
    (s.parts[p].mask = 0 → Completes (exec .assign s) (Answered s r 6 0 []))) ∧
  (∀ (s : State) (r : Request), Turn s 0x06 r → ZeroArgs r 48 128 → s.boot.minimal = false →
    (∀ i, i < 8 → ∃ p, p < 8 ∧ (r.arg (8 + p) 1).testBit i = true ∧ ∀ q, q < 8 → (r.arg (8 + q) 1).testBit i = true → q = p) →
    (∀ p, p < 8 → 500 ≤ r.arg (16 + 4 * p) 4 ∧ r.arg (16 + 4 * p) 4 ≤ 100000) →
    (∀ c, c < 256 → (s.ctx c).state = .free ∨ AtRest (s.ctx c).state) → Completes (exec .partition s) fun t =>
      (∀ p : Fin 8, t.parts[p].mask = BitVec.ofNat 8 (r.arg (8 + p.val) 1) ∧ t.parts[p].slice = r.arg (16 + 4 * p.val) 4) ∧ Answered s r 0 0 [] t) ∧
  (∀ (s : State) (r : Request), Turn s 0x07 r → ZeroArgs r 11 128 → r.arg 8 2 ≤ 255 →
    let q := r.arg 8 2
    let c := r.arg 10 1
    (c ≠ 255 → (s.ctx c).state ≠ .free → (s.ctx c).state ≠ .killed → (s.hostQueue q).state = .unbound → Completes (exec .qassign s) fun t =>
      (t.hostQueue q).state = .bound ∧ (t.hostQueue q).ctx = c ∧ Answered s r 0 0 [] t) ∧
    (c = 255 → (s.hostQueue q).state = .bound ∨ (s.hostQueue q).state = .closed → Completes (exec .qassign s) fun t =>
      (t.hostQueue q).state = .unbound ∧ Answered s r 0 0 [] t)) ∧
  (∀ (s : State) (r : Request), Turn s 0x20 r → ZeroArgs r 9 16 → ZeroArgs r 24 128 → AtRest (s.ctx (ctxOf r)).state →
    let a := r.arg 16 8
    let b := mread s.mem a 1088
    (a = 0 → Completes (exec .dbgset s) fun t => (t.ctx (ctxOf r)).debug = none ∧ (t.ctx (ctxOf r)).dbg = false ∧ Answered s r 0 0 [] t) ∧
    (a ≠ 0 → a % 64 = 0 → badBuffer s a 1088 = false → descriptorOk b = true → debugPlace s b = true → (∀ i, i < 9 → lineLost s (a + 128 * i) = false) → Completes (exec .dbgset s) fun t =>
      (t.ctx (ctxOf r)).debug = some (parseDebug a b) ∧ Answered s r 0 0 [] t) ∧
    (a ≠ 0 → a % 64 = 0 → badBuffer s a 1088 = false →
      descriptorOk b = false ∨ debugPlace s b = false ∨ (∃ i, i < 9 ∧ lineLost s (a + 128 * i) = true) → Completes (exec .dbgset s) (Answered s r 2 16 []))) ∧
  (∀ (s : State) (r : Request) (d : Debug), Turn s 0x21 r → ZeroArgs r 10 128 → r.arg 9 1 ≤ 1 → (s.ctx (ctxOf r)).state ≠ .free →
    (s.ctx (ctxOf r)).debug = some d → d.profbase ≠ 0 → completionAt s + 32 ≤ d.profbase ∨ d.profbase + 880 ≤ completionAt s →
    Completes (exec .dbgread s) fun t => mread t.mem d.profbase 880 = profileRecord s.time (ctxOf r) d ∧ Answered s r 0 0 [] t ∧
      (t.ctx (ctxOf r)).debug = some (if r.arg 9 1 = 1 then { d with counts := [], idle := 0, depevt := 0, runcyc := 0 } else d))

namespace Sys2Proof.Claims

/-- In `t` unit `u` has taken class `cls` with size `code`, or, while TLBs of the module or peers hold its class, a
transition to them is in progress for the request (R270, R271). -/
def Transits (s t : State) (r : Request) (u cls code : Nat) : Prop :=
  if classHolders s u = [] ∧ ((s.classOf u).rhold = true → peerUnits s = []) then
    (t.classOf u).cls = cls ∧ (t.classOf u).unit = code ∧ tget t.transits u = none
  else ∃ x, tget t.transits u = some x ∧ x.newCls = cls ∧ x.newUnit = code ∧ x.trigger = .request r.n

/-- Nobody has come to unit `u` before, and no transition or flip is there. -/
def unitQuiet (s : State) (u : Nat) : Prop := tget s.tickets u = none ∧ tget s.transits u = none

/-- An address of device memory. -/
def deviceAddress (s : State) (a : Nat) : Prop := a < 2 ^ 39 ∧ s.boot.minimal = false

/-- Granule `g` lies in the range of a BIAS request. -/
def inFlip (r : Request) (g : Nat) : Prop := r.arg 16 8 / 4096 ≤ g ∧ g < r.arg 16 8 / 4096 + r.arg 24 8 / 4096

end Sys2Proof.Claims

/-- R260, R272 to R274, R378, R404, Tables 11-3 and 11-6: what the requests about pages do. INVAL leaves no translation of
the range in a TLB of the module. PIN takes a unit to the named pin, UNPIN takes a pin to Untouched and leaves another class
as it is, UNCLASS takes a unit that is no pin to Untouched. BIAS goes through the units of its range: that of the lowest
granule whose bit it has to change turns Pin-Shared, its bits set last, or is held while the host's lines of it are snooped,
and then has the named class and its bits clear; it ends when every granule has the bias. CLASSQ answers the entry of a
granule, after a transition in progress; LREC clears the coherence-lost mark and the poison of a line; RETLIST writes the
retired granules. The readings and choices of the model behind it: log entries 49, 75, 106, 107. -/
def Obligations.PageRequests : Prop :=
  (∀ (s : State) (r : Request), Turn s 0x10 r → ZeroArgs r 9 16 → ZeroArgs r 32 128 → r.arg 16 8 % 4096 = 0 → r.arg 24 8 % 4096 = 0 →
    r.arg 16 8 < 2 ^ 57 → r.arg 16 8 + r.arg 24 8 ≤ 2 ^ 57 → (s.ctx (ctxOf r)).state ≠ .free → accessOut s (ctxOf r) = false →
    Completes (exec .inval s) fun t =>
      Answered s r 0 0 [] t ∧ ∀ k, ∀ e ∈ (tget t.tlbs k).getD [], e ∈ (tget s.tlbs k).getD [] ∧
        (e.ctx = ctxOf r → e.size = 0 ∨ r.arg 24 8 = 0 ∨ e.page + e.size ≤ r.arg 16 8 ∨ r.arg 16 8 + r.arg 24 8 ≤ e.page)) ∧
  (∀ (s : State) (r : Request), Turn s 0x12 r → ZeroArgs r 8 16 → ZeroArgs r 26 128 → deviceAddress s (r.arg 16 8) →
    4 ≤ r.arg 24 1 → r.arg 24 1 ≤ 6 → r.arg 25 1 ≤ 2 → sizeClash s (r.arg 16 8 / 4096) (r.arg 25 1) = false →
    let u := unitHead (r.arg 16 8 / 4096) (r.arg 25 1)
    unitQuiet s u → Completes (exec .pin s) fun t => Transits s t r u (r.arg 24 1) (r.arg 25 1) ∧
      (tget t.transits u = none → Answered s r 0 0 [] t)) ∧
  (∀ (s : State) (r : Request), Turn s 0x13 r → ZeroArgs r 8 16 → ZeroArgs r 24 128 → deviceAddress s (r.arg 16 8) →
    let u := (unitAt s (r.arg 16 8)).1
    unitQuiet s u →
    (4 ≤ (unitAt s (r.arg 16 8)).2.cls → Completes (exec .unpin s) fun t => Transits s t r u 0 0 ∧ (tget t.transits u = none → Answered s r 0 0 [] t)) ∧
    ((unitAt s (r.arg 16 8)).2.cls < 4 → Completes (exec .unpin s) fun t => t.classes = s.classes ∧ Answered s r 0 0 [] t)) ∧
  (∀ (s : State) (r : Request), Turn s 0x11 r → ZeroArgs r 8 16 → ZeroArgs r 24 128 → deviceAddress s (r.arg 16 8) →
    let u := (unitAt s (r.arg 16 8)).1
    unitQuiet s u →
    ((unitAt s (r.arg 16 8)).2.cls < 4 → Completes (exec .unclass s) fun t => Transits s t r u 0 0 ∧ (tget t.transits u = none → Answered s r 0 0 [] t)) ∧
    (4 ≤ (unitAt s (r.arg 16 8)).2.cls → Completes (exec .unclass s) (Answered s r 2 16 []))) ∧
  (∀ p ∈ [(Instr.unclass, 0x11), (.pin, 0x12), (.unpin, 0x13)], ∀ (s : State) (r : Request), Going s p.2 2 r →
    tget s.transits (r.waiting.headD 0) = none → Completes (exec p.1 s) (Answered s r 0 0 [])) ∧
  (∀ (s : State) (r : Request), Turn s 0x14 r → ZeroArgs r 8 16 → ZeroArgs r 34 128 → deviceAddress s (r.arg 16 8) →
    r.arg 16 8 % 4096 = 0 → r.arg 24 8 % 4096 = 0 → r.arg 16 8 + r.arg 24 8 ≤ 2 ^ 39 → partUnit s (r.arg 16 8) (r.arg 24 8) = false → r.arg 32 1 ≤ 1 →
    r.arg 33 1 = 0 ∨ 4 ≤ r.arg 33 1 ∧ r.arg 33 1 ≤ 6 →
    Completes (exec .bias s) (StillGoing r fun r' => r'.phase = 1 ∧ r'.waiting = r.waiting)) ∧
  (∀ (s : State) (r : Request) (g : Nat), Going s 0x14 1 r → r.waiting = [] → inFlip r g → s.bias.contains g ≠ (r.arg 32 1 == 1) →
    (∀ h, h < g → inFlip r h → s.bias.contains h = (r.arg 32 1 == 1)) →
    let u := ((coverOf s g).map (·.1)).getD g
    u < 2 ^ 27 → unitQuiet s u → (s.classOf u).rhold = false → classHolders s u = [] →
    (r.arg 32 1 = 1 → Completes (exec .bias s) fun t => StillGoing r (fun r' => r'.phase = 1 ∧ r'.waiting = []) t ∧ (t.classOf u).cls = 4 ∧
      ∀ g, u ≤ g → g < u + unitGranules (s.classOf u).unit → g ∈ t.bias) ∧
    (r.arg 32 1 ≠ 1 → Completes (exec .bias s) fun t => StillGoing r (fun r' => r'.phase = 1 ∧ r'.waiting = [u]) t ∧ t.bias = s.bias)) ∧
  (∀ (s : State) (r : Request) (u : Nat), Going s 0x14 1 r → r.waiting = [u] → r.arg 32 1 ≠ 1 → u < 2 ^ 27 →
    let inside (l : Nat) : Prop := u ≤ l / 64 ∧ l / 64 < u + unitGranules (s.classOf u).unit
    ((∃ l ∈ s.snoop, inside l) → Completes (exec .bias s) fun t => (∀ l ∈ s.snoop, inside l → l ∈ t.snoopInv) ∧ t.bias = s.bias ∧
      StillGoing r (fun r' => r'.phase = 1 ∧ r'.waiting = [u]) t) ∧
    ((∀ l ∈ s.snoop, ¬ inside l) → tget s.transits u = none → (s.classOf u).rhold = false → classHolders s u = [] → Completes (exec .bias s) fun t =>
      StillGoing r (fun r' => r'.phase = 1 ∧ r'.waiting = []) t ∧ (t.classOf u).cls = r.arg 33 1 ∧
      ∀ g, u ≤ g → g < u + unitGranules (s.classOf u).unit → g ∉ t.bias)) ∧
  (∀ (s : State) (r : Request) (u : Nat), Going s 0x14 2 r → r.waiting = [u] → tget s.transits u = none →
    Completes (exec .bias s) fun t => StillGoing r (fun r' => r'.phase = 1 ∧ r'.waiting = []) t ∧
      (r.arg 32 1 = 1 → ∀ g, u ≤ g → g < u + unitGranules (s.classOf u).unit → g ∈ t.bias)) ∧
  (∀ (s : State) (r : Request), Going s 0x14 1 r → r.waiting = [] → (∀ g, inFlip r g → s.bias.contains g = (r.arg 32 1 == 1)) →
    Completes (exec .bias s) (Answered s r 0 0 [])) ∧
  (∀ (s : State) (r : Request), Turn s 0x15 r ∧ ZeroArgs r 8 16 ∧ ZeroArgs r 24 128 ∧ deviceAddress s (r.arg 16 8) ∨ Going s 0x15 1 r →
    let g := r.arg 16 8 / 4096
    let u := (unitAt s (r.arg 16 8)).1
    let e := s.classOf g
    (tget s.transits u = none → (∀ p ∈ (tget s.tickets u).getD [], p = requestParty r) →
      Completes (exec .classq s) (Answered s r 0 0 (leBytes 8 (e.cls + 2 ^ 3 * e.unit + (if e.written then 2 ^ 5 else 0) +
        (if (tget s.transits g).isSome then 2 ^ 6 else 0) + 2 ^ 16 * e.owner.toNat + 2 ^ 48 * e.hold.toNat + (if e.rhold then 2 ^ 56 else 0))))) ∧
    (tget s.transits u ≠ none → Completes (exec .classq s) (StillGoing r fun r' => r'.phase = 1))) ∧
  (∀ (s : State) (r : Request), Turn s 0x16 r → ZeroArgs r 8 16 → ZeroArgs r 24 128 → deviceAddress s (r.arg 16 8) → r.arg 16 8 % 128 = 0 →
    Completes (exec .lrec s) fun t => r.arg 16 8 / 128 ∉ t.coherenceLost ∧ r.arg 16 8 / 128 ∉ t.poison ∧ Answered s r 0 0 [] t) ∧
  (∀ (s : State) (r : Request), Turn s 0x17 r → ZeroArgs r 8 16 → ZeroArgs r 28 128 → badBuffer s (r.arg 16 8) (8 * r.arg 24 4) = false →
    let b := (s.retired.take (r.arg 24 4)).flatMap fun g => leBytes 8 (4096 * g)
    completionAt s + 32 ≤ r.arg 16 8 ∨ r.arg 16 8 + 8 * r.arg 24 4 ≤ completionAt s → Completes (exec .retlist s) fun t =>
      mread t.mem (r.arg 16 8) b.length = b ∧ Answered s r 0 0 (leBytes 4 s.retired.length) t)

/-- R19, R124, R269, R373, R399, R403: MCREAD writes the 32 bytes of a machine-check bank and, with CLEAR, empties it. ATTEST
writes a report that contains the nonce, the serial number, the digest and the security version of each accepted image and
the capacity fields, and answers its length; the bytes around them are free. POWER sets the limit, SETPARAM the gather or the
quiet time, DOMAIN the load-store domain, with EN of every Strait link, while no context is in use. The readings and choices
of the model behind it: log entries 13, 48, 78. -/
def Obligations.ModuleRequests : Prop :=
  (∀ (s : State) (r : Request), Turn s 0x30 r → r.arg 8 2 ≤ 191 → r.arg 10 1 ≤ 1 → ZeroArgs r 11 16 → ZeroArgs r 24 128 →
    badBuffer s (r.arg 16 8) 32 = false → completionAt s + 32 ≤ r.arg 16 8 ∨ r.arg 16 8 + 32 ≤ completionAt s → tsorted s.banks = true →
    Completes (exec .mcread s) fun t => mread t.mem (r.arg 16 8) 32 = (s.bank (r.arg 8 2)).bytes ∧ Answered s r 0 0 [] t ∧
      t.bank (r.arg 8 2) = if r.arg 10 1 = 1 then .reset else s.bank (r.arg 8 2)) ∧
  (∀ (s : State) (r : Request), Turn s 0x31 r → ZeroArgs r 36 128 → badBuffer s (r.arg 24 8) (r.arg 32 4) = false →
    let nonce := (r.args.drop 8).take 16
    let b := attestation s nonce
    b.length ≤ r.arg 32 4 → completionAt s + 32 ≤ r.arg 24 8 ∨ r.arg 24 8 + b.length ≤ completionAt s →
    Completes (exec .attest s) (fun t => mread t.mem (r.arg 24 8) b.length = b ∧ Answered s r 0 0 (leBytes 4 b.length) t) ∧
    nonce <:+: b ∧ leBytes 8 Config.serial.toNat <:+: b ∧ (∀ d ∈ s.boot.digests, leBytes 32 d.1.toNat <:+: b ∧ [d.2] <:+: b) ∧
    capacityBytes s <:+: b) ∧
  (∀ (s : State) (r : Request), Turn s 0x40 r → ZeroArgs r 10 128 →
    (1400 ≤ r.arg 8 2 → r.arg 8 2 ≤ 2800 → Completes (exec .power s) fun t => t.power.limit = r.arg 8 2 ∧ Answered s r 0 0 [] t) ∧
    (r.arg 8 2 < 1400 ∨ 2800 < r.arg 8 2 → Completes (exec .power s) (Answered s r 2 8 []))) ∧
  (∀ (s : State) (r : Request), Turn s 0x41 r → ZeroArgs r 9 12 → ZeroArgs r 16 128 →
    (r.arg 8 1 = 0 → r.arg 12 4 ≤ 65535 → Completes (exec .setparam s) fun t => t.gather = r.arg 12 4 ∧ t.quiet = s.quiet ∧ Answered s r 0 0 [] t) ∧
    (r.arg 8 1 = 1 → 100 ≤ r.arg 12 4 → r.arg 12 4 ≤ 1000000 → Completes (exec .setparam s) fun t =>
      t.quiet = r.arg 12 4 ∧ t.gather = s.gather ∧ Answered s r 0 0 [] t)) ∧
  (∀ (s : State) (r : Request), Turn s 0x42 r → ZeroArgs r 9 16 → ZeroArgs r 24 128 → s.boot.minimal = false → r.arg 8 1 ≤ 63 →
    (r.arg 16 8).testBit (r.arg 8 1) = true →
    ((∀ c, c < 256 → (s.ctx c).state = .free) → Completes (exec .domain s) fun t => t.domain.own = r.arg 8 1 ∧
      t.domain.members = BitVec.ofNat 64 (r.arg 16 8) ∧ (∀ l ∈ t.links.toList, l.en = true) ∧ Answered s r 0 0 [] t))

/-! ## Links, time, samples -/

/-- R369, R372: what the events of a Strait link do. A flit that FEC corrected counts; a good flit in sequence is taken once,
and any other leaves the sequence number; a link that is down takes none. Each flit that fails the CRC counts its own
replays, and its ninth failure fails the link. A replay request counts (whose replays REPLAYS counts is the model's choice,
log entry 87), and a ninth replay of one flit fails the link, as a replay that takes more than 10 µs does; one for a flit
that the retry buffer does not hold any more is never complete. From stage 2 on RETRAIN clears FAILED and starts training; a
link that may train, trained, is up and holds its switch port. Other links keep their state. R379: device time keeps to host
time by dialogues. PTMEN starts and ends them. A successful one shows its offset and counts; device time that is more than 1
ms behind steps forward, and otherwise an offset of more than 20 ns is slewed away; the third in a row below 100 ns sets
LOCKED. A failed one counts; after four in a row LOCKED clears and device time runs free. The readings and choices of the
model behind it: log entries 15, 50, 51, 73, 87, 88, 105. -/
def Obligations.LinksAndDeviceTime : Prop :=
  ((∀ (s : State) (n : Nat) (q : Word) (f ok : Bool), (s.link n).up = true → (s.link n).late s.realTime = false → Completes (exec (.straitFlitReceive n q f ok) s) fun t =>
    (t.link n).rxSeq = (if ok = true ∧ q = (s.link n).rxSeq then (s.link n).rxSeq + 1 else (s.link n).rxSeq) ∧
    (t.link n).feccor = (if f = true ∧ (s.link n).feccor ≠ -1 then (s.link n).feccor + 1 else (s.link n).feccor) ∧
    ∀ m, m % 18 ≠ n % 18 → t.link m = s.link m) ∧
  (∀ (s : State) (n : Nat) (q : Word) (f : Bool), (s.link n).up = true → (s.link n).late s.realTime = false → Completes (exec (.straitFlitReceive n q f false) s) fun t =>
    (naksOf (s.link n) q < 8 → (t.link n).up = true ∧ ∀ q', naksOf (t.link n) q' = if q' = q then naksOf (s.link n) q + 1 else naksOf (s.link n) q') ∧
    (8 ≤ naksOf (s.link n) q → (t.link n).up = false ∧ (t.link n).failed = true)) ∧
  (∀ (s : State) (n : Nat) (q : Word) (f ok : Bool), (s.link n).up = false → exec (.straitFlitReceive n q f ok) s = .next s) ∧
  (∀ (s : State) (n : Nat) (q : Word), (s.link n).up = true → (s.link n).late s.realTime = false → q ∈ (s.link n).sent → Completes (exec (.replayRequest n q) s) fun t =>
    (t.link n).replays = (if (s.link n).replays ≠ -1 then (s.link n).replays + 1 else -1) ∧
    (replaysOf (s.link n) q < 8 → (t.link n).up = true ∧ replaysOf (t.link n) q = replaysOf (s.link n) q + 1) ∧
    (8 ≤ replaysOf (s.link n) q → (t.link n).up = false ∧ (t.link n).failed = true)) ∧
  (∀ (s : State) (n : Nat) (q q' : Word) (f : Bool), (s.link n).up = true → (s.link n).late s.realTime = false → (s.link n).stuck = false → q ∉ (s.link n).sent →
    replaysOf (s.link n) q < 8 → Completes (exec (.replayRequest n q) s) fun t => (t.link n).up = true ∧ (t.link n).replays = (s.link n).replays ∧
      ∃ b, (t.link n).replayAt = some b ∧ Completes (exec (.straitFlitReceive n q' f true) t) fun u => (u.link n).replayAt = some b) ∧
  (∀ (s : State) (n b : Nat) (q : Word) (f ok : Bool), (s.link n).up = true → (s.link n).replayAt = some b ∨ (∃ k ∈ (s.link n).naks, k.at_ = some b) → b + 10000 ≤ s.realTime →
    ∀ i ∈ [Instr.linkReplayTimeout n, .straitFlitReceive n q f ok, .replayRequest n q],
      Completes (exec i s) fun t => (t.link n).up = false ∧ (t.link n).failed = true) ∧
  (∀ (s : State) (n : Nat), s.boot.stage < 2 → exec (.retrain n) s = .next s) ∧
  (∀ (s : State) (n : Nat), 2 ≤ s.boot.stage → Completes (exec (.retrain n) s) fun t => (t.link n).failed = false ∧ (t.link n).up = false ∧
    (t.link n).training = (s.link n).en ∧ ∀ m, m % 18 ≠ n % 18 → t.link m = s.link m) ∧
  (∀ (s : State) (n : Nat) (p : BitVec 6), (s.link n).en = true → (s.link n).up = false → (s.link n).failed = false → s.boot.stage = 2 →
    Completes (exec (.linkTrained n p) s) fun t => (t.link n).up = true ∧ (t.link n).peersw = p ∧ (t.link n).training = false)) ∧
  ((∀ (s : State) (b : Bool), s.boot.stage ≠ 0 → Completes (exec (.ptmenWrite b) s) fun t => t.timeBlock.ptmen = b ∧ t.time = s.time ∧
    t.timeBlock.period = s.timeBlock.period ∧ (b ≠ s.timeBlock.ptmen → t.timeBlock.slew = 0)) ∧
  (∀ (s : State) (x : Int), s.timeBlock.ptmen = true → s.timeBlock.next ≤ s.realTime → Completes (exec (.ptmDialogue true x) s) fun t =>
    t.timeBlock.ptmcnt = s.timeBlock.ptmcnt + 1 ∧ t.timeBlock.bad = 0 ∧ (-(2 ^ 31) < x → x < 2 ^ 31 → t.timeBlock.offset = x) ∧
    (1000000 < x → t.time = s.time + x.toNat) ∧ (x ≤ 1000000 → t.time = s.time) ∧ t.timeBlock.next = t.realTime + 1000000 * s.timeBlock.period ∧
    (x ≤ 1000000 → 20 < x.natAbs → t.timeBlock.slew = x) ∧ (x.natAbs ≤ 20 → t.timeBlock.slew = 0) ∧
    (x.natAbs < 100 → 2 ≤ s.timeBlock.good → t.timeBlock.locked = true)) ∧
  (∀ (s : State) (x : Int), s.timeBlock.ptmen = true → s.timeBlock.next ≤ s.realTime → Completes (exec (.ptmDialogue false x) s) fun t =>
    t.timeBlock.ptmfail = s.timeBlock.ptmfail + 1 ∧ t.timeBlock.good = 0 ∧ t.time = s.time ∧
    (3 ≤ s.timeBlock.bad → t.timeBlock.locked = false ∧ t.timeBlock.slew = 0)))

/-- R393: BKPT stops its group with fault 0x28, VALUE 0xFF and FLANES the active lanes, and its context turns from Running to
Halting. R389, R394: TMARK passes, and with tracing of its kind enabled, room in the buffer and a team it writes one record
of KIND 1, with imm10 as its CODE and the lowest active lane's va as its DATA, at its place in the buffer; then TRCOUNT
rises. With the buffer full and TRMODE[0] 0 the record is discarded and DROPS rises. R390: a quadrant samples the next
occupied slot of its context, wrapping round: one record more, while its kind is enabled and the buffer has space. The
readings and choices of the model behind it: log entries 11, 79. -/
def Obligations.BreakpointsMarksAndSamples : Prop :=
  (∀ (i : BitVec 17) (s : State) (c : Ctl), InProgress s c → Completes (exec (.bkpt i) s) fun t =>
    (∃ gr, t.group? c.g = some gr ∧ gr.phase = .stopped ∧ gr.fault = some ⟨0x28, c.act, 0xFF, c.word⟩ ∧ gr.issue = none) ∧
    ((s.ctx c.gr.ctx).state = .running → (t.ctx c.gr.ctx).state = .halting)) ∧
  ((∀ (a : Reg) (i : BitVec 10) (s : State) (c : Ctl), Runs s c [(a, 1)] 127 → Completes (exec (.tmark a i) s) (goesOnAfter · c)) ∧
  (∀ (a : Reg) (i : BitVec 10) (s : State) (c : Ctl) (d : Debug), Runs s c [(a, 1)] 127 → s.team? c.gr.team ≠ none →
    (s.ctx c.gr.ctx).debug = some d → d.trbase ≠ 0 → d.trmask.getLsbD 1 = true → (d.trmode = true ∨ d.trcount < 2 ^ d.trsize) →
    Completes (exec (.tmark a i) s) fun t => ((t.ctx c.gr.ctx).debug |>.map (·.trcount)) = some (d.trcount + 1) ∧
      ∀ x, MemoriesOk s → s.team? c.gr.team = some x → let at_ := d.trbase + 32 * (d.trcount % 2 ^ d.trsize)
        at_ + 32 ≤ d.at_ + 16 ∨ d.at_ + 24 ≤ at_ →
        mread t.mem at_ 32 = teamRecord s c.g c.gr.ctx c.gr.gid 1 i.toNat x (opArg (operands s c [(a, 1)] (lowest c.act)) 0) ∧
          mread t.mem (d.at_ + 16) 8 = leBytes 8 (d.trcount + 1)) ∧
  (∀ (a : Reg) (i : BitVec 10) (s : State) (c : Ctl) (d : Debug), Runs s c [(a, 1)] 127 → s.team? c.gr.team ≠ none →
    (s.ctx c.gr.ctx).debug = some d → d.trbase ≠ 0 → d.trmask.getLsbD 1 = true → d.trmode = false → 2 ^ d.trsize ≤ d.trcount →
    Completes (exec (.tmark a i) s) fun t => ((t.ctx c.gr.ctx).debug |>.map fun d' => (d'.trcount, d'.drops)) = some (d.trcount, d.drops + 1) ∧ goesOnAfter t c)) ∧
  (∀ (s : State) (k q c slot : Nat) (x : Context) (d : Debug), tget s.contexts c = some x → (∀ p ∈ s.contexts, p.1 = c → p.2 = x) → x.state = .running → x.debug = some d →
    d.samplog ≠ 0 → (∀ p ∈ s.contexts, p.1 ≠ c → quadrantSlots s k (q % 4) p.1 = []) → slot ∈ quadrantSlots s k (q % 4) c →
    let from_ := (tget d.nextSlot (4 * k + q % 4)).getD 0
    (quadrantSlots s k (q % 4) c).Pairwise (· < ·) → (from_ ≤ slot ∧ ∀ j ∈ quadrantSlots s k (q % 4) c, j < from_ ∨ slot ≤ j) ∨
      (∀ j ∈ quadrantSlots s k (q % 4) c, j < from_ ∧ slot ≤ j) →
    Completes (exec (.pcSample k q) s) fun t => ∃ d', (t.ctx c).debug = some d' ∧ tget d'.nextSlot (4 * k + q % 4) = some (slot + 1) ∧
      ((∃ gr tm, s.group? (64 * k + slot) = some gr ∧ gr.ctx = c ∧ s.team? gr.team = some tm) → d.trbase ≠ 0 → d.trmask.getLsbD 9 = true →
        d.trmode = true ∨ d.trcount < 2 ^ d.trsize → d'.trcount = d.trcount + 1))

/-! ## Start-up and errors -/

namespace Sys2Proof.Claims

/-- After a module reset: stage 0, no context, no group, no launch, host queues and management rings as at reset, and the
number of failed starts `n`; memory, withdrawals and the retired list as before. -/
def ResetLeaves (s t : State) (n : Nat) : Prop :=
  t.boot.stage = 0 ∧ t.boot.minimal = false ∧ t.boot.failcnt = n ∧ t.contexts = [] ∧ t.groups = [] ∧ t.launches = [] ∧ t.hostQueues = [] ∧
  t.mgmt = .reset ∧ t.mem = s.mem ∧ t.retired = s.retired ∧ t.fatal = none ∧ (∀ k, (t.core k).withdrawn = (s.core k).withdrawn)

/-- A start fails with `reason` (R396): FAILCNT rises; below 3 a module reset follows, otherwise the module stays in stage 1
in minimal mode. -/
def StartFails (s t : State) (reason : BitVec 8) : Prop :=
  if s.boot.failcnt + 1 < 3 then ResetLeaves s t (s.boot.failcnt + 1)
  else t.boot.minimal = true ∧ t.boot.stage = 1 ∧ t.boot.reason = reason ∧ t.boot.failcnt = min (s.boot.failcnt + 1) 15

/-- The image's signature verifies, and its security version is no lower than the fused minimum (R398). -/
def Verifies (s : State) (i : FirmwareImage) : Prop := i.sigOk = true ∧ svnMin s ≤ i.svn

/-- `i` is the image that runs: the primary, or the backup when the primary does not verify. -/
def RunsImage (s : State) (primary backup i : FirmwareImage) : Prop :=
  (Verifies s primary ∧ i = primary) ∨ (¬ Verifies s primary ∧ Verifies s backup ∧ i = backup)

end Sys2Proof.Claims

/-- R395, R396, R398: a module reset begins start-up. The primary image, or the backup when the primary does not verify, with
its tests passed, takes start-up one stage further; in stage 2 FAILCNT clears and the fused minimum is at least its version.
A stage of which neither image verifies, a failed test, or 30 s without stage 2 fail the start. (That the reason is then the
backup's is the model's: log entry 77.) The readings and choices of the model behind it: log entries 52, 77. -/
def Obligations.StartUp : Prop :=
  (∀ (s : State) (h : Bool), s.boot.minimal = false ∨ h = true → tsorted s.cores = true → Completes (exec (.moduleReset h) s) (ResetLeaves s · s.boot.failcnt)) ∧
  (∀ (s : State) (a b i : FirmwareImage), s.boot.stage < 2 → s.boot.minimal = false → startLate s = false → RunsImage s a b i →
    s.boot.sharedBad = false → i.testReason = 0 → Completes (exec (.stageAdvance ⟨a, b⟩) s) fun t => t.boot.stage = s.boot.stage + 1 ∧
      t.boot.fwlevel = i.level ∧ (t.boot.stage = 2 → t.boot.failcnt = 0 ∧ i.svn ≤ svnMin t) ∧ t.mem = s.mem ∧ t.contexts = s.contexts) ∧
  (∀ (s : State) (a b : FirmwareImage), s.boot.stage < 2 → s.boot.minimal = false → tsorted s.cores = true →
    (startLate s = true → Completes (exec (.stageAdvance ⟨a, b⟩) s) (StartFails s · 6)) ∧
    (startLate s = false → ¬ Verifies s a → b.sigOk = false → Completes (exec (.stageAdvance ⟨a, b⟩) s) (StartFails s · 1)) ∧
    (startLate s = false → ¬ Verifies s a → b.sigOk = true → b.svn < svnMin s → Completes (exec (.stageAdvance ⟨a, b⟩) s) (StartFails s · 2)) ∧
    (∀ i, startLate s = false → RunsImage s a b i →
      (s.boot.sharedBad = true → Completes (exec (.stageAdvance ⟨a, b⟩) s) (StartFails s · 7)) ∧
      (s.boot.sharedBad = false → i.testReason ≠ 0 → Completes (exec (.stageAdvance ⟨a, b⟩) s) (StartFails s · i.testReason)))) ∧
  (∀ s : State, s.boot.stage < 2 → s.boot.minimal = false → 30000000000 ≤ s.realTime → tsorted s.cores = true →
    Completes (exec .startTimeout s) (StartFails s · 6)) ∧
  (∀ s : State, exec .dumpvWrite s = .next (if s.boot.stage = 0 then s else { s with boot := { s.boot with dumpv := false } }))

/-- R19, R402 to R404, R406: an error is recorded in its bank; a Corrected one does nothing more. One that is not Corrected
poisons the line it is of; a Contained one that an operation met, or of lost state, halts its Running context with fault
0x29, and stops the group, the copy or the engine that met it, or ends the command, which writes no result. A Fatal one stops
what met it in the same way, without a fault of its own, and halts every partition; with all of them halted the dump is
written, unless one is held, and stage 3 shows; a second one ends the wait. A test that waits begins when its block is idle;
the test of the block behind a record makes it soft, or lasting with the block withdrawn, and a block without a test has
TRIAGE 3. The clock goes down while the power is over its limit, and up below it (the rise is the model's choice: log entry
76). The readings and choices of the model behind it: log entries 53, 54, 76. -/
def Obligations.ErrorEvents : Prop :=
  (∀ (s : State) (e : ErrorReport), e.sev ≠ 0 → e.sev ≠ 3 → bankExists e.bank = true → (e.code = 1 → e.sev = 1) → Completes (exec (.errorDetected e) s) fun t =>
    let b := s.bank e.bank
    let b' := t.bank e.bank
    b'.valid = true ∧ (e.sev = 1 → b'.cecount = if b.cecount = -1 then -1 else b.cecount + 1) ∧
    (b.valid = false ∨ b.sev < e.sev → b'.sev = e.sev ∧ b'.code = e.code ∧ b'.unit = e.unit ∧ b'.addr = e.addr ∧ b'.triage = 0 ∧
      b'.time = BitVec.ofNat 64 s.time ∧ b'.ovr = b.valid) ∧
    (b.valid = true → e.sev ≤ b.sev → b'.ovr = true ∧ b'.sev = b.sev ∧ b'.code = b.code ∧ b'.addr = b.addr) ∧
    (e.sev = 1 → t.mem = s.mem ∧ t.contexts = s.contexts ∧ t.groups = s.groups ∧ t.poison = s.poison) ∧
    (e.sev = 2 → poisons e = true → e.addr.toNat / 128 ∈ t.poison ∧ (e.met = .none → t.contexts = s.contexts)) ∧
    (∀ g gr op, e.sev = 2 → e.met = .group g op → s.group? g = some gr → gr.ctx = e.ctx → gr.phase = .running → (s.ctx e.ctx).state = .running →
      (t.ctx e.ctx).state = .halting ∧ ∃ gr' f, t.group? g = some gr' ∧ gr'.phase = .stopped ∧ gr'.fault = some f ∧ f.cause = 0x29 ∧
        f.value = BitVec.ofNat 64 e.bank ∧ (t.ctx e.ctx).firstFault = some f) ∧
    (∀ n tag p, e.sev = 2 → e.met = .copy n tag → metCopy s n tag = some p → tget s.copies p.1 = some p.2 → p.2.ctx = e.ctx → (s.ctx e.ctx).state = .running →
      (t.ctx e.ctx).state = .halting ∧ ∃ x f, tget t.copies p.1 = some x ∧ x.stopped = true ∧ x.buf = [] ∧ x.pos = p.2.pos ∧ x.fault = some f ∧
        f.cause = 0x29 ∧ f.value = BitVec.ofNat 64 e.bank) ∧
    (∀ n, e.sev = 2 → e.met = .engine n → (contextEngines s e.ctx).any (·.1 == n) = true → (s.ctx e.ctx).state = .running →
      (t.ctx e.ctx).state = .halting ∧ (t.engine n).state = .stopped ∧ (t.engine n).queue = (s.engine n).queue ∧
        ∃ f, (t.engine n).fault = some f ∧ f.cause = 0x29 ∧ f.value = BitVec.ofNat 64 e.bank) ∧
    (∀ q n k, e.sev = 2 → e.met = .command q n → s.cmd? q n = some k → cmdActive s q n k = true → (s.hostQueue q).ctx = e.ctx → (s.ctx e.ctx).state = .running →
      (t.ctx e.ctx).state = .halting ∧ ∃ k', t.cmd? q n = some k' ∧ k'.ended = some 4 ∧ k'.fcause = 0x29) ∧
    (e.sev = 2 → e.met = .none → poisons e = false → tsorted s.groups = true → (s.ctx e.ctx).state = .running → (t.ctx e.ctx).state = .halting ∧
      ∃ f, (t.ctx e.ctx).firstFault = some f ∧ f.cause = 0x29 ∧ f.value = BitVec.ofNat 64 e.bank)) ∧
  (∀ (s : State) (e : ErrorReport), e.sev = 3 → bankExists e.bank = true → e.code ≠ 1 → s.boot.stage = 2 → MemoriesOk s →
    (s.fatal = none → Completes (exec (.errorDetected e) s) fun t => t.fatal = some (e.bank, s.time) ∧
      (poisons e = true → e.addr.toNat / 128 ∈ t.poison) ∧ (∀ p : Fin 8, s.parts[p].mask ≠ 0 → t.haltLine.getLsbD p.val = true) ∧
      (∀ c p, (s.ctx c).state = .running → (s.ctx c).partition = some p → p < 8 → (t.ctx c).state = .halting) ∧
      (∀ g gr op, e.met = .group g op → s.group? g = some gr → gr.phase = .running → op = none ∨ currentOp gr = none →
        ∃ gr', t.group? g = some gr' ∧ gr'.phase = .stopped ∧ gr'.issue = none ∧ gr'.fault = gr.fault ∧
          ∀ o, metOp gr op = some o → ∀ x ∈ gr'.ops, x.id ≠ o.id) ∧
      (∀ n tag p, e.met = .copy n tag → metCopy s n tag = some p → tget s.copies p.1 = some p.2 →
        ∃ x, tget t.copies p.1 = some x ∧ x.stopped = true ∧ x.buf = [] ∧ x.pos = p.2.pos) ∧
      (∀ n, e.met = .engine n → (s.engine n).bound.isSome = true → (t.engine n).state = .stopped) ∧
      ((∀ g op, e.met = .group g op → s.group? g = none) → haltsLeft t = false → t.boot.stage = 3 ∧ t.boot.dumpv = true ∧
        (s.boot.dumpv = false → mread t.mem (2 ^ 37 - 2 ^ 26) 13 = leBytes 8 s.time ++ leBytes 4 e.bank ++ [1]))) ∧
    (s.fatal ≠ none → Completes (exec (.errorDetected e) s) fun t => t.fatal = s.fatal ∧ t.boot.stage = 3 ∧ t.boot.dumpv = true)) ∧
  (∀ (s : State) (n : Nat) (pass : Bool), readyTests s n ≠ [] → Completes (exec (.triageSelftest n pass) s) fun t =>
    ∃ j ∈ readyTests s n, let good := pass && !j.failed
      let b := s.bank n
      if j.waits = true then t.tests = s.tests.map (fun u => if u = j then { u with waits := false } else u) ∧ t.banks = s.banks ∧ t.cores = s.cores
      else t.tests = s.tests.erase j ∧
      (∀ k, j.block = .core k → (t.core k).withdrawn = ((s.core k).withdrawn || !good)) ∧
      (∀ e, j.block = .engine e → good = false → e ∈ t.boot.engBad) ∧ (∀ k, j.block = .copy k → good = false → k ∈ t.boot.copyBad) ∧
      (∀ g, j.block = .granule g → good = false → g ∈ t.retired ∧ ∀ i, i < 32 → 32 * g + i ∈ t.poison) ∧
      (∀ m, j.block = .other m → good = false → t.boot.sharedBad = true) ∧
      (b.valid = true → b.triage = 0 → blockOf n b.unit.toNat b.addr = j.block →
        (t.bank n).triage = match j.block with
        | .other _ => 3
        | _ => if good = true then 1 else 2)) ∧
  (∀ (s : State) (w : Nat), (s.power.limit < w → 1800 < s.power.clock → Completes (exec (.powerClockStep w) s) fun t => t.power.clock = s.power.clock - 50) ∧
    (s.power.limit < w → s.power.clock ≤ 1800 → Completes (exec (.powerClockStep w) s) fun t => t.power = s.power ∧ (t.bank 24).valid = true) ∧
    (w < s.power.limit → s.power.clock < 3600 → Completes (exec (.powerClockStep w) s) fun t => t.power.clock = s.power.clock + 50))

/-! ## Registers -/

namespace Sys2Proof.Claims

/-- No block of BAR0 holds the word at offset `a` (Table 16-2). -/
def outsideBlocks (a : Nat) : Prop :=
  (0x1040 ≤ a ∧ a < 0x2000) ∨ (0x2480 ≤ a ∧ a < 0x3000) ∨ (0x3040 ≤ a ∧ a < 0x100000) ∨ (0x104000 ≤ a ∧ a < 0x200000) ∨
  (0x204000 ≤ a ∧ a < 0x400000) ∨ 0x408100 ≤ a

end Sys2Proof.Claims

/-- R5, R108, R119, R152, R365, R400, Tables 4-12, 5-5, 6-7, 16-4, 16-5 and 18-3: outside every block BAR0 reads zero and
ignores writes; a word that is not aligned is not written. A write of a register that starts an event is that event. A RW
field takes its value, or its default when the value is out of range, and reads so. The readings and choices of the model
behind it: log entries 55, 85. -/
def Obligations.RegisterAccess : Prop :=
  (∀ (s : State) (a : Nat), outsideBlocks a → barRead s a = 0 ∧ ∀ v, exec (.registerWrite a false v) s = .next s) ∧
  (∀ (s : State) (a : Nat) (w : Bool) (v : BitVec 64), a % (if w then 8 else 4) ≠ 0 → exec (.registerWrite a w v) s = .next s) ∧
  (∀ (s : State) (v : Word), s.boot.stage ≠ 0 →
    let wr (a : Nat) : Host.Outcome State Fault Refusal := exec (.registerWrite a false (v.setWidth 64)) s
    (∀ q, q < 256 → wr (0x100000 + 64 * q + 0x10) = exec (.hqtailWrite q v) s) ∧
    (∀ q, q < 256 → (s.hostQueue q).state ≠ .bound → (s.hostQueue q).state ≠ .closed →
      wr (0x100000 + 64 * q) = .next s ∧ wr (0x100000 + 64 * q + 8) = .next s) ∧
    (∀ c, c < 256 → wr (0x200000 + 64 * c + 0xC) = exec (.eventIenWrite c (v.getLsbD 0)) s ∧ wr (0x200000 + 64 * c + 0x14) = exec (.evconsWrite c v) s) ∧
    wr 0x3010 = exec (.mrqtailWrite v) s ∧ wr 0x301C = exec (.mcqconsWrite v) s ∧
    (v.getLsbD 3 = true → wr 8 = exec .dumpvWrite s) ∧
    (∀ q, q < 256 → (s.hostQueue q).state = .bound ∨ (s.hostQueue q).state = .closed → Completes (wr (0x100000 + 64 * q + 8)) fun t =>
      barRead t (0x100000 + 64 * q + 8) = BitVec.ofNat 32 (if 6 ≤ v.toNat % 32 ∧ v.toNat % 32 ≤ 16 then v.toNat % 32 else 6)) ∧
    (∀ q, q < 256 → (s.hostQueue q).state = .bound ∨ (s.hostQueue q).state = .closed → Completes (wr (0x100000 + 64 * q)) fun t =>
      barRead t (0x100000 + 64 * q) = BitVec.ofNat 32 (v.toNat / 64 * 64)) ∧
    (∀ c, c < 256 → Completes (wr (0x200000 + 64 * c + 0x18)) fun t =>
      barRead t (0x200000 + 64 * c + 0x18) = BitVec.ofNat 32 (if 1 ≤ v.toNat % 512 ∧ v.toNat % 512 ≤ 256 then v.toNat % 512 else 1)) ∧
    (∀ c, c < 256 → Completes (wr (0x200000 + 64 * c + 0x20)) fun t => barRead t (0x200000 + 64 * c + 0x20) = BitVec.ofNat 32 (v.toNat % 2048)) ∧
    Completes (wr 0x300C) (fun t => barRead t 0x300C = BitVec.ofNat 32 (v.toNat % 2048)) ∧
    Completes (wr 0x1008) (fun t => t.timeBlock.ptmen = v.getLsbD 0 ∧
      t.timeBlock.period = if 1 ≤ v.toNat / 256 % 128 ∧ v.toNat / 256 % 128 ≤ 100 then v.toNat / 256 % 128 else 10) ∧
    (∀ n, n < 18 → Completes (wr (0x2000 + 64 * n)) fun t => (t.link n).en = v.getLsbD 2)) ∧
  (∀ s : State, barRead s 0 = 0x485A4D37 ∧ barRead s 0x1000 = BitVec.ofNat 32 s.time ∧ barRead s 0x1004 = BitVec.ofNat 32 (s.time / 2 ^ 32) ∧
    (barRead s 8).getLsbD 2 = s.boot.minimal ∧ (barRead s 8).getLsbD 3 = s.boot.dumpv ∧ barRead s 0x24 = BitVec.ofNat 32 s.retired.length)

/-! ## Rules stated whole -/

namespace Sys2Proof.Claims

/-- In `t` the group of `c` and its threads hold what they held, but for where its threads stand, and the machine around it
is the same. -/
def architectedSame (s t : State) (c : Ctl) : Prop :=
  (∃ gr, t.group? c.g = some gr ∧ groupRest gr = groupRest c.gr ∧ gr.rows = c.gr.rows ∧ gr.bank = c.gr.bank ∧
    ∀ l, l < 32 → threadRest (lane gr.threads l) = threadRest (c.thread l) ∧ (lane gr.threads l).preds = (c.thread l).preds ∧
      (lane gr.threads l).fpx = (c.thread l).fpx ∧ (lane gr.threads l).rm = (c.thread l).rm) ∧
  SameMachine s t ∧ t.queues = s.queues ∧ t.classes = s.classes

end Sys2Proof.Claims

/-- R199: YIELD ends the issue of its set after YIELD, and the rest of the clause stands to issue at the set's next
selection. NOP only passes to what follows it. Neither changes any architected value. -/
def Obligations.YieldAndNop : Prop :=
  (∀ (s : State) (c : Ctl), Runs s c [] 127 → Completes (exec .nop s) fun t => goesOnAfter t c ∧ architectedSame s t c) ∧
  (∀ (s : State) (c : Ctl), Runs s c [] 127 → Completes (exec .yield s) fun t => setAfter t c ∧ architectedSame s t c)

/-- R360: SLEN writes m as the default length of each active thread, and leaves that of every other thread. It acquires no
slot: the group's stays as it is, and the core's stream engine gives none. -/
def Obligations.SlenWritesDlen : Prop :=
  ∀ (m : BitVec 3) (s : State) (c : Ctl), wellFormed c.gr.enc (.slen m) = true → Runs s c [] 127 → Completes (exec (.slen m) s) fun t =>
    (∀ l, l < 32 → (threadIn t c l).dlen = if has c.act l then m.setWidth 2 else (c.thread l).dlen) ∧
    (t.group? c.g).map (·.streamSlot) = some c.gr.streamSlot ∧ t.cores = s.cores ∧ goesOnAfter t c

namespace Sys2Proof.Claims

/-- The eight clause-terminal instructions of R22. -/
def endsClause : Instr → Bool
  | .bra _ _ | .brx _ | .call _ _ | .callx _ _ | .ret | .exit | .tret | .migrate _ => true
  | _ => false

/-- Words that each decode under `e`, and the instructions they decode to. -/
def decodesTo (e : Nat) (ws : List Word) (is : List Instr) : Prop := ws.map (decode e) = is.map .ok

/-- The group's clause at lane `l` can be fetched now: the group runs with no clause in issue, no response of another module
is awaited for it, and its header is the word `h`. -/
def headerFetched (s s₁ : State) (g l : Nat) (gr : Group) (h : Word) : Prop :=
  s.group? g = some gr ∧ gr.issue = none ∧ gr.phase = .running ∧ issuing (s.ctx gr.ctx).state = true ∧ convergenceSet gr l ≠ 0 ∧
  ∃ s₀, s₀.groups = s.groups ∧ (∀ k, fetchLink s g gr (convergenceSet gr l) (lane gr.threads l).at_.hdr k = k s₀) ∧
    fetchWord s₀ g gr (convergenceSet gr l) (lane gr.threads l).at_.hdr = .ok [h] s₁

/-- The `n` words after the header `hdr` can be fetched now for the set, those in the next page too: they are `ws`. -/
def restFetched (s s₂ : State) (g : Nat) (gr : Group) (set : Mask) (hdr : VA) (n : Nat) (ws : List Word) : Prop :=
  ∃ s₁, s₁.groups = s.groups ∧ (∀ k, fetchNextPage s g gr set hdr n k = k s₁) ∧ fetchWords s₁ g gr set (hdr + 4) n = .ok ws s₂

/-- The group has stopped for an illegal clause (0x21). -/
def illegalClause (g : Nat) (t : State) : Prop :=
  ∃ gr f, t.group? g = some gr ∧ gr.phase = .stopped ∧ gr.issue = none ∧ gr.fault = some f ∧ f.cause = 0x21

end Sys2Proof.Claims

/-- R22, R27: a header whose L is 0, whose bits [1:0] are not zero, or whose FA or FB holds 12 to 14 raises the
illegal-clause fault; any other decodes, FA and FB may name the same flag, and with G 0 bits [6:3] do not matter. The clause
raises the fault too when a clause-terminal instruction stands before its last word; a clause whose words decode, with one at
most at its end, raises none. -/
def Obligations.IllegalClauses : Prop :=
  (∀ (s s₁ : State) (g l : Nat) (gr : Group) (h : Word), gr.enc ≠ 1 → headerFetched s s₁ g l gr h →
    (h.toNat / 2 ^ 8 % 16 = 0 ∨ h.toNat % 4 ≠ 0 ∨ (12 ≤ h.toNat / 2 ^ 16 % 16 ∧ h.toNat / 2 ^ 16 % 16 ≤ 14) ∨
      (12 ≤ h.toNat / 2 ^ 12 % 16 ∧ h.toNat / 2 ^ 12 % 16 ≤ 14)) →
    Completes (exec (.clauseIssue g l) s) (illegalClause g)) ∧
  (∀ (e : Nat) (h : Word), e ≠ 1 → h.toNat / 2 ^ 8 % 16 ≠ 0 → h.toNat % 4 = 0 →
    (h.toNat / 2 ^ 16 % 16 < 12 ∨ h.toNat / 2 ^ 16 % 16 = 15) → (h.toNat / 2 ^ 12 % 16 < 12 ∨ h.toNat / 2 ^ 12 % 16 = 15) →
    ∃ d, decodeHeader e h = .ok d ∧ d.len = h.toNat / 2 ^ 8 % 16 ∧ d.wait = BitVec.ofNat 12 (h.toNat / 2 ^ 20) ∧
      d.fa = (if h.toNat / 2 ^ 16 % 16 = 15 then none else some (h.toNat / 2 ^ 16 % 16)) ∧
      d.fb = (if h.toNat / 2 ^ 12 % 16 = 15 then none else some (h.toNat / 2 ^ 12 % 16)) ∧
      (h.getLsbD 7 = false → d.guard = none) ∧ d.yield = h.getLsbD 2) ∧
  (∀ (s s₁ s₂ : State) (g l : Nat) (gr : Group) (h : Word) (hd : Header) (ws : List Word) (front back : List Instr) (i : Instr),
    headerFetched s s₁ g l gr h → decodeHeader gr.enc h = .ok hd →
    restFetched s₁ s₂ g gr (convergenceSet gr l) (lane gr.threads l).at_.hdr hd.len ws →
    decodesTo gr.enc ws (front ++ i :: back) → endsClause i = true → back ≠ [] → (∀ j ∈ front, endsClause j = false) →
    Completes (exec (.clauseIssue g l) s) (illegalClause g)) ∧
  (∀ (s s₁ s₂ : State) (g l : Nat) (gr : Group) (h : Word) (hd : Header) (ws : List Word) (front : List Instr) (i : Instr),
    headerFetched s s₁ g l gr h → decodeHeader gr.enc h = .ok hd →
    restFetched s₁ s₂ g gr (convergenceSet gr l) (lane gr.threads l).at_.hdr hd.len ws →
    decodesTo gr.enc ws (front ++ [i]) → (∀ j ∈ front, endsClause j = false) →
    Completes (exec (.clauseIssue g l) s) fun t => ∃ gr', t.group? g = some gr' ∧ gr'.fault = gr.fault ∧ gr'.phase = .running)

/-! ## Encoding -/

namespace Sys2Proof.Claims

/-- Words that the manual writes out, with what they say (Tables 2-13, 8-7, 9-6, 10-2, 12-3, 13-4, 14-7, 15-4, 17-8; R103 to
R107, R133, R134, R138). -/
def sampleWords : List (Word × Instr) :=
  [(0x62080410, .ld32 4 1 2 0), (0x390C0002, .lui 6 2), (0x3A0D2345, .orl 6 0x12345), (0x000A1030, .iadd 5 4 6 0),
    (0x670A0810, .st32 5 2 2 0), (0x80000003, .bra 0 3), (0x86FFFFF8, .exit), (0xD307FC14, .sysr 3 0x14), (0xA0F413F9, .qbind 122 4 1),
    (0x8208000C, .call 4 12), (0x9008081C, .lshfl 4 2 3 4), (0x940C1440, .lreduce 6 5 8 0), (0x98282048, .rwrite 20 8 9),
    (0x18241432, .iset 2 2 5 6 2), (0x1A820818, .plog 8 1 2 3), (0x2518201D, .pshr2 12 8 3 5), (0x34060805, .shli 3 2 5),
    (0x46241434, .fset 2 2 5 6 4), (0x490E17F9, .fsqrt 7 5 1), (0x530608A0, .fcvt 3 2 20 0), (0x6212140D, .ld32 9 5 1 5),
    (0x69100FF0, .st128 8 3 0x7E 0), (0x6F06102F, .atom 3 4 5 7), (0x710E0850, .cas 7 2 10 0), (0x731840A0, .cpy 12 16 20 0),
    (0xA80E1040, .binit 7 4 8 0), (0xADFFFFF8, .tsync), (0xB0FE1029, .mma 4 5 1), (0xB2FFFC30, .mzero 6), (0xC0000821, .sgen 0 2 4 1),
    (0xC7FFFFFB, .slen 3), (0xCA0223F8, .sst 1 8), (0xD1FFFFF8, .tret), (0xD7FFFC01, .tmark 127 1)]

end Sys2Proof.Claims

/-- Each of them decodes to the instruction it stands for; a word of an unassigned major, with an unused field that is not at
its fixed value, or with vlane as destination does not decode. -/
def Obligations.SampleWords : Prop :=
  (∀ p ∈ sampleWords, decode 3 p.1 = .ok p.2) ∧ decode 3 0xFF000000 = .error .unassignedMajor ∧ decode 3 0x0A000001 = .error .unusedField ∧
  decode 3 0x00FC0000 = .error .illFormed

/-- R20, R33 to R39, R47: the decoder gives back what was encoded: under every encoding, each legal instruction with every
operand, from its word. -/
def Obligations.EncodeThenDecode : Prop :=
  ∀ (e : Nat) (i : Instr) (w : Word), wellFormed e i = true → encode i = some w → decode e w = .ok i

/-- R20, R39: a word has one meaning: what decodes is legal, and encodes to the same word. -/
def Obligations.DecodeThenEncode : Prop :=
  ∀ (e : Nat) (i : Instr) (w : Word), decode e w = .ok i → wellFormed e i = true ∧ encode i = some w

/-! ## The step -/

/-- R21, R23, R96, R177, R366: a step makes one move: it takes the event or the group that stands first in the agenda, or
else one of the moves that the machine may make of its own accord; a group's move is its instruction in progress, the word of
its clause decoded, executed in that group; a store of the host or of another module to memory of its own changes that
memory; the decoder's host base takes a multiple of 512 GiB, and an access of the host in the 512 GiB from it is the access
to device memory at the same distance from 0 (R366); a store of system software changes the bytes of a saved group's image
(R96). A move whose time has come is made before others. Then the waits whose condition holds end, and time passes, in which
no memory, group or class changes. (The agenda, and the choice of the move, are the model's: log entry 3.) The readings and
choices of the model behind it: log entries 2, 3, 10, 43. -/
def Obligations.StepRunsMove : Prop :=
  (∀ (s : State) (i : Instr) (rest : List Move), s.agenda = .event i :: rest → step s = afterMove (exec i { s with agenda := rest })) ∧
  (∀ (s : State) (g : Nat) (rest : List Move) (c : Ctl) (i : Instr), s.agenda = .issue g :: rest →
    currentCtl { s with agenda := rest, cur := g } = some c → c.iss.words[c.iss.pos]? = some c.word → decode c.gr.enc c.word = .ok i →
    step s = afterMove (exec i { s with agenda := rest, cur := g })) ∧
  (∀ (s : State) (a : Nat) (b : List Byte) (rest : List Move), a + b.length ≤ 2 ^ 45 → s.agenda = .hostStores a b :: rest ∨
      s.agenda = .peerStores a b :: rest → ∃ t, step s = afterMove (.next t) ∧ t.mem = s.mem ∧ t.groups = s.groups ∧
        (s.agenda = .hostStores a b :: rest → t.hostMem = mwrite s.hostMem a b ∧ t.peerMem = s.peerMem) ∧
        (s.agenda = .peerStores a b :: rest → t.peerMem = mwrite s.peerMem a b ∧ t.hostMem = s.hostMem)) ∧
  (∀ (s : State) (base : Nat) (rest : List Move), s.agenda = .hdmProgram base :: rest → ∃ t, step s = afterMove (.next t) ∧
    t.hdmBase % 2 ^ 39 = 0 ∧ t.hdmBase ≤ base ∧ base < t.hdmBase + 2 ^ 39 ∧ t.mem = s.mem ∧ t.groups = s.groups) ∧
  (∀ (s : State) (st : Bool) (pa n : Nat) (b : List Byte) (rest : List Move), s.agenda = .hostAddress st (s.hdmBase + pa) n b :: rest →
    pa + n ≤ 2 ^ 39 → step s = afterMove (exec (.hostAccess st pa n b) { s with agenda := rest })) ∧
  (∀ (s : State) (i j a : Nat) (b : List Byte) (rest : List Move) (x : Team) (sg : SavedGroup), s.agenda = .imageStores i (some j) a b :: rest →
    s.team? i = some x → x.saved[j]? = some sg → a + b.length ≤ sg.bytes.length → ∃ t, step s = afterMove (.next t) ∧
      t.mem = s.mem ∧ t.groups = s.groups ∧ ∃ y sg', t.team? i = some y ∧ y.saved[j]? = some sg' ∧
        ∀ k, sg'.bytes[k]? = if a ≤ k ∧ k < a + b.length then b[k - a]? else sg.bytes[k]?) ∧
  (∀ s : State, s.agenda = [] → dueMoves s ≠ [] → ∃ m ∈ dueMoves s, step s = afterMove (runMove m s)) ∧
  (∀ s : State, s.agenda = [] → dueMoves s = [] → moves s ≠ [] → ∃ m ∈ moves s, step s = afterMove (runMove m s)) ∧
  (∀ (s : State) (w : Word) (i : Instr), decode 3 w = .ok i →
    step (s.withFetchWord 32 w.toNat) = afterMove (exec i { placeWord s w with agenda := [], cur := 0 })) ∧
  (∀ (o : Host.Outcome State Fault Refusal) (u : State), o = .next u → ∃ t, afterMove o = .next t ∧
    ((∀ p ∈ u.groups, ∀ gr, u.group? p.1 = some gr → bwaitDue u p.1 gr = false) →
      (∀ p ∈ u.hostQueues, ∀ k ∈ p.2.cmds, waitDue u p.1 k.seq.toNat = false) →
      t.mem = u.mem ∧ t.hostMem = u.hostMem ∧ t.groups = u.groups ∧ t.classes = u.classes ∧ t.tick = u.tick + 1 ∧
      ∀ c, (t.ctx c).state = (u.ctx c).state))

/-! ## Reset and invariants -/

/-- R5, R19, R87, R124, R269, R395, Tables 4-12, 5-5, 6-7, 16-4, 16-5 and 18-3: what a module reset leaves, where the manual
gives a value; and the memories are in their canonical form. The readings and choices of the model behind it: log entries 1,
5, 42. -/
def Obligations.ResetValues : Prop :=
  MemoriesOk State.reset ∧
  (∀ c, (State.reset.ctx c).state = .free) ∧ (∀ g, State.reset.group? g = none) ∧ (∀ g, (State.reset.classOf g).cls = 0) ∧
  (∀ g, g ∉ State.reset.bias) ∧ State.reset.time = 0 ∧ State.reset.boot.stage = 0 ∧ State.reset.haltLine = 0 ∧
  State.reset.gather = 500 ∧ State.reset.quiet = 5000 ∧
  (∀ q, q < 256 → barRead .reset (0x100000 + 64 * q + 8) = 6 ∧ barRead .reset (0x100000 + 64 * q + 0x1C) = 0 ∧
    barRead .reset (0x100000 + 64 * q + 0x10) = 0) ∧
  (∀ c, c < 256 → barRead .reset (0x200000 + 64 * c + 8) = 8 ∧ barRead .reset (0x200000 + 64 * c + 0x18) = 1 ∧
    barRead .reset (0x200000 + 64 * c + 0x1C) = 0) ∧
  barRead .reset 0x3008 = 0x86 ∧ barRead .reset 0x3010 = 0 ∧ barRead .reset 0x1008 = 0xA00 ∧ (∀ n, n < 18 → barRead .reset (0x2000 + 64 * n) = 0)

/-- The three memories stay in their canonical form over every step. The readings and choices of the model behind it: log
entry 1. -/
def Obligations.StepKeepsMemoryForm : Prop :=
  ∀ s t : State, MemoriesOk s → step s = .next t → MemoriesOk t

/-- R378, R402: the poison of a line and its coherence-lost mark stay, over every event but LREC. The readings and choices of
the model behind it: log entry 52. -/
def Obligations.PoisonStays : Prop :=
  ∀ (s t : State) (i : Instr), i ≠ .lrec → exec i s = .next t → (∀ l ∈ s.poison, l ∈ t.poison) ∧ ∀ l ∈ s.coherenceLost, l ∈ t.coherenceLost

end Statements
end

