-- ==== Sys2Proof/Laws/Memory.lean ====
section
/-! SUPPORT. Laws of memory: every operation keeps the canonical form, a write is read back, and a byte that is not written
stays. -/
namespace Sys2Proof.Machine

/-! ## The canonical form -/

/-- The form from its parts: the first entry is listed rightly and lies below all others. -/
theorem Memory.wf_cons {a : Nat} {v : Byte} {t : Memory} :
    Memory.wf ((a, v) :: t) = true ↔ v ≠ unlisted ∧ (∀ d ∈ t, a < d.1) ∧ Memory.wf t = true := by
  induction t generalizing a v with
  | nil => simp [Memory.wf]
  | cons d t ih =>
    simp only [Memory.wf, Bool.and_eq_true, decide_eq_true_eq, bne_iff_ne, ne_eq, List.mem_cons, forall_eq_or_imp]
    obtain ⟨k, w⟩ := d
    constructor
    · rintro ⟨⟨h1, h2⟩, h3⟩
      exact ⟨h2, ⟨h1, fun c hc => Nat.lt_trans h1 ((ih.mp h3).2.1 c hc)⟩, h3⟩
    · rintro ⟨h1, h2, h3⟩
      exact ⟨⟨h2.1, h1⟩, h3⟩

theorem Memory.wf_nil : Memory.wf [] = true := rfl

/-- What a write lists was listed before, or is the new entry. -/
theorem mem_mset {m : Memory} {k : Nat} {v : Byte} {c : Nat × Byte} (h : c ∈ mset m k v) : c ∈ m ∨ c = (k, v) := by
  induction m with
  | nil =>
    simp only [mset] at h
    split at h <;> simp_all
  | cons d t ih =>
    obtain ⟨j, w⟩ := d
    simp only [mset] at h
    split at h
    · split at h <;> grind
    · split at h
      · split at h <;> grind
      · rcases List.mem_cons.mp h with h | h
        · exact .inl (h ▸ List.mem_cons_self)
        · exact (ih h).imp (List.mem_cons_of_mem _) id

theorem mset_wf {m : Memory} (h : Memory.wf m = true) (k : Nat) (v : Byte) : Memory.wf (mset m k v) = true := by
  induction m with
  | nil =>
    simp only [mset]
    split
    · rfl
    · next hv => exact Memory.wf_cons.mpr ⟨hv, by simp, rfl⟩
  | cons d t ih =>
    obtain ⟨j, w⟩ := d
    obtain ⟨h1, h2, h3⟩ := Memory.wf_cons.mp h
    simp only [mset]
    split
    · next hk =>
      split
      · exact h
      · next hv =>
        refine Memory.wf_cons.mpr ⟨hv, fun c hc => ?_, h⟩
        rcases List.mem_cons.mp hc with rfl | hc
        · exact hk
        · exact Nat.lt_trans hk (h2 c hc)
    · next hk =>
      split
      · next hj =>
        split
        · exact h3
        · next hv => exact Memory.wf_cons.mpr ⟨hv, fun c hc => hj ▸ h2 c hc, h3⟩
      · next hj =>
        refine Memory.wf_cons.mpr ⟨h1, fun c hc => ?_, ih h3⟩
        rcases mem_mset hc with hc | rfl
        · exact h2 c hc
        · show j < k
          omega

theorem mwrite_wf {m : Memory} (h : Memory.wf m = true) (a : Nat) (b : List Byte) : Memory.wf (mwrite m a b) = true := by
  induction b generalizing m a with
  | nil => exact h
  | cons x b ih => exact ih (mset_wf h a x) _

theorem filter_wf {m : Memory} (h : Memory.wf m = true) (p : Nat × Byte → Bool) : Memory.wf (m.filter p) = true := by
  induction m with
  | nil => rfl
  | cons d t ih =>
    obtain ⟨j, w⟩ := d
    obtain ⟨h1, h2, h3⟩ := Memory.wf_cons.mp h
    simp only [List.filter_cons]
    split
    · exact Memory.wf_cons.mpr ⟨h1, fun c hc => h2 c ((List.mem_filter.mp hc).1), ih h3⟩
    · exact ih h3

theorem mclear_wf {m : Memory} (h : Memory.wf m = true) (a n : Nat) : Memory.wf (mclear m a n) = true := filter_wf h _

/-! ## Reading -/

/-- An address below every entry is unlisted. -/
theorem mget_below {m : Memory} {k : Nat} (h : ∀ c ∈ m, k < c.1) : mget m k = unlisted := by
  induction m with
  | nil => rfl
  | cons d t ih =>
    obtain ⟨j, w⟩ := d
    have hj : k < j := h (j, w) List.mem_cons_self
    simp only [mget]
    rw [if_neg (by omega)]
    exact ih fun c hc => h c (List.mem_cons_of_mem _ hc)

/-- Reading after a write of one byte. -/
theorem mget_mset {m : Memory} (h : Memory.wf m = true) (k j : Nat) (v : Byte) :
    mget (mset m k v) j = if j = k then v else mget m j := by
  induction m with
  | nil =>
    simp only [mset]
    by_cases hv : v = unlisted <;> by_cases hj : j = k
    · simp [hv, mget]
    · simp [hv, mget]
    · simp [hv, hj, mget]
    · rw [if_neg hv, if_neg hj]
      simp only [mget]
      rw [if_neg (Ne.symm hj)]
  | cons d t ih =>
    obtain ⟨i, w⟩ := d
    obtain ⟨h1, h2, h3⟩ := Memory.wf_cons.mp h
    simp only [mset]
    split
    · next hk =>
      split
      · next hv =>
        by_cases hj : j = k
        · subst hj
          rw [if_pos rfl, hv]
          refine mget_below fun c hc => ?_
          rcases List.mem_cons.mp hc with rfl | hc
          · exact hk
          · exact Nat.lt_trans hk (h2 c hc)
        · rw [if_neg hj]
      · simp only [mget]
        by_cases hj : j = k
        · subst hj; simp
        · rw [if_neg hj, if_neg (Ne.symm hj)]
    · next hk =>
      split
      · next hi =>
        subst hi
        split
        · next hv =>
          by_cases hj : j = i
          · subst hj
            rw [if_pos rfl, hv]
            exact mget_below h2
          · rw [if_neg hj]
            simp [mget, Ne.symm hj]
        · simp only [mget]
          by_cases hj : j = i
          · subst hj; simp
          · rw [if_neg hj, if_neg (Ne.symm hj), if_neg (Ne.symm hj)]
      · next hi =>
        simp only [mget, ih h3]
        by_cases hj : i = j
        · subst hj; simp [hi]
        · simp [hj]

/-- A byte outside the written range stays. -/
theorem mget_mwrite_outside {m : Memory} (h : Memory.wf m = true) (a : Nat) (b : List Byte) (j : Nat)
    (hj : j < a ∨ a + b.length ≤ j) : mget (mwrite m a b) j = mget m j := by
  induction b generalizing m a with
  | nil => rfl
  | cons x b ih =>
    simp only [List.length_cons] at hj
    simp only [mwrite]
    rw [ih (mset_wf h a x) (a + 1) (by omega), mget_mset h, if_neg (by omega)]

/-- What was written is read back. -/
theorem mread_mwrite {m : Memory} (h : Memory.wf m = true) (a : Nat) (b : List Byte) :
    mread (mwrite m a b) a b.length = b := by
  induction b generalizing m a with
  | nil => rfl
  | cons x b ih =>
    simp only [List.length_cons, mread, mwrite]
    rw [ih (mset_wf h a x) (a + 1), mget_mwrite_outside (mset_wf h a x) (a + 1) b a (by omega), mget_mset h, if_pos rfl]

/-- Two memories that agree on a range read the same there. -/
theorem mread_congr {m n : Memory} (a k : Nat) (h : ∀ j, a ≤ j → j < a + k → mget m j = mget n j) : mread m a k = mread n a k := by
  induction k generalizing a with
  | zero => rfl
  | succ k ih =>
    simp only [mread]
    rw [h a (Nat.le_refl _) (by omega), ih (a + 1) fun j h1 h2 => h j (by omega) (by omega)]

/-- Bytes outside the written range are read as before. -/
theorem mread_mwrite_outside {m : Memory} (h : Memory.wf m = true) (a : Nat) (b : List Byte) (c k : Nat)
    (hd : c + k ≤ a ∨ a + b.length ≤ c) : mread (mwrite m a b) c k = mread m c k :=
  mread_congr c k fun j h1 h2 => mget_mwrite_outside h a b j (by omega)

/-- Cleared bytes read as unlisted ones, and the others stay. -/
theorem mget_mclear (m : Memory) (a n j : Nat) :
    mget (mclear m a n) j = if a ≤ j ∧ j < a + n then unlisted else mget m j := by
  induction m with
  | nil => simp [mclear, mget]
  | cons d t ih =>
    obtain ⟨i, w⟩ := d
    simp only [mclear, List.filter_cons] at ih ⊢
    by_cases hi : i < a ∨ a + n ≤ i
    · rw [if_pos (by simpa using hi)]
      simp only [mget, ih]
      by_cases hij : i = j
      · subst hij
        rw [if_pos rfl, if_pos rfl, if_neg (by omega)]
      · simp [hij]
    · rw [if_neg (by simpa using hi), ih]
      simp only [mget]
      by_cases hij : i = j
      · subst hij
        rw [if_pos (by omega), if_pos (by omega)]
      · simp [hij]

end Sys2Proof.Machine
end

