-- ==== Sys2Proof/Laws/Table.lean ====
section
/-! SUPPORT. Lemmas about tables and memories: reading after writing, and that writes keep the canonical form. -/
namespace Sys2Proof.Machine

theorem tget_tset_self {α : Type} (t : Tab α) (k : Nat) (v : α) : tget (tset t k v) k = some v := by
  induction t with
  | nil => simp [tset, tget]
  | cons p t ih =>
    obtain ⟨j, w⟩ := p
    simp only [tset]
    split
    · simp [tget]
    · split
      · simp [tget]
      · simp only [tget]; rw [if_neg (by assumption)]; exact ih

theorem tget_tset_ne {α : Type} (t : Tab α) {j k : Nat} (v : α) (h : j ≠ k) : tget (tset t k v) j = tget t j := by
  induction t with
  | nil => simp [tset, tget, Ne.symm h]
  | cons p t ih =>
    obtain ⟨i, w⟩ := p
    simp only [tset]
    split
    · simp [tget, Ne.symm h]
    · split
      · next h1 => subst h1; simp [tget, Ne.symm h]
      · simp only [tget]; split <;> simp_all

theorem tget_tmod_self {α : Type} {t : Tab α} {k : Nat} {v : α} (f : α → α) (h : tget t k = some v) :
    tget (tmod t k f) k = some (f v) := by simp [tmod, h, tget_tset_self]

theorem tget_tmod_ne {α : Type} (t : Tab α) {j k : Nat} (f : α → α) (h : j ≠ k) : tget (tmod t k f) j = tget t j := by
  unfold tmod; split
  · exact tget_tset_ne t _ h
  · rfl

theorem tget_terase_ne {α : Type} (t : Tab α) {j k : Nat} (h : j ≠ k) : tget (terase t k) j = tget t j := by
  induction t with
  | nil => rfl
  | cons p t ih =>
    obtain ⟨i, w⟩ := p
    simp only [terase, tget]
    split
    · next hi => rw [if_neg (by omega)]
    · simp only [tget, ih]

theorem tget_tmap {α : Type} (t : Tab α) (f : Nat → α → α) (k : Nat) : tget (tmap t f) k = (tget t k).map (f k) := by
  induction t with
  | nil => rfl
  | cons p t ih =>
    obtain ⟨i, w⟩ := p
    simp only [tmap, List.map_cons, tget]
    split
    · next h => subst h; rfl
    · exact ih

/-! ## Rising keys -/

theorem tsorted_cons {α : Type} {j : Nat} {v : α} {t : Tab α} :
    tsorted ((j, v) :: t) = true ↔ (∀ p ∈ t, j < p.1) ∧ tsorted t = true := by
  induction t generalizing j v with
  | nil => simp [tsorted]
  | cons q t ih =>
    obtain ⟨k, w⟩ := q
    simp only [tsorted, Bool.and_eq_true, decide_eq_true_eq, List.mem_cons, forall_eq_or_imp]
    constructor
    · rintro ⟨h1, h2⟩
      exact ⟨⟨h1, fun p hp => Nat.lt_trans h1 ((ih.mp h2).1 p hp)⟩, h2⟩
    · rintro ⟨⟨h1, -⟩, h2⟩
      exact ⟨h1, h2⟩

theorem mem_tset {α : Type} {t : Tab α} {k : Nat} {v : α} {p : Nat × α} (h : p ∈ tset t k v) : p ∈ t ∨ p = (k, v) := by
  induction t with
  | nil => exact .inr (List.mem_singleton.mp h)
  | cons q t ih =>
    obtain ⟨j, w⟩ := q
    simp only [tset] at h
    split at h
    · grind
    · split at h
      · grind
      · rcases List.mem_cons.mp h with h | h
        · exact .inl (h ▸ List.mem_cons_self)
        · exact (ih h).imp (List.mem_cons_of_mem _) id

theorem mem_terase {α : Type} {t : Tab α} {k : Nat} {p : Nat × α} (h : p ∈ terase t k) : p ∈ t := by
  induction t with
  | nil => exact h
  | cons q t ih =>
    obtain ⟨j, w⟩ := q
    simp only [terase] at h
    split at h
    · exact List.mem_cons_of_mem _ h
    · rcases List.mem_cons.mp h with h | h
      · exact h ▸ List.mem_cons_self
      · exact List.mem_cons_of_mem _ (ih h)

theorem tset_sorted {α : Type} {t : Tab α} (h : tsorted t = true) (k : Nat) (v : α) : tsorted (tset t k v) = true := by
  induction t with
  | nil => rfl
  | cons q t ih =>
    obtain ⟨j, w⟩ := q
    obtain ⟨h1, h2⟩ := tsorted_cons.mp h
    simp only [tset]
    split
    · next hk =>
      refine tsorted_cons.mpr ⟨fun p hp => ?_, h⟩
      rcases List.mem_cons.mp hp with rfl | hp
      · exact hk
      · exact Nat.lt_trans hk (h1 p hp)
    · split
      · next hj => exact tsorted_cons.mpr ⟨fun p hp => hj ▸ h1 p hp, h2⟩
      · next hk hj =>
        refine tsorted_cons.mpr ⟨fun p hp => ?_, ih h2⟩
        rcases mem_tset hp with hp | rfl
        · exact h1 p hp
        · show j < k
          omega

theorem terase_sorted {α : Type} {t : Tab α} (h : tsorted t = true) (k : Nat) : tsorted (terase t k) = true := by
  induction t with
  | nil => rfl
  | cons q t ih =>
    obtain ⟨j, w⟩ := q
    obtain ⟨h1, h2⟩ := tsorted_cons.mp h
    simp only [terase]
    split
    · exact h2
    · exact tsorted_cons.mpr ⟨fun p hp => h1 p (mem_terase hp), ih h2⟩

theorem tmod_sorted {α : Type} {t : Tab α} (h : tsorted t = true) (k : Nat) (f : α → α) : tsorted (tmod t k f) = true := by
  unfold tmod
  split
  · exact tset_sorted h k _
  · exact h

/-- A key below every entry is absent. -/
theorem tget_below {α : Type} {t : Tab α} {k : Nat} (h : ∀ p ∈ t, k < p.1) : tget t k = none := by
  induction t with
  | nil => rfl
  | cons q t ih =>
    obtain ⟨j, w⟩ := q
    have hj : k < j := h (j, w) List.mem_cons_self
    simp only [tget]
    rw [if_neg (by omega)]
    exact ih fun p hp => h p (List.mem_cons_of_mem _ hp)

theorem tget_terase_self {α : Type} {t : Tab α} (h : tsorted t = true) (k : Nat) : tget (terase t k) k = none := by
  induction t with
  | nil => rfl
  | cons q t ih =>
    obtain ⟨j, w⟩ := q
    obtain ⟨h1, h2⟩ := tsorted_cons.mp h
    simp only [terase]
    split
    · next hj => exact tget_below fun p hp => hj ▸ h1 p hp
    · next hj =>
      simp only [tget]
      rw [if_neg hj]
      exact ih h2

/-- What a table lists under a key is what it answers. -/
theorem tget_of_mem {α : Type} {t : Tab α} (h : tsorted t = true) {k : Nat} {v : α} (m : (k, v) ∈ t) : tget t k = some v := by
  induction t with
  | nil => cases m
  | cons q t ih =>
    obtain ⟨j, w⟩ := q
    obtain ⟨h1, h2⟩ := tsorted_cons.mp h
    simp only [tget]
    rcases List.mem_cons.mp m with e | m
    · cases e
      rw [if_pos rfl]
    · have := h1 _ m
      rw [if_neg (by simp only at this; omega)]
      exact ih h2 m

end Sys2Proof.Machine
end

