-- ==== Sys2Proof/Laws/Operands.lean ====
section
/-! SUPPORT. How an instruction in progress reaches its effect: the debug check, pending names, rows and pops, each as one
lemma, and what a register instruction then leaves. -/
namespace Sys2Proof.Machine

theorem currentCtl_eq {s : State} {c : Ctl} (h : currentCtl s = some c) :
    c.g = s.cur ∧ s.group? c.g = some c.gr ∧ c.gr.issue = some c.iss ∧ c.gr.phase = .running := by
  unfold currentCtl at h
  split at h
  · cases h
  · next gr hg =>
    split at h
    · cases h
    · next i hi =>
      split at h
      · cases h
      · split at h
        · next hd _ hp =>
          cases h
          exact ⟨rfl, hg, hi, hp.1⟩
        · cases h

/-- A state that differs from `s` in the bookkeeping of the instruction in progress alone: the comparator check, the use
marks of rows, the counts of comparators. -/
structure Begun (s : State) (c : Ctl) (s' : State) : Prop where
  group : ∃ i u, s'.group? c.g = some { c.gr with issue := some i, use := u } ∧ i.pos = c.iss.pos ∧ i.words = c.iss.words ∧ i.hdr = c.iss.hdr
    ∧ i.set = c.iss.set ∧ i.guard = c.iss.guard
  others : ∀ h, h ≠ c.g → s'.group? h = s.group? h
  queues : s'.queues = s.queues
  quiet : (s.ctx c.gr.ctx).debug = none → s'.contexts = s.contexts
  same : SameMachine s s'

theorem Begun.refl {s : State} {c : Ctl} (h : currentCtl s = some c) : Begun s c s :=
  have e := currentCtl_eq h
  ⟨⟨c.iss, c.gr.use, by rw [e.2.1, ← e.2.2.1], rfl, rfl, rfl, rfl, rfl⟩, fun _ _ => rfl, rfl, fun _ => rfl, by simp [SameMachine]⟩

theorem Begun.modGroup {s s' : State} {c : Ctl} {f : Group → Group} (b : Begun s c s')
    (hf : ∀ i u, i.pos = c.iss.pos → i.words = c.iss.words → i.hdr = c.iss.hdr → i.set = c.iss.set → i.guard = c.iss.guard →
      ∃ i' u', f { c.gr with issue := some i, use := u } = { c.gr with issue := some i', use := u' } ∧ i'.pos = c.iss.pos
        ∧ i'.words = c.iss.words ∧ i'.hdr = c.iss.hdr ∧ i'.set = c.iss.set ∧ i'.guard = c.iss.guard) :
    Begun s c (s'.modGroup c.g f) := by
  obtain ⟨⟨i, u, hg, h1, h2, h3, h4, h5⟩, ho, hq, hd, hs⟩ := b
  obtain ⟨i', u', e, k⟩ := hf i u h1 h2 h3 h4 h5
  refine ⟨⟨i', u', ?_, k⟩, fun h hne => ?_, hq, hd, by simpa [SameMachine, State.modGroup] using hs⟩
  · simp only [State.modGroup, State.group?, tmod] at hg ⊢
    rw [hg]; simp [tget_tset_self, e]
  · have := ho h hne
    simp only [State.modGroup, State.group?, tmod] at hg this ⊢
    rw [hg]; simp [tget_tset_ne _ _ hne, this]

theorem Begun.debug {s s' : State} {c : Ctl} (b : Begun s c s') (d : Option Debug) (hd : (s.ctx c.gr.ctx).debug ≠ none) :
    Begun s c (s'.modCtx c.gr.ctx fun x => { x with debug := d }) :=
  ⟨b.group, b.others, b.queues, fun h => absurd h hd, by simpa [SameMachine, State.modCtx, State.setCtx] using b.same⟩

/-- A turn of the group's quadrant is bookkeeping. -/
theorem Begun.tryTurn {s s' : State} {c : Ctl} (b : Begun s c s') (g : Nat) : Begun s c (tryTurn s' g) :=
  ⟨b.group, b.others, b.queues, b.quiet, b.same⟩

theorem withDebug_passes {s : State} {c : Ctl} (h : InProgress s c) :
    ∃ s', Begun s c s' ∧ ∀ k : State → State, withDebug (tryTurn s c.g) c k = k s' := by
  have r := (Begun.refl h.ctl).tryTurn c.g
  have hx : (tryTurn s c.g).ctx c.gr.ctx = s.ctx c.gr.ctx := rfl
  have ht : (tryTurn s c.g).team? c.gr.team = s.team? c.gr.team := rfl
  have mk : ∀ s', Begun s c s' → Begun s c (s'.modGroup c.g fun g =>
      { g with issue := g.issue.map fun i => { i with checked := true } }) := fun s' b =>
    b.modGroup fun i u h1 h2 h3 h4 h5 => ⟨{ i with checked := true }, u, rfl, h1, h2, h3, h4, h5⟩
  unfold withDebug
  by_cases hc : c.iss.checked = true
  · exact ⟨_, r, fun k => by simp [hc]⟩
  · have hd := Or.resolve_left h.debug hc
    simp only [hc, hx, ht]
    cases hdd : (s.ctx c.gr.ctx).debug with
    | none => exact ⟨_, mk _ r, fun k => rfl⟩
    | some d =>
      cases ht : s.team? c.gr.team with
      | none => exact ⟨_, mk _ r, fun k => rfl⟩
      | some t =>
        rw [hdd, ht] at hd
        simp only at hd
        simp only [Bool.false_eq_true, if_false]
        rw [hd]
        exact ⟨_, mk _ (r.debug _ (by simp [hdd])), fun k => rfl⟩

theorem withIssue_completes {s : State} {c : Ctl} (h : InProgress s c) :
    ∃ s', Begun s c s' ∧ ∀ k : Ctl → State → State, withIssue s k = .next (k c s') := by
  obtain ⟨s', b, e⟩ := withDebug_passes h
  refine ⟨s', b, fun k => ?_⟩
  unfold withIssue
  rw [h.ctl]
  have ha : ¬ c.act = 0 := h.active
  simp only [h.fresh, Option.isSome_none, Bool.false_eq_true, if_false, if_neg ha, e]

theorem maskOf_false {p : Nat → Bool} (h : ∀ l, l < 32 → p l = false) : maskOf p = 0 := by
  have : ∀ (L : List Nat) (m : Mask), (∀ l ∈ L, p l = false) → L.foldl (fun m l => if p l then m ||| (1 <<< l : Mask) else m) m = m := by
    intro L
    induction L with
    | nil => intro m _; rfl
    | cons a L ih => intro m hl; simp only [List.foldl_cons, hl a (by simp), Bool.false_eq_true, if_false]; exact ih m fun l hm => hl l (by simp [hm])
  exact this _ _ fun l hl => h l (by simpa using hl)

theorem withDeps_clear {s : State} {c : Ctl} {p : Nat → Option Nat} {k : State → State}
    (h : ∀ l, has c.act l = true → p l = none) : withDeps s c p k = k s := by
  have : (maskOf fun l => has c.act l && (p l).isSome) = 0 := by
    refine maskOf_false fun l _ => ?_
    cases e : has c.act l with
    | false => rfl
    | true => simp [h l e]
  simp [withDeps, this]

theorem withRows_clear {s s₁ : State} {c : Ctl} {ns : List Nat} (b : Begun s c s₁)
    (h : (entriesOf c ns).any c.gr.evicted.contains = false) :
    ∃ s', Begun s c s' ∧ ∀ k : State → State, withRows s₁ c ns k = k s' := by
  refine ⟨s₁.modGroup c.g fun g => { g with use := (entriesOf c ns).foldl (fun u e => tset u e s₁.tick) g.use }, ?_, ?_⟩
  rotate_left
  · intro k; unfold withRows; simp only [h, Bool.false_eq_true, if_false]
  · exact b.modGroup fun i u h1 h2 h3 h4 h5 => ⟨i, _, rfl, h1, h2, h3, h4, h5⟩

theorem portQueue_congr {s s' : State} (h : s'.queues = s.queues) (p : Port) : portQueue s' p = portQueue s p := by
  simp [portQueue, State.queue?, h]

theorem popAll_congr {s s' : State} (h : s'.queues = s.queues) (g : Group) (rs : List Reg) : popAll s' g rs = popAll s g rs := by
  unfold popAll; simp only [portQueue_congr h]

theorem modQueue_queues {s s' : State} (h : s'.queues = s.queues) (n : Nat) (f : QueueInst → QueueInst) :
    (s'.modQueue n f).queues = (s.modQueue n f).queues := by simp [State.modQueue, h]

/-- Popping touches queues alone. -/
theorem doPops_spec {s s' : State} (g : Group) (rs : List Reg) (h : s'.queues = s.queues) :
    (doPops s' g rs).1 = (doPops s g rs).1 ∧ (doPops s' g rs).2 = { s' with queues := (doPops s g rs).2.queues } := by
  induction rs generalizing s s' with
  | nil => exact ⟨rfl, by simp only [doPops, ← h]⟩
  | cons r rs ih =>
    unfold doPops
    have hc : ((portOf g r).bind fun p => (portQueue s' p).map fun q => (p, q))
        = ((portOf g r).bind fun p => (portQueue s p).map fun q => (p, q)) := by simp only [portQueue_congr h]
    rw [hc]
    split
    · have := ih h; exact ⟨by dsimp only; rw [this.1], this.2⟩
    · next p q _ =>
      have := ih (s := s.modQueue p.inst QueueInst.pop) (s' := s'.modQueue p.inst QueueInst.pop) (modQueue_queues h _ _)
      exact ⟨by dsimp only; rw [this.1], this.2⟩

theorem pushAns_congr {s s' : State} (h : SameMachine s s') (q : QueueInst) : pushAns s' q = pushAns s q := by
  obtain ⟨_, _, _, ht, hl, _⟩ := h
  have e : consumerUp s' q = consumerUp s q := by simp only [consumerUp, State.launch?, ht, hl]
  simp only [pushAns, e]

/-- The state after the pops of the source ports. -/
def popped (s' s : State) (c : Ctl) (fs : List Src) : State := { s' with queues := (doPops s c.gr (srcPorts fs)).2.queues }

theorem withSources_ready {s s' : State} {c : Ctl} {fs : List Src} {d : Reg} {k : List Row → State → State} (b : Begun s c s')
    (h : portsReady s c fs d) : withSources s' c fs d k = k (operandRows s c fs) (popped s' s c fs) := by
  have hp := doPops_spec c.gr (srcPorts fs) b.queues
  unfold withSources
  simp only [popAll_congr b.queues]
  rcases h with ⟨h1, h2⟩ | ⟨h1, h2, h3, h4⟩
  · simp only [h1, h2, List.isEmpty_nil, Option.isNone_none, Bool.and_self, if_true, operandRows, doPops, popped]
    rw [show ({ s' with queues := s.queues } : State) = s' by rw [← b.queues]]
  · by_cases he : ((srcPorts fs).isEmpty && (dstPort d).isNone) = true
    · simp only [Bool.and_eq_true, List.isEmpty_iff, Option.isNone_iff_eq_none] at he
      simp only [he.1, he.2, List.isEmpty_nil, Option.isNone_none, Bool.and_self, if_true, operandRows, doPops, popped]
      rw [show ({ s' with queues := s.queues } : State) = s' by rw [← b.queues]]
    · simp only [he, h1, h2, h3, Bool.false_eq_true, if_false]
      cases hd : dstPort d with
      | none =>
        simp only [Option.bind_none, hp.1, hp.2, operandRows, popped]
      | some r =>
        obtain ⟨p, q, hp1, hq, ha⟩ := h4 r hd
        simp only [Option.bind_some, hp1, portQueue_congr b.queues, hq, pushAns_congr b.same, ha, hp.1, hp.2, operandRows, popped]

/-- A register instruction whose operands are ready writes what `f` computes. -/
theorem runReg_completes {s : State} {c : Ctl} {fs : List Src} {d : Reg} {extra : Ctl → Nat → Option Nat}
    {f : Ctl → State → List Row → Except FaultInfo RegOut} (h : Runs s c fs d)
    (hx : ∀ l, has c.act l = true → extra c l = none) :
    ∃ s', Begun s c s' ∧ runReg d fs extra f s = .next (match f c (popped s' s c fs) (operandRows s c fs) with
      | .ok o => writeOut (popped s' s c fs) c d (operandRows s c fs) o
      | .error e => faultHere s' c e) := by
  obtain ⟨s₁, b₁, e₁⟩ := withIssue_completes h.toInProgress
  obtain ⟨s₂, b₂, e₂⟩ := withRows_clear b₁ h.names.2
  refine ⟨s₂, b₂, ?_⟩
  unfold runReg
  rw [e₁, withDeps_clear (fun l hl => by simp [h.names.1 l hl, hx l hl]), e₂, withSources_ready b₂ h.ports]
  all_goals cases f c (popped s₂ s c fs) (operandRows s c fs) <;> rfl

end Sys2Proof.Machine
end

