-- ==== Sys2Proof/Laws/State.lean ====
section
/-! SUPPORT. Each update of one table of the state leaves every other field as it is, and its own entry is read back. -/
namespace Sys2Proof.Machine

/-! ## setCtx -/

@[simp] theorem State.setCtx_time (s : State) (c : Nat) (x : Context) : (s.setCtx c x).time = s.time := rfl
@[simp] theorem State.setCtx_tick (s : State) (c : Nat) (x : Context) : (s.setCtx c x).tick = s.tick := rfl
@[simp] theorem State.setCtx_freeIx (s : State) (c : Nat) (x : Context) : (s.setCtx c x).freeIx = s.freeIx := rfl
@[simp] theorem State.setCtx_agenda (s : State) (c : Nat) (x : Context) : (s.setCtx c x).agenda = s.agenda := rfl
@[simp] theorem State.setCtx_cur (s : State) (c : Nat) (x : Context) : (s.setCtx c x).cur = s.cur := rfl
@[simp] theorem State.setCtx_turns (s : State) (c : Nat) (x : Context) : (s.setCtx c x).turns = s.turns := rfl
@[simp] theorem State.setCtx_mem (s : State) (c : Nat) (x : Context) : (s.setCtx c x).mem = s.mem := rfl
@[simp] theorem State.setCtx_hostMem (s : State) (c : Nat) (x : Context) : (s.setCtx c x).hostMem = s.hostMem := rfl
@[simp] theorem State.setCtx_peerMem (s : State) (c : Nat) (x : Context) : (s.setCtx c x).peerMem = s.peerMem := rfl
@[simp] theorem State.setCtx_groups (s : State) (c : Nat) (x : Context) : (s.setCtx c x).groups = s.groups := rfl
@[simp] theorem State.setCtx_teams (s : State) (c : Nat) (x : Context) : (s.setCtx c x).teams = s.teams := rfl
@[simp] theorem State.setCtx_launches (s : State) (c : Nat) (x : Context) : (s.setCtx c x).launches = s.launches := rfl
@[simp] theorem State.setCtx_queues (s : State) (c : Nat) (x : Context) : (s.setCtx c x).queues = s.queues := rfl
@[simp] theorem State.setCtx_taskQueues (s : State) (c : Nat) (x : Context) : (s.setCtx c x).taskQueues = s.taskQueues := rfl
@[simp] theorem State.setCtx_cores (s : State) (c : Nat) (x : Context) : (s.setCtx c x).cores = s.cores := rfl
@[simp] theorem State.setCtx_copies (s : State) (c : Nat) (x : Context) : (s.setCtx c x).copies = s.copies := rfl
@[simp] theorem State.setCtx_engines (s : State) (c : Nat) (x : Context) : (s.setCtx c x).engines = s.engines := rfl
@[simp] theorem State.setCtx_tlbs (s : State) (c : Nat) (x : Context) : (s.setCtx c x).tlbs = s.tlbs := rfl
@[simp] theorem State.setCtx_walks (s : State) (c : Nat) (x : Context) : (s.setCtx c x).walks = s.walks := rfl
@[simp] theorem State.setCtx_failed (s : State) (c : Nat) (x : Context) : (s.setCtx c x).failed = s.failed := rfl
@[simp] theorem State.setCtx_classes (s : State) (c : Nat) (x : Context) : (s.setCtx c x).classes = s.classes := rfl
@[simp] theorem State.setCtx_transits (s : State) (c : Nat) (x : Context) : (s.setCtx c x).transits = s.transits := rfl
@[simp] theorem State.setCtx_tickets (s : State) (c : Nat) (x : Context) : (s.setCtx c x).tickets = s.tickets := rfl
@[simp] theorem State.setCtx_bias (s : State) (c : Nat) (x : Context) : (s.setCtx c x).bias = s.bias := rfl
@[simp] theorem State.setCtx_snoop (s : State) (c : Nat) (x : Context) : (s.setCtx c x).snoop = s.snoop := rfl
@[simp] theorem State.setCtx_snoopInv (s : State) (c : Nat) (x : Context) : (s.setCtx c x).snoopInv = s.snoopInv := rfl
@[simp] theorem State.setCtx_snoopData (s : State) (c : Nat) (x : Context) : (s.setCtx c x).snoopData = s.snoopData := rfl
@[simp] theorem State.setCtx_snoopAns (s : State) (c : Nat) (x : Context) : (s.setCtx c x).snoopAns = s.snoopAns := rfl
@[simp] theorem State.setCtx_coherenceLost (s : State) (c : Nat) (x : Context) : (s.setCtx c x).coherenceLost = s.coherenceLost := rfl
@[simp] theorem State.setCtx_stale (s : State) (c : Nat) (x : Context) : (s.setCtx c x).stale = s.stale := rfl
@[simp] theorem State.setCtx_poison (s : State) (c : Nat) (x : Context) : (s.setCtx c x).poison = s.poison := rfl
@[simp] theorem State.setCtx_hostPending (s : State) (c : Nat) (x : Context) : (s.setCtx c x).hostPending = s.hostPending := rfl
@[simp] theorem State.setCtx_atHome (s : State) (c : Nat) (x : Context) : (s.setCtx c x).atHome = s.atHome := rfl
@[simp] theorem State.setCtx_messages (s : State) (c : Nat) (x : Context) : (s.setCtx c x).messages = s.messages := rfl
@[simp] theorem State.setCtx_overdue (s : State) (c : Nat) (x : Context) : (s.setCtx c x).overdue = s.overdue := rfl
@[simp] theorem State.setCtx_hostAnswer (s : State) (c : Nat) (x : Context) : (s.setCtx c x).hostAnswer = s.hostAnswer := rfl
@[simp] theorem State.setCtx_peerAnswer (s : State) (c : Nat) (x : Context) : (s.setCtx c x).peerAnswer = s.peerAnswer := rfl
@[simp] theorem State.setCtx_classAt (s : State) (c : Nat) (x : Context) : (s.setCtx c x).classAt = s.classAt := rfl
@[simp] theorem State.setCtx_biasAt (s : State) (c : Nat) (x : Context) : (s.setCtx c x).biasAt = s.biasAt := rfl
@[simp] theorem State.setCtx_hdmBase (s : State) (c : Nat) (x : Context) : (s.setCtx c x).hdmBase = s.hdmBase := rfl
@[simp] theorem State.setCtx_mgmt (s : State) (c : Nat) (x : Context) : (s.setCtx c x).mgmt = s.mgmt := rfl
@[simp] theorem State.setCtx_hostQueues (s : State) (c : Nat) (x : Context) : (s.setCtx c x).hostQueues = s.hostQueues := rfl
@[simp] theorem State.setCtx_links (s : State) (c : Nat) (x : Context) : (s.setCtx c x).links = s.links := rfl
@[simp] theorem State.setCtx_timeBlock (s : State) (c : Nat) (x : Context) : (s.setCtx c x).timeBlock = s.timeBlock := rfl
@[simp] theorem State.setCtx_domain (s : State) (c : Nat) (x : Context) : (s.setCtx c x).domain = s.domain := rfl
@[simp] theorem State.setCtx_parts (s : State) (c : Nat) (x : Context) : (s.setCtx c x).parts = s.parts := rfl
@[simp] theorem State.setCtx_partCtx (s : State) (c : Nat) (x : Context) : (s.setCtx c x).partCtx = s.partCtx := rfl
@[simp] theorem State.setCtx_haltLine (s : State) (c : Nat) (x : Context) : (s.setCtx c x).haltLine = s.haltLine := rfl
@[simp] theorem State.setCtx_gather (s : State) (c : Nat) (x : Context) : (s.setCtx c x).gather = s.gather := rfl
@[simp] theorem State.setCtx_quiet (s : State) (c : Nat) (x : Context) : (s.setCtx c x).quiet = s.quiet := rfl
@[simp] theorem State.setCtx_banks (s : State) (c : Nat) (x : Context) : (s.setCtx c x).banks = s.banks := rfl
@[simp] theorem State.setCtx_retired (s : State) (c : Nat) (x : Context) : (s.setCtx c x).retired = s.retired := rfl
@[simp] theorem State.setCtx_tests (s : State) (c : Nat) (x : Context) : (s.setCtx c x).tests = s.tests := rfl
@[simp] theorem State.setCtx_boot (s : State) (c : Nat) (x : Context) : (s.setCtx c x).boot = s.boot := rfl
@[simp] theorem State.setCtx_power (s : State) (c : Nat) (x : Context) : (s.setCtx c x).power = s.power := rfl
@[simp] theorem State.setCtx_msixTable (s : State) (c : Nat) (x : Context) : (s.setCtx c x).msixTable = s.msixTable := rfl
@[simp] theorem State.setCtx_msixPending (s : State) (c : Nat) (x : Context) : (s.setCtx c x).msixPending = s.msixPending := rfl
@[simp] theorem State.setCtx_msixSent (s : State) (c : Nat) (x : Context) : (s.setCtx c x).msixSent = s.msixSent := rfl
@[simp] theorem State.setCtx_fatal (s : State) (c : Nat) (x : Context) : (s.setCtx c x).fatal = s.fatal := rfl
@[simp] theorem State.setCtx_nextId (s : State) (c : Nat) (x : Context) : (s.setCtx c x).nextId = s.nextId := rfl

/-! ## modCtx -/

@[simp] theorem State.modCtx_time (s : State) (c : Nat) (f : Context → Context) : (s.modCtx c f).time = s.time := rfl
@[simp] theorem State.modCtx_tick (s : State) (c : Nat) (f : Context → Context) : (s.modCtx c f).tick = s.tick := rfl
@[simp] theorem State.modCtx_freeIx (s : State) (c : Nat) (f : Context → Context) : (s.modCtx c f).freeIx = s.freeIx := rfl
@[simp] theorem State.modCtx_agenda (s : State) (c : Nat) (f : Context → Context) : (s.modCtx c f).agenda = s.agenda := rfl
@[simp] theorem State.modCtx_cur (s : State) (c : Nat) (f : Context → Context) : (s.modCtx c f).cur = s.cur := rfl
@[simp] theorem State.modCtx_turns (s : State) (c : Nat) (f : Context → Context) : (s.modCtx c f).turns = s.turns := rfl
@[simp] theorem State.modCtx_mem (s : State) (c : Nat) (f : Context → Context) : (s.modCtx c f).mem = s.mem := rfl
@[simp] theorem State.modCtx_hostMem (s : State) (c : Nat) (f : Context → Context) : (s.modCtx c f).hostMem = s.hostMem := rfl
@[simp] theorem State.modCtx_peerMem (s : State) (c : Nat) (f : Context → Context) : (s.modCtx c f).peerMem = s.peerMem := rfl
@[simp] theorem State.modCtx_groups (s : State) (c : Nat) (f : Context → Context) : (s.modCtx c f).groups = s.groups := rfl
@[simp] theorem State.modCtx_teams (s : State) (c : Nat) (f : Context → Context) : (s.modCtx c f).teams = s.teams := rfl
@[simp] theorem State.modCtx_launches (s : State) (c : Nat) (f : Context → Context) : (s.modCtx c f).launches = s.launches := rfl
@[simp] theorem State.modCtx_queues (s : State) (c : Nat) (f : Context → Context) : (s.modCtx c f).queues = s.queues := rfl
@[simp] theorem State.modCtx_taskQueues (s : State) (c : Nat) (f : Context → Context) : (s.modCtx c f).taskQueues = s.taskQueues := rfl
@[simp] theorem State.modCtx_cores (s : State) (c : Nat) (f : Context → Context) : (s.modCtx c f).cores = s.cores := rfl
@[simp] theorem State.modCtx_copies (s : State) (c : Nat) (f : Context → Context) : (s.modCtx c f).copies = s.copies := rfl
@[simp] theorem State.modCtx_engines (s : State) (c : Nat) (f : Context → Context) : (s.modCtx c f).engines = s.engines := rfl
@[simp] theorem State.modCtx_tlbs (s : State) (c : Nat) (f : Context → Context) : (s.modCtx c f).tlbs = s.tlbs := rfl
@[simp] theorem State.modCtx_walks (s : State) (c : Nat) (f : Context → Context) : (s.modCtx c f).walks = s.walks := rfl
@[simp] theorem State.modCtx_failed (s : State) (c : Nat) (f : Context → Context) : (s.modCtx c f).failed = s.failed := rfl
@[simp] theorem State.modCtx_classes (s : State) (c : Nat) (f : Context → Context) : (s.modCtx c f).classes = s.classes := rfl
@[simp] theorem State.modCtx_transits (s : State) (c : Nat) (f : Context → Context) : (s.modCtx c f).transits = s.transits := rfl
@[simp] theorem State.modCtx_tickets (s : State) (c : Nat) (f : Context → Context) : (s.modCtx c f).tickets = s.tickets := rfl
@[simp] theorem State.modCtx_bias (s : State) (c : Nat) (f : Context → Context) : (s.modCtx c f).bias = s.bias := rfl
@[simp] theorem State.modCtx_snoop (s : State) (c : Nat) (f : Context → Context) : (s.modCtx c f).snoop = s.snoop := rfl
@[simp] theorem State.modCtx_snoopInv (s : State) (c : Nat) (f : Context → Context) : (s.modCtx c f).snoopInv = s.snoopInv := rfl
@[simp] theorem State.modCtx_snoopData (s : State) (c : Nat) (f : Context → Context) : (s.modCtx c f).snoopData = s.snoopData := rfl
@[simp] theorem State.modCtx_snoopAns (s : State) (c : Nat) (f : Context → Context) : (s.modCtx c f).snoopAns = s.snoopAns := rfl
@[simp] theorem State.modCtx_coherenceLost (s : State) (c : Nat) (f : Context → Context) : (s.modCtx c f).coherenceLost = s.coherenceLost := rfl
@[simp] theorem State.modCtx_stale (s : State) (c : Nat) (f : Context → Context) : (s.modCtx c f).stale = s.stale := rfl
@[simp] theorem State.modCtx_poison (s : State) (c : Nat) (f : Context → Context) : (s.modCtx c f).poison = s.poison := rfl
@[simp] theorem State.modCtx_hostPending (s : State) (c : Nat) (f : Context → Context) : (s.modCtx c f).hostPending = s.hostPending := rfl
@[simp] theorem State.modCtx_atHome (s : State) (c : Nat) (f : Context → Context) : (s.modCtx c f).atHome = s.atHome := rfl
@[simp] theorem State.modCtx_messages (s : State) (c : Nat) (f : Context → Context) : (s.modCtx c f).messages = s.messages := rfl
@[simp] theorem State.modCtx_overdue (s : State) (c : Nat) (f : Context → Context) : (s.modCtx c f).overdue = s.overdue := rfl
@[simp] theorem State.modCtx_hostAnswer (s : State) (c : Nat) (f : Context → Context) : (s.modCtx c f).hostAnswer = s.hostAnswer := rfl
@[simp] theorem State.modCtx_peerAnswer (s : State) (c : Nat) (f : Context → Context) : (s.modCtx c f).peerAnswer = s.peerAnswer := rfl
@[simp] theorem State.modCtx_classAt (s : State) (c : Nat) (f : Context → Context) : (s.modCtx c f).classAt = s.classAt := rfl
@[simp] theorem State.modCtx_biasAt (s : State) (c : Nat) (f : Context → Context) : (s.modCtx c f).biasAt = s.biasAt := rfl
@[simp] theorem State.modCtx_hdmBase (s : State) (c : Nat) (f : Context → Context) : (s.modCtx c f).hdmBase = s.hdmBase := rfl
@[simp] theorem State.modCtx_mgmt (s : State) (c : Nat) (f : Context → Context) : (s.modCtx c f).mgmt = s.mgmt := rfl
@[simp] theorem State.modCtx_hostQueues (s : State) (c : Nat) (f : Context → Context) : (s.modCtx c f).hostQueues = s.hostQueues := rfl
@[simp] theorem State.modCtx_links (s : State) (c : Nat) (f : Context → Context) : (s.modCtx c f).links = s.links := rfl
@[simp] theorem State.modCtx_timeBlock (s : State) (c : Nat) (f : Context → Context) : (s.modCtx c f).timeBlock = s.timeBlock := rfl
@[simp] theorem State.modCtx_domain (s : State) (c : Nat) (f : Context → Context) : (s.modCtx c f).domain = s.domain := rfl
@[simp] theorem State.modCtx_parts (s : State) (c : Nat) (f : Context → Context) : (s.modCtx c f).parts = s.parts := rfl
@[simp] theorem State.modCtx_partCtx (s : State) (c : Nat) (f : Context → Context) : (s.modCtx c f).partCtx = s.partCtx := rfl
@[simp] theorem State.modCtx_haltLine (s : State) (c : Nat) (f : Context → Context) : (s.modCtx c f).haltLine = s.haltLine := rfl
@[simp] theorem State.modCtx_gather (s : State) (c : Nat) (f : Context → Context) : (s.modCtx c f).gather = s.gather := rfl
@[simp] theorem State.modCtx_quiet (s : State) (c : Nat) (f : Context → Context) : (s.modCtx c f).quiet = s.quiet := rfl
@[simp] theorem State.modCtx_banks (s : State) (c : Nat) (f : Context → Context) : (s.modCtx c f).banks = s.banks := rfl
@[simp] theorem State.modCtx_retired (s : State) (c : Nat) (f : Context → Context) : (s.modCtx c f).retired = s.retired := rfl
@[simp] theorem State.modCtx_tests (s : State) (c : Nat) (f : Context → Context) : (s.modCtx c f).tests = s.tests := rfl
@[simp] theorem State.modCtx_boot (s : State) (c : Nat) (f : Context → Context) : (s.modCtx c f).boot = s.boot := rfl
@[simp] theorem State.modCtx_power (s : State) (c : Nat) (f : Context → Context) : (s.modCtx c f).power = s.power := rfl
@[simp] theorem State.modCtx_msixTable (s : State) (c : Nat) (f : Context → Context) : (s.modCtx c f).msixTable = s.msixTable := rfl
@[simp] theorem State.modCtx_msixPending (s : State) (c : Nat) (f : Context → Context) : (s.modCtx c f).msixPending = s.msixPending := rfl
@[simp] theorem State.modCtx_msixSent (s : State) (c : Nat) (f : Context → Context) : (s.modCtx c f).msixSent = s.msixSent := rfl
@[simp] theorem State.modCtx_fatal (s : State) (c : Nat) (f : Context → Context) : (s.modCtx c f).fatal = s.fatal := rfl
@[simp] theorem State.modCtx_nextId (s : State) (c : Nat) (f : Context → Context) : (s.modCtx c f).nextId = s.nextId := rfl

/-! ## setGroup -/

@[simp] theorem State.setGroup_time (s : State) (g : Nat) (x : Group) : (s.setGroup g x).time = s.time := rfl
@[simp] theorem State.setGroup_tick (s : State) (g : Nat) (x : Group) : (s.setGroup g x).tick = s.tick := rfl
@[simp] theorem State.setGroup_freeIx (s : State) (g : Nat) (x : Group) : (s.setGroup g x).freeIx = s.freeIx := rfl
@[simp] theorem State.setGroup_agenda (s : State) (g : Nat) (x : Group) : (s.setGroup g x).agenda = s.agenda := rfl
@[simp] theorem State.setGroup_cur (s : State) (g : Nat) (x : Group) : (s.setGroup g x).cur = s.cur := rfl
@[simp] theorem State.setGroup_turns (s : State) (g : Nat) (x : Group) : (s.setGroup g x).turns = s.turns := rfl
@[simp] theorem State.setGroup_mem (s : State) (g : Nat) (x : Group) : (s.setGroup g x).mem = s.mem := rfl
@[simp] theorem State.setGroup_hostMem (s : State) (g : Nat) (x : Group) : (s.setGroup g x).hostMem = s.hostMem := rfl
@[simp] theorem State.setGroup_peerMem (s : State) (g : Nat) (x : Group) : (s.setGroup g x).peerMem = s.peerMem := rfl
@[simp] theorem State.setGroup_teams (s : State) (g : Nat) (x : Group) : (s.setGroup g x).teams = s.teams := rfl
@[simp] theorem State.setGroup_launches (s : State) (g : Nat) (x : Group) : (s.setGroup g x).launches = s.launches := rfl
@[simp] theorem State.setGroup_queues (s : State) (g : Nat) (x : Group) : (s.setGroup g x).queues = s.queues := rfl
@[simp] theorem State.setGroup_taskQueues (s : State) (g : Nat) (x : Group) : (s.setGroup g x).taskQueues = s.taskQueues := rfl
@[simp] theorem State.setGroup_contexts (s : State) (g : Nat) (x : Group) : (s.setGroup g x).contexts = s.contexts := rfl
@[simp] theorem State.setGroup_cores (s : State) (g : Nat) (x : Group) : (s.setGroup g x).cores = s.cores := rfl
@[simp] theorem State.setGroup_copies (s : State) (g : Nat) (x : Group) : (s.setGroup g x).copies = s.copies := rfl
@[simp] theorem State.setGroup_engines (s : State) (g : Nat) (x : Group) : (s.setGroup g x).engines = s.engines := rfl
@[simp] theorem State.setGroup_tlbs (s : State) (g : Nat) (x : Group) : (s.setGroup g x).tlbs = s.tlbs := rfl
@[simp] theorem State.setGroup_walks (s : State) (g : Nat) (x : Group) : (s.setGroup g x).walks = s.walks := rfl
@[simp] theorem State.setGroup_failed (s : State) (g : Nat) (x : Group) : (s.setGroup g x).failed = s.failed := rfl
@[simp] theorem State.setGroup_classes (s : State) (g : Nat) (x : Group) : (s.setGroup g x).classes = s.classes := rfl
@[simp] theorem State.setGroup_transits (s : State) (g : Nat) (x : Group) : (s.setGroup g x).transits = s.transits := rfl
@[simp] theorem State.setGroup_tickets (s : State) (g : Nat) (x : Group) : (s.setGroup g x).tickets = s.tickets := rfl
@[simp] theorem State.setGroup_bias (s : State) (g : Nat) (x : Group) : (s.setGroup g x).bias = s.bias := rfl
@[simp] theorem State.setGroup_snoop (s : State) (g : Nat) (x : Group) : (s.setGroup g x).snoop = s.snoop := rfl
@[simp] theorem State.setGroup_snoopInv (s : State) (g : Nat) (x : Group) : (s.setGroup g x).snoopInv = s.snoopInv := rfl
@[simp] theorem State.setGroup_snoopData (s : State) (g : Nat) (x : Group) : (s.setGroup g x).snoopData = s.snoopData := rfl
@[simp] theorem State.setGroup_snoopAns (s : State) (g : Nat) (x : Group) : (s.setGroup g x).snoopAns = s.snoopAns := rfl
@[simp] theorem State.setGroup_coherenceLost (s : State) (g : Nat) (x : Group) : (s.setGroup g x).coherenceLost = s.coherenceLost := rfl
@[simp] theorem State.setGroup_stale (s : State) (g : Nat) (x : Group) : (s.setGroup g x).stale = s.stale := rfl
@[simp] theorem State.setGroup_poison (s : State) (g : Nat) (x : Group) : (s.setGroup g x).poison = s.poison := rfl
@[simp] theorem State.setGroup_hostPending (s : State) (g : Nat) (x : Group) : (s.setGroup g x).hostPending = s.hostPending := rfl
@[simp] theorem State.setGroup_atHome (s : State) (g : Nat) (x : Group) : (s.setGroup g x).atHome = s.atHome := rfl
@[simp] theorem State.setGroup_messages (s : State) (g : Nat) (x : Group) : (s.setGroup g x).messages = s.messages := rfl
@[simp] theorem State.setGroup_overdue (s : State) (g : Nat) (x : Group) : (s.setGroup g x).overdue = s.overdue := rfl
@[simp] theorem State.setGroup_hostAnswer (s : State) (g : Nat) (x : Group) : (s.setGroup g x).hostAnswer = s.hostAnswer := rfl
@[simp] theorem State.setGroup_peerAnswer (s : State) (g : Nat) (x : Group) : (s.setGroup g x).peerAnswer = s.peerAnswer := rfl
@[simp] theorem State.setGroup_classAt (s : State) (g : Nat) (x : Group) : (s.setGroup g x).classAt = s.classAt := rfl
@[simp] theorem State.setGroup_biasAt (s : State) (g : Nat) (x : Group) : (s.setGroup g x).biasAt = s.biasAt := rfl
@[simp] theorem State.setGroup_hdmBase (s : State) (g : Nat) (x : Group) : (s.setGroup g x).hdmBase = s.hdmBase := rfl
@[simp] theorem State.setGroup_mgmt (s : State) (g : Nat) (x : Group) : (s.setGroup g x).mgmt = s.mgmt := rfl
@[simp] theorem State.setGroup_hostQueues (s : State) (g : Nat) (x : Group) : (s.setGroup g x).hostQueues = s.hostQueues := rfl
@[simp] theorem State.setGroup_links (s : State) (g : Nat) (x : Group) : (s.setGroup g x).links = s.links := rfl
@[simp] theorem State.setGroup_timeBlock (s : State) (g : Nat) (x : Group) : (s.setGroup g x).timeBlock = s.timeBlock := rfl
@[simp] theorem State.setGroup_domain (s : State) (g : Nat) (x : Group) : (s.setGroup g x).domain = s.domain := rfl
@[simp] theorem State.setGroup_parts (s : State) (g : Nat) (x : Group) : (s.setGroup g x).parts = s.parts := rfl
@[simp] theorem State.setGroup_partCtx (s : State) (g : Nat) (x : Group) : (s.setGroup g x).partCtx = s.partCtx := rfl
@[simp] theorem State.setGroup_haltLine (s : State) (g : Nat) (x : Group) : (s.setGroup g x).haltLine = s.haltLine := rfl
@[simp] theorem State.setGroup_gather (s : State) (g : Nat) (x : Group) : (s.setGroup g x).gather = s.gather := rfl
@[simp] theorem State.setGroup_quiet (s : State) (g : Nat) (x : Group) : (s.setGroup g x).quiet = s.quiet := rfl
@[simp] theorem State.setGroup_banks (s : State) (g : Nat) (x : Group) : (s.setGroup g x).banks = s.banks := rfl
@[simp] theorem State.setGroup_retired (s : State) (g : Nat) (x : Group) : (s.setGroup g x).retired = s.retired := rfl
@[simp] theorem State.setGroup_tests (s : State) (g : Nat) (x : Group) : (s.setGroup g x).tests = s.tests := rfl
@[simp] theorem State.setGroup_boot (s : State) (g : Nat) (x : Group) : (s.setGroup g x).boot = s.boot := rfl
@[simp] theorem State.setGroup_power (s : State) (g : Nat) (x : Group) : (s.setGroup g x).power = s.power := rfl
@[simp] theorem State.setGroup_msixTable (s : State) (g : Nat) (x : Group) : (s.setGroup g x).msixTable = s.msixTable := rfl
@[simp] theorem State.setGroup_msixPending (s : State) (g : Nat) (x : Group) : (s.setGroup g x).msixPending = s.msixPending := rfl
@[simp] theorem State.setGroup_msixSent (s : State) (g : Nat) (x : Group) : (s.setGroup g x).msixSent = s.msixSent := rfl
@[simp] theorem State.setGroup_fatal (s : State) (g : Nat) (x : Group) : (s.setGroup g x).fatal = s.fatal := rfl
@[simp] theorem State.setGroup_nextId (s : State) (g : Nat) (x : Group) : (s.setGroup g x).nextId = s.nextId := rfl

/-! ## modGroup -/

@[simp] theorem State.modGroup_time (s : State) (g : Nat) (f : Group → Group) : (s.modGroup g f).time = s.time := rfl
@[simp] theorem State.modGroup_tick (s : State) (g : Nat) (f : Group → Group) : (s.modGroup g f).tick = s.tick := rfl
@[simp] theorem State.modGroup_freeIx (s : State) (g : Nat) (f : Group → Group) : (s.modGroup g f).freeIx = s.freeIx := rfl
@[simp] theorem State.modGroup_agenda (s : State) (g : Nat) (f : Group → Group) : (s.modGroup g f).agenda = s.agenda := rfl
@[simp] theorem State.modGroup_cur (s : State) (g : Nat) (f : Group → Group) : (s.modGroup g f).cur = s.cur := rfl
@[simp] theorem State.modGroup_turns (s : State) (g : Nat) (f : Group → Group) : (s.modGroup g f).turns = s.turns := rfl
@[simp] theorem State.modGroup_mem (s : State) (g : Nat) (f : Group → Group) : (s.modGroup g f).mem = s.mem := rfl
@[simp] theorem State.modGroup_hostMem (s : State) (g : Nat) (f : Group → Group) : (s.modGroup g f).hostMem = s.hostMem := rfl
@[simp] theorem State.modGroup_peerMem (s : State) (g : Nat) (f : Group → Group) : (s.modGroup g f).peerMem = s.peerMem := rfl
@[simp] theorem State.modGroup_teams (s : State) (g : Nat) (f : Group → Group) : (s.modGroup g f).teams = s.teams := rfl
@[simp] theorem State.modGroup_launches (s : State) (g : Nat) (f : Group → Group) : (s.modGroup g f).launches = s.launches := rfl
@[simp] theorem State.modGroup_queues (s : State) (g : Nat) (f : Group → Group) : (s.modGroup g f).queues = s.queues := rfl
@[simp] theorem State.modGroup_taskQueues (s : State) (g : Nat) (f : Group → Group) : (s.modGroup g f).taskQueues = s.taskQueues := rfl
@[simp] theorem State.modGroup_contexts (s : State) (g : Nat) (f : Group → Group) : (s.modGroup g f).contexts = s.contexts := rfl
@[simp] theorem State.modGroup_cores (s : State) (g : Nat) (f : Group → Group) : (s.modGroup g f).cores = s.cores := rfl
@[simp] theorem State.modGroup_copies (s : State) (g : Nat) (f : Group → Group) : (s.modGroup g f).copies = s.copies := rfl
@[simp] theorem State.modGroup_engines (s : State) (g : Nat) (f : Group → Group) : (s.modGroup g f).engines = s.engines := rfl
@[simp] theorem State.modGroup_tlbs (s : State) (g : Nat) (f : Group → Group) : (s.modGroup g f).tlbs = s.tlbs := rfl
@[simp] theorem State.modGroup_walks (s : State) (g : Nat) (f : Group → Group) : (s.modGroup g f).walks = s.walks := rfl
@[simp] theorem State.modGroup_failed (s : State) (g : Nat) (f : Group → Group) : (s.modGroup g f).failed = s.failed := rfl
@[simp] theorem State.modGroup_classes (s : State) (g : Nat) (f : Group → Group) : (s.modGroup g f).classes = s.classes := rfl
@[simp] theorem State.modGroup_transits (s : State) (g : Nat) (f : Group → Group) : (s.modGroup g f).transits = s.transits := rfl
@[simp] theorem State.modGroup_tickets (s : State) (g : Nat) (f : Group → Group) : (s.modGroup g f).tickets = s.tickets := rfl
@[simp] theorem State.modGroup_bias (s : State) (g : Nat) (f : Group → Group) : (s.modGroup g f).bias = s.bias := rfl
@[simp] theorem State.modGroup_snoop (s : State) (g : Nat) (f : Group → Group) : (s.modGroup g f).snoop = s.snoop := rfl
@[simp] theorem State.modGroup_snoopInv (s : State) (g : Nat) (f : Group → Group) : (s.modGroup g f).snoopInv = s.snoopInv := rfl
@[simp] theorem State.modGroup_snoopData (s : State) (g : Nat) (f : Group → Group) : (s.modGroup g f).snoopData = s.snoopData := rfl
@[simp] theorem State.modGroup_snoopAns (s : State) (g : Nat) (f : Group → Group) : (s.modGroup g f).snoopAns = s.snoopAns := rfl
@[simp] theorem State.modGroup_coherenceLost (s : State) (g : Nat) (f : Group → Group) : (s.modGroup g f).coherenceLost = s.coherenceLost := rfl
@[simp] theorem State.modGroup_stale (s : State) (g : Nat) (f : Group → Group) : (s.modGroup g f).stale = s.stale := rfl
@[simp] theorem State.modGroup_poison (s : State) (g : Nat) (f : Group → Group) : (s.modGroup g f).poison = s.poison := rfl
@[simp] theorem State.modGroup_hostPending (s : State) (g : Nat) (f : Group → Group) : (s.modGroup g f).hostPending = s.hostPending := rfl
@[simp] theorem State.modGroup_atHome (s : State) (g : Nat) (f : Group → Group) : (s.modGroup g f).atHome = s.atHome := rfl
@[simp] theorem State.modGroup_messages (s : State) (g : Nat) (f : Group → Group) : (s.modGroup g f).messages = s.messages := rfl
@[simp] theorem State.modGroup_overdue (s : State) (g : Nat) (f : Group → Group) : (s.modGroup g f).overdue = s.overdue := rfl
@[simp] theorem State.modGroup_hostAnswer (s : State) (g : Nat) (f : Group → Group) : (s.modGroup g f).hostAnswer = s.hostAnswer := rfl
@[simp] theorem State.modGroup_peerAnswer (s : State) (g : Nat) (f : Group → Group) : (s.modGroup g f).peerAnswer = s.peerAnswer := rfl
@[simp] theorem State.modGroup_classAt (s : State) (g : Nat) (f : Group → Group) : (s.modGroup g f).classAt = s.classAt := rfl
@[simp] theorem State.modGroup_biasAt (s : State) (g : Nat) (f : Group → Group) : (s.modGroup g f).biasAt = s.biasAt := rfl
@[simp] theorem State.modGroup_hdmBase (s : State) (g : Nat) (f : Group → Group) : (s.modGroup g f).hdmBase = s.hdmBase := rfl
@[simp] theorem State.modGroup_mgmt (s : State) (g : Nat) (f : Group → Group) : (s.modGroup g f).mgmt = s.mgmt := rfl
@[simp] theorem State.modGroup_hostQueues (s : State) (g : Nat) (f : Group → Group) : (s.modGroup g f).hostQueues = s.hostQueues := rfl
@[simp] theorem State.modGroup_links (s : State) (g : Nat) (f : Group → Group) : (s.modGroup g f).links = s.links := rfl
@[simp] theorem State.modGroup_timeBlock (s : State) (g : Nat) (f : Group → Group) : (s.modGroup g f).timeBlock = s.timeBlock := rfl
@[simp] theorem State.modGroup_domain (s : State) (g : Nat) (f : Group → Group) : (s.modGroup g f).domain = s.domain := rfl
@[simp] theorem State.modGroup_parts (s : State) (g : Nat) (f : Group → Group) : (s.modGroup g f).parts = s.parts := rfl
@[simp] theorem State.modGroup_partCtx (s : State) (g : Nat) (f : Group → Group) : (s.modGroup g f).partCtx = s.partCtx := rfl
@[simp] theorem State.modGroup_haltLine (s : State) (g : Nat) (f : Group → Group) : (s.modGroup g f).haltLine = s.haltLine := rfl
@[simp] theorem State.modGroup_gather (s : State) (g : Nat) (f : Group → Group) : (s.modGroup g f).gather = s.gather := rfl
@[simp] theorem State.modGroup_quiet (s : State) (g : Nat) (f : Group → Group) : (s.modGroup g f).quiet = s.quiet := rfl
@[simp] theorem State.modGroup_banks (s : State) (g : Nat) (f : Group → Group) : (s.modGroup g f).banks = s.banks := rfl
@[simp] theorem State.modGroup_retired (s : State) (g : Nat) (f : Group → Group) : (s.modGroup g f).retired = s.retired := rfl
@[simp] theorem State.modGroup_tests (s : State) (g : Nat) (f : Group → Group) : (s.modGroup g f).tests = s.tests := rfl
@[simp] theorem State.modGroup_boot (s : State) (g : Nat) (f : Group → Group) : (s.modGroup g f).boot = s.boot := rfl
@[simp] theorem State.modGroup_power (s : State) (g : Nat) (f : Group → Group) : (s.modGroup g f).power = s.power := rfl
@[simp] theorem State.modGroup_msixTable (s : State) (g : Nat) (f : Group → Group) : (s.modGroup g f).msixTable = s.msixTable := rfl
@[simp] theorem State.modGroup_msixPending (s : State) (g : Nat) (f : Group → Group) : (s.modGroup g f).msixPending = s.msixPending := rfl
@[simp] theorem State.modGroup_msixSent (s : State) (g : Nat) (f : Group → Group) : (s.modGroup g f).msixSent = s.msixSent := rfl
@[simp] theorem State.modGroup_fatal (s : State) (g : Nat) (f : Group → Group) : (s.modGroup g f).fatal = s.fatal := rfl
@[simp] theorem State.modGroup_nextId (s : State) (g : Nat) (f : Group → Group) : (s.modGroup g f).nextId = s.nextId := rfl

/-! ## setTeam -/

@[simp] theorem State.setTeam_time (s : State) (n : Nat) (x : Team) : (s.setTeam n x).time = s.time := rfl
@[simp] theorem State.setTeam_tick (s : State) (n : Nat) (x : Team) : (s.setTeam n x).tick = s.tick := rfl
@[simp] theorem State.setTeam_freeIx (s : State) (n : Nat) (x : Team) : (s.setTeam n x).freeIx = s.freeIx := rfl
@[simp] theorem State.setTeam_agenda (s : State) (n : Nat) (x : Team) : (s.setTeam n x).agenda = s.agenda := rfl
@[simp] theorem State.setTeam_cur (s : State) (n : Nat) (x : Team) : (s.setTeam n x).cur = s.cur := rfl
@[simp] theorem State.setTeam_turns (s : State) (n : Nat) (x : Team) : (s.setTeam n x).turns = s.turns := rfl
@[simp] theorem State.setTeam_mem (s : State) (n : Nat) (x : Team) : (s.setTeam n x).mem = s.mem := rfl
@[simp] theorem State.setTeam_hostMem (s : State) (n : Nat) (x : Team) : (s.setTeam n x).hostMem = s.hostMem := rfl
@[simp] theorem State.setTeam_peerMem (s : State) (n : Nat) (x : Team) : (s.setTeam n x).peerMem = s.peerMem := rfl
@[simp] theorem State.setTeam_groups (s : State) (n : Nat) (x : Team) : (s.setTeam n x).groups = s.groups := rfl
@[simp] theorem State.setTeam_launches (s : State) (n : Nat) (x : Team) : (s.setTeam n x).launches = s.launches := rfl
@[simp] theorem State.setTeam_queues (s : State) (n : Nat) (x : Team) : (s.setTeam n x).queues = s.queues := rfl
@[simp] theorem State.setTeam_taskQueues (s : State) (n : Nat) (x : Team) : (s.setTeam n x).taskQueues = s.taskQueues := rfl
@[simp] theorem State.setTeam_contexts (s : State) (n : Nat) (x : Team) : (s.setTeam n x).contexts = s.contexts := rfl
@[simp] theorem State.setTeam_cores (s : State) (n : Nat) (x : Team) : (s.setTeam n x).cores = s.cores := rfl
@[simp] theorem State.setTeam_copies (s : State) (n : Nat) (x : Team) : (s.setTeam n x).copies = s.copies := rfl
@[simp] theorem State.setTeam_engines (s : State) (n : Nat) (x : Team) : (s.setTeam n x).engines = s.engines := rfl
@[simp] theorem State.setTeam_tlbs (s : State) (n : Nat) (x : Team) : (s.setTeam n x).tlbs = s.tlbs := rfl
@[simp] theorem State.setTeam_walks (s : State) (n : Nat) (x : Team) : (s.setTeam n x).walks = s.walks := rfl
@[simp] theorem State.setTeam_failed (s : State) (n : Nat) (x : Team) : (s.setTeam n x).failed = s.failed := rfl
@[simp] theorem State.setTeam_classes (s : State) (n : Nat) (x : Team) : (s.setTeam n x).classes = s.classes := rfl
@[simp] theorem State.setTeam_transits (s : State) (n : Nat) (x : Team) : (s.setTeam n x).transits = s.transits := rfl
@[simp] theorem State.setTeam_tickets (s : State) (n : Nat) (x : Team) : (s.setTeam n x).tickets = s.tickets := rfl
@[simp] theorem State.setTeam_bias (s : State) (n : Nat) (x : Team) : (s.setTeam n x).bias = s.bias := rfl
@[simp] theorem State.setTeam_snoop (s : State) (n : Nat) (x : Team) : (s.setTeam n x).snoop = s.snoop := rfl
@[simp] theorem State.setTeam_snoopInv (s : State) (n : Nat) (x : Team) : (s.setTeam n x).snoopInv = s.snoopInv := rfl
@[simp] theorem State.setTeam_snoopData (s : State) (n : Nat) (x : Team) : (s.setTeam n x).snoopData = s.snoopData := rfl
@[simp] theorem State.setTeam_snoopAns (s : State) (n : Nat) (x : Team) : (s.setTeam n x).snoopAns = s.snoopAns := rfl
@[simp] theorem State.setTeam_coherenceLost (s : State) (n : Nat) (x : Team) : (s.setTeam n x).coherenceLost = s.coherenceLost := rfl
@[simp] theorem State.setTeam_stale (s : State) (n : Nat) (x : Team) : (s.setTeam n x).stale = s.stale := rfl
@[simp] theorem State.setTeam_poison (s : State) (n : Nat) (x : Team) : (s.setTeam n x).poison = s.poison := rfl
@[simp] theorem State.setTeam_hostPending (s : State) (n : Nat) (x : Team) : (s.setTeam n x).hostPending = s.hostPending := rfl
@[simp] theorem State.setTeam_atHome (s : State) (n : Nat) (x : Team) : (s.setTeam n x).atHome = s.atHome := rfl
@[simp] theorem State.setTeam_messages (s : State) (n : Nat) (x : Team) : (s.setTeam n x).messages = s.messages := rfl
@[simp] theorem State.setTeam_overdue (s : State) (n : Nat) (x : Team) : (s.setTeam n x).overdue = s.overdue := rfl
@[simp] theorem State.setTeam_hostAnswer (s : State) (n : Nat) (x : Team) : (s.setTeam n x).hostAnswer = s.hostAnswer := rfl
@[simp] theorem State.setTeam_peerAnswer (s : State) (n : Nat) (x : Team) : (s.setTeam n x).peerAnswer = s.peerAnswer := rfl
@[simp] theorem State.setTeam_classAt (s : State) (n : Nat) (x : Team) : (s.setTeam n x).classAt = s.classAt := rfl
@[simp] theorem State.setTeam_biasAt (s : State) (n : Nat) (x : Team) : (s.setTeam n x).biasAt = s.biasAt := rfl
@[simp] theorem State.setTeam_hdmBase (s : State) (n : Nat) (x : Team) : (s.setTeam n x).hdmBase = s.hdmBase := rfl
@[simp] theorem State.setTeam_mgmt (s : State) (n : Nat) (x : Team) : (s.setTeam n x).mgmt = s.mgmt := rfl
@[simp] theorem State.setTeam_hostQueues (s : State) (n : Nat) (x : Team) : (s.setTeam n x).hostQueues = s.hostQueues := rfl
@[simp] theorem State.setTeam_links (s : State) (n : Nat) (x : Team) : (s.setTeam n x).links = s.links := rfl
@[simp] theorem State.setTeam_timeBlock (s : State) (n : Nat) (x : Team) : (s.setTeam n x).timeBlock = s.timeBlock := rfl
@[simp] theorem State.setTeam_domain (s : State) (n : Nat) (x : Team) : (s.setTeam n x).domain = s.domain := rfl
@[simp] theorem State.setTeam_parts (s : State) (n : Nat) (x : Team) : (s.setTeam n x).parts = s.parts := rfl
@[simp] theorem State.setTeam_partCtx (s : State) (n : Nat) (x : Team) : (s.setTeam n x).partCtx = s.partCtx := rfl
@[simp] theorem State.setTeam_haltLine (s : State) (n : Nat) (x : Team) : (s.setTeam n x).haltLine = s.haltLine := rfl
@[simp] theorem State.setTeam_gather (s : State) (n : Nat) (x : Team) : (s.setTeam n x).gather = s.gather := rfl
@[simp] theorem State.setTeam_quiet (s : State) (n : Nat) (x : Team) : (s.setTeam n x).quiet = s.quiet := rfl
@[simp] theorem State.setTeam_banks (s : State) (n : Nat) (x : Team) : (s.setTeam n x).banks = s.banks := rfl
@[simp] theorem State.setTeam_retired (s : State) (n : Nat) (x : Team) : (s.setTeam n x).retired = s.retired := rfl
@[simp] theorem State.setTeam_tests (s : State) (n : Nat) (x : Team) : (s.setTeam n x).tests = s.tests := rfl
@[simp] theorem State.setTeam_boot (s : State) (n : Nat) (x : Team) : (s.setTeam n x).boot = s.boot := rfl
@[simp] theorem State.setTeam_power (s : State) (n : Nat) (x : Team) : (s.setTeam n x).power = s.power := rfl
@[simp] theorem State.setTeam_msixTable (s : State) (n : Nat) (x : Team) : (s.setTeam n x).msixTable = s.msixTable := rfl
@[simp] theorem State.setTeam_msixPending (s : State) (n : Nat) (x : Team) : (s.setTeam n x).msixPending = s.msixPending := rfl
@[simp] theorem State.setTeam_msixSent (s : State) (n : Nat) (x : Team) : (s.setTeam n x).msixSent = s.msixSent := rfl
@[simp] theorem State.setTeam_fatal (s : State) (n : Nat) (x : Team) : (s.setTeam n x).fatal = s.fatal := rfl
@[simp] theorem State.setTeam_nextId (s : State) (n : Nat) (x : Team) : (s.setTeam n x).nextId = s.nextId := rfl

/-! ## modTeam -/

@[simp] theorem State.modTeam_time (s : State) (n : Nat) (f : Team → Team) : (s.modTeam n f).time = s.time := rfl
@[simp] theorem State.modTeam_tick (s : State) (n : Nat) (f : Team → Team) : (s.modTeam n f).tick = s.tick := rfl
@[simp] theorem State.modTeam_freeIx (s : State) (n : Nat) (f : Team → Team) : (s.modTeam n f).freeIx = s.freeIx := rfl
@[simp] theorem State.modTeam_agenda (s : State) (n : Nat) (f : Team → Team) : (s.modTeam n f).agenda = s.agenda := rfl
@[simp] theorem State.modTeam_cur (s : State) (n : Nat) (f : Team → Team) : (s.modTeam n f).cur = s.cur := rfl
@[simp] theorem State.modTeam_turns (s : State) (n : Nat) (f : Team → Team) : (s.modTeam n f).turns = s.turns := rfl
@[simp] theorem State.modTeam_mem (s : State) (n : Nat) (f : Team → Team) : (s.modTeam n f).mem = s.mem := rfl
@[simp] theorem State.modTeam_hostMem (s : State) (n : Nat) (f : Team → Team) : (s.modTeam n f).hostMem = s.hostMem := rfl
@[simp] theorem State.modTeam_peerMem (s : State) (n : Nat) (f : Team → Team) : (s.modTeam n f).peerMem = s.peerMem := rfl
@[simp] theorem State.modTeam_groups (s : State) (n : Nat) (f : Team → Team) : (s.modTeam n f).groups = s.groups := rfl
@[simp] theorem State.modTeam_launches (s : State) (n : Nat) (f : Team → Team) : (s.modTeam n f).launches = s.launches := rfl
@[simp] theorem State.modTeam_queues (s : State) (n : Nat) (f : Team → Team) : (s.modTeam n f).queues = s.queues := rfl
@[simp] theorem State.modTeam_taskQueues (s : State) (n : Nat) (f : Team → Team) : (s.modTeam n f).taskQueues = s.taskQueues := rfl
@[simp] theorem State.modTeam_contexts (s : State) (n : Nat) (f : Team → Team) : (s.modTeam n f).contexts = s.contexts := rfl
@[simp] theorem State.modTeam_cores (s : State) (n : Nat) (f : Team → Team) : (s.modTeam n f).cores = s.cores := rfl
@[simp] theorem State.modTeam_copies (s : State) (n : Nat) (f : Team → Team) : (s.modTeam n f).copies = s.copies := rfl
@[simp] theorem State.modTeam_engines (s : State) (n : Nat) (f : Team → Team) : (s.modTeam n f).engines = s.engines := rfl
@[simp] theorem State.modTeam_tlbs (s : State) (n : Nat) (f : Team → Team) : (s.modTeam n f).tlbs = s.tlbs := rfl
@[simp] theorem State.modTeam_walks (s : State) (n : Nat) (f : Team → Team) : (s.modTeam n f).walks = s.walks := rfl
@[simp] theorem State.modTeam_failed (s : State) (n : Nat) (f : Team → Team) : (s.modTeam n f).failed = s.failed := rfl
@[simp] theorem State.modTeam_classes (s : State) (n : Nat) (f : Team → Team) : (s.modTeam n f).classes = s.classes := rfl
@[simp] theorem State.modTeam_transits (s : State) (n : Nat) (f : Team → Team) : (s.modTeam n f).transits = s.transits := rfl
@[simp] theorem State.modTeam_tickets (s : State) (n : Nat) (f : Team → Team) : (s.modTeam n f).tickets = s.tickets := rfl
@[simp] theorem State.modTeam_bias (s : State) (n : Nat) (f : Team → Team) : (s.modTeam n f).bias = s.bias := rfl
@[simp] theorem State.modTeam_snoop (s : State) (n : Nat) (f : Team → Team) : (s.modTeam n f).snoop = s.snoop := rfl
@[simp] theorem State.modTeam_snoopInv (s : State) (n : Nat) (f : Team → Team) : (s.modTeam n f).snoopInv = s.snoopInv := rfl
@[simp] theorem State.modTeam_snoopData (s : State) (n : Nat) (f : Team → Team) : (s.modTeam n f).snoopData = s.snoopData := rfl
@[simp] theorem State.modTeam_snoopAns (s : State) (n : Nat) (f : Team → Team) : (s.modTeam n f).snoopAns = s.snoopAns := rfl
@[simp] theorem State.modTeam_coherenceLost (s : State) (n : Nat) (f : Team → Team) : (s.modTeam n f).coherenceLost = s.coherenceLost := rfl
@[simp] theorem State.modTeam_stale (s : State) (n : Nat) (f : Team → Team) : (s.modTeam n f).stale = s.stale := rfl
@[simp] theorem State.modTeam_poison (s : State) (n : Nat) (f : Team → Team) : (s.modTeam n f).poison = s.poison := rfl
@[simp] theorem State.modTeam_hostPending (s : State) (n : Nat) (f : Team → Team) : (s.modTeam n f).hostPending = s.hostPending := rfl
@[simp] theorem State.modTeam_atHome (s : State) (n : Nat) (f : Team → Team) : (s.modTeam n f).atHome = s.atHome := rfl
@[simp] theorem State.modTeam_messages (s : State) (n : Nat) (f : Team → Team) : (s.modTeam n f).messages = s.messages := rfl
@[simp] theorem State.modTeam_overdue (s : State) (n : Nat) (f : Team → Team) : (s.modTeam n f).overdue = s.overdue := rfl
@[simp] theorem State.modTeam_hostAnswer (s : State) (n : Nat) (f : Team → Team) : (s.modTeam n f).hostAnswer = s.hostAnswer := rfl
@[simp] theorem State.modTeam_peerAnswer (s : State) (n : Nat) (f : Team → Team) : (s.modTeam n f).peerAnswer = s.peerAnswer := rfl
@[simp] theorem State.modTeam_classAt (s : State) (n : Nat) (f : Team → Team) : (s.modTeam n f).classAt = s.classAt := rfl
@[simp] theorem State.modTeam_biasAt (s : State) (n : Nat) (f : Team → Team) : (s.modTeam n f).biasAt = s.biasAt := rfl
@[simp] theorem State.modTeam_hdmBase (s : State) (n : Nat) (f : Team → Team) : (s.modTeam n f).hdmBase = s.hdmBase := rfl
@[simp] theorem State.modTeam_mgmt (s : State) (n : Nat) (f : Team → Team) : (s.modTeam n f).mgmt = s.mgmt := rfl
@[simp] theorem State.modTeam_hostQueues (s : State) (n : Nat) (f : Team → Team) : (s.modTeam n f).hostQueues = s.hostQueues := rfl
@[simp] theorem State.modTeam_links (s : State) (n : Nat) (f : Team → Team) : (s.modTeam n f).links = s.links := rfl
@[simp] theorem State.modTeam_timeBlock (s : State) (n : Nat) (f : Team → Team) : (s.modTeam n f).timeBlock = s.timeBlock := rfl
@[simp] theorem State.modTeam_domain (s : State) (n : Nat) (f : Team → Team) : (s.modTeam n f).domain = s.domain := rfl
@[simp] theorem State.modTeam_parts (s : State) (n : Nat) (f : Team → Team) : (s.modTeam n f).parts = s.parts := rfl
@[simp] theorem State.modTeam_partCtx (s : State) (n : Nat) (f : Team → Team) : (s.modTeam n f).partCtx = s.partCtx := rfl
@[simp] theorem State.modTeam_haltLine (s : State) (n : Nat) (f : Team → Team) : (s.modTeam n f).haltLine = s.haltLine := rfl
@[simp] theorem State.modTeam_gather (s : State) (n : Nat) (f : Team → Team) : (s.modTeam n f).gather = s.gather := rfl
@[simp] theorem State.modTeam_quiet (s : State) (n : Nat) (f : Team → Team) : (s.modTeam n f).quiet = s.quiet := rfl
@[simp] theorem State.modTeam_banks (s : State) (n : Nat) (f : Team → Team) : (s.modTeam n f).banks = s.banks := rfl
@[simp] theorem State.modTeam_retired (s : State) (n : Nat) (f : Team → Team) : (s.modTeam n f).retired = s.retired := rfl
@[simp] theorem State.modTeam_tests (s : State) (n : Nat) (f : Team → Team) : (s.modTeam n f).tests = s.tests := rfl
@[simp] theorem State.modTeam_boot (s : State) (n : Nat) (f : Team → Team) : (s.modTeam n f).boot = s.boot := rfl
@[simp] theorem State.modTeam_power (s : State) (n : Nat) (f : Team → Team) : (s.modTeam n f).power = s.power := rfl
@[simp] theorem State.modTeam_msixTable (s : State) (n : Nat) (f : Team → Team) : (s.modTeam n f).msixTable = s.msixTable := rfl
@[simp] theorem State.modTeam_msixPending (s : State) (n : Nat) (f : Team → Team) : (s.modTeam n f).msixPending = s.msixPending := rfl
@[simp] theorem State.modTeam_msixSent (s : State) (n : Nat) (f : Team → Team) : (s.modTeam n f).msixSent = s.msixSent := rfl
@[simp] theorem State.modTeam_fatal (s : State) (n : Nat) (f : Team → Team) : (s.modTeam n f).fatal = s.fatal := rfl
@[simp] theorem State.modTeam_nextId (s : State) (n : Nat) (f : Team → Team) : (s.modTeam n f).nextId = s.nextId := rfl

/-! ## modLaunch -/

@[simp] theorem State.modLaunch_time (s : State) (n : Nat) (f : Launch → Launch) : (s.modLaunch n f).time = s.time := rfl
@[simp] theorem State.modLaunch_tick (s : State) (n : Nat) (f : Launch → Launch) : (s.modLaunch n f).tick = s.tick := rfl
@[simp] theorem State.modLaunch_freeIx (s : State) (n : Nat) (f : Launch → Launch) : (s.modLaunch n f).freeIx = s.freeIx := rfl
@[simp] theorem State.modLaunch_agenda (s : State) (n : Nat) (f : Launch → Launch) : (s.modLaunch n f).agenda = s.agenda := rfl
@[simp] theorem State.modLaunch_cur (s : State) (n : Nat) (f : Launch → Launch) : (s.modLaunch n f).cur = s.cur := rfl
@[simp] theorem State.modLaunch_turns (s : State) (n : Nat) (f : Launch → Launch) : (s.modLaunch n f).turns = s.turns := rfl
@[simp] theorem State.modLaunch_mem (s : State) (n : Nat) (f : Launch → Launch) : (s.modLaunch n f).mem = s.mem := rfl
@[simp] theorem State.modLaunch_hostMem (s : State) (n : Nat) (f : Launch → Launch) : (s.modLaunch n f).hostMem = s.hostMem := rfl
@[simp] theorem State.modLaunch_peerMem (s : State) (n : Nat) (f : Launch → Launch) : (s.modLaunch n f).peerMem = s.peerMem := rfl
@[simp] theorem State.modLaunch_groups (s : State) (n : Nat) (f : Launch → Launch) : (s.modLaunch n f).groups = s.groups := rfl
@[simp] theorem State.modLaunch_teams (s : State) (n : Nat) (f : Launch → Launch) : (s.modLaunch n f).teams = s.teams := rfl
@[simp] theorem State.modLaunch_queues (s : State) (n : Nat) (f : Launch → Launch) : (s.modLaunch n f).queues = s.queues := rfl
@[simp] theorem State.modLaunch_taskQueues (s : State) (n : Nat) (f : Launch → Launch) : (s.modLaunch n f).taskQueues = s.taskQueues := rfl
@[simp] theorem State.modLaunch_contexts (s : State) (n : Nat) (f : Launch → Launch) : (s.modLaunch n f).contexts = s.contexts := rfl
@[simp] theorem State.modLaunch_cores (s : State) (n : Nat) (f : Launch → Launch) : (s.modLaunch n f).cores = s.cores := rfl
@[simp] theorem State.modLaunch_copies (s : State) (n : Nat) (f : Launch → Launch) : (s.modLaunch n f).copies = s.copies := rfl
@[simp] theorem State.modLaunch_engines (s : State) (n : Nat) (f : Launch → Launch) : (s.modLaunch n f).engines = s.engines := rfl
@[simp] theorem State.modLaunch_tlbs (s : State) (n : Nat) (f : Launch → Launch) : (s.modLaunch n f).tlbs = s.tlbs := rfl
@[simp] theorem State.modLaunch_walks (s : State) (n : Nat) (f : Launch → Launch) : (s.modLaunch n f).walks = s.walks := rfl
@[simp] theorem State.modLaunch_failed (s : State) (n : Nat) (f : Launch → Launch) : (s.modLaunch n f).failed = s.failed := rfl
@[simp] theorem State.modLaunch_classes (s : State) (n : Nat) (f : Launch → Launch) : (s.modLaunch n f).classes = s.classes := rfl
@[simp] theorem State.modLaunch_transits (s : State) (n : Nat) (f : Launch → Launch) : (s.modLaunch n f).transits = s.transits := rfl
@[simp] theorem State.modLaunch_tickets (s : State) (n : Nat) (f : Launch → Launch) : (s.modLaunch n f).tickets = s.tickets := rfl
@[simp] theorem State.modLaunch_bias (s : State) (n : Nat) (f : Launch → Launch) : (s.modLaunch n f).bias = s.bias := rfl
@[simp] theorem State.modLaunch_snoop (s : State) (n : Nat) (f : Launch → Launch) : (s.modLaunch n f).snoop = s.snoop := rfl
@[simp] theorem State.modLaunch_snoopInv (s : State) (n : Nat) (f : Launch → Launch) : (s.modLaunch n f).snoopInv = s.snoopInv := rfl
@[simp] theorem State.modLaunch_snoopData (s : State) (n : Nat) (f : Launch → Launch) : (s.modLaunch n f).snoopData = s.snoopData := rfl
@[simp] theorem State.modLaunch_snoopAns (s : State) (n : Nat) (f : Launch → Launch) : (s.modLaunch n f).snoopAns = s.snoopAns := rfl
@[simp] theorem State.modLaunch_coherenceLost (s : State) (n : Nat) (f : Launch → Launch) : (s.modLaunch n f).coherenceLost = s.coherenceLost := rfl
@[simp] theorem State.modLaunch_stale (s : State) (n : Nat) (f : Launch → Launch) : (s.modLaunch n f).stale = s.stale := rfl
@[simp] theorem State.modLaunch_poison (s : State) (n : Nat) (f : Launch → Launch) : (s.modLaunch n f).poison = s.poison := rfl
@[simp] theorem State.modLaunch_hostPending (s : State) (n : Nat) (f : Launch → Launch) : (s.modLaunch n f).hostPending = s.hostPending := rfl
@[simp] theorem State.modLaunch_atHome (s : State) (n : Nat) (f : Launch → Launch) : (s.modLaunch n f).atHome = s.atHome := rfl
@[simp] theorem State.modLaunch_messages (s : State) (n : Nat) (f : Launch → Launch) : (s.modLaunch n f).messages = s.messages := rfl
@[simp] theorem State.modLaunch_overdue (s : State) (n : Nat) (f : Launch → Launch) : (s.modLaunch n f).overdue = s.overdue := rfl
@[simp] theorem State.modLaunch_hostAnswer (s : State) (n : Nat) (f : Launch → Launch) : (s.modLaunch n f).hostAnswer = s.hostAnswer := rfl
@[simp] theorem State.modLaunch_peerAnswer (s : State) (n : Nat) (f : Launch → Launch) : (s.modLaunch n f).peerAnswer = s.peerAnswer := rfl
@[simp] theorem State.modLaunch_classAt (s : State) (n : Nat) (f : Launch → Launch) : (s.modLaunch n f).classAt = s.classAt := rfl
@[simp] theorem State.modLaunch_biasAt (s : State) (n : Nat) (f : Launch → Launch) : (s.modLaunch n f).biasAt = s.biasAt := rfl
@[simp] theorem State.modLaunch_hdmBase (s : State) (n : Nat) (f : Launch → Launch) : (s.modLaunch n f).hdmBase = s.hdmBase := rfl
@[simp] theorem State.modLaunch_mgmt (s : State) (n : Nat) (f : Launch → Launch) : (s.modLaunch n f).mgmt = s.mgmt := rfl
@[simp] theorem State.modLaunch_hostQueues (s : State) (n : Nat) (f : Launch → Launch) : (s.modLaunch n f).hostQueues = s.hostQueues := rfl
@[simp] theorem State.modLaunch_links (s : State) (n : Nat) (f : Launch → Launch) : (s.modLaunch n f).links = s.links := rfl
@[simp] theorem State.modLaunch_timeBlock (s : State) (n : Nat) (f : Launch → Launch) : (s.modLaunch n f).timeBlock = s.timeBlock := rfl
@[simp] theorem State.modLaunch_domain (s : State) (n : Nat) (f : Launch → Launch) : (s.modLaunch n f).domain = s.domain := rfl
@[simp] theorem State.modLaunch_parts (s : State) (n : Nat) (f : Launch → Launch) : (s.modLaunch n f).parts = s.parts := rfl
@[simp] theorem State.modLaunch_partCtx (s : State) (n : Nat) (f : Launch → Launch) : (s.modLaunch n f).partCtx = s.partCtx := rfl
@[simp] theorem State.modLaunch_haltLine (s : State) (n : Nat) (f : Launch → Launch) : (s.modLaunch n f).haltLine = s.haltLine := rfl
@[simp] theorem State.modLaunch_gather (s : State) (n : Nat) (f : Launch → Launch) : (s.modLaunch n f).gather = s.gather := rfl
@[simp] theorem State.modLaunch_quiet (s : State) (n : Nat) (f : Launch → Launch) : (s.modLaunch n f).quiet = s.quiet := rfl
@[simp] theorem State.modLaunch_banks (s : State) (n : Nat) (f : Launch → Launch) : (s.modLaunch n f).banks = s.banks := rfl
@[simp] theorem State.modLaunch_retired (s : State) (n : Nat) (f : Launch → Launch) : (s.modLaunch n f).retired = s.retired := rfl
@[simp] theorem State.modLaunch_tests (s : State) (n : Nat) (f : Launch → Launch) : (s.modLaunch n f).tests = s.tests := rfl
@[simp] theorem State.modLaunch_boot (s : State) (n : Nat) (f : Launch → Launch) : (s.modLaunch n f).boot = s.boot := rfl
@[simp] theorem State.modLaunch_power (s : State) (n : Nat) (f : Launch → Launch) : (s.modLaunch n f).power = s.power := rfl
@[simp] theorem State.modLaunch_msixTable (s : State) (n : Nat) (f : Launch → Launch) : (s.modLaunch n f).msixTable = s.msixTable := rfl
@[simp] theorem State.modLaunch_msixPending (s : State) (n : Nat) (f : Launch → Launch) : (s.modLaunch n f).msixPending = s.msixPending := rfl
@[simp] theorem State.modLaunch_msixSent (s : State) (n : Nat) (f : Launch → Launch) : (s.modLaunch n f).msixSent = s.msixSent := rfl
@[simp] theorem State.modLaunch_fatal (s : State) (n : Nat) (f : Launch → Launch) : (s.modLaunch n f).fatal = s.fatal := rfl
@[simp] theorem State.modLaunch_nextId (s : State) (n : Nat) (f : Launch → Launch) : (s.modLaunch n f).nextId = s.nextId := rfl

/-! ## modQueue -/

@[simp] theorem State.modQueue_time (s : State) (n : Nat) (f : QueueInst → QueueInst) : (s.modQueue n f).time = s.time := rfl
@[simp] theorem State.modQueue_tick (s : State) (n : Nat) (f : QueueInst → QueueInst) : (s.modQueue n f).tick = s.tick := rfl
@[simp] theorem State.modQueue_freeIx (s : State) (n : Nat) (f : QueueInst → QueueInst) : (s.modQueue n f).freeIx = s.freeIx := rfl
@[simp] theorem State.modQueue_agenda (s : State) (n : Nat) (f : QueueInst → QueueInst) : (s.modQueue n f).agenda = s.agenda := rfl
@[simp] theorem State.modQueue_cur (s : State) (n : Nat) (f : QueueInst → QueueInst) : (s.modQueue n f).cur = s.cur := rfl
@[simp] theorem State.modQueue_turns (s : State) (n : Nat) (f : QueueInst → QueueInst) : (s.modQueue n f).turns = s.turns := rfl
@[simp] theorem State.modQueue_mem (s : State) (n : Nat) (f : QueueInst → QueueInst) : (s.modQueue n f).mem = s.mem := rfl
@[simp] theorem State.modQueue_hostMem (s : State) (n : Nat) (f : QueueInst → QueueInst) : (s.modQueue n f).hostMem = s.hostMem := rfl
@[simp] theorem State.modQueue_peerMem (s : State) (n : Nat) (f : QueueInst → QueueInst) : (s.modQueue n f).peerMem = s.peerMem := rfl
@[simp] theorem State.modQueue_groups (s : State) (n : Nat) (f : QueueInst → QueueInst) : (s.modQueue n f).groups = s.groups := rfl
@[simp] theorem State.modQueue_teams (s : State) (n : Nat) (f : QueueInst → QueueInst) : (s.modQueue n f).teams = s.teams := rfl
@[simp] theorem State.modQueue_launches (s : State) (n : Nat) (f : QueueInst → QueueInst) : (s.modQueue n f).launches = s.launches := rfl
@[simp] theorem State.modQueue_taskQueues (s : State) (n : Nat) (f : QueueInst → QueueInst) : (s.modQueue n f).taskQueues = s.taskQueues := rfl
@[simp] theorem State.modQueue_contexts (s : State) (n : Nat) (f : QueueInst → QueueInst) : (s.modQueue n f).contexts = s.contexts := rfl
@[simp] theorem State.modQueue_cores (s : State) (n : Nat) (f : QueueInst → QueueInst) : (s.modQueue n f).cores = s.cores := rfl
@[simp] theorem State.modQueue_copies (s : State) (n : Nat) (f : QueueInst → QueueInst) : (s.modQueue n f).copies = s.copies := rfl
@[simp] theorem State.modQueue_engines (s : State) (n : Nat) (f : QueueInst → QueueInst) : (s.modQueue n f).engines = s.engines := rfl
@[simp] theorem State.modQueue_tlbs (s : State) (n : Nat) (f : QueueInst → QueueInst) : (s.modQueue n f).tlbs = s.tlbs := rfl
@[simp] theorem State.modQueue_walks (s : State) (n : Nat) (f : QueueInst → QueueInst) : (s.modQueue n f).walks = s.walks := rfl
@[simp] theorem State.modQueue_failed (s : State) (n : Nat) (f : QueueInst → QueueInst) : (s.modQueue n f).failed = s.failed := rfl
@[simp] theorem State.modQueue_classes (s : State) (n : Nat) (f : QueueInst → QueueInst) : (s.modQueue n f).classes = s.classes := rfl
@[simp] theorem State.modQueue_transits (s : State) (n : Nat) (f : QueueInst → QueueInst) : (s.modQueue n f).transits = s.transits := rfl
@[simp] theorem State.modQueue_tickets (s : State) (n : Nat) (f : QueueInst → QueueInst) : (s.modQueue n f).tickets = s.tickets := rfl
@[simp] theorem State.modQueue_bias (s : State) (n : Nat) (f : QueueInst → QueueInst) : (s.modQueue n f).bias = s.bias := rfl
@[simp] theorem State.modQueue_snoop (s : State) (n : Nat) (f : QueueInst → QueueInst) : (s.modQueue n f).snoop = s.snoop := rfl
@[simp] theorem State.modQueue_snoopInv (s : State) (n : Nat) (f : QueueInst → QueueInst) : (s.modQueue n f).snoopInv = s.snoopInv := rfl
@[simp] theorem State.modQueue_snoopData (s : State) (n : Nat) (f : QueueInst → QueueInst) : (s.modQueue n f).snoopData = s.snoopData := rfl
@[simp] theorem State.modQueue_snoopAns (s : State) (n : Nat) (f : QueueInst → QueueInst) : (s.modQueue n f).snoopAns = s.snoopAns := rfl
@[simp] theorem State.modQueue_coherenceLost (s : State) (n : Nat) (f : QueueInst → QueueInst) : (s.modQueue n f).coherenceLost = s.coherenceLost := rfl
@[simp] theorem State.modQueue_stale (s : State) (n : Nat) (f : QueueInst → QueueInst) : (s.modQueue n f).stale = s.stale := rfl
@[simp] theorem State.modQueue_poison (s : State) (n : Nat) (f : QueueInst → QueueInst) : (s.modQueue n f).poison = s.poison := rfl
@[simp] theorem State.modQueue_hostPending (s : State) (n : Nat) (f : QueueInst → QueueInst) : (s.modQueue n f).hostPending = s.hostPending := rfl
@[simp] theorem State.modQueue_atHome (s : State) (n : Nat) (f : QueueInst → QueueInst) : (s.modQueue n f).atHome = s.atHome := rfl
@[simp] theorem State.modQueue_messages (s : State) (n : Nat) (f : QueueInst → QueueInst) : (s.modQueue n f).messages = s.messages := rfl
@[simp] theorem State.modQueue_overdue (s : State) (n : Nat) (f : QueueInst → QueueInst) : (s.modQueue n f).overdue = s.overdue := rfl
@[simp] theorem State.modQueue_hostAnswer (s : State) (n : Nat) (f : QueueInst → QueueInst) : (s.modQueue n f).hostAnswer = s.hostAnswer := rfl
@[simp] theorem State.modQueue_peerAnswer (s : State) (n : Nat) (f : QueueInst → QueueInst) : (s.modQueue n f).peerAnswer = s.peerAnswer := rfl
@[simp] theorem State.modQueue_classAt (s : State) (n : Nat) (f : QueueInst → QueueInst) : (s.modQueue n f).classAt = s.classAt := rfl
@[simp] theorem State.modQueue_biasAt (s : State) (n : Nat) (f : QueueInst → QueueInst) : (s.modQueue n f).biasAt = s.biasAt := rfl
@[simp] theorem State.modQueue_hdmBase (s : State) (n : Nat) (f : QueueInst → QueueInst) : (s.modQueue n f).hdmBase = s.hdmBase := rfl
@[simp] theorem State.modQueue_mgmt (s : State) (n : Nat) (f : QueueInst → QueueInst) : (s.modQueue n f).mgmt = s.mgmt := rfl
@[simp] theorem State.modQueue_hostQueues (s : State) (n : Nat) (f : QueueInst → QueueInst) : (s.modQueue n f).hostQueues = s.hostQueues := rfl
@[simp] theorem State.modQueue_links (s : State) (n : Nat) (f : QueueInst → QueueInst) : (s.modQueue n f).links = s.links := rfl
@[simp] theorem State.modQueue_timeBlock (s : State) (n : Nat) (f : QueueInst → QueueInst) : (s.modQueue n f).timeBlock = s.timeBlock := rfl
@[simp] theorem State.modQueue_domain (s : State) (n : Nat) (f : QueueInst → QueueInst) : (s.modQueue n f).domain = s.domain := rfl
@[simp] theorem State.modQueue_parts (s : State) (n : Nat) (f : QueueInst → QueueInst) : (s.modQueue n f).parts = s.parts := rfl
@[simp] theorem State.modQueue_partCtx (s : State) (n : Nat) (f : QueueInst → QueueInst) : (s.modQueue n f).partCtx = s.partCtx := rfl
@[simp] theorem State.modQueue_haltLine (s : State) (n : Nat) (f : QueueInst → QueueInst) : (s.modQueue n f).haltLine = s.haltLine := rfl
@[simp] theorem State.modQueue_gather (s : State) (n : Nat) (f : QueueInst → QueueInst) : (s.modQueue n f).gather = s.gather := rfl
@[simp] theorem State.modQueue_quiet (s : State) (n : Nat) (f : QueueInst → QueueInst) : (s.modQueue n f).quiet = s.quiet := rfl
@[simp] theorem State.modQueue_banks (s : State) (n : Nat) (f : QueueInst → QueueInst) : (s.modQueue n f).banks = s.banks := rfl
@[simp] theorem State.modQueue_retired (s : State) (n : Nat) (f : QueueInst → QueueInst) : (s.modQueue n f).retired = s.retired := rfl
@[simp] theorem State.modQueue_tests (s : State) (n : Nat) (f : QueueInst → QueueInst) : (s.modQueue n f).tests = s.tests := rfl
@[simp] theorem State.modQueue_boot (s : State) (n : Nat) (f : QueueInst → QueueInst) : (s.modQueue n f).boot = s.boot := rfl
@[simp] theorem State.modQueue_power (s : State) (n : Nat) (f : QueueInst → QueueInst) : (s.modQueue n f).power = s.power := rfl
@[simp] theorem State.modQueue_msixTable (s : State) (n : Nat) (f : QueueInst → QueueInst) : (s.modQueue n f).msixTable = s.msixTable := rfl
@[simp] theorem State.modQueue_msixPending (s : State) (n : Nat) (f : QueueInst → QueueInst) : (s.modQueue n f).msixPending = s.msixPending := rfl
@[simp] theorem State.modQueue_msixSent (s : State) (n : Nat) (f : QueueInst → QueueInst) : (s.modQueue n f).msixSent = s.msixSent := rfl
@[simp] theorem State.modQueue_fatal (s : State) (n : Nat) (f : QueueInst → QueueInst) : (s.modQueue n f).fatal = s.fatal := rfl
@[simp] theorem State.modQueue_nextId (s : State) (n : Nat) (f : QueueInst → QueueInst) : (s.modQueue n f).nextId = s.nextId := rfl

/-! ## modCore -/

@[simp] theorem State.modCore_time (s : State) (k : Nat) (f : Core → Core) : (s.modCore k f).time = s.time := rfl
@[simp] theorem State.modCore_tick (s : State) (k : Nat) (f : Core → Core) : (s.modCore k f).tick = s.tick := rfl
@[simp] theorem State.modCore_freeIx (s : State) (k : Nat) (f : Core → Core) : (s.modCore k f).freeIx = s.freeIx := rfl
@[simp] theorem State.modCore_agenda (s : State) (k : Nat) (f : Core → Core) : (s.modCore k f).agenda = s.agenda := rfl
@[simp] theorem State.modCore_cur (s : State) (k : Nat) (f : Core → Core) : (s.modCore k f).cur = s.cur := rfl
@[simp] theorem State.modCore_turns (s : State) (k : Nat) (f : Core → Core) : (s.modCore k f).turns = s.turns := rfl
@[simp] theorem State.modCore_mem (s : State) (k : Nat) (f : Core → Core) : (s.modCore k f).mem = s.mem := rfl
@[simp] theorem State.modCore_hostMem (s : State) (k : Nat) (f : Core → Core) : (s.modCore k f).hostMem = s.hostMem := rfl
@[simp] theorem State.modCore_peerMem (s : State) (k : Nat) (f : Core → Core) : (s.modCore k f).peerMem = s.peerMem := rfl
@[simp] theorem State.modCore_groups (s : State) (k : Nat) (f : Core → Core) : (s.modCore k f).groups = s.groups := rfl
@[simp] theorem State.modCore_teams (s : State) (k : Nat) (f : Core → Core) : (s.modCore k f).teams = s.teams := rfl
@[simp] theorem State.modCore_launches (s : State) (k : Nat) (f : Core → Core) : (s.modCore k f).launches = s.launches := rfl
@[simp] theorem State.modCore_queues (s : State) (k : Nat) (f : Core → Core) : (s.modCore k f).queues = s.queues := rfl
@[simp] theorem State.modCore_taskQueues (s : State) (k : Nat) (f : Core → Core) : (s.modCore k f).taskQueues = s.taskQueues := rfl
@[simp] theorem State.modCore_contexts (s : State) (k : Nat) (f : Core → Core) : (s.modCore k f).contexts = s.contexts := rfl
@[simp] theorem State.modCore_copies (s : State) (k : Nat) (f : Core → Core) : (s.modCore k f).copies = s.copies := rfl
@[simp] theorem State.modCore_engines (s : State) (k : Nat) (f : Core → Core) : (s.modCore k f).engines = s.engines := rfl
@[simp] theorem State.modCore_tlbs (s : State) (k : Nat) (f : Core → Core) : (s.modCore k f).tlbs = s.tlbs := rfl
@[simp] theorem State.modCore_walks (s : State) (k : Nat) (f : Core → Core) : (s.modCore k f).walks = s.walks := rfl
@[simp] theorem State.modCore_failed (s : State) (k : Nat) (f : Core → Core) : (s.modCore k f).failed = s.failed := rfl
@[simp] theorem State.modCore_classes (s : State) (k : Nat) (f : Core → Core) : (s.modCore k f).classes = s.classes := rfl
@[simp] theorem State.modCore_transits (s : State) (k : Nat) (f : Core → Core) : (s.modCore k f).transits = s.transits := rfl
@[simp] theorem State.modCore_tickets (s : State) (k : Nat) (f : Core → Core) : (s.modCore k f).tickets = s.tickets := rfl
@[simp] theorem State.modCore_bias (s : State) (k : Nat) (f : Core → Core) : (s.modCore k f).bias = s.bias := rfl
@[simp] theorem State.modCore_snoop (s : State) (k : Nat) (f : Core → Core) : (s.modCore k f).snoop = s.snoop := rfl
@[simp] theorem State.modCore_snoopInv (s : State) (k : Nat) (f : Core → Core) : (s.modCore k f).snoopInv = s.snoopInv := rfl
@[simp] theorem State.modCore_snoopData (s : State) (k : Nat) (f : Core → Core) : (s.modCore k f).snoopData = s.snoopData := rfl
@[simp] theorem State.modCore_snoopAns (s : State) (k : Nat) (f : Core → Core) : (s.modCore k f).snoopAns = s.snoopAns := rfl
@[simp] theorem State.modCore_coherenceLost (s : State) (k : Nat) (f : Core → Core) : (s.modCore k f).coherenceLost = s.coherenceLost := rfl
@[simp] theorem State.modCore_stale (s : State) (k : Nat) (f : Core → Core) : (s.modCore k f).stale = s.stale := rfl
@[simp] theorem State.modCore_poison (s : State) (k : Nat) (f : Core → Core) : (s.modCore k f).poison = s.poison := rfl
@[simp] theorem State.modCore_hostPending (s : State) (k : Nat) (f : Core → Core) : (s.modCore k f).hostPending = s.hostPending := rfl
@[simp] theorem State.modCore_atHome (s : State) (k : Nat) (f : Core → Core) : (s.modCore k f).atHome = s.atHome := rfl
@[simp] theorem State.modCore_messages (s : State) (k : Nat) (f : Core → Core) : (s.modCore k f).messages = s.messages := rfl
@[simp] theorem State.modCore_overdue (s : State) (k : Nat) (f : Core → Core) : (s.modCore k f).overdue = s.overdue := rfl
@[simp] theorem State.modCore_hostAnswer (s : State) (k : Nat) (f : Core → Core) : (s.modCore k f).hostAnswer = s.hostAnswer := rfl
@[simp] theorem State.modCore_peerAnswer (s : State) (k : Nat) (f : Core → Core) : (s.modCore k f).peerAnswer = s.peerAnswer := rfl
@[simp] theorem State.modCore_classAt (s : State) (k : Nat) (f : Core → Core) : (s.modCore k f).classAt = s.classAt := rfl
@[simp] theorem State.modCore_biasAt (s : State) (k : Nat) (f : Core → Core) : (s.modCore k f).biasAt = s.biasAt := rfl
@[simp] theorem State.modCore_hdmBase (s : State) (k : Nat) (f : Core → Core) : (s.modCore k f).hdmBase = s.hdmBase := rfl
@[simp] theorem State.modCore_mgmt (s : State) (k : Nat) (f : Core → Core) : (s.modCore k f).mgmt = s.mgmt := rfl
@[simp] theorem State.modCore_hostQueues (s : State) (k : Nat) (f : Core → Core) : (s.modCore k f).hostQueues = s.hostQueues := rfl
@[simp] theorem State.modCore_links (s : State) (k : Nat) (f : Core → Core) : (s.modCore k f).links = s.links := rfl
@[simp] theorem State.modCore_timeBlock (s : State) (k : Nat) (f : Core → Core) : (s.modCore k f).timeBlock = s.timeBlock := rfl
@[simp] theorem State.modCore_domain (s : State) (k : Nat) (f : Core → Core) : (s.modCore k f).domain = s.domain := rfl
@[simp] theorem State.modCore_parts (s : State) (k : Nat) (f : Core → Core) : (s.modCore k f).parts = s.parts := rfl
@[simp] theorem State.modCore_partCtx (s : State) (k : Nat) (f : Core → Core) : (s.modCore k f).partCtx = s.partCtx := rfl
@[simp] theorem State.modCore_haltLine (s : State) (k : Nat) (f : Core → Core) : (s.modCore k f).haltLine = s.haltLine := rfl
@[simp] theorem State.modCore_gather (s : State) (k : Nat) (f : Core → Core) : (s.modCore k f).gather = s.gather := rfl
@[simp] theorem State.modCore_quiet (s : State) (k : Nat) (f : Core → Core) : (s.modCore k f).quiet = s.quiet := rfl
@[simp] theorem State.modCore_banks (s : State) (k : Nat) (f : Core → Core) : (s.modCore k f).banks = s.banks := rfl
@[simp] theorem State.modCore_retired (s : State) (k : Nat) (f : Core → Core) : (s.modCore k f).retired = s.retired := rfl
@[simp] theorem State.modCore_tests (s : State) (k : Nat) (f : Core → Core) : (s.modCore k f).tests = s.tests := rfl
@[simp] theorem State.modCore_boot (s : State) (k : Nat) (f : Core → Core) : (s.modCore k f).boot = s.boot := rfl
@[simp] theorem State.modCore_power (s : State) (k : Nat) (f : Core → Core) : (s.modCore k f).power = s.power := rfl
@[simp] theorem State.modCore_msixTable (s : State) (k : Nat) (f : Core → Core) : (s.modCore k f).msixTable = s.msixTable := rfl
@[simp] theorem State.modCore_msixPending (s : State) (k : Nat) (f : Core → Core) : (s.modCore k f).msixPending = s.msixPending := rfl
@[simp] theorem State.modCore_msixSent (s : State) (k : Nat) (f : Core → Core) : (s.modCore k f).msixSent = s.msixSent := rfl
@[simp] theorem State.modCore_fatal (s : State) (k : Nat) (f : Core → Core) : (s.modCore k f).fatal = s.fatal := rfl
@[simp] theorem State.modCore_nextId (s : State) (k : Nat) (f : Core → Core) : (s.modCore k f).nextId = s.nextId := rfl

/-! ## modEngine -/

@[simp] theorem State.modEngine_time (s : State) (e : Nat) (f : Engine → Engine) : (s.modEngine e f).time = s.time := rfl
@[simp] theorem State.modEngine_tick (s : State) (e : Nat) (f : Engine → Engine) : (s.modEngine e f).tick = s.tick := rfl
@[simp] theorem State.modEngine_freeIx (s : State) (e : Nat) (f : Engine → Engine) : (s.modEngine e f).freeIx = s.freeIx := rfl
@[simp] theorem State.modEngine_agenda (s : State) (e : Nat) (f : Engine → Engine) : (s.modEngine e f).agenda = s.agenda := rfl
@[simp] theorem State.modEngine_cur (s : State) (e : Nat) (f : Engine → Engine) : (s.modEngine e f).cur = s.cur := rfl
@[simp] theorem State.modEngine_turns (s : State) (e : Nat) (f : Engine → Engine) : (s.modEngine e f).turns = s.turns := rfl
@[simp] theorem State.modEngine_mem (s : State) (e : Nat) (f : Engine → Engine) : (s.modEngine e f).mem = s.mem := rfl
@[simp] theorem State.modEngine_hostMem (s : State) (e : Nat) (f : Engine → Engine) : (s.modEngine e f).hostMem = s.hostMem := rfl
@[simp] theorem State.modEngine_peerMem (s : State) (e : Nat) (f : Engine → Engine) : (s.modEngine e f).peerMem = s.peerMem := rfl
@[simp] theorem State.modEngine_groups (s : State) (e : Nat) (f : Engine → Engine) : (s.modEngine e f).groups = s.groups := rfl
@[simp] theorem State.modEngine_teams (s : State) (e : Nat) (f : Engine → Engine) : (s.modEngine e f).teams = s.teams := rfl
@[simp] theorem State.modEngine_launches (s : State) (e : Nat) (f : Engine → Engine) : (s.modEngine e f).launches = s.launches := rfl
@[simp] theorem State.modEngine_queues (s : State) (e : Nat) (f : Engine → Engine) : (s.modEngine e f).queues = s.queues := rfl
@[simp] theorem State.modEngine_taskQueues (s : State) (e : Nat) (f : Engine → Engine) : (s.modEngine e f).taskQueues = s.taskQueues := rfl
@[simp] theorem State.modEngine_contexts (s : State) (e : Nat) (f : Engine → Engine) : (s.modEngine e f).contexts = s.contexts := rfl
@[simp] theorem State.modEngine_cores (s : State) (e : Nat) (f : Engine → Engine) : (s.modEngine e f).cores = s.cores := rfl
@[simp] theorem State.modEngine_copies (s : State) (e : Nat) (f : Engine → Engine) : (s.modEngine e f).copies = s.copies := rfl
@[simp] theorem State.modEngine_tlbs (s : State) (e : Nat) (f : Engine → Engine) : (s.modEngine e f).tlbs = s.tlbs := rfl
@[simp] theorem State.modEngine_walks (s : State) (e : Nat) (f : Engine → Engine) : (s.modEngine e f).walks = s.walks := rfl
@[simp] theorem State.modEngine_failed (s : State) (e : Nat) (f : Engine → Engine) : (s.modEngine e f).failed = s.failed := rfl
@[simp] theorem State.modEngine_classes (s : State) (e : Nat) (f : Engine → Engine) : (s.modEngine e f).classes = s.classes := rfl
@[simp] theorem State.modEngine_transits (s : State) (e : Nat) (f : Engine → Engine) : (s.modEngine e f).transits = s.transits := rfl
@[simp] theorem State.modEngine_tickets (s : State) (e : Nat) (f : Engine → Engine) : (s.modEngine e f).tickets = s.tickets := rfl
@[simp] theorem State.modEngine_bias (s : State) (e : Nat) (f : Engine → Engine) : (s.modEngine e f).bias = s.bias := rfl
@[simp] theorem State.modEngine_snoop (s : State) (e : Nat) (f : Engine → Engine) : (s.modEngine e f).snoop = s.snoop := rfl
@[simp] theorem State.modEngine_snoopInv (s : State) (e : Nat) (f : Engine → Engine) : (s.modEngine e f).snoopInv = s.snoopInv := rfl
@[simp] theorem State.modEngine_snoopData (s : State) (e : Nat) (f : Engine → Engine) : (s.modEngine e f).snoopData = s.snoopData := rfl
@[simp] theorem State.modEngine_snoopAns (s : State) (e : Nat) (f : Engine → Engine) : (s.modEngine e f).snoopAns = s.snoopAns := rfl
@[simp] theorem State.modEngine_coherenceLost (s : State) (e : Nat) (f : Engine → Engine) : (s.modEngine e f).coherenceLost = s.coherenceLost := rfl
@[simp] theorem State.modEngine_stale (s : State) (e : Nat) (f : Engine → Engine) : (s.modEngine e f).stale = s.stale := rfl
@[simp] theorem State.modEngine_poison (s : State) (e : Nat) (f : Engine → Engine) : (s.modEngine e f).poison = s.poison := rfl
@[simp] theorem State.modEngine_hostPending (s : State) (e : Nat) (f : Engine → Engine) : (s.modEngine e f).hostPending = s.hostPending := rfl
@[simp] theorem State.modEngine_atHome (s : State) (e : Nat) (f : Engine → Engine) : (s.modEngine e f).atHome = s.atHome := rfl
@[simp] theorem State.modEngine_messages (s : State) (e : Nat) (f : Engine → Engine) : (s.modEngine e f).messages = s.messages := rfl
@[simp] theorem State.modEngine_overdue (s : State) (e : Nat) (f : Engine → Engine) : (s.modEngine e f).overdue = s.overdue := rfl
@[simp] theorem State.modEngine_hostAnswer (s : State) (e : Nat) (f : Engine → Engine) : (s.modEngine e f).hostAnswer = s.hostAnswer := rfl
@[simp] theorem State.modEngine_peerAnswer (s : State) (e : Nat) (f : Engine → Engine) : (s.modEngine e f).peerAnswer = s.peerAnswer := rfl
@[simp] theorem State.modEngine_classAt (s : State) (e : Nat) (f : Engine → Engine) : (s.modEngine e f).classAt = s.classAt := rfl
@[simp] theorem State.modEngine_biasAt (s : State) (e : Nat) (f : Engine → Engine) : (s.modEngine e f).biasAt = s.biasAt := rfl
@[simp] theorem State.modEngine_hdmBase (s : State) (e : Nat) (f : Engine → Engine) : (s.modEngine e f).hdmBase = s.hdmBase := rfl
@[simp] theorem State.modEngine_mgmt (s : State) (e : Nat) (f : Engine → Engine) : (s.modEngine e f).mgmt = s.mgmt := rfl
@[simp] theorem State.modEngine_hostQueues (s : State) (e : Nat) (f : Engine → Engine) : (s.modEngine e f).hostQueues = s.hostQueues := rfl
@[simp] theorem State.modEngine_links (s : State) (e : Nat) (f : Engine → Engine) : (s.modEngine e f).links = s.links := rfl
@[simp] theorem State.modEngine_timeBlock (s : State) (e : Nat) (f : Engine → Engine) : (s.modEngine e f).timeBlock = s.timeBlock := rfl
@[simp] theorem State.modEngine_domain (s : State) (e : Nat) (f : Engine → Engine) : (s.modEngine e f).domain = s.domain := rfl
@[simp] theorem State.modEngine_parts (s : State) (e : Nat) (f : Engine → Engine) : (s.modEngine e f).parts = s.parts := rfl
@[simp] theorem State.modEngine_partCtx (s : State) (e : Nat) (f : Engine → Engine) : (s.modEngine e f).partCtx = s.partCtx := rfl
@[simp] theorem State.modEngine_haltLine (s : State) (e : Nat) (f : Engine → Engine) : (s.modEngine e f).haltLine = s.haltLine := rfl
@[simp] theorem State.modEngine_gather (s : State) (e : Nat) (f : Engine → Engine) : (s.modEngine e f).gather = s.gather := rfl
@[simp] theorem State.modEngine_quiet (s : State) (e : Nat) (f : Engine → Engine) : (s.modEngine e f).quiet = s.quiet := rfl
@[simp] theorem State.modEngine_banks (s : State) (e : Nat) (f : Engine → Engine) : (s.modEngine e f).banks = s.banks := rfl
@[simp] theorem State.modEngine_retired (s : State) (e : Nat) (f : Engine → Engine) : (s.modEngine e f).retired = s.retired := rfl
@[simp] theorem State.modEngine_tests (s : State) (e : Nat) (f : Engine → Engine) : (s.modEngine e f).tests = s.tests := rfl
@[simp] theorem State.modEngine_boot (s : State) (e : Nat) (f : Engine → Engine) : (s.modEngine e f).boot = s.boot := rfl
@[simp] theorem State.modEngine_power (s : State) (e : Nat) (f : Engine → Engine) : (s.modEngine e f).power = s.power := rfl
@[simp] theorem State.modEngine_msixTable (s : State) (e : Nat) (f : Engine → Engine) : (s.modEngine e f).msixTable = s.msixTable := rfl
@[simp] theorem State.modEngine_msixPending (s : State) (e : Nat) (f : Engine → Engine) : (s.modEngine e f).msixPending = s.msixPending := rfl
@[simp] theorem State.modEngine_msixSent (s : State) (e : Nat) (f : Engine → Engine) : (s.modEngine e f).msixSent = s.msixSent := rfl
@[simp] theorem State.modEngine_fatal (s : State) (e : Nat) (f : Engine → Engine) : (s.modEngine e f).fatal = s.fatal := rfl
@[simp] theorem State.modEngine_nextId (s : State) (e : Nat) (f : Engine → Engine) : (s.modEngine e f).nextId = s.nextId := rfl

/-! ## modCopy -/

@[simp] theorem State.modCopy_time (s : State) (n : Nat) (f : Copy → Copy) : (s.modCopy n f).time = s.time := rfl
@[simp] theorem State.modCopy_tick (s : State) (n : Nat) (f : Copy → Copy) : (s.modCopy n f).tick = s.tick := rfl
@[simp] theorem State.modCopy_freeIx (s : State) (n : Nat) (f : Copy → Copy) : (s.modCopy n f).freeIx = s.freeIx := rfl
@[simp] theorem State.modCopy_agenda (s : State) (n : Nat) (f : Copy → Copy) : (s.modCopy n f).agenda = s.agenda := rfl
@[simp] theorem State.modCopy_cur (s : State) (n : Nat) (f : Copy → Copy) : (s.modCopy n f).cur = s.cur := rfl
@[simp] theorem State.modCopy_turns (s : State) (n : Nat) (f : Copy → Copy) : (s.modCopy n f).turns = s.turns := rfl
@[simp] theorem State.modCopy_mem (s : State) (n : Nat) (f : Copy → Copy) : (s.modCopy n f).mem = s.mem := rfl
@[simp] theorem State.modCopy_hostMem (s : State) (n : Nat) (f : Copy → Copy) : (s.modCopy n f).hostMem = s.hostMem := rfl
@[simp] theorem State.modCopy_peerMem (s : State) (n : Nat) (f : Copy → Copy) : (s.modCopy n f).peerMem = s.peerMem := rfl
@[simp] theorem State.modCopy_groups (s : State) (n : Nat) (f : Copy → Copy) : (s.modCopy n f).groups = s.groups := rfl
@[simp] theorem State.modCopy_teams (s : State) (n : Nat) (f : Copy → Copy) : (s.modCopy n f).teams = s.teams := rfl
@[simp] theorem State.modCopy_launches (s : State) (n : Nat) (f : Copy → Copy) : (s.modCopy n f).launches = s.launches := rfl
@[simp] theorem State.modCopy_queues (s : State) (n : Nat) (f : Copy → Copy) : (s.modCopy n f).queues = s.queues := rfl
@[simp] theorem State.modCopy_taskQueues (s : State) (n : Nat) (f : Copy → Copy) : (s.modCopy n f).taskQueues = s.taskQueues := rfl
@[simp] theorem State.modCopy_contexts (s : State) (n : Nat) (f : Copy → Copy) : (s.modCopy n f).contexts = s.contexts := rfl
@[simp] theorem State.modCopy_cores (s : State) (n : Nat) (f : Copy → Copy) : (s.modCopy n f).cores = s.cores := rfl
@[simp] theorem State.modCopy_engines (s : State) (n : Nat) (f : Copy → Copy) : (s.modCopy n f).engines = s.engines := rfl
@[simp] theorem State.modCopy_tlbs (s : State) (n : Nat) (f : Copy → Copy) : (s.modCopy n f).tlbs = s.tlbs := rfl
@[simp] theorem State.modCopy_walks (s : State) (n : Nat) (f : Copy → Copy) : (s.modCopy n f).walks = s.walks := rfl
@[simp] theorem State.modCopy_failed (s : State) (n : Nat) (f : Copy → Copy) : (s.modCopy n f).failed = s.failed := rfl
@[simp] theorem State.modCopy_classes (s : State) (n : Nat) (f : Copy → Copy) : (s.modCopy n f).classes = s.classes := rfl
@[simp] theorem State.modCopy_transits (s : State) (n : Nat) (f : Copy → Copy) : (s.modCopy n f).transits = s.transits := rfl
@[simp] theorem State.modCopy_tickets (s : State) (n : Nat) (f : Copy → Copy) : (s.modCopy n f).tickets = s.tickets := rfl
@[simp] theorem State.modCopy_bias (s : State) (n : Nat) (f : Copy → Copy) : (s.modCopy n f).bias = s.bias := rfl
@[simp] theorem State.modCopy_snoop (s : State) (n : Nat) (f : Copy → Copy) : (s.modCopy n f).snoop = s.snoop := rfl
@[simp] theorem State.modCopy_snoopInv (s : State) (n : Nat) (f : Copy → Copy) : (s.modCopy n f).snoopInv = s.snoopInv := rfl
@[simp] theorem State.modCopy_snoopData (s : State) (n : Nat) (f : Copy → Copy) : (s.modCopy n f).snoopData = s.snoopData := rfl
@[simp] theorem State.modCopy_snoopAns (s : State) (n : Nat) (f : Copy → Copy) : (s.modCopy n f).snoopAns = s.snoopAns := rfl
@[simp] theorem State.modCopy_coherenceLost (s : State) (n : Nat) (f : Copy → Copy) : (s.modCopy n f).coherenceLost = s.coherenceLost := rfl
@[simp] theorem State.modCopy_stale (s : State) (n : Nat) (f : Copy → Copy) : (s.modCopy n f).stale = s.stale := rfl
@[simp] theorem State.modCopy_poison (s : State) (n : Nat) (f : Copy → Copy) : (s.modCopy n f).poison = s.poison := rfl
@[simp] theorem State.modCopy_hostPending (s : State) (n : Nat) (f : Copy → Copy) : (s.modCopy n f).hostPending = s.hostPending := rfl
@[simp] theorem State.modCopy_atHome (s : State) (n : Nat) (f : Copy → Copy) : (s.modCopy n f).atHome = s.atHome := rfl
@[simp] theorem State.modCopy_messages (s : State) (n : Nat) (f : Copy → Copy) : (s.modCopy n f).messages = s.messages := rfl
@[simp] theorem State.modCopy_overdue (s : State) (n : Nat) (f : Copy → Copy) : (s.modCopy n f).overdue = s.overdue := rfl
@[simp] theorem State.modCopy_hostAnswer (s : State) (n : Nat) (f : Copy → Copy) : (s.modCopy n f).hostAnswer = s.hostAnswer := rfl
@[simp] theorem State.modCopy_peerAnswer (s : State) (n : Nat) (f : Copy → Copy) : (s.modCopy n f).peerAnswer = s.peerAnswer := rfl
@[simp] theorem State.modCopy_classAt (s : State) (n : Nat) (f : Copy → Copy) : (s.modCopy n f).classAt = s.classAt := rfl
@[simp] theorem State.modCopy_biasAt (s : State) (n : Nat) (f : Copy → Copy) : (s.modCopy n f).biasAt = s.biasAt := rfl
@[simp] theorem State.modCopy_hdmBase (s : State) (n : Nat) (f : Copy → Copy) : (s.modCopy n f).hdmBase = s.hdmBase := rfl
@[simp] theorem State.modCopy_mgmt (s : State) (n : Nat) (f : Copy → Copy) : (s.modCopy n f).mgmt = s.mgmt := rfl
@[simp] theorem State.modCopy_hostQueues (s : State) (n : Nat) (f : Copy → Copy) : (s.modCopy n f).hostQueues = s.hostQueues := rfl
@[simp] theorem State.modCopy_links (s : State) (n : Nat) (f : Copy → Copy) : (s.modCopy n f).links = s.links := rfl
@[simp] theorem State.modCopy_timeBlock (s : State) (n : Nat) (f : Copy → Copy) : (s.modCopy n f).timeBlock = s.timeBlock := rfl
@[simp] theorem State.modCopy_domain (s : State) (n : Nat) (f : Copy → Copy) : (s.modCopy n f).domain = s.domain := rfl
@[simp] theorem State.modCopy_parts (s : State) (n : Nat) (f : Copy → Copy) : (s.modCopy n f).parts = s.parts := rfl
@[simp] theorem State.modCopy_partCtx (s : State) (n : Nat) (f : Copy → Copy) : (s.modCopy n f).partCtx = s.partCtx := rfl
@[simp] theorem State.modCopy_haltLine (s : State) (n : Nat) (f : Copy → Copy) : (s.modCopy n f).haltLine = s.haltLine := rfl
@[simp] theorem State.modCopy_gather (s : State) (n : Nat) (f : Copy → Copy) : (s.modCopy n f).gather = s.gather := rfl
@[simp] theorem State.modCopy_quiet (s : State) (n : Nat) (f : Copy → Copy) : (s.modCopy n f).quiet = s.quiet := rfl
@[simp] theorem State.modCopy_banks (s : State) (n : Nat) (f : Copy → Copy) : (s.modCopy n f).banks = s.banks := rfl
@[simp] theorem State.modCopy_retired (s : State) (n : Nat) (f : Copy → Copy) : (s.modCopy n f).retired = s.retired := rfl
@[simp] theorem State.modCopy_tests (s : State) (n : Nat) (f : Copy → Copy) : (s.modCopy n f).tests = s.tests := rfl
@[simp] theorem State.modCopy_boot (s : State) (n : Nat) (f : Copy → Copy) : (s.modCopy n f).boot = s.boot := rfl
@[simp] theorem State.modCopy_power (s : State) (n : Nat) (f : Copy → Copy) : (s.modCopy n f).power = s.power := rfl
@[simp] theorem State.modCopy_msixTable (s : State) (n : Nat) (f : Copy → Copy) : (s.modCopy n f).msixTable = s.msixTable := rfl
@[simp] theorem State.modCopy_msixPending (s : State) (n : Nat) (f : Copy → Copy) : (s.modCopy n f).msixPending = s.msixPending := rfl
@[simp] theorem State.modCopy_msixSent (s : State) (n : Nat) (f : Copy → Copy) : (s.modCopy n f).msixSent = s.msixSent := rfl
@[simp] theorem State.modCopy_fatal (s : State) (n : Nat) (f : Copy → Copy) : (s.modCopy n f).fatal = s.fatal := rfl
@[simp] theorem State.modCopy_nextId (s : State) (n : Nat) (f : Copy → Copy) : (s.modCopy n f).nextId = s.nextId := rfl

/-! ## modTaskQueue -/

@[simp] theorem State.modTaskQueue_time (s : State) (c d : Nat) (f : TaskQueue → TaskQueue) : (s.modTaskQueue c d f).time = s.time := rfl
@[simp] theorem State.modTaskQueue_tick (s : State) (c d : Nat) (f : TaskQueue → TaskQueue) : (s.modTaskQueue c d f).tick = s.tick := rfl
@[simp] theorem State.modTaskQueue_freeIx (s : State) (c d : Nat) (f : TaskQueue → TaskQueue) : (s.modTaskQueue c d f).freeIx = s.freeIx := rfl
@[simp] theorem State.modTaskQueue_agenda (s : State) (c d : Nat) (f : TaskQueue → TaskQueue) : (s.modTaskQueue c d f).agenda = s.agenda := rfl
@[simp] theorem State.modTaskQueue_cur (s : State) (c d : Nat) (f : TaskQueue → TaskQueue) : (s.modTaskQueue c d f).cur = s.cur := rfl
@[simp] theorem State.modTaskQueue_turns (s : State) (c d : Nat) (f : TaskQueue → TaskQueue) : (s.modTaskQueue c d f).turns = s.turns := rfl
@[simp] theorem State.modTaskQueue_mem (s : State) (c d : Nat) (f : TaskQueue → TaskQueue) : (s.modTaskQueue c d f).mem = s.mem := rfl
@[simp] theorem State.modTaskQueue_hostMem (s : State) (c d : Nat) (f : TaskQueue → TaskQueue) : (s.modTaskQueue c d f).hostMem = s.hostMem := rfl
@[simp] theorem State.modTaskQueue_peerMem (s : State) (c d : Nat) (f : TaskQueue → TaskQueue) : (s.modTaskQueue c d f).peerMem = s.peerMem := rfl
@[simp] theorem State.modTaskQueue_groups (s : State) (c d : Nat) (f : TaskQueue → TaskQueue) : (s.modTaskQueue c d f).groups = s.groups := rfl
@[simp] theorem State.modTaskQueue_teams (s : State) (c d : Nat) (f : TaskQueue → TaskQueue) : (s.modTaskQueue c d f).teams = s.teams := rfl
@[simp] theorem State.modTaskQueue_launches (s : State) (c d : Nat) (f : TaskQueue → TaskQueue) : (s.modTaskQueue c d f).launches = s.launches := rfl
@[simp] theorem State.modTaskQueue_queues (s : State) (c d : Nat) (f : TaskQueue → TaskQueue) : (s.modTaskQueue c d f).queues = s.queues := rfl
@[simp] theorem State.modTaskQueue_contexts (s : State) (c d : Nat) (f : TaskQueue → TaskQueue) : (s.modTaskQueue c d f).contexts = s.contexts := rfl
@[simp] theorem State.modTaskQueue_cores (s : State) (c d : Nat) (f : TaskQueue → TaskQueue) : (s.modTaskQueue c d f).cores = s.cores := rfl
@[simp] theorem State.modTaskQueue_copies (s : State) (c d : Nat) (f : TaskQueue → TaskQueue) : (s.modTaskQueue c d f).copies = s.copies := rfl
@[simp] theorem State.modTaskQueue_engines (s : State) (c d : Nat) (f : TaskQueue → TaskQueue) : (s.modTaskQueue c d f).engines = s.engines := rfl
@[simp] theorem State.modTaskQueue_tlbs (s : State) (c d : Nat) (f : TaskQueue → TaskQueue) : (s.modTaskQueue c d f).tlbs = s.tlbs := rfl
@[simp] theorem State.modTaskQueue_walks (s : State) (c d : Nat) (f : TaskQueue → TaskQueue) : (s.modTaskQueue c d f).walks = s.walks := rfl
@[simp] theorem State.modTaskQueue_failed (s : State) (c d : Nat) (f : TaskQueue → TaskQueue) : (s.modTaskQueue c d f).failed = s.failed := rfl
@[simp] theorem State.modTaskQueue_classes (s : State) (c d : Nat) (f : TaskQueue → TaskQueue) : (s.modTaskQueue c d f).classes = s.classes := rfl
@[simp] theorem State.modTaskQueue_transits (s : State) (c d : Nat) (f : TaskQueue → TaskQueue) : (s.modTaskQueue c d f).transits = s.transits := rfl
@[simp] theorem State.modTaskQueue_tickets (s : State) (c d : Nat) (f : TaskQueue → TaskQueue) : (s.modTaskQueue c d f).tickets = s.tickets := rfl
@[simp] theorem State.modTaskQueue_bias (s : State) (c d : Nat) (f : TaskQueue → TaskQueue) : (s.modTaskQueue c d f).bias = s.bias := rfl
@[simp] theorem State.modTaskQueue_snoop (s : State) (c d : Nat) (f : TaskQueue → TaskQueue) : (s.modTaskQueue c d f).snoop = s.snoop := rfl
@[simp] theorem State.modTaskQueue_snoopInv (s : State) (c d : Nat) (f : TaskQueue → TaskQueue) : (s.modTaskQueue c d f).snoopInv = s.snoopInv := rfl
@[simp] theorem State.modTaskQueue_snoopData (s : State) (c d : Nat) (f : TaskQueue → TaskQueue) : (s.modTaskQueue c d f).snoopData = s.snoopData := rfl
@[simp] theorem State.modTaskQueue_snoopAns (s : State) (c d : Nat) (f : TaskQueue → TaskQueue) : (s.modTaskQueue c d f).snoopAns = s.snoopAns := rfl
@[simp] theorem State.modTaskQueue_coherenceLost (s : State) (c d : Nat) (f : TaskQueue → TaskQueue) : (s.modTaskQueue c d f).coherenceLost = s.coherenceLost := rfl
@[simp] theorem State.modTaskQueue_stale (s : State) (c d : Nat) (f : TaskQueue → TaskQueue) : (s.modTaskQueue c d f).stale = s.stale := rfl
@[simp] theorem State.modTaskQueue_poison (s : State) (c d : Nat) (f : TaskQueue → TaskQueue) : (s.modTaskQueue c d f).poison = s.poison := rfl
@[simp] theorem State.modTaskQueue_hostPending (s : State) (c d : Nat) (f : TaskQueue → TaskQueue) : (s.modTaskQueue c d f).hostPending = s.hostPending := rfl
@[simp] theorem State.modTaskQueue_atHome (s : State) (c d : Nat) (f : TaskQueue → TaskQueue) : (s.modTaskQueue c d f).atHome = s.atHome := rfl
@[simp] theorem State.modTaskQueue_messages (s : State) (c d : Nat) (f : TaskQueue → TaskQueue) : (s.modTaskQueue c d f).messages = s.messages := rfl
@[simp] theorem State.modTaskQueue_overdue (s : State) (c d : Nat) (f : TaskQueue → TaskQueue) : (s.modTaskQueue c d f).overdue = s.overdue := rfl
@[simp] theorem State.modTaskQueue_hostAnswer (s : State) (c d : Nat) (f : TaskQueue → TaskQueue) : (s.modTaskQueue c d f).hostAnswer = s.hostAnswer := rfl
@[simp] theorem State.modTaskQueue_peerAnswer (s : State) (c d : Nat) (f : TaskQueue → TaskQueue) : (s.modTaskQueue c d f).peerAnswer = s.peerAnswer := rfl
@[simp] theorem State.modTaskQueue_classAt (s : State) (c d : Nat) (f : TaskQueue → TaskQueue) : (s.modTaskQueue c d f).classAt = s.classAt := rfl
@[simp] theorem State.modTaskQueue_biasAt (s : State) (c d : Nat) (f : TaskQueue → TaskQueue) : (s.modTaskQueue c d f).biasAt = s.biasAt := rfl
@[simp] theorem State.modTaskQueue_hdmBase (s : State) (c d : Nat) (f : TaskQueue → TaskQueue) : (s.modTaskQueue c d f).hdmBase = s.hdmBase := rfl
@[simp] theorem State.modTaskQueue_mgmt (s : State) (c d : Nat) (f : TaskQueue → TaskQueue) : (s.modTaskQueue c d f).mgmt = s.mgmt := rfl
@[simp] theorem State.modTaskQueue_hostQueues (s : State) (c d : Nat) (f : TaskQueue → TaskQueue) : (s.modTaskQueue c d f).hostQueues = s.hostQueues := rfl
@[simp] theorem State.modTaskQueue_links (s : State) (c d : Nat) (f : TaskQueue → TaskQueue) : (s.modTaskQueue c d f).links = s.links := rfl
@[simp] theorem State.modTaskQueue_timeBlock (s : State) (c d : Nat) (f : TaskQueue → TaskQueue) : (s.modTaskQueue c d f).timeBlock = s.timeBlock := rfl
@[simp] theorem State.modTaskQueue_domain (s : State) (c d : Nat) (f : TaskQueue → TaskQueue) : (s.modTaskQueue c d f).domain = s.domain := rfl
@[simp] theorem State.modTaskQueue_parts (s : State) (c d : Nat) (f : TaskQueue → TaskQueue) : (s.modTaskQueue c d f).parts = s.parts := rfl
@[simp] theorem State.modTaskQueue_partCtx (s : State) (c d : Nat) (f : TaskQueue → TaskQueue) : (s.modTaskQueue c d f).partCtx = s.partCtx := rfl
@[simp] theorem State.modTaskQueue_haltLine (s : State) (c d : Nat) (f : TaskQueue → TaskQueue) : (s.modTaskQueue c d f).haltLine = s.haltLine := rfl
@[simp] theorem State.modTaskQueue_gather (s : State) (c d : Nat) (f : TaskQueue → TaskQueue) : (s.modTaskQueue c d f).gather = s.gather := rfl
@[simp] theorem State.modTaskQueue_quiet (s : State) (c d : Nat) (f : TaskQueue → TaskQueue) : (s.modTaskQueue c d f).quiet = s.quiet := rfl
@[simp] theorem State.modTaskQueue_banks (s : State) (c d : Nat) (f : TaskQueue → TaskQueue) : (s.modTaskQueue c d f).banks = s.banks := rfl
@[simp] theorem State.modTaskQueue_retired (s : State) (c d : Nat) (f : TaskQueue → TaskQueue) : (s.modTaskQueue c d f).retired = s.retired := rfl
@[simp] theorem State.modTaskQueue_tests (s : State) (c d : Nat) (f : TaskQueue → TaskQueue) : (s.modTaskQueue c d f).tests = s.tests := rfl
@[simp] theorem State.modTaskQueue_boot (s : State) (c d : Nat) (f : TaskQueue → TaskQueue) : (s.modTaskQueue c d f).boot = s.boot := rfl
@[simp] theorem State.modTaskQueue_power (s : State) (c d : Nat) (f : TaskQueue → TaskQueue) : (s.modTaskQueue c d f).power = s.power := rfl
@[simp] theorem State.modTaskQueue_msixTable (s : State) (c d : Nat) (f : TaskQueue → TaskQueue) : (s.modTaskQueue c d f).msixTable = s.msixTable := rfl
@[simp] theorem State.modTaskQueue_msixPending (s : State) (c d : Nat) (f : TaskQueue → TaskQueue) : (s.modTaskQueue c d f).msixPending = s.msixPending := rfl
@[simp] theorem State.modTaskQueue_msixSent (s : State) (c d : Nat) (f : TaskQueue → TaskQueue) : (s.modTaskQueue c d f).msixSent = s.msixSent := rfl
@[simp] theorem State.modTaskQueue_fatal (s : State) (c d : Nat) (f : TaskQueue → TaskQueue) : (s.modTaskQueue c d f).fatal = s.fatal := rfl
@[simp] theorem State.modTaskQueue_nextId (s : State) (c d : Nat) (f : TaskQueue → TaskQueue) : (s.modTaskQueue c d f).nextId = s.nextId := rfl

/-! ## modHostQueue -/

@[simp] theorem State.modHostQueue_time (s : State) (q : Nat) (f : HostQueue → HostQueue) : (s.modHostQueue q f).time = s.time := rfl
@[simp] theorem State.modHostQueue_tick (s : State) (q : Nat) (f : HostQueue → HostQueue) : (s.modHostQueue q f).tick = s.tick := rfl
@[simp] theorem State.modHostQueue_freeIx (s : State) (q : Nat) (f : HostQueue → HostQueue) : (s.modHostQueue q f).freeIx = s.freeIx := rfl
@[simp] theorem State.modHostQueue_agenda (s : State) (q : Nat) (f : HostQueue → HostQueue) : (s.modHostQueue q f).agenda = s.agenda := rfl
@[simp] theorem State.modHostQueue_cur (s : State) (q : Nat) (f : HostQueue → HostQueue) : (s.modHostQueue q f).cur = s.cur := rfl
@[simp] theorem State.modHostQueue_turns (s : State) (q : Nat) (f : HostQueue → HostQueue) : (s.modHostQueue q f).turns = s.turns := rfl
@[simp] theorem State.modHostQueue_mem (s : State) (q : Nat) (f : HostQueue → HostQueue) : (s.modHostQueue q f).mem = s.mem := rfl
@[simp] theorem State.modHostQueue_hostMem (s : State) (q : Nat) (f : HostQueue → HostQueue) : (s.modHostQueue q f).hostMem = s.hostMem := rfl
@[simp] theorem State.modHostQueue_peerMem (s : State) (q : Nat) (f : HostQueue → HostQueue) : (s.modHostQueue q f).peerMem = s.peerMem := rfl
@[simp] theorem State.modHostQueue_groups (s : State) (q : Nat) (f : HostQueue → HostQueue) : (s.modHostQueue q f).groups = s.groups := rfl
@[simp] theorem State.modHostQueue_teams (s : State) (q : Nat) (f : HostQueue → HostQueue) : (s.modHostQueue q f).teams = s.teams := rfl
@[simp] theorem State.modHostQueue_launches (s : State) (q : Nat) (f : HostQueue → HostQueue) : (s.modHostQueue q f).launches = s.launches := rfl
@[simp] theorem State.modHostQueue_queues (s : State) (q : Nat) (f : HostQueue → HostQueue) : (s.modHostQueue q f).queues = s.queues := rfl
@[simp] theorem State.modHostQueue_taskQueues (s : State) (q : Nat) (f : HostQueue → HostQueue) : (s.modHostQueue q f).taskQueues = s.taskQueues := rfl
@[simp] theorem State.modHostQueue_contexts (s : State) (q : Nat) (f : HostQueue → HostQueue) : (s.modHostQueue q f).contexts = s.contexts := rfl
@[simp] theorem State.modHostQueue_cores (s : State) (q : Nat) (f : HostQueue → HostQueue) : (s.modHostQueue q f).cores = s.cores := rfl
@[simp] theorem State.modHostQueue_copies (s : State) (q : Nat) (f : HostQueue → HostQueue) : (s.modHostQueue q f).copies = s.copies := rfl
@[simp] theorem State.modHostQueue_engines (s : State) (q : Nat) (f : HostQueue → HostQueue) : (s.modHostQueue q f).engines = s.engines := rfl
@[simp] theorem State.modHostQueue_tlbs (s : State) (q : Nat) (f : HostQueue → HostQueue) : (s.modHostQueue q f).tlbs = s.tlbs := rfl
@[simp] theorem State.modHostQueue_walks (s : State) (q : Nat) (f : HostQueue → HostQueue) : (s.modHostQueue q f).walks = s.walks := rfl
@[simp] theorem State.modHostQueue_failed (s : State) (q : Nat) (f : HostQueue → HostQueue) : (s.modHostQueue q f).failed = s.failed := rfl
@[simp] theorem State.modHostQueue_classes (s : State) (q : Nat) (f : HostQueue → HostQueue) : (s.modHostQueue q f).classes = s.classes := rfl
@[simp] theorem State.modHostQueue_transits (s : State) (q : Nat) (f : HostQueue → HostQueue) : (s.modHostQueue q f).transits = s.transits := rfl
@[simp] theorem State.modHostQueue_tickets (s : State) (q : Nat) (f : HostQueue → HostQueue) : (s.modHostQueue q f).tickets = s.tickets := rfl
@[simp] theorem State.modHostQueue_bias (s : State) (q : Nat) (f : HostQueue → HostQueue) : (s.modHostQueue q f).bias = s.bias := rfl
@[simp] theorem State.modHostQueue_snoop (s : State) (q : Nat) (f : HostQueue → HostQueue) : (s.modHostQueue q f).snoop = s.snoop := rfl
@[simp] theorem State.modHostQueue_snoopInv (s : State) (q : Nat) (f : HostQueue → HostQueue) : (s.modHostQueue q f).snoopInv = s.snoopInv := rfl
@[simp] theorem State.modHostQueue_snoopData (s : State) (q : Nat) (f : HostQueue → HostQueue) : (s.modHostQueue q f).snoopData = s.snoopData := rfl
@[simp] theorem State.modHostQueue_snoopAns (s : State) (q : Nat) (f : HostQueue → HostQueue) : (s.modHostQueue q f).snoopAns = s.snoopAns := rfl
@[simp] theorem State.modHostQueue_coherenceLost (s : State) (q : Nat) (f : HostQueue → HostQueue) : (s.modHostQueue q f).coherenceLost = s.coherenceLost := rfl
@[simp] theorem State.modHostQueue_stale (s : State) (q : Nat) (f : HostQueue → HostQueue) : (s.modHostQueue q f).stale = s.stale := rfl
@[simp] theorem State.modHostQueue_poison (s : State) (q : Nat) (f : HostQueue → HostQueue) : (s.modHostQueue q f).poison = s.poison := rfl
@[simp] theorem State.modHostQueue_hostPending (s : State) (q : Nat) (f : HostQueue → HostQueue) : (s.modHostQueue q f).hostPending = s.hostPending := rfl
@[simp] theorem State.modHostQueue_atHome (s : State) (q : Nat) (f : HostQueue → HostQueue) : (s.modHostQueue q f).atHome = s.atHome := rfl
@[simp] theorem State.modHostQueue_messages (s : State) (q : Nat) (f : HostQueue → HostQueue) : (s.modHostQueue q f).messages = s.messages := rfl
@[simp] theorem State.modHostQueue_overdue (s : State) (q : Nat) (f : HostQueue → HostQueue) : (s.modHostQueue q f).overdue = s.overdue := rfl
@[simp] theorem State.modHostQueue_hostAnswer (s : State) (q : Nat) (f : HostQueue → HostQueue) : (s.modHostQueue q f).hostAnswer = s.hostAnswer := rfl
@[simp] theorem State.modHostQueue_peerAnswer (s : State) (q : Nat) (f : HostQueue → HostQueue) : (s.modHostQueue q f).peerAnswer = s.peerAnswer := rfl
@[simp] theorem State.modHostQueue_classAt (s : State) (q : Nat) (f : HostQueue → HostQueue) : (s.modHostQueue q f).classAt = s.classAt := rfl
@[simp] theorem State.modHostQueue_biasAt (s : State) (q : Nat) (f : HostQueue → HostQueue) : (s.modHostQueue q f).biasAt = s.biasAt := rfl
@[simp] theorem State.modHostQueue_hdmBase (s : State) (q : Nat) (f : HostQueue → HostQueue) : (s.modHostQueue q f).hdmBase = s.hdmBase := rfl
@[simp] theorem State.modHostQueue_mgmt (s : State) (q : Nat) (f : HostQueue → HostQueue) : (s.modHostQueue q f).mgmt = s.mgmt := rfl
@[simp] theorem State.modHostQueue_links (s : State) (q : Nat) (f : HostQueue → HostQueue) : (s.modHostQueue q f).links = s.links := rfl
@[simp] theorem State.modHostQueue_timeBlock (s : State) (q : Nat) (f : HostQueue → HostQueue) : (s.modHostQueue q f).timeBlock = s.timeBlock := rfl
@[simp] theorem State.modHostQueue_domain (s : State) (q : Nat) (f : HostQueue → HostQueue) : (s.modHostQueue q f).domain = s.domain := rfl
@[simp] theorem State.modHostQueue_parts (s : State) (q : Nat) (f : HostQueue → HostQueue) : (s.modHostQueue q f).parts = s.parts := rfl
@[simp] theorem State.modHostQueue_partCtx (s : State) (q : Nat) (f : HostQueue → HostQueue) : (s.modHostQueue q f).partCtx = s.partCtx := rfl
@[simp] theorem State.modHostQueue_haltLine (s : State) (q : Nat) (f : HostQueue → HostQueue) : (s.modHostQueue q f).haltLine = s.haltLine := rfl
@[simp] theorem State.modHostQueue_gather (s : State) (q : Nat) (f : HostQueue → HostQueue) : (s.modHostQueue q f).gather = s.gather := rfl
@[simp] theorem State.modHostQueue_quiet (s : State) (q : Nat) (f : HostQueue → HostQueue) : (s.modHostQueue q f).quiet = s.quiet := rfl
@[simp] theorem State.modHostQueue_banks (s : State) (q : Nat) (f : HostQueue → HostQueue) : (s.modHostQueue q f).banks = s.banks := rfl
@[simp] theorem State.modHostQueue_retired (s : State) (q : Nat) (f : HostQueue → HostQueue) : (s.modHostQueue q f).retired = s.retired := rfl
@[simp] theorem State.modHostQueue_tests (s : State) (q : Nat) (f : HostQueue → HostQueue) : (s.modHostQueue q f).tests = s.tests := rfl
@[simp] theorem State.modHostQueue_boot (s : State) (q : Nat) (f : HostQueue → HostQueue) : (s.modHostQueue q f).boot = s.boot := rfl
@[simp] theorem State.modHostQueue_power (s : State) (q : Nat) (f : HostQueue → HostQueue) : (s.modHostQueue q f).power = s.power := rfl
@[simp] theorem State.modHostQueue_msixTable (s : State) (q : Nat) (f : HostQueue → HostQueue) : (s.modHostQueue q f).msixTable = s.msixTable := rfl
@[simp] theorem State.modHostQueue_msixPending (s : State) (q : Nat) (f : HostQueue → HostQueue) : (s.modHostQueue q f).msixPending = s.msixPending := rfl
@[simp] theorem State.modHostQueue_msixSent (s : State) (q : Nat) (f : HostQueue → HostQueue) : (s.modHostQueue q f).msixSent = s.msixSent := rfl
@[simp] theorem State.modHostQueue_fatal (s : State) (q : Nat) (f : HostQueue → HostQueue) : (s.modHostQueue q f).fatal = s.fatal := rfl
@[simp] theorem State.modHostQueue_nextId (s : State) (q : Nat) (f : HostQueue → HostQueue) : (s.modHostQueue q f).nextId = s.nextId := rfl

/-! ## modMgmt -/

@[simp] theorem State.modMgmt_time (s : State) (f : Mgmt → Mgmt) : (s.modMgmt f).time = s.time := rfl
@[simp] theorem State.modMgmt_tick (s : State) (f : Mgmt → Mgmt) : (s.modMgmt f).tick = s.tick := rfl
@[simp] theorem State.modMgmt_freeIx (s : State) (f : Mgmt → Mgmt) : (s.modMgmt f).freeIx = s.freeIx := rfl
@[simp] theorem State.modMgmt_agenda (s : State) (f : Mgmt → Mgmt) : (s.modMgmt f).agenda = s.agenda := rfl
@[simp] theorem State.modMgmt_cur (s : State) (f : Mgmt → Mgmt) : (s.modMgmt f).cur = s.cur := rfl
@[simp] theorem State.modMgmt_turns (s : State) (f : Mgmt → Mgmt) : (s.modMgmt f).turns = s.turns := rfl
@[simp] theorem State.modMgmt_mem (s : State) (f : Mgmt → Mgmt) : (s.modMgmt f).mem = s.mem := rfl
@[simp] theorem State.modMgmt_hostMem (s : State) (f : Mgmt → Mgmt) : (s.modMgmt f).hostMem = s.hostMem := rfl
@[simp] theorem State.modMgmt_peerMem (s : State) (f : Mgmt → Mgmt) : (s.modMgmt f).peerMem = s.peerMem := rfl
@[simp] theorem State.modMgmt_groups (s : State) (f : Mgmt → Mgmt) : (s.modMgmt f).groups = s.groups := rfl
@[simp] theorem State.modMgmt_teams (s : State) (f : Mgmt → Mgmt) : (s.modMgmt f).teams = s.teams := rfl
@[simp] theorem State.modMgmt_launches (s : State) (f : Mgmt → Mgmt) : (s.modMgmt f).launches = s.launches := rfl
@[simp] theorem State.modMgmt_queues (s : State) (f : Mgmt → Mgmt) : (s.modMgmt f).queues = s.queues := rfl
@[simp] theorem State.modMgmt_taskQueues (s : State) (f : Mgmt → Mgmt) : (s.modMgmt f).taskQueues = s.taskQueues := rfl
@[simp] theorem State.modMgmt_contexts (s : State) (f : Mgmt → Mgmt) : (s.modMgmt f).contexts = s.contexts := rfl
@[simp] theorem State.modMgmt_cores (s : State) (f : Mgmt → Mgmt) : (s.modMgmt f).cores = s.cores := rfl
@[simp] theorem State.modMgmt_copies (s : State) (f : Mgmt → Mgmt) : (s.modMgmt f).copies = s.copies := rfl
@[simp] theorem State.modMgmt_engines (s : State) (f : Mgmt → Mgmt) : (s.modMgmt f).engines = s.engines := rfl
@[simp] theorem State.modMgmt_tlbs (s : State) (f : Mgmt → Mgmt) : (s.modMgmt f).tlbs = s.tlbs := rfl
@[simp] theorem State.modMgmt_walks (s : State) (f : Mgmt → Mgmt) : (s.modMgmt f).walks = s.walks := rfl
@[simp] theorem State.modMgmt_failed (s : State) (f : Mgmt → Mgmt) : (s.modMgmt f).failed = s.failed := rfl
@[simp] theorem State.modMgmt_classes (s : State) (f : Mgmt → Mgmt) : (s.modMgmt f).classes = s.classes := rfl
@[simp] theorem State.modMgmt_transits (s : State) (f : Mgmt → Mgmt) : (s.modMgmt f).transits = s.transits := rfl
@[simp] theorem State.modMgmt_tickets (s : State) (f : Mgmt → Mgmt) : (s.modMgmt f).tickets = s.tickets := rfl
@[simp] theorem State.modMgmt_bias (s : State) (f : Mgmt → Mgmt) : (s.modMgmt f).bias = s.bias := rfl
@[simp] theorem State.modMgmt_snoop (s : State) (f : Mgmt → Mgmt) : (s.modMgmt f).snoop = s.snoop := rfl
@[simp] theorem State.modMgmt_snoopInv (s : State) (f : Mgmt → Mgmt) : (s.modMgmt f).snoopInv = s.snoopInv := rfl
@[simp] theorem State.modMgmt_snoopData (s : State) (f : Mgmt → Mgmt) : (s.modMgmt f).snoopData = s.snoopData := rfl
@[simp] theorem State.modMgmt_snoopAns (s : State) (f : Mgmt → Mgmt) : (s.modMgmt f).snoopAns = s.snoopAns := rfl
@[simp] theorem State.modMgmt_coherenceLost (s : State) (f : Mgmt → Mgmt) : (s.modMgmt f).coherenceLost = s.coherenceLost := rfl
@[simp] theorem State.modMgmt_stale (s : State) (f : Mgmt → Mgmt) : (s.modMgmt f).stale = s.stale := rfl
@[simp] theorem State.modMgmt_poison (s : State) (f : Mgmt → Mgmt) : (s.modMgmt f).poison = s.poison := rfl
@[simp] theorem State.modMgmt_hostPending (s : State) (f : Mgmt → Mgmt) : (s.modMgmt f).hostPending = s.hostPending := rfl
@[simp] theorem State.modMgmt_atHome (s : State) (f : Mgmt → Mgmt) : (s.modMgmt f).atHome = s.atHome := rfl
@[simp] theorem State.modMgmt_messages (s : State) (f : Mgmt → Mgmt) : (s.modMgmt f).messages = s.messages := rfl
@[simp] theorem State.modMgmt_overdue (s : State) (f : Mgmt → Mgmt) : (s.modMgmt f).overdue = s.overdue := rfl
@[simp] theorem State.modMgmt_hostAnswer (s : State) (f : Mgmt → Mgmt) : (s.modMgmt f).hostAnswer = s.hostAnswer := rfl
@[simp] theorem State.modMgmt_peerAnswer (s : State) (f : Mgmt → Mgmt) : (s.modMgmt f).peerAnswer = s.peerAnswer := rfl
@[simp] theorem State.modMgmt_classAt (s : State) (f : Mgmt → Mgmt) : (s.modMgmt f).classAt = s.classAt := rfl
@[simp] theorem State.modMgmt_biasAt (s : State) (f : Mgmt → Mgmt) : (s.modMgmt f).biasAt = s.biasAt := rfl
@[simp] theorem State.modMgmt_hdmBase (s : State) (f : Mgmt → Mgmt) : (s.modMgmt f).hdmBase = s.hdmBase := rfl
@[simp] theorem State.modMgmt_hostQueues (s : State) (f : Mgmt → Mgmt) : (s.modMgmt f).hostQueues = s.hostQueues := rfl
@[simp] theorem State.modMgmt_links (s : State) (f : Mgmt → Mgmt) : (s.modMgmt f).links = s.links := rfl
@[simp] theorem State.modMgmt_timeBlock (s : State) (f : Mgmt → Mgmt) : (s.modMgmt f).timeBlock = s.timeBlock := rfl
@[simp] theorem State.modMgmt_domain (s : State) (f : Mgmt → Mgmt) : (s.modMgmt f).domain = s.domain := rfl
@[simp] theorem State.modMgmt_parts (s : State) (f : Mgmt → Mgmt) : (s.modMgmt f).parts = s.parts := rfl
@[simp] theorem State.modMgmt_partCtx (s : State) (f : Mgmt → Mgmt) : (s.modMgmt f).partCtx = s.partCtx := rfl
@[simp] theorem State.modMgmt_haltLine (s : State) (f : Mgmt → Mgmt) : (s.modMgmt f).haltLine = s.haltLine := rfl
@[simp] theorem State.modMgmt_gather (s : State) (f : Mgmt → Mgmt) : (s.modMgmt f).gather = s.gather := rfl
@[simp] theorem State.modMgmt_quiet (s : State) (f : Mgmt → Mgmt) : (s.modMgmt f).quiet = s.quiet := rfl
@[simp] theorem State.modMgmt_banks (s : State) (f : Mgmt → Mgmt) : (s.modMgmt f).banks = s.banks := rfl
@[simp] theorem State.modMgmt_retired (s : State) (f : Mgmt → Mgmt) : (s.modMgmt f).retired = s.retired := rfl
@[simp] theorem State.modMgmt_tests (s : State) (f : Mgmt → Mgmt) : (s.modMgmt f).tests = s.tests := rfl
@[simp] theorem State.modMgmt_boot (s : State) (f : Mgmt → Mgmt) : (s.modMgmt f).boot = s.boot := rfl
@[simp] theorem State.modMgmt_power (s : State) (f : Mgmt → Mgmt) : (s.modMgmt f).power = s.power := rfl
@[simp] theorem State.modMgmt_msixTable (s : State) (f : Mgmt → Mgmt) : (s.modMgmt f).msixTable = s.msixTable := rfl
@[simp] theorem State.modMgmt_msixPending (s : State) (f : Mgmt → Mgmt) : (s.modMgmt f).msixPending = s.msixPending := rfl
@[simp] theorem State.modMgmt_msixSent (s : State) (f : Mgmt → Mgmt) : (s.modMgmt f).msixSent = s.msixSent := rfl
@[simp] theorem State.modMgmt_fatal (s : State) (f : Mgmt → Mgmt) : (s.modMgmt f).fatal = s.fatal := rfl
@[simp] theorem State.modMgmt_nextId (s : State) (f : Mgmt → Mgmt) : (s.modMgmt f).nextId = s.nextId := rfl

/-! ## Entries read back -/

@[simp] theorem State.ctx_setCtx (s : State) (c : Nat) (x : Context) : (s.setCtx c x).ctx c = x := by
  simp [State.ctx, State.setCtx, tget_tset_self]

theorem State.ctx_setCtx_ne (s : State) {c d : Nat} (x : Context) (h : d ≠ c) : (s.setCtx c x).ctx d = s.ctx d := by
  simp [State.ctx, State.setCtx, tget_tset_ne _ _ h]

@[simp] theorem State.ctx_modCtx (s : State) (c : Nat) (f : Context → Context) : (s.modCtx c f).ctx c = f (s.ctx c) :=
  State.ctx_setCtx s c _

theorem State.ctx_modCtx_ne (s : State) {c d : Nat} (f : Context → Context) (h : d ≠ c) : (s.modCtx c f).ctx d = s.ctx d :=
  State.ctx_setCtx_ne s _ h

@[simp] theorem State.group?_setGroup (s : State) (g : Nat) (x : Group) : (s.setGroup g x).group? g = some x := by
  simp [State.group?, State.setGroup, tget_tset_self]

theorem State.group?_setGroup_ne (s : State) {g h : Nat} (x : Group) (n : h ≠ g) : (s.setGroup g x).group? h = s.group? h := by
  simp [State.group?, State.setGroup, tget_tset_ne _ _ n]

theorem State.group?_modGroup {s : State} {g : Nat} {x : Group} (f : Group → Group) (h : s.group? g = some x) :
    (s.modGroup g f).group? g = some (f x) := tget_tmod_self f h

theorem State.group?_modGroup_ne (s : State) {g h : Nat} (f : Group → Group) (n : h ≠ g) :
    (s.modGroup g f).group? h = s.group? h := tget_tmod_ne _ f n

@[simp] theorem State.team?_setTeam (s : State) (n : Nat) (x : Team) : (s.setTeam n x).team? n = some x := by
  simp [State.team?, State.setTeam, tget_tset_self]

theorem State.team?_modTeam {s : State} {n : Nat} {x : Team} (f : Team → Team) (h : s.team? n = some x) :
    (s.modTeam n f).team? n = some (f x) := tget_tmod_self f h

theorem State.launch?_modLaunch {s : State} {n : Nat} {x : Launch} (f : Launch → Launch) (h : s.launch? n = some x) :
    (s.modLaunch n f).launch? n = some (f x) := tget_tmod_self f h

theorem State.queue?_modQueue {s : State} {n : Nat} {x : QueueInst} (f : QueueInst → QueueInst) (h : s.queue? n = some x) :
    (s.modQueue n f).queue? n = some (f x) := tget_tmod_self f h

theorem State.queue?_modQueue_ne (s : State) {n m : Nat} (f : QueueInst → QueueInst) (h : m ≠ n) :
    (s.modQueue n f).queue? m = s.queue? m := tget_tmod_ne _ f h

@[simp] theorem State.core_modCore (s : State) (k : Nat) (f : Core → Core) : (s.modCore k f).core k = f (s.core k) := by
  simp [State.core, State.modCore, tget_tset_self]

theorem State.core_modCore_ne (s : State) {k j : Nat} (f : Core → Core) (h : j ≠ k) : (s.modCore k f).core j = s.core j := by
  simp [State.core, State.modCore, tget_tset_ne _ _ h]

@[simp] theorem State.engine_modEngine (s : State) (e : Nat) (f : Engine → Engine) : (s.modEngine e f).engine e = f (s.engine e) := by
  simp [State.engine, State.modEngine, tget_tset_self]

theorem State.engine_modEngine_ne (s : State) {e d : Nat} (f : Engine → Engine) (h : d ≠ e) :
    (s.modEngine e f).engine d = s.engine d := by
  simp [State.engine, State.modEngine, tget_tset_ne _ _ h]

@[simp] theorem State.hostQueue_modHostQueue (s : State) (q : Nat) (f : HostQueue → HostQueue) :
    (s.modHostQueue q f).hostQueue q = f (s.hostQueue q) := by
  simp [State.hostQueue, State.modHostQueue, tget_tset_self]

theorem State.hostQueue_modHostQueue_ne (s : State) {q p : Nat} (f : HostQueue → HostQueue) (h : p ≠ q) :
    (s.modHostQueue q f).hostQueue p = s.hostQueue p := by
  simp [State.hostQueue, State.modHostQueue, tget_tset_ne _ _ h]

@[simp] theorem State.taskQueue_modTaskQueue (s : State) (c d : Nat) (f : TaskQueue → TaskQueue) :
    (s.modTaskQueue c d f).taskQueue c d = f (s.taskQueue c d) := by
  simp [State.taskQueue, State.modTaskQueue, tget_tset_self]

/-- Only the links change. -/
theorem State.modLink_eq (s : State) (n : Nat) (f : Link → Link) : s.modLink n f = { s with links := (s.modLink n f).links } := by
  rw [State.modLink]

theorem State.link_modLink (s : State) (n : Nat) (f : Link → Link) : (s.modLink n f).link n = f (s.link n) := by
  simp [State.link, State.modLink]

theorem State.link_modLink_ne (s : State) {n m : Nat} (f : Link → Link) (h : m % 18 ≠ n % 18) : (s.modLink n f).link m = s.link m := by
  simp [State.link, State.modLink, h]

end Sys2Proof.Machine
end

