-- ==== Sys2Proof/Laws/Ops.lean ====
section
/-! SUPPORT. What the shared operations can change: each changes the fields named in its equation and no other, and each that
writes memory keeps the canonical form. -/
namespace Sys2Proof.Machine

/-! ## Faults and traps -/

theorem haltContext_eq (s : State) (c u : Nat) (f : FaultInfo) :
    haltContext s c u f = { s with contexts := (haltContext s c u f).contexts } := by
  simp only [haltContext]
  split
  · rfl
  · rfl
  · rfl
  · split <;> rfl
  · rfl

theorem chargeFault_eq (s : State) (c : Nat) (k : BitVec 8) (v : BitVec 64) (q : Nat) :
    chargeFault s c k v q = { s with contexts := (chargeFault s c k v q).contexts, mem := (chargeFault s c k v q).mem } := by
  unfold chargeFault
  dsimp only
  generalize leBytes 8 s.time ++ _ ++ _ ++ _ ++ _ ++ _ ++ _ ++ _ ++ _ ++ _ = r
  split
  any_goals rfl
  · split
    · rfl
    · split <;> rfl
  · split <;> rfl

/-- A fault of a unit of a Running context halts it, with this fault as its first. -/
theorem haltContext_running {s : State} {c : Nat} (h : (s.ctx c).state = .running) (u : Nat) (f : FaultInfo) :
    ((haltContext s c u f).ctx c).state = .halting ∧ ((haltContext s c u f).ctx c).firstFault = some f := by
  simp [haltContext, h]

/-- A fault of a group changes groups and contexts only. -/
theorem groupFault_eq (s : State) (g : Nat) (f : FaultInfo) :
    groupFault s g f = { s with groups := (groupFault s g f).groups, contexts := (groupFault s g f).contexts } := by
  unfold groupFault
  split
  · rfl
  · rw [haltContext_eq]; rfl

/-- A fault of a group that runs, with no ordered access in progress, stops it before its instruction. -/
theorem faulted_running {gr : Group} (p : gr.phase = .running) (o : (gr.issue.bind (·.op)) = none) (f : FaultInfo)
    (now : Nat) : faulted gr f now = { stopHere gr with phase := .stopped, fault := some f, haltTime := now } := by
  simp [faulted, p, o]

/-- The group that faults is stopped with the fault; no other group changes. -/
theorem groupFault_group {s : State} {g : Nat} {gr : Group} (h : s.group? g = some gr) (f : FaultInfo) :
    (groupFault s g f).group? g = some (faulted gr f s.time) := by
  simp only [groupFault, h]
  rw [haltContext_eq]
  exact State.group?_setGroup s g _

theorem groupFault_group_ne {s : State} {g h : Nat} (n : h ≠ g) (f : FaultInfo) : (groupFault s g f).group? h = s.group? h := by
  unfold groupFault
  split
  · rfl
  · rw [haltContext_eq]
    exact State.group?_setGroup_ne s _ n

/-! ## Rows that leave their chip, and traps -/

/-- `t` differs from `s` in groups, contexts, memory and what leaves for other modules alone: what moving rows to the register stack
can change. -/
def RowsOnly (s t : State) : Prop :=
  ∃ gs cs m hm pm ms ls, t = { s with
    groups := gs, contexts := cs, mem := m, hostMem := hm, peerMem := pm, messages := ms, links := ls }

theorem RowsOnly.refl (s : State) : RowsOnly s s := ⟨s.groups, s.contexts, s.mem, s.hostMem, s.peerMem, s.messages, s.links, rfl⟩

theorem RowsOnly.trans {s t u : State} (h : RowsOnly s t) (k : RowsOnly t u) : RowsOnly s u := by
  obtain ⟨_, _, _, _, _, _, _, rfl⟩ := h
  obtain ⟨_, _, _, _, _, _, _, rfl⟩ := k
  exact ⟨_, _, _, _, _, _, _, rfl⟩

theorem RowsOnly.setGroup (s : State) (g : Nat) (gr : Group) : RowsOnly s (s.setGroup g gr) :=
  ⟨tset s.groups g gr, s.contexts, s.mem, s.hostMem, s.peerMem, s.messages, s.links, rfl⟩

theorem RowsOnly.groupFault (s : State) (g : Nat) (f : FaultInfo) : RowsOnly s (groupFault s g f) :=
  ⟨_, _, s.mem, s.hostMem, s.peerMem, s.messages, s.links, groupFault_eq s g f⟩

/-- A request to another module changes the requests awaited and the links alone. -/
theorem sendMessage_eq (s : State) (p : Word) (m g t : Nat) :
    sendMessage s p m g t = { s with messages := (sendMessage s p m g t).messages, links := (sendMessage s p m g t).links } := by
  unfold sendMessage
  dsimp only
  split
  · rfl
  · split <;> rfl

theorem RowsOnly.sendMessage (s : State) (p : Word) (m g t : Nat) : RowsOnly s (sendMessage s p m g t) :=
  ⟨s.groups, s.contexts, s.mem, s.hostMem, s.peerMem, _, _, sendMessage_eq s p m g t⟩

theorem RowsOnly.frameWrite (s : State) (e : TlbEntry) (va : Nat) (b : List Byte) : RowsOnly s (frameWrite s e va b) := by
  unfold Machine.frameWrite
  split
  · exact ⟨s.groups, s.contexts, s.mem, _, s.peerMem, s.messages, s.links, rfl⟩
  · split
    · exact ⟨s.groups, s.contexts, s.mem, s.hostMem, _, s.messages, s.links, rfl⟩
    · exact ⟨s.groups, s.contexts, _, s.hostMem, s.peerMem, s.messages, s.links, rfl⟩

/-- A relation that a fold's every step keeps. -/
theorem foldl_keeps {α β : Type} {P : β → β → Prop} (hr : ∀ b, P b b) (ht : ∀ a b c, P a b → P b c → P a c) {f : β → α → β}
    (hf : ∀ b a, P b (f b a)) (l : List α) (b : β) : P b (l.foldl f b) := by
  induction l generalizing b with
  | nil => exact hr b
  | cons a l ih => exact ht _ _ _ (hf b a) (ih _)

theorem storeRow_rows (s : State) (k : Nat) (gr : Group) (e : Nat) (sel : Nat → TlbEntry → Bool) : RowsOnly s (storeRow s k gr e sel) :=
  foldl_keeps RowsOnly.refl (fun _ _ _ => .trans) (fun s l => by
    split
    · exact .refl s
    · split
      · exact .frameWrite ..
      · exact .refl s) _ s

theorem evictRow_rows (s : State) (g e : Nat) : RowsOnly s (evictRow s g e) := by
  unfold evictRow
  split
  · exact .refl s
  · split
    · exact .groupFault ..
    · exact (foldl_keeps RowsOnly.refl (fun _ _ _ => .trans) (fun s x => .sendMessage ..) _ s).trans
        ((RowsOnly.setGroup _ g _).trans (storeRow_rows ..))

theorem evictRows_rows (g : Nat) (ns : List Nat) (n : Nat) (st : List (Nat × Nat)) (s : State) : RowsOnly s (evictRows g ns n st s) := by
  induction n generalizing s st with
  | zero => exact .refl s
  | succ n ih =>
    unfold evictRows
    split
    · exact .refl s
    · split
      · exact .refl s
      · exact (evictRow_rows ..).trans (ih _ _)

theorem balanceRows_rows (s : State) (g : Nat) (ns : List Nat) : RowsOnly s (balanceRows s g ns) := evictRows_rows ..

/-- A trap changes groups and contexts, and the rows it evicts memory, alone. -/
theorem trapLanes_rows (s : State) (g : Nat) (m : Mask) (k : Nat → BitVec 8) (v : Nat → BitVec 64) (p q : Nat → CodePos) (w : Word) :
    RowsOnly s (trapLanes s g m k v p q w) := by
  unfold trapLanes
  split
  · exact .refl s
  · dsimp only
    split
    · exact .groupFault ..
    · split
      · exact .groupFault ..
      · exact (RowsOnly.setGroup ..).trans (balanceRows_rows ..)

theorem trapIssue_rows (s : State) (g : Nat) (m : Mask) (k : Nat → BitVec 8) (v : Nat → BitVec 64) :
    RowsOnly s (trapIssue s g m k v) := by
  unfold trapIssue
  split
  · exact .refl s
  · split
    · exact .refl s
    · exact trapLanes_rows ..

/-! ## Trace records -/

/-- A trace record changes its context and memory only, and keeps the memory's form. -/
theorem trace_frame {s : State} (h : Memory.wf s.mem = true) (c kind code die stage unit engine gid : Nat) (root : RootCmd)
    (x y z data : Nat) : ∃ cs m, Memory.wf m = true ∧
      trace s c kind code die stage unit engine gid root x y z data = { s with contexts := cs, mem := m } := by
  unfold trace
  split
  · exact ⟨s.contexts, s.mem, h, rfl⟩
  · rename_i d _
    by_cases h1 : d.trbase = 0 ∨ (!d.trmask.getLsbD kind) = true
    · rw [if_pos h1]
      exact ⟨s.contexts, s.mem, h, rfl⟩
    · rw [if_neg h1]
      by_cases h2 : (!d.trmode && decide (2 ^ d.trsize ≤ d.trcount)) = true
      · rw [if_pos (by simpa using h2)]
        exact ⟨_, _, mwrite_wf h _ _, rfl⟩
      · rw [if_neg (by simpa using h2)]
        dsimp only
        generalize leBytes 8 s.time ++ leBytes 2 _ ++ _ ++ _ ++ _ ++ _ ++ _ ++ _ ++ _ ++ _ ++ _ ++ _ ++ _ ++ _ = r
        generalize d.trbase + 32 * _ = a
        exact ⟨(s.modCtx c fun x => { x with debug := some { d with trcount := d.trcount + 1 } }).contexts, _,
          mwrite_wf (mwrite_wf h a r) _ _, rfl⟩

theorem trace_wf {s : State} (h : Memory.wf s.mem = true) (c kind code die stage unit engine gid : Nat) (root : RootCmd)
    (x y z data : Nat) : Memory.wf (trace s c kind code die stage unit engine gid root x y z data).mem = true := by
  obtain ⟨cs, m, w, e⟩ := trace_frame h c kind code die stage unit engine gid root x y z data
  rw [e]
  exact w

theorem traceGroup_wf {s : State} (h : Memory.wf s.mem = true) (g kind code data : Nat) :
    Memory.wf (traceGroup s g kind code data).mem = true := by
  unfold traceGroup
  split
  · exact h
  · split
    · exact h
    · exact trace_wf h ..

/-! ## Writes -/

theorem frameWrite_ok {s : State} (h : MemoriesOk s) (e : TlbEntry) (va : Nat) (b : List Byte) : MemoriesOk (frameWrite s e va b) := by
  obtain ⟨h1, h2, h3⟩ := h
  unfold frameWrite
  split
  · exact ⟨h1, mwrite_wf h2 _ _, h3⟩
  · split
    · exact ⟨h1, h2, mwrite_wf h3 _ _⟩
    · exact ⟨mwrite_wf h1 _ _, h2, h3⟩

theorem groupFault_ok {s : State} (h : MemoriesOk s) (g : Nat) (f : FaultInfo) : MemoriesOk (groupFault s g f) := by
  rw [groupFault_eq]
  exact h

theorem storeRow_ok {s : State} (h : MemoriesOk s) (k : Nat) (gr : Group) (e : Nat) (sel : Nat → TlbEntry → Bool) :
    MemoriesOk (storeRow s k gr e sel) :=
  foldl_keeps (P := fun s t => MemoriesOk s → MemoriesOk t) (fun _ h => h) (fun _ _ _ h k x => k (h x)) (fun s l h => by
    split
    · exact h
    · split
      · exact frameWrite_ok h ..
      · exact h) _ s h

/-- Rows that leave their chip keep the memories' canonical form. -/
theorem evictRow_ok {s : State} (h : MemoriesOk s) (g e : Nat) : MemoriesOk (evictRow s g e) := by
  unfold evictRow
  split
  · exact h
  · split
    · exact groupFault_ok h ..
    · have hs (l : List (Nat × Nat × Nat)) := foldl_keeps (P := fun s t => MemoriesOk s → MemoriesOk t) (fun _ h => h)
        (fun _ _ _ h k x => k (h x)) (f := fun s (x : Nat × Nat × Nat) => sendMessage s (rowParty s g false) x.1 x.2.1 x.2.2)
        (fun s x h => by rw [sendMessage_eq]; exact h) l s h
      exact storeRow_ok (s := State.setGroup _ g _) (hs _) ..

theorem balanceRows_ok {s : State} (h : MemoriesOk s) (g : Nat) (ns : List Nat) : MemoriesOk (balanceRows s g ns) := by
  unfold balanceRows
  generalize (if gRowsOfCore s (coreOf g) ≤ 4096 then 0 else gRowsOfCore s (coreOf g)) = n
  generalize ([] : List (Nat × Nat)) = st
  induction n generalizing s st with
  | zero => exact h
  | succ n ih =>
    unfold evictRows
    split
    · exact h
    · split
      · exact h
      · exact ih (evictRow_ok h ..) _

theorem busWrite_ok {s : State} (h : MemoriesOk s) (a : Nat) (b : List Byte) : MemoriesOk (busWrite s a b) := by
  obtain ⟨h1, h2, h3⟩ := h
  unfold busWrite
  split
  · exact ⟨mwrite_wf h1 _ _, h2, h3⟩
  · exact ⟨h1, mwrite_wf h2 _ _, h3⟩

/-- What the bus writes it reads back. -/
theorem busRead_busWrite {s : State} (h : MemoriesOk s) (a : Nat) (b : List Byte) : busRead (busWrite s a b) a b.length = b := by
  unfold busRead busWrite
  split
  · exact mread_mwrite h.1 a b
  · exact mread_mwrite h.2.1 a b

theorem sendMsi_eq (s : State) (v : Nat) :
    sendMsi s v = { s with msixPending := (sendMsi s v).msixPending, msixSent := (sendMsi s v).msixSent } := by
  unfold sendMsi
  split <;> rfl

/-! ## Classes -/

theorem finishTransit_frame (s : State) (u : Nat) (x : Transit) :
    ∃ c y, finishTransit s u x = { s with classes := c, transits := y } := by
  unfold finishTransit
  split
  · exact ⟨s.classes, _, rfl⟩
  · exact ⟨_, _, rfl⟩

theorem startTransit_frame (s : State) (u cls code : Nat) (t : Trigger) :
    ∃ c x, startTransit s u cls code t = { s with classes := c, transits := x } := by
  simp only [startTransit]
  generalize classHolders s u ++ _ = owes
  split
  · exact finishTransit_frame ..
  · exact ⟨s.classes, _, rfl⟩

/-- With no unit that holds the class, the transition of a unit of this module completes at once. -/
theorem startTransit_now {s : State} {u : Nat} (h : classHolders s u = []) (r : (s.classOf u).rhold = true → peerUnits s = [])
    (hu : u < 2 ^ 27) (cls code : Nat) (t : Trigger) : ((startTransit s u cls code t).classOf u).cls = cls ∧
      ((startTransit s u cls code t).classOf u).unit = code := by
  have e : (classHolders s u ++ (if (s.classOf u).rhold then peerUnits s else [])) = [] := by
    cases hr : (s.classOf u).rhold
    · simp [h]
    · simp [h, r hr]
  have f : startTransit s u cls code t = finishTransit s u ⟨cls, code, 0, t, [], [], [], s.realTime⟩ := by
    simp only [startTransit, e]
    rfl
  rw [f, finishTransit, if_neg (by omega)]
  simp only [State.classOf, tget_tset_self]
  exact ⟨rfl, rfl⟩

theorem takeTicket_eq (s : State) (u : Nat) (p : Word) :
    (takeTicket s u p).1 = { s with tickets := (takeTicket s u p).1.tickets } := by
  simp only [takeTicket]
  split <;> rfl

end Sys2Proof.Machine
end

