-- ==== Sys2Proof/Laws/PerInstr.lean ====
section
/-! SUPPORT. What is legal under the encoding N1 or N2 is legal under N3 (R142, Table 6-3: N1 and N2 reach fewer names and
instructions). -/
namespace Sys2Proof

theorem nameLimit_le (e : Nat) : nameLimit e ≤ nameLimit 3 := by by_cases h1 : e = 1 <;> by_cases h2 : e = 2 <;> simp [nameLimit, h1, h2]

theorem srcOk_mono {e : Nat} {r : Reg} (h : srcOk e r = true) : srcOk 3 r = true := by
  have := nameLimit_le e
  simp only [srcOk, Bool.or_eq_true, decide_eq_true_eq] at h ⊢
  omega

theorem dstOk_mono {e : Nat} {r : Reg} (h : dstOk e r = true) : dstOk 3 r = true := by
  simp only [dstOk, Bool.and_eq_true] at h ⊢
  exact ⟨srcOk_mono h.1, h.2⟩

theorem plainDstOk_mono {e : Nat} {r : Reg} (h : plainDstOk e r = true) : plainDstOk 3 r = true := by
  simp only [plainDstOk, Bool.and_eq_true] at h ⊢
  exact ⟨dstOk_mono h.1, h.2⟩

theorem fillDstOk_mono {e : Nat} {r : Reg} {m : BitVec 3} (h : fillDstOk e r m = true) : fillDstOk 3 r m = true := by
  simp only [fillDstOk, Bool.and_eq_true] at h ⊢
  exact ⟨dstOk_mono h.1, h.2⟩

theorem spanOk_mono {e k : Nat} {r : Reg} (h : spanOk e k r = true) : spanOk 3 k r = true := by
  have := nameLimit_le e
  simp only [spanOk, Bool.or_eq_true, Bool.and_eq_true, decide_eq_true_eq] at h ⊢
  rcases h with h | ⟨⟨h1, h2⟩, h3⟩
  · exact .inl h
  · exact .inr ⟨⟨h1, h2⟩, by omega⟩

theorem onlyN3_mono {e : Nat} (_ : onlyN3 e = true) : onlyN3 3 = true := rfl

theorem and_mono {a b c d : Bool} (h : a = true → c = true) (k : b = true → d = true) (x : (a && b) = true) : (c && d) = true := by
  simp only [Bool.and_eq_true] at x ⊢
  exact ⟨h x.1, k x.2⟩

theorem or_mono {a b c d : Bool} (h : a = true → c = true) (k : b = true → d = true) (x : (a || b) = true) : (c || d) = true := by
  simp only [Bool.or_eq_true] at x ⊢
  exact x.imp h k

namespace Laws.Monotone

/-- Legal under some encoding is legal under N3. -/
def Statement (i : Instr) : Prop := ∀ e : Nat, wellFormed e i = true → wellFormed 3 i = true

theorem clauseIssue (g : Nat) (lane : Nat) : Statement (.clauseIssue g lane) := fun _ h => h
theorem longLatencyCompletion (g : Nat) (n : Nat) : Statement (.longLatencyCompletion g n) := fun _ h => h
theorem gRowReadback (g : Nat) (row : Nat) : Statement (.gRowReadback g row) := fun _ h => h
theorem haltLineAssert (part : Nat) : Statement (.haltLineAssert part) := fun _ h => h
theorem unitStop (unit : Nat) : Statement (.unitStop unit) := fun _ h => h
theorem groupStopRecord (g : Nat) : Statement (.groupStopRecord g) := fun _ h => h
theorem contextHalted (ctx : Nat) : Statement (.contextHalted ctx) := fun _ h => h
theorem preemptRequest (ctx : Nat) : Statement (.preemptRequest ctx) := fun _ h => h
theorem gracePeriodExpiry (g : Nat) : Statement (.gracePeriodExpiry g) := fun _ h => h
theorem groupSave (g : Nat) : Statement (.groupSave g) := fun _ h => h
theorem teamSave (team : Nat) : Statement (.teamSave team) := fun _ h => h
theorem partitionGrant (ctx : Nat) (part : Nat) : Statement (.partitionGrant ctx part) := fun _ h => h
theorem teamRestore (team : Nat) (core : Nat) : Statement (.teamRestore team core) := fun _ h => h
theorem timeSliceEnd (ctx : Nat) : Statement (.timeSliceEnd ctx) := fun _ h => h
theorem contextFreed (ctx : Nat) : Statement (.contextFreed ctx) := fun _ h => h
theorem mrqtailWrite (v : Word) : Statement (.mrqtailWrite v) := fun _ h => h
theorem mcqconsWrite (v : Word) : Statement (.mcqconsWrite v) := fun _ h => h
theorem hqtailWrite (q : Nat) (v : Word) : Statement (.hqtailWrite q v) := fun _ h => h
theorem hqEnWrite (q : Nat) (en : Bool) : Statement (.hqEnWrite q en) := fun _ h => h
theorem hqClrWrite (q : Nat) : Statement (.hqClrWrite q) := fun _ h => h
theorem launch (q : Nat) (n : Nat) : Statement (.launch q n) := fun _ h => h
theorem copy (q : Nat) (n : Nat) : Statement (.copy q n) := fun _ h => h
theorem signal (q : Nat) (n : Nat) : Statement (.signal q n) := fun _ h => h
theorem wait (q : Nat) (n : Nat) : Statement (.wait q n) := fun _ h => h
theorem waitSatisfied (q : Nat) (n : Nat) : Statement (.waitSatisfied q n) := fun _ h => h
theorem waitTimeout (q : Nat) (n : Nat) : Statement (.waitTimeout q n) := fun _ h => h
theorem selftest (q : Nat) (n : Nat) : Statement (.selftest q n) := fun _ h => h
theorem mark (q : Nat) (n : Nat) : Statement (.mark q n) := fun _ h => h
theorem commandComplete (q : Nat) (n : Nat) : Statement (.commandComplete q n) := fun _ h => h
theorem launchComplete (launch : Nat) : Statement (.launchComplete launch) := fun _ h => h
theorem evconsWrite (ctx : Nat) (v : Word) : Statement (.evconsWrite ctx v) := fun _ h => h
theorem eventIenWrite (ctx : Nat) (en : Bool) : Statement (.eventIenWrite ctx en) := fun _ h => h
theorem coalesceTimerExpiry (ctx : Nat) : Statement (.coalesceTimerExpiry ctx) := fun _ h => h
theorem registerWrite (off : Nat) (wide : Bool) (v : BitVec 64) : Statement (.registerWrite off wide v) := fun _ h => h
theorem bindRecordWrite (core : Nat) (slot : Nat) (rec : BitVec 128) : Statement (.bindRecordWrite core slot rec) := fun _ h => h
theorem teamStart (core : Nat) (tslot : Nat) : Statement (.teamStart core tslot) := fun _ h => h
theorem carveOutChange (core : Nat) : Statement (.carveOutChange core) := fun _ h => h
theorem groupRetire (g : Nat) : Statement (.groupRetire g) := fun _ h => h
theorem engineRelease (eng : Nat) : Statement (.engineRelease eng) := fun _ h => h
theorem gatherTimerExpiry (ctx : Nat) (die : Nat) : Statement (.gatherTimerExpiry ctx die) := fun _ h => h
theorem taskGroupPop (ctx : Nat) (core : Nat) : Statement (.taskGroupPop ctx core) := fun _ h => h
theorem blockedPortResume (g : Nat) : Statement (.blockedPortResume g) := fun _ h => h
theorem sleepExpiry (g : Nat) : Statement (.sleepExpiry g) := fun _ h => h
theorem migrateMove (g : Nat) : Statement (.migrateMove g) := fun _ h => h
theorem bwaitSatisfied (g : Nat) : Statement (.bwaitSatisfied g) := fun _ h => h
theorem barrierTimeout (g : Nat) (lane : Nat) : Statement (.barrierTimeout g lane) := fun _ h => h
theorem homeAccessAccept (g : Nat) : Statement (.homeAccessAccept g) := fun _ h => h
theorem recallUnit (unit : Nat) (gran : Nat) : Statement (.recallUnit unit gran) := fun _ h => h
theorem drainPoint (unit : Nat) (gran : Nat) : Statement (.drainPoint unit gran) := fun _ h => h
theorem drainAck (unit : Nat) (gran : Nat) : Statement (.drainAck unit gran) := fun _ h => h
theorem quietExpiry (gran : Nat) : Statement (.quietExpiry gran) := fun _ h => h
theorem pageWalk (die : Nat) (ctx : Nat) (va : VA) : Statement (.pageWalk die ctx va) := fun _ h => h
theorem hostAccess (store : Bool) (pa : Nat) (size : Nat) (data : List Byte) : Statement (.hostAccess store pa size data) := fun _ h => h
theorem birspReceive (line : Nat) (data : List Byte) : Statement (.birspReceive line data) := fun _ h => h
theorem hostCompletionReceive (g : Nat) : Statement (.hostCompletionReceive g) := fun _ h => h
theorem peerAccess (a : PeerAccess) : Statement (.peerAccess a) := fun _ h => h
theorem copyUnit (id : Nat) : Statement (.copyUnit id) := fun _ h => h
theorem copyComplete (id : Nat) : Statement (.copyComplete id) := fun _ h => h
theorem engineTakeCommand (eng : Nat) : Statement (.engineTakeCommand eng) := fun _ h => h
theorem engineCommandStart (eng : Nat) : Statement (.engineCommandStart eng) := fun _ h => h
theorem engineCommandComplete (eng : Nat) : Statement (.engineCommandComplete eng) := fun _ h => h
theorem streamSlotGrant (core : Nat) : Statement (.streamSlotGrant core) := fun _ h => h
theorem straitFlitReceive (link : Nat) (seq : Word) (fec : Bool) (crcOk : Bool) : Statement (.straitFlitReceive link seq fec crcOk) := fun _ h => h
theorem replayRequest (link : Nat) (seq : Word) : Statement (.replayRequest link seq) := fun _ h => h
theorem linkReplayTimeout (link : Nat) : Statement (.linkReplayTimeout link) := fun _ h => h
theorem retrain (link : Nat) : Statement (.retrain link) := fun _ h => h
theorem linkTrained (link : Nat) (port : BitVec 6) : Statement (.linkTrained link port) := fun _ h => h
theorem remoteRequestTimeout (g : Nat) : Statement (.remoteRequestTimeout g) := fun _ h => h
theorem coherenceTimeout (gran : Nat) : Statement (.coherenceTimeout gran) := fun _ h => h
theorem ptmenWrite (en : Bool) : Statement (.ptmenWrite en) := fun _ h => h
theorem ptmDialogue (ok : Bool) (offset : Int) : Statement (.ptmDialogue ok offset) := fun _ h => h
theorem pcSample (core : Nat) (quadrant : Nat) : Statement (.pcSample core quadrant) := fun _ h => h
theorem moduleReset (byHost : Bool) : Statement (.moduleReset byHost) := fun _ h => h
theorem stageAdvance (images : StageImages) : Statement (.stageAdvance images) := fun _ h => h
theorem errorDetected (e : ErrorReport) : Statement (.errorDetected e) := fun _ h => h
theorem triageSelftest (bank : Nat) (pass : Bool) : Statement (.triageSelftest bank pass) := fun _ h => h
theorem selftestCoreEnd (core : Nat) (pass : Bool) : Statement (.selftestCoreEnd core pass) := fun _ h => h
theorem powerClockStep (watts : Nat) : Statement (.powerClockStep watts) := fun _ h => h
theorem iadd (d : Reg) (a : Reg) (b : Reg) (m : BitVec 3) : Statement (.iadd d a b m) := fun _ => and_mono (and_mono (and_mono dstOk_mono srcOk_mono) srcOk_mono) id
theorem iaddc (d : Reg) (a : Reg) (b : Reg) (p : BitVec 3) : Statement (.iaddc d a b p) := fun _ => and_mono (and_mono dstOk_mono srcOk_mono) srcOk_mono
theorem isub (d : Reg) (a : Reg) (b : Reg) (m : BitVec 3) : Statement (.isub d a b m) := fun _ => and_mono (and_mono (and_mono dstOk_mono srcOk_mono) srcOk_mono) id
theorem isubb (d : Reg) (a : Reg) (b : Reg) (p : BitVec 3) : Statement (.isubb d a b p) := fun _ => and_mono (and_mono dstOk_mono srcOk_mono) srcOk_mono
theorem imul (d : Reg) (a : Reg) (b : Reg) (m : BitVec 3) : Statement (.imul d a b m) := fun _ => and_mono (and_mono (and_mono dstOk_mono srcOk_mono) srcOk_mono) id
theorem imulh (d : Reg) (a : Reg) (b : Reg) (m : BitVec 3) : Statement (.imulh d a b m) := fun _ => and_mono (and_mono (and_mono dstOk_mono srcOk_mono) srcOk_mono) id
theorem imad (d : Reg) (a : Reg) (b : Reg) (m : BitVec 3) : Statement (.imad d a b m) := fun _ => and_mono (and_mono (and_mono plainDstOk_mono srcOk_mono) srcOk_mono) id
theorem imin (d : Reg) (a : Reg) (b : Reg) (m : BitVec 3) : Statement (.imin d a b m) := fun _ => and_mono (and_mono (and_mono dstOk_mono srcOk_mono) srcOk_mono) id
theorem imax (d : Reg) (a : Reg) (b : Reg) (m : BitVec 3) : Statement (.imax d a b m) := fun _ => and_mono (and_mono (and_mono dstOk_mono srcOk_mono) srcOk_mono) id
theorem iabs (d : Reg) (a : Reg) (m : BitVec 3) : Statement (.iabs d a m) := fun _ => and_mono (and_mono dstOk_mono srcOk_mono) id
theorem and (d : Reg) (a : Reg) (b : Reg) : Statement (.and d a b) := fun _ => and_mono (and_mono dstOk_mono srcOk_mono) srcOk_mono
theorem or (d : Reg) (a : Reg) (b : Reg) : Statement (.or d a b) := fun _ => and_mono (and_mono dstOk_mono srcOk_mono) srcOk_mono
theorem xor (d : Reg) (a : Reg) (b : Reg) : Statement (.xor d a b) := fun _ => and_mono (and_mono dstOk_mono srcOk_mono) srcOk_mono
theorem andn (d : Reg) (a : Reg) (b : Reg) : Statement (.andn d a b) := fun _ => and_mono (and_mono dstOk_mono srcOk_mono) srcOk_mono
theorem shl (d : Reg) (a : Reg) (b : Reg) (m : BitVec 3) : Statement (.shl d a b m) := fun _ => and_mono (and_mono (and_mono dstOk_mono srcOk_mono) srcOk_mono) id
theorem shr (d : Reg) (a : Reg) (b : Reg) (m : BitVec 3) : Statement (.shr d a b m) := fun _ => and_mono (and_mono (and_mono dstOk_mono srcOk_mono) srcOk_mono) id
theorem sar (d : Reg) (a : Reg) (b : Reg) (m : BitVec 3) : Statement (.sar d a b m) := fun _ => and_mono (and_mono (and_mono dstOk_mono srcOk_mono) srcOk_mono) id
theorem rotl (d : Reg) (a : Reg) (b : Reg) : Statement (.rotl d a b) := fun _ => and_mono (and_mono dstOk_mono srcOk_mono) srcOk_mono
theorem bfx (d : Reg) (a : Reg) (b : Reg) (m : BitVec 3) : Statement (.bfx d a b m) := fun _ => and_mono (and_mono (and_mono dstOk_mono srcOk_mono) srcOk_mono) id
theorem bfi (d : Reg) (a : Reg) (b : Reg) : Statement (.bfi d a b) := fun _ => and_mono (and_mono plainDstOk_mono srcOk_mono) srcOk_mono
theorem popc (d : Reg) (a : Reg) : Statement (.popc d a) := fun _ => and_mono dstOk_mono srcOk_mono
theorem clz (d : Reg) (a : Reg) : Statement (.clz d a) := fun _ => and_mono dstOk_mono srcOk_mono
theorem ctz (d : Reg) (a : Reg) : Statement (.ctz d a) := fun _ => and_mono dstOk_mono srcOk_mono
theorem brev (d : Reg) (a : Reg) : Statement (.brev d a) := fun _ => and_mono dstOk_mono srcOk_mono
theorem iset (c : BitVec 4) (p : BitVec 3) (a : Reg) (b : Reg) (m : BitVec 3) : Statement (.iset c p a b m) := fun _ => and_mono (and_mono (and_mono id srcOk_mono) srcOk_mono) id
theorem sel (d : Reg) (a : Reg) (b : Reg) (s : BitVec 3) : Statement (.sel d a b s) := fun _ => and_mono (and_mono dstOk_mono srcOk_mono) srcOk_mono
theorem plog (t : BitVec 4) (p : BitVec 3) (a : BitVec 3) (b : BitVec 3) : Statement (.plog t p a b) := fun _ h => h
theorem pmovToReg (d : Reg) : Statement (.pmovToReg d) := fun _ => dstOk_mono
theorem pmovToPred (a : Reg) : Statement (.pmovToPred a) := fun _ => srcOk_mono
theorem clmul (d : Reg) (a : Reg) (b : Reg) : Statement (.clmul d a b) := fun _ => and_mono (and_mono dstOk_mono srcOk_mono) srcOk_mono
theorem clmulh (d : Reg) (a : Reg) (b : Reg) : Statement (.clmulh d a b) := fun _ => and_mono (and_mono dstOk_mono srcOk_mono) srcOk_mono
theorem padd2 (d : Reg) (a : Reg) (b : Reg) (m : BitVec 3) : Statement (.padd2 d a b m) := fun _ => and_mono (and_mono (and_mono dstOk_mono srcOk_mono) srcOk_mono) id
theorem psub2 (d : Reg) (a : Reg) (b : Reg) (m : BitVec 3) : Statement (.psub2 d a b m) := fun _ => and_mono (and_mono (and_mono dstOk_mono srcOk_mono) srcOk_mono) id
theorem pmac2 (d : Reg) (a : Reg) (b : Reg) (m : BitVec 3) : Statement (.pmac2 d a b m) := fun _ => and_mono (and_mono (and_mono plainDstOk_mono srcOk_mono) srcOk_mono) id
theorem pdot4 (d : Reg) (a : Reg) (b : Reg) (m : BitVec 3) : Statement (.pdot4 d a b m) := fun _ => and_mono (and_mono (and_mono plainDstOk_mono srcOk_mono) srcOk_mono) id
theorem pdot8 (d : Reg) (a : Reg) (b : Reg) (m : BitVec 3) : Statement (.pdot8 d a b m) := fun _ => and_mono (and_mono (and_mono plainDstOk_mono srcOk_mono) srcOk_mono) id
theorem pshr2 (d : Reg) (a : Reg) (b : Reg) (m : BitVec 3) : Statement (.pshr2 d a b m) := fun _ => and_mono (and_mono (and_mono dstOk_mono spanOk_mono) srcOk_mono) id
theorem psat2 (d : Reg) (a : Reg) (b : Reg) (m : BitVec 3) : Statement (.psat2 d a b m) := fun _ => and_mono (and_mono (and_mono dstOk_mono srcOk_mono) srcOk_mono) id
theorem ppack (d : Reg) (a : Reg) (b : Reg) (m : BitVec 3) : Statement (.ppack d a b m) := fun _ => and_mono (and_mono (and_mono dstOk_mono srcOk_mono) srcOk_mono) id
theorem punpk (d : Reg) (a : Reg) (b : Reg) (m : BitVec 3) : Statement (.punpk d a b m) := fun _ => and_mono (and_mono (and_mono dstOk_mono srcOk_mono) srcOk_mono) id
theorem pmin2 (d : Reg) (a : Reg) (b : Reg) (m : BitVec 3) : Statement (.pmin2 d a b m) := fun _ => and_mono (and_mono (and_mono dstOk_mono srcOk_mono) srcOk_mono) id
theorem pmax2 (d : Reg) (a : Reg) (b : Reg) (m : BitVec 3) : Statement (.pmax2 d a b m) := fun _ => and_mono (and_mono (and_mono dstOk_mono srcOk_mono) srcOk_mono) id
theorem addi (d : Reg) (a : Reg) (i : BitVec 10) : Statement (.addi d a i) := fun _ => and_mono dstOk_mono srcOk_mono
theorem andi (d : Reg) (a : Reg) (i : BitVec 10) : Statement (.andi d a i) := fun _ => and_mono dstOk_mono srcOk_mono
theorem ori (d : Reg) (a : Reg) (i : BitVec 10) : Statement (.ori d a i) := fun _ => and_mono dstOk_mono srcOk_mono
theorem xori (d : Reg) (a : Reg) (i : BitVec 10) : Statement (.xori d a i) := fun _ => and_mono dstOk_mono srcOk_mono
theorem shli (d : Reg) (a : Reg) (n : BitVec 5) : Statement (.shli d a n) := fun _ => and_mono dstOk_mono srcOk_mono
theorem shri (d : Reg) (a : Reg) (n : BitVec 5) : Statement (.shri d a n) := fun _ => and_mono dstOk_mono srcOk_mono
theorem sari (d : Reg) (a : Reg) (n : BitVec 5) : Statement (.sari d a n) := fun _ => and_mono dstOk_mono srcOk_mono
theorem iseti (c : BitVec 4) (p : BitVec 3) (a : Reg) (i : BitVec 10) : Statement (.iseti c p a i) := fun _ => and_mono id srcOk_mono
theorem movi (d : Reg) (i : BitVec 17) : Statement (.movi d i) := fun _ => dstOk_mono
theorem lui (d : Reg) (i : BitVec 17) : Statement (.lui d i) := fun _ => dstOk_mono
theorem orl (d : Reg) (i : BitVec 17) : Statement (.orl d i) := fun _ => plainDstOk_mono
theorem fadd (d : Reg) (a : Reg) (b : Reg) (m : BitVec 3) : Statement (.fadd d a b m) := fun _ => and_mono (and_mono dstOk_mono srcOk_mono) srcOk_mono
theorem fsub (d : Reg) (a : Reg) (b : Reg) (m : BitVec 3) : Statement (.fsub d a b m) := fun _ => and_mono (and_mono dstOk_mono srcOk_mono) srcOk_mono
theorem fmul (d : Reg) (a : Reg) (b : Reg) (m : BitVec 3) : Statement (.fmul d a b m) := fun _ => and_mono (and_mono dstOk_mono srcOk_mono) srcOk_mono
theorem ffma (d : Reg) (a : Reg) (b : Reg) (m : BitVec 3) : Statement (.ffma d a b m) := fun _ => and_mono (and_mono plainDstOk_mono srcOk_mono) srcOk_mono
theorem fmin (d : Reg) (a : Reg) (b : Reg) (m : BitVec 3) : Statement (.fmin d a b m) := fun _ => and_mono (and_mono (and_mono dstOk_mono srcOk_mono) srcOk_mono) id
theorem fmax (d : Reg) (a : Reg) (b : Reg) (m : BitVec 3) : Statement (.fmax d a b m) := fun _ => and_mono (and_mono (and_mono dstOk_mono srcOk_mono) srcOk_mono) id
theorem fset (c : BitVec 4) (p : BitVec 3) (a : Reg) (b : Reg) (m : BitVec 3) : Statement (.fset c p a b m) := fun _ => and_mono (and_mono (and_mono id srcOk_mono) srcOk_mono) id
theorem frcp (d : Reg) (a : Reg) (m : BitVec 3) : Statement (.frcp d a m) := fun _ => and_mono dstOk_mono srcOk_mono
theorem frsq (d : Reg) (a : Reg) (m : BitVec 3) : Statement (.frsq d a m) := fun _ => and_mono dstOk_mono srcOk_mono
theorem fsqrt (d : Reg) (a : Reg) (m : BitVec 3) : Statement (.fsqrt d a m) := fun _ => and_mono dstOk_mono srcOk_mono
theorem fex2 (d : Reg) (a : Reg) (m : BitVec 3) : Statement (.fex2 d a m) := fun _ => and_mono dstOk_mono srcOk_mono
theorem flg2 (d : Reg) (a : Reg) (m : BitVec 3) : Statement (.flg2 d a m) := fun _ => and_mono dstOk_mono srcOk_mono
theorem fsin (d : Reg) (a : Reg) (m : BitVec 3) : Statement (.fsin d a m) := fun _ => and_mono dstOk_mono srcOk_mono
theorem fcos (d : Reg) (a : Reg) (m : BitVec 3) : Statement (.fcos d a m) := fun _ => and_mono dstOk_mono srcOk_mono
theorem frnd (d : Reg) (a : Reg) (m : BitVec 3) : Statement (.frnd d a m) := fun _ => and_mono dstOk_mono srcOk_mono
theorem fcls (d : Reg) (a : Reg) : Statement (.fcls d a) := fun _ => and_mono dstOk_mono srcOk_mono
theorem hadd2 (d : Reg) (a : Reg) (b : Reg) (m : BitVec 3) : Statement (.hadd2 d a b m) := fun _ => and_mono (and_mono dstOk_mono srcOk_mono) srcOk_mono
theorem hmul2 (d : Reg) (a : Reg) (b : Reg) (m : BitVec 3) : Statement (.hmul2 d a b m) := fun _ => and_mono (and_mono dstOk_mono srcOk_mono) srcOk_mono
theorem hfma2 (d : Reg) (a : Reg) (b : Reg) (m : BitVec 3) : Statement (.hfma2 d a b m) := fun _ => and_mono (and_mono plainDstOk_mono srcOk_mono) srcOk_mono
theorem fcvt (d : Reg) (a : Reg) (b : Reg) (m : BitVec 3) : Statement (.fcvt d a b m) := fun _ => and_mono (and_mono plainDstOk_mono srcOk_mono) srcOk_mono
theorem f2i (d : Reg) (a : Reg) (b : Reg) (m : BitVec 3) : Statement (.f2i d a b m) := fun _ => and_mono (and_mono plainDstOk_mono srcOk_mono) srcOk_mono
theorem i2f (d : Reg) (a : Reg) (b : Reg) (m : BitVec 3) : Statement (.i2f d a b m) := fun _ => and_mono (and_mono plainDstOk_mono srcOk_mono) srcOk_mono
theorem qcvt (d : Reg) (a : Reg) (b : Reg) (m : BitVec 3) : Statement (.qcvt d a b m) := fun _ => and_mono (and_mono plainDstOk_mono srcOk_mono) srcOk_mono
theorem qdeq (d : Reg) (a : Reg) (b : Reg) (m : BitVec 3) : Statement (.qdeq d a b m) := fun _ => and_mono (and_mono dstOk_mono srcOk_mono) srcOk_mono
theorem fpxr (d : Reg) : Statement (.fpxr d) := fun _ => dstOk_mono
theorem fpxc (d : Reg) (a : Reg) (m : BitVec 3) : Statement (.fpxc d a m) := fun _ => and_mono (and_mono dstOk_mono srcOk_mono) id
theorem frm (d : Reg) (a : Reg) : Statement (.frm d a) := fun _ => and_mono dstOk_mono srcOk_mono
theorem ld8 (d : Reg) (a : Reg) (o : BitVec 7) (m : BitVec 3) : Statement (.ld8 d a o m) := fun _ => and_mono plainDstOk_mono srcOk_mono
theorem ld16 (d : Reg) (a : Reg) (o : BitVec 7) (m : BitVec 3) : Statement (.ld16 d a o m) := fun _ => and_mono plainDstOk_mono srcOk_mono
theorem ld32 (d : Reg) (a : Reg) (o : BitVec 7) (m : BitVec 3) : Statement (.ld32 d a o m) := fun _ => and_mono plainDstOk_mono srcOk_mono
theorem ld64 (d : Reg) (a : Reg) (o : BitVec 7) (m : BitVec 3) : Statement (.ld64 d a o m) := fun _ => and_mono spanOk_mono srcOk_mono
theorem ld128 (d : Reg) (a : Reg) (o : BitVec 7) (m : BitVec 3) : Statement (.ld128 d a o m) := fun _ => and_mono spanOk_mono srcOk_mono
theorem st8 (s : Reg) (a : Reg) (o : BitVec 7) (m : BitVec 3) : Statement (.st8 s a o m) := fun _ => and_mono srcOk_mono srcOk_mono
theorem st16 (s : Reg) (a : Reg) (o : BitVec 7) (m : BitVec 3) : Statement (.st16 s a o m) := fun _ => and_mono srcOk_mono srcOk_mono
theorem st32 (s : Reg) (a : Reg) (o : BitVec 7) (m : BitVec 3) : Statement (.st32 s a o m) := fun _ => and_mono srcOk_mono srcOk_mono
theorem st64 (s : Reg) (a : Reg) (o : BitVec 7) (m : BitVec 3) : Statement (.st64 s a o m) := fun _ => and_mono spanOk_mono srcOk_mono
theorem st128 (s : Reg) (a : Reg) (o : BitVec 7) (m : BitVec 3) : Statement (.st128 s a o m) := fun _ => and_mono spanOk_mono srcOk_mono
theorem lds (d : Reg) (a : Reg) (o : BitVec 7) (m : BitVec 3) : Statement (.lds d a o m) := fun _ => and_mono plainDstOk_mono srcOk_mono
theorem sts (s : Reg) (a : Reg) (o : BitVec 7) (m : BitVec 3) : Statement (.sts s a o m) := fun _ => and_mono srcOk_mono srcOk_mono
theorem ldp (d : Reg) (a : Reg) (o : BitVec 7) (m : BitVec 3) : Statement (.ldp d a o m) := fun _ => and_mono plainDstOk_mono srcOk_mono
theorem stp (s : Reg) (a : Reg) (o : BitVec 7) (m : BitVec 3) : Statement (.stp s a o m) := fun _ => and_mono srcOk_mono srcOk_mono
theorem ldc (d : Reg) (a : Reg) (o : BitVec 7) (m : BitVec 3) : Statement (.ldc d a o m) := fun _ => and_mono plainDstOk_mono srcOk_mono
theorem atom (d : Reg) (a : Reg) (b : Reg) (m : BitVec 3) : Statement (.atom d a b m) := fun _ => and_mono (and_mono plainDstOk_mono srcOk_mono) srcOk_mono
theorem atoms (d : Reg) (a : Reg) (b : Reg) (m : BitVec 3) : Statement (.atoms d a b m) := fun _ => and_mono (and_mono plainDstOk_mono srcOk_mono) srcOk_mono
theorem cas (d : Reg) (a : Reg) (b : Reg) (m : BitVec 3) : Statement (.cas d a b m) := fun _ => and_mono (and_mono (and_mono plainDstOk_mono srcOk_mono) spanOk_mono) id
theorem pref (a : Reg) (o : BitVec 7) (m : BitVec 3) : Statement (.pref a o m) := fun _ => and_mono srcOk_mono id
theorem cpy (d : Reg) (a : Reg) (b : Reg) (m : BitVec 3) : Statement (.cpy d a b m) := fun _ => and_mono (and_mono (and_mono plainDstOk_mono spanOk_mono) spanOk_mono) (or_mono onlyN3_mono id)
theorem cpyr (d : Reg) (a : Reg) (b : Reg) (m : BitVec 3) : Statement (.cpyr d a b m) := fun _ => and_mono (and_mono (and_mono (and_mono plainDstOk_mono spanOk_mono) spanOk_mono) id) (or_mono onlyN3_mono id)
theorem bra (c : BitVec 4) (o : BitVec 20) : Statement (.bra c o) := fun _ h => h
theorem brx (a : Reg) : Statement (.brx a) := fun _ => spanOk_mono
theorem call (s : BitVec 7) (i : BitVec 17) : Statement (.call s i) := fun _ h => h
theorem callx (s : BitVec 7) (a : Reg) : Statement (.callx s a) := fun _ => and_mono id spanOk_mono
theorem meet (c : BitVec 4) (o : BitVec 20) : Statement (.meet c o) := fun _ h => h
theorem wbase (i : BitVec 10) : Statement (.wbase i) := fun _ h => h
theorem sleep (a : Reg) (n : BitVec 10) : Statement (.sleep a n) := fun _ => srcOk_mono
theorem lshfl (d : Reg) (a : Reg) (b : Reg) (m : BitVec 3) : Statement (.lshfl d a b m) := fun _ => and_mono (and_mono (and_mono fillDstOk_mono srcOk_mono) srcOk_mono) id
theorem lslide (d : Reg) (a : Reg) (b : Reg) (m : BitVec 3) : Statement (.lslide d a b m) := fun _ => and_mono (and_mono (and_mono fillDstOk_mono srcOk_mono) srcOk_mono) id
theorem lbcast (d : Reg) (a : Reg) (b : Reg) (m : BitVec 3) : Statement (.lbcast d a b m) := fun _ => and_mono (and_mono (and_mono fillDstOk_mono srcOk_mono) srcOk_mono) id
theorem vote (d : Reg) (a : Reg) (m : BitVec 3) : Statement (.vote d a m) := fun _ => and_mono (and_mono dstOk_mono srcOk_mono) id
theorem lreduce (d : Reg) (a : Reg) (b : Reg) (m : BitVec 3) : Statement (.lreduce d a b m) := fun _ => and_mono (and_mono dstOk_mono srcOk_mono) id
theorem lscan (d : Reg) (a : Reg) (b : Reg) (m : BitVec 3) : Statement (.lscan d a b m) := fun _ => and_mono (and_mono dstOk_mono srcOk_mono) id
theorem shape (d : Reg) (a : Reg) : Statement (.shape d a) := fun _ => and_mono (and_mono onlyN3_mono dstOk_mono) (and_mono srcOk_mono id)
theorem expand (d : Reg) : Statement (.expand d) := fun _ h => show (onlyN3 3 && plainDstOk 3 d) = true from and_mono onlyN3_mono plainDstOk_mono h
theorem rwrite (d : Reg) (a : Reg) (b : Reg) : Statement (.rwrite d a b) := fun _ => and_mono (and_mono (and_mono onlyN3_mono id) srcOk_mono) srcOk_mono
theorem rwait (a : Reg) : Statement (.rwait a) := fun _ => and_mono onlyN3_mono srcOk_mono
theorem rwaitId (d : Reg) : Statement (.rwaitId d) := fun _ h => show (onlyN3 3 && dstOk 3 d) = true from and_mono onlyN3_mono dstOk_mono h
theorem rwaitCnt (d : Reg) : Statement (.rwaitCnt d) := fun _ h => show (onlyN3 3 && dstOk 3 d) = true from and_mono onlyN3_mono dstOk_mono h
theorem migrate (a : Reg) : Statement (.migrate a) := fun _ => and_mono onlyN3_mono spanOk_mono
theorem qbind (d : Reg) (a : Reg) (m : BitVec 3) : Statement (.qbind d a m) := fun _ => and_mono (and_mono id (and_mono srcOk_mono id)) id
theorem qclose (a : Reg) : Statement (.qclose a) := fun _ h => h
theorem qstat (d : Reg) (a : Reg) : Statement (.qstat d a) := fun _ => and_mono dstOk_mono id
theorem qtry (d : Reg) (a : Reg) : Statement (.qtry d a) := fun _ => and_mono spanOk_mono id
theorem tspawn (a : Reg) (b : Reg) (m : BitVec 3) : Statement (.tspawn a b m) := fun _ => and_mono (and_mono (and_mono onlyN3_mono spanOk_mono) spanOk_mono) id
theorem klaunch (d : Reg) (a : Reg) : Statement (.klaunch d a) := fun _ => and_mono dstOk_mono spanOk_mono
theorem bincnt (d : Reg) (a : Reg) (b : Reg) (m : BitVec 3) : Statement (.bincnt d a b m) := fun _ => and_mono (and_mono (and_mono (and_mono onlyN3_mono dstOk_mono) srcOk_mono) srcOk_mono) id
theorem binpatch (a : Reg) (b : Reg) (m : BitVec 3) : Statement (.binpatch a b m) := fun _ => and_mono (and_mono (and_mono onlyN3_mono srcOk_mono) srcOk_mono) id
theorem binit (d : Reg) (a : Reg) (b : Reg) (m : BitVec 3) : Statement (.binit d a b m) := fun _ => and_mono (and_mono (and_mono plainDstOk_mono srcOk_mono) srcOk_mono) id
theorem barv (d : Reg) (a : Reg) (b : Reg) (m : BitVec 3) : Statement (.barv d a b m) := fun _ => and_mono (and_mono (and_mono plainDstOk_mono srcOk_mono) srcOk_mono) id
theorem bexp (d : Reg) (a : Reg) (b : Reg) (m : BitVec 3) : Statement (.bexp d a b m) := fun _ => and_mono (and_mono (and_mono plainDstOk_mono srcOk_mono) srcOk_mono) id
theorem bwait (a : Reg) (b : Reg) (m : BitVec 3) : Statement (.bwait a b m) := fun _ => and_mono (and_mono srcOk_mono srcOk_mono) id
theorem btest (d : Reg) (a : Reg) (b : Reg) (m : BitVec 3) : Statement (.btest d a b m) := fun _ => and_mono (and_mono (and_mono plainDstOk_mono srcOk_mono) srcOk_mono) id
theorem mma (a : Reg) (b : Reg) (m : BitVec 3) : Statement (.mma a b m) := fun _ => and_mono (and_mono (and_mono srcOk_mono srcOk_mono) id) (or_mono onlyN3_mono (and_mono id id))
theorem mdrain (d : Reg) (a : Reg) (b : Reg) (m : BitVec 3) : Statement (.mdrain d a b m) := fun _ => and_mono (and_mono (and_mono plainDstOk_mono spanOk_mono) srcOk_mono) id
theorem mzero (b : Reg) : Statement (.mzero b) := fun _ => srcOk_mono
theorem mrestart (a : Reg) : Statement (.mrestart a) := fun _ => spanOk_mono
theorem ringset (d : Reg) (a : Reg) : Statement (.ringset d a) := fun _ => and_mono plainDstOk_mono srcOk_mono
theorem sgen (d : Reg) (a : Reg) (b : Reg) (m : BitVec 3) : Statement (.sgen d a b m) := fun _ => and_mono (and_mono (and_mono (and_mono onlyN3_mono id) srcOk_mono) spanOk_mono) id
theorem sand (d : Reg) (a : Reg) (b : Reg) : Statement (.sand d a b) := fun _ => and_mono (and_mono (and_mono onlyN3_mono id) id) id
theorem sxnor (d : Reg) (a : Reg) (b : Reg) : Statement (.sxnor d a b) := fun _ => and_mono (and_mono (and_mono onlyN3_mono id) id) id
theorem smux (d : Reg) (a : Reg) (b : Reg) : Statement (.smux d a b) := fun _ => and_mono (and_mono (and_mono onlyN3_mono id) id) id
theorem snot (d : Reg) (a : Reg) : Statement (.snot d a) := fun _ => and_mono (and_mono onlyN3_mono id) id
theorem scnt (d : Reg) (a : Reg) (m : BitVec 3) : Statement (.scnt d a m) := fun _ => and_mono (and_mono (and_mono onlyN3_mono plainDstOk_mono) id) id
theorem sregen (d : Reg) (a : Reg) (b : Reg) (m : BitVec 3) : Statement (.sregen d a b m) := fun _ => and_mono (and_mono (and_mono (and_mono onlyN3_mono id) id) spanOk_mono) id
theorem slen (m : BitVec 3) : Statement (.slen m) := fun _ => and_mono onlyN3_mono id
theorem scls (d : Reg) (a : Reg) : Statement (.scls d a) := fun _ => and_mono (and_mono onlyN3_mono plainDstOk_mono) id
theorem sld (d : Reg) (a : Reg) (m : BitVec 3) : Statement (.sld d a m) := fun _ => and_mono (and_mono (and_mono onlyN3_mono id) spanOk_mono) id
theorem sst (s : Reg) (a : Reg) : Statement (.sst s a) := fun _ => and_mono (and_mono onlyN3_mono id) spanOk_mono
theorem smov (d : Reg) (a : Reg) : Statement (.smov d a) := fun _ => and_mono (and_mono onlyN3_mono id) id
theorem trap (i : BitVec 17) : Statement (.trap i) := fun _ h => h
theorem phint (i : BitVec 17) : Statement (.phint i) := fun _ h => h
theorem sysr (d : Reg) (i : BitVec 10) : Statement (.sysr d i) := fun _ => and_mono dstOk_mono id
theorem sysw (a : Reg) (i : BitVec 10) : Statement (.sysw a i) := fun _ => and_mono srcOk_mono id
theorem time (d : Reg) : Statement (.time d) := fun _ => spanOk_mono
theorem bkpt (i : BitVec 17) : Statement (.bkpt i) := fun _ h => h
theorem tmark (a : Reg) (i : BitVec 10) : Statement (.tmark a i) := fun _ => srcOk_mono
theorem create : Statement .create := fun _ h => h
theorem kill : Statement .kill := fun _ h => h
theorem resume : Statement .resume := fun _ h => h
theorem debugHalt : Statement .debugHalt := fun _ h => h
theorem assign : Statement .assign := fun _ h => h
theorem partition : Statement .partition := fun _ h => h
theorem qassign : Statement .qassign := fun _ h => h
theorem inval : Statement .inval := fun _ h => h
theorem unclass : Statement .unclass := fun _ h => h
theorem pin : Statement .pin := fun _ h => h
theorem unpin : Statement .unpin := fun _ h => h
theorem bias : Statement .bias := fun _ h => h
theorem classq : Statement .classq := fun _ h => h
theorem lrec : Statement .lrec := fun _ h => h
theorem retlist : Statement .retlist := fun _ h => h
theorem dbgset : Statement .dbgset := fun _ h => h
theorem dbgread : Statement .dbgread := fun _ h => h
theorem mcread : Statement .mcread := fun _ h => h
theorem attest : Statement .attest := fun _ h => h
theorem power : Statement .power := fun _ h => h
theorem setparam : Statement .setparam := fun _ h => h
theorem domain : Statement .domain := fun _ h => h
theorem startTimeout : Statement .startTimeout := fun _ h => h
theorem dumpvWrite : Statement .dumpvWrite := fun _ h => h
theorem ret : Statement .ret := fun _ h => h
theorem exit : Statement .exit := fun _ h => h
theorem yield : Statement .yield := fun _ h => h
theorem nop : Statement .nop := fun _ h => h
theorem tsync : Statement .tsync := fun _ h => h
theorem tret : Statement .tret := fun _ h => h

end Laws.Monotone
end Sys2Proof
end

