-- ==== Sys2Proof/Tests/Slice0.lean ====
section
/-! SUPPORT. Tests. For every statement with hypotheses, theorems `witness_<statement>`: concrete objects for its variables,
clause by clause, with a proof of every hypothesis at them. Then one word for every encoded constructor of `Instr`, a
smoke test of the well-formedness checks with an ill-formed term for each, and results that the manual works out. -/
open Sys2Proof Sys2Proof.Machine Sys2Proof.Claims
namespace Sys2Proof.Tests

/-- A statement is met: for each of its clauses there are concrete objects for its variables, with a proof of each of its
hypotheses at them. A conclusion counts only where it has one of the last forms. -/
inductive Met : Prop → Prop where
  | obj {α : Type} {p : α → Prop} (a : α) : Met (p a) → Met (∀ x, p x)
  | hyp {a : Prop} {p : a → Prop} (h : a) : Met (p h) → Met (∀ x, p x)
  | both {a b : Prop} : Met a → Met b → Met (a ∧ b)
  /-- One clause of two that need different objects; the other has a theorem of its own. -/
  | one {a b : Prop} : Met a → Met (a ∧ b)
  | two {a b : Prop} : Met b → Met (a ∧ b)
  | completes {o : Host.Outcome State Fault Refusal} {p : State → Prop} : Met (Completes o p)
  | some_ {α : Type} {p : α → Prop} : Met (∃ x, p x)
  | equal {α : Type} {a b : α} : Met (a = b)
  | just {a b : Prop} : Met (a ↔ b)
  | same {s t : State} : Met (SameMachine s t)
  | formed {s : State} : Met (MemoriesOk s)
  | member {l : List Nat} {n : Nat} : Met (n ∈ l)
  | part {l m : List Byte} : Met (l <:+: m)

/-- The three memories of a state are in canonical form. -/
theorem tidy {s : State} (h : (s.mem.wf && s.hostMem.wf && s.peerMem.wf) = true) : MemoriesOk s := by
  simpa only [MemoriesOk, Bool.and_eq_true, and_assoc] using h

theorem lt_of_has {m : Mask} {l : Nat} (h : has m l = true) : l < 32 := by
  by_cases k : l < 32
  · exact k
  · simp [has, BitVec.getLsbD_of_ge m l (by omega)] at h

/-- A page of 2 MiB at virtual address 0 in frame 2^30, writable and executable. -/
def entry : TlbEntry := ⟨0, 0, 2 ^ 21, 2 ^ 30, false, none, true, true, none, 0⟩
/-- A page table for it with its root at 0x1000. -/
def tables : Memory := [(0x1000, 1), (0x1001, 0x20), (0x2000, 1), (0x2001, 0x30), (0x3000, 15), (0x3003, 0x40)]

/-- The machine after reset with the word `w` in issue in group 0, its group, context and team changed; the page is in the TLBs
of core 0, copy engine 0, matrix engine 0 and die 0. -/
def placed (w : Word) (f : Group → Group) (x : Context → Context) (t : Team → Team) : State :=
  let s := placeWord .reset w
  { s with
    agenda := [], mem := tables, tlbs := [(0, [entry]), (192, [entry]), (224, [entry]), (256, [entry])]
    groups := tmap s.groups fun _ => f, teams := tmap s.teams fun _ => t
    contexts := tmap s.contexts fun _ c => x { c with root := 0x1000 } }
/-- With the word of instruction `i`. -/
def machine (i : Instr) (f : Group → Group := id) (x : Context → Context := id) (t : Team → Team := id) : State :=
  placed ((encode i).getD 0) f x t

def nobody : Ctl := ⟨0, wordGroup 0, wordIssue 0, ⟨0, none, none, 0, none, false⟩, 0, 0, 0⟩
/-- The instruction in progress. -/
def seen (s : State) : Ctl := (currentCtl s).getD nobody

theorem seen_eq {s : State} (h : (currentCtl s).isSome = true) : currentCtl s = some (seen s) := by
  unfold seen
  cases e : currentCtl s with
  | none => simp [e] at h
  | some c => rfl

/-- What `InProgress` asks, checked. -/
def progresses (s : State) : Bool :=
  (currentCtl s).isSome && (seen s).iss.op.isNone && (seen s).act != 0 &&
    ((seen s).iss.checked || ((s.ctx (seen s).gr.ctx).debug |>.isNone))

theorem inProgress {s : State} (h : progresses s = true) : InProgress s (seen s) := by
  simp only [progresses, Bool.and_eq_true, Bool.or_eq_true, bne_iff_ne, Option.isNone_iff_eq_none] at h
  obtain ⟨⟨⟨a, b⟩, e⟩, d⟩ := h
  refine ⟨seen_eq a, b, e, ?_⟩
  unfold debugPasses
  cases d with
  | inl d => exact .inl d
  | inr d => right; rw [d]; trivial

def namesFree (c : Ctl) (ns : List Nat) : Bool :=
  ((List.range 32).all fun l => !has c.act l || (pendingName c.gr l ns).isNone) && !(entriesOf c ns).any c.gr.evicted.contains

theorem names_ready {c : Ctl} {ns : List Nat} (h : namesFree c ns = true) : namesReady c ns := by
  simp only [namesFree, Bool.and_eq_true, List.all_eq_true, List.mem_range, Bool.or_eq_true, Bool.not_eq_true', Option.isNone_iff_eq_none] at h
  refine ⟨fun l hl => (h.1 l (lt_of_has hl)).resolve_left (by simp [hl]), h.2⟩

/-- A fact about the lanes of a mask, from one about the 32 lanes. -/
theorem lanes {m : Mask} {p : Nat → Prop} (h : ∀ l, l < 32 → has m l = true → p l) : ∀ l, has m l = true → p l :=
  fun l k => h l (lt_of_has k) k

/-- The names are free and the fields name no port. -/
def runsB (s : State) (fs : List Src) (d : Reg) : Bool :=
  progresses s && namesFree (seen s) (allNames fs d) && (srcPorts fs).isEmpty && (dstPort d).isNone

theorem runs {s : State} {fs : List Src} {d : Reg} (h : runsB s fs d = true) : Runs s (seen s) fs d := by
  simp only [runsB, Bool.and_eq_true, List.isEmpty_iff, Option.isNone_iff_eq_none] at h
  exact ⟨inProgress h.1.1.1, names_ready h.1.1.2, .inl ⟨h.1.2, h.2⟩⟩

theorem tget_map {α β : Type} (t : Tab α) (f : α → β) (g : Nat) : tget (t.map fun p => (p.1, f p.2)) g = (tget t g).map f := by
  induction t with
  | nil => rfl
  | cons p t ih => simp only [List.map_cons, tget]; split <;> simp [ih]

theorem noEviction {s t : State}
    (h : (t.groups.map fun p => (p.1, (p.2.evicted, p.2.fault))) = s.groups.map fun p => (p.1, (p.2.evicted, p.2.fault))) :
    NoEviction s t := fun g => by
  unfold State.group?
  have e := congrArg (fun l => tget l g) h
  simpa only [tget_map _ (fun x : Group => (x.evicted, x.fault))] using e

/-- The module is in start-up stage `n`. -/
def staged (n : Nat) (s : State) : State := { s with boot := { s.boot with stage := n } }

/-- The state after an outcome. -/
def after (o : Host.Outcome State Fault Refusal) : State :=
  match o with
  | .next t => t
  | _ => .reset

/-- Name `n` of the group holds row `r`. -/
def put (n : Nat) (r : Row) (g : Group) : Group := { g with rows := tset g.rows n r }

/-! ## Register instructions -/

theorem witness_PackedInstructionsCompute : Met Obligations.PackedInstructionsCompute :=
  .obj (.padd2 5 4 6 1) <| .obj _ <| .obj (machine (.padd2 5 4 6 1)) <| .obj (seen _) <| .hyp rfl <| .hyp (by decide) <|
    .hyp (runs rfl) .completes

theorem witness_IntegerAndPredicateInstructionsCompute : Met Obligations.IntegerAndPredicateInstructionsCompute :=
  .both
    (.obj (.imad 5 4 6 1) <| .obj _ <| .obj (machine (.imad 5 4 6 1) (put 4 (.a 7 (-3)))) <| .obj (seen _) <| .hyp rfl <|
      .hyp (by decide) <| .hyp (runs rfl) .completes)
    (.obj (.iaddc 127 119 4 7) <| .obj _ <| .obj _ <| .obj _ <| .obj (machine (.iaddc 127 119 4 7)) <| .obj (seen _) <| .hyp rfl <|
      .hyp (by decide) <| .hyp (runs rfl) .completes)

theorem witness_FloatInstructionsCompute : Met Obligations.FloatInstructionsCompute :=
  .obj (.ffma 5 4 6 7) <| .obj _ <| .obj _ <| .obj _ <| .obj _ <| .obj (machine (.ffma 5 4 6 7)) <| .obj (seen _) <| .hyp rfl <|
    .hyp (by decide) <| .hyp (runs rfl) .completes

theorem witness_FloatTestsAndFpx : Met Obligations.FloatTestsAndFpx :=
  .both
    (.both
      (.obj 7 <| .obj 0 <| .obj 5 <| .obj 4 <| .obj 6 <| .obj (machine (.fset 7 0 4 6 5)) <| .obj (seen _) <| .hyp (by decide) <|
        .hyp (runs rfl) .completes)
      (.obj 5 <| .obj 4 <| .obj (machine (.fcls 5 4)) <| .obj (seen _) <| .hyp (by decide) <| .hyp (runs rfl) .completes))
    (.both
      (.obj 5 <| .obj (machine (.fpxr 5)) <| .obj (seen _) <| .hyp (by decide) <| .hyp (runs rfl) <| .hyp (lanes (by decide)) .completes)
      (.both
        (.obj 5 <| .obj 4 <| .obj 1 <| .obj (machine (.fpxc 5 4 1)) <| .obj (seen _) <| .hyp (by decide) <| .hyp (runs rfl) <|
          .hyp (lanes (by decide)) .completes)
        (.obj 5 <| .obj 4 <| .obj (machine (.frm 5 4)) <| .obj (seen _) <| .hyp (by decide) <| .hyp (runs rfl) <|
          .hyp (lanes (by decide)) .completes)))

/-- The control word 0 is one that FCVT takes, 6 one that it does not (R247). -/
theorem witness_ConversionsCompute : Met Obligations.ConversionsCompute :=
  .obj (.fcvt 3 2 20 0) <| .obj _ <| .obj _ <| .obj _ <| .obj _ <|
    .obj (machine (.fcvt 3 2 20 0)) <| .obj (seen _) <| .hyp rfl <| .hyp (by decide) <| .hyp (runs rfl) <| .one <|
      .hyp (by decide) .completes
theorem witness_ConversionsCompute_bad : Met Obligations.ConversionsCompute :=
  .obj (.fcvt 3 2 20 0) <| .obj _ <| .obj _ <| .obj _ <| .obj _ <|
    .obj (machine (.fcvt 3 2 20 0) (put 20 (.a 0 6))) <| .obj (seen _) <| .hyp rfl <| .hyp (by decide) <| .hyp (runs rfl) <|
      .two <| .hyp (by decide) .completes

/-- A second group stands beside the one that executes. -/
def pair (i : Instr) : State := let s := machine i; { s with groups := s.groups ++ [(1, wordGroup 0)] }

theorem witness_RegisterInstructionsFrame : Met Obligations.RegisterInstructionsFrame :=
  .obj (.iadd 5 4 6 0) <| .obj _ <| .obj _ <| .obj (pair (.iadd 5 4 6 0)) <| .obj (after (exec (.iadd 5 4 6 0) (pair (.iadd 5 4 6 0)))) <|
    .obj (seen _) <| .hyp rfl <| .hyp (by decide) <| .hyp (runs rfl) <| .hyp (fun h => absurd h (by decide)) <| .hyp rfl <|
      .both .some_ <| .both (.obj 1 <| .obj (wordGroup 0) <| .hyp (by decide) <| .hyp rfl .some_) <|
        .both (.obj 0 <| .hyp (by decide) .equal) <| .hyp (noEviction (by decide)) <| .both .same <| .obj 0 .equal

/-- A group about to issue the clause at 0x10100: the header 0x1200, `l` words long, and the words `w`, `x`. -/
def fetching (h w x : Word) : State :=
  let s := machine .nop fun g => { g with issue := none }
  { s with mem := mwrite s.mem (2 ^ 30 + 0x10100) (leBytes 4 h.toNat ++ leBytes 4 w.toNat ++ leBytes 4 x.toNat) }
def waitingGroup : Group := { wordGroup 0x89FFFFF8 with issue := none }

theorem witness_ClausesAreFetchedAndIssued : Met Obligations.ClausesAreFetchedAndIssued :=
  .both
    (.obj (fetching 0x1200 0x89FFFFF8 0x86FFFFF8) <| .obj _ <| .obj _ <| .obj _ <| .obj _ <| .obj 0 <| .obj 31 <| .obj waitingGroup <| .obj 0x1200 <|
      .obj ⟨0, some 0, some 1, 2, none, false⟩ <| .obj [0x89FFFFF8, 0x86FFFFF8] <| .hyp rfl <| .hyp rfl <| .hyp rfl <| .hyp rfl <|
      .hyp (by decide) <| .hyp (fun _ => rfl) <| .hyp rfl <| .hyp rfl <| .hyp (fun _ => rfl) <| .hyp rfl <| .hyp rfl <|
      .hyp (by decide) .completes)
    (.obj (fetching 0x1200 0x89FFFFF8 0x86FFFFF8) <| .obj _ <| .obj 0 <| .obj waitingGroup <| .obj 1 <| .obj 0x10100 <| .obj entry <|
      .hyp rfl <| .hyp rfl <| .hyp rfl <| .hyp rfl <| .hyp rfl <| .hyp rfl <| .hyp (by decide) <| .hyp (by decide) .equal)

theorem witness_SpecialFunctionsStart : Met Obligations.SpecialFunctionsStart :=
  .obj (.fsqrt 7 5 1) <| .obj _ <| .obj _ <| .obj _ <| .obj _ <| .obj (machine (.fsqrt 7 5 1)) <| .obj (seen _) <| .hyp rfl <|
    .hyp (by decide) <| .hyp (runs rfl) <| .hyp rfl .completes

/-- A finished operation of all lanes that counts on flag 0 and writes name 5. -/
def finished (g : Group) : Op := { Op.plain g 0 (some 0) (BitVec.allOnes 32) with dest := [refsOf g 5] }

theorem witness_LongLatencyResultsAndRowsReturn : Met Obligations.LongLatencyResultsAndRowsReturn :=
  .both
    (.obj (machine .nop fun g => addOp g (finished g)) <| .obj 0 <| .obj 1 <|
      .obj (addOp (wordGroup 0x89FFFFF8) (finished (wordGroup 0x89FFFFF8))) <| .obj (finished (wordGroup 0x89FFFFF8)) <| .hyp rfl <|
      .hyp rfl <| .hyp rfl <| .hyp rfl <| .hyp rfl <| .hyp rfl <| .hyp (fun _ h => Option.some.inj h ▸ rfl) .completes)
    (.obj (machine .nop fun g => { g with evicted := [5] }) <| .obj _ <| .obj 0 <| .obj 5 <|
      .obj { wordGroup 0x89FFFFF8 with evicted := [5] } <| .hyp rfl <| .hyp (by decide) <|
      .hyp (fun _ h => nomatch h) <| .hyp rfl .completes)
/-! ## Control flow, traps and system registers -/

/-- Every thread of the group changed. -/
def threads (f : Thread → Thread) (g : Group) : Group := onThreads g (BitVec.allOnes 32) fun _ => f
/-- The issue is that of lane 0 alone. -/
def alone (g : Group) : Group := { g with issue := g.issue.map fun i => { i with set := 1 } }
/-- It is that of lanes 0 and 31. -/
def ends (g : Group) : Group := { g with issue := g.issue.map fun i => { i with set := 0x80000001 } }
/-- A trap handler at 0x10100. -/
def handled (x : Context) : Context := { x with tvec := 0x10100 }
/-- A link that no operation holds, in a group with no row evicted. -/
theorem linked {c : Ctl} {n : Nat} (h : c.gr.ops = []) (k : c.gr.evicted = []) : linkReady c n := fun l _ _ r _ => by
  simp [pendingRow, h, k]

theorem witness_BranchesMoveEachThread : Met Obligations.BranchesMoveEachThread :=
  .both (.obj 15 <| .obj (BitVec.ofInt 20 (-2 ^ 19)) <| .obj (machine (.bra 15 (BitVec.ofInt 20 (-2 ^ 19)))) <| .obj (seen _) <|
    .hyp (runs rfl) .completes)
    (.both (.obj 8 <| .obj (machine (.brx 8)) <| .obj (seen _) <| .hyp (runs rfl) <| .hyp (by decide) .completes)
      (.obj 8 <| .obj (machine (.brx 8) (put 8 (.a 0 1))) <| .obj (seen _) <| .hyp (runs rfl) <| .hyp (by decide) .completes))

/-- A shift of 8 names is the largest that a window of 128 rows lets a call take. -/
theorem witness_CallsLinkAndReturnsUnlink : Met Obligations.CallsLinkAndReturnsUnlink :=
  .both
    (.obj 8 <| .obj 3 <| .obj (machine (.call 8 3)) <| .obj (seen _) <| .hyp (by decide) <| .hyp (runs rfl) <| .hyp (by decide) <|
      .hyp (by unfold movesFit; decide) <| .hyp (linked rfl rfl) .completes)
    (.both
      (.obj 8 <| .obj 4 <| .obj (machine (.callx 8 4)) <| .obj (seen _) <| .hyp (by decide) <| .hyp (runs rfl) <| .hyp (by decide) <|
        .hyp (by unfold movesFit; decide) <| .hyp (linked rfl rfl) .completes)
      (.obj (machine .ret (threads ({ · with wb := 4 }) ∘ put 5 (.u 0x08000000))) <| .obj (seen _) <| .hyp (runs rfl) <|
        .hyp (by decide) <| .hyp (by unfold movesFit; decide) .completes))

theorem witness_WbaseMovesOrTraps : Met Obligations.WbaseMovesOrTraps :=
  .both (.obj 8 <| .obj (machine (.wbase 8)) <| .obj (seen _) <| .hyp (runs rfl) <| .hyp (by unfold movesFit; decide) .completes)
    (.both
      (.obj 9 <| .obj (machine (.wbase 9) id handled) <| .obj (seen _) <| .obj 31 <| .obj 1 <| .hyp (runs rfl) <| .hyp (by decide) <|
        .hyp rfl <| .hyp (by decide) <| .hyp (by decide) <| .hyp rfl .completes)
      (.obj 0 .equal))

theorem witness_ExitEndsThreads : Met Obligations.ExitEndsThreads :=
  .both
    (.obj (machine .exit) <| .obj (seen _) <| .hyp (runs rfl) <| .hyp (fun _ h => .inl (Option.some.inj h ▸ rfl)) .completes)
    (.obj (machine .exit id id fun t => { t with held := [(255, .mma 0 0 [] 0)] }) <| .obj (seen _) <| .obj _ <| .obj 255 <|
      .obj (.mma 0 0 [] 0) <|
      .obj [] <| .hyp (runs rfl) <| .hyp rfl <| .hyp rfl <| .hyp rfl <| .hyp (by decide) <| .hyp (fun _ h => nomatch h) .completes)

def waiting (w : Wait) : State := machine .nop (threads ({ · with wait := w }) ∘ fun g => { g with issue := none })
def waitGroup (w : Wait) : Group := threads ({ · with wait := w }) { wordGroup 0x89FFFFF8 with issue := none }

theorem witness_MeetSleepAndResume : Met Obligations.MeetSleepAndResume :=
  .both
    (.obj 0 <| .obj 5 <| .obj (machine (.meet 0 5)) <| .obj (seen _) <| .obj 0 <| .hyp (runs rfl) <| .hyp (by decide) <| .hyp rfl <|
      .hyp rfl <| .hyp (by decide) .completes)
    (.both
      (.both
        (.obj 127 <| .obj 0 <| .obj (machine (.sleep 127 0)) <| .obj (seen _) <| .hyp (runs rfl) <| .hyp rfl .completes)
        (.obj 127 <| .obj 500 <| .obj (machine (.sleep 127 500)) <| .obj (seen _) <| .hyp (runs rfl) <| .hyp (by decide) .completes))
      (.both
        (.obj (waiting (.sleep 0 1)) <| .obj 0 <| .obj 0 <| .obj 0 <| .obj 1 <| .obj (waitGroup (.sleep 0 1)) <| .hyp rfl <| .hyp rfl <|
          .hyp rfl <| .hyp (by decide) <| .hyp rfl <| .hyp rfl <| .hyp (by decide) .completes)
        (.obj (waiting (.port 0x000BE030)) <| .obj 0 <| .obj 0 <| .obj 0x000BE030 <| .obj (waitGroup (.port 0x000BE030)) <| .hyp rfl <|
          .hyp rfl <| .hyp rfl <| .hyp (by decide) <| .hyp rfl <| .hyp rfl <| .hyp rfl .completes)))

def inHandlers : Group → Group := threads ({ · with inHandler := true, hwb := 0 })
/-- The image has one liveness entry. -/
def lively (x : Context) : Context := { x with images := [{ plainImage with livecnt := 1 }] }

theorem witness_TrapsReturnsAndHints : Met Obligations.TrapsReturnsAndHints :=
  .both
    (.both
      (.obj 7 <| .obj (machine (.trap 7) id handled) <| .obj (seen _) <| .hyp (inProgress rfl) <| .hyp (by decide) <|
        .hyp (by decide) .completes)
      (.obj 7 <| .obj (machine (.trap 7)) <| .obj (seen _) <| .hyp (inProgress rfl) <| .one <| .hyp (by decide) .completes))
    (.both
      (.both
        (.obj (machine .tret inHandlers) <| .obj (seen _) <| .hyp (runs rfl) <| .hyp (by decide) .completes)
        (.obj (machine .tret) <| .obj (seen _) <| .obj 31 <| .hyp (runs rfl) <| .hyp (by decide) <| .hyp rfl <| .hyp rfl .completes))
      (.both
        (.obj 0 <| .obj (machine (.phint 0) id lively) <| .obj (seen _) <| .obj _ <| .hyp (runs rfl) <| .hyp rfl <| .hyp (by decide) <|
          .hyp (.inl rfl) .completes)
        (.obj 0 <| .obj (machine (.phint 0) (fun g => { g with preempt := some 0 }) lively) <| .obj (seen _) <| .obj _ <| .hyp (runs rfl) <|
          .hyp rfl <| .hyp (by decide) <| .hyp (by decide) <| .hyp rfl <| .hyp rfl <| .hyp (by decide) .completes)))
theorem witness_TrapsReturnsAndHints_nested : Met Obligations.TrapsReturnsAndHints :=
  .one <| .two <| .obj 7 <| .obj (machine (.trap 7) inHandlers handled) <| .obj (seen _) <| .hyp (inProgress rfl) <| .two <|
    .hyp (by decide) .completes

theorem witness_SystemRegistersReadAndWrite : Met Obligations.SystemRegistersReadAndWrite :=
  .both
    (.both
      (.obj 3 <| .obj 7 <| .obj (machine (.sysr 3 7)) <| .obj (seen _) <| .hyp (by decide) <| .hyp (runs rfl) <|
        .hyp (fun h => absurd h (by decide)) .completes)
      (.obj 8 <| .obj (machine (.time 8)) <| .obj (seen _) <| .hyp (by decide) <| .hyp ⟨by decide, by decide⟩ <|
        .hyp ⟨inProgress rfl, names_ready rfl, .inl ⟨rfl, rfl⟩⟩ .completes))
    (.both
      (.both
        (.obj 4 <| .obj 7 <| .obj (machine (.sysw 4 7)) <| .obj (seen _) <| .hyp (by decide) <| .hyp (runs rfl) <| .hyp (by decide) <|
          .hyp (by decide) .completes)
        (.obj 4 <| .obj 0x41 <| .obj (machine (.sysw 4 0x41)) <| .obj (seen _) <| .hyp (by decide) <| .hyp (runs rfl) <| .hyp rfl <|
          .hyp (by decide) .completes))
      (.obj 4 <| .obj (machine (.sysw 4 5)) <| .obj (seen _) <| .hyp (runs rfl) <| .hyp rfl .completes))

/-! ## Cross-lane, remote rows, migration -/

theorem crosses {s : State} {d a : Reg} {fs : List Src} {reach : Nat → List Nat} (h : runsB s fs d = true)
    (k : ∀ l, l < 32 → has (seen s).act l = true → pendingSource (seen s) a l (reach l) = none)
    (e : evictedSource (seen s) a ((lanesOf (seen s).act).flatMap reach) = false) : CrossReady s (seen s) d a fs reach :=
  ⟨runs h, lanes k, e⟩

theorem witness_CrossLaneInstructions : Met Obligations.CrossLaneInstructions :=
  .both
    (.obj (.lslide 4 2 3 2) <| .obj 4 <| .obj 2 <| .obj 3 <| .obj 2 <| .obj (machine (.lslide 4 2 3 2) (put 3 (.u 1))) <| .obj _ <| .obj (seen _) <|
      .hyp rfl <| .hyp (by decide) <| .hyp (crosses rfl (by decide) (by decide)) <| .hyp rfl .completes)
    (.both
      (.both
        (.obj 4 <| .obj 2 <| .obj 3 <| .obj (machine (.vote 4 2 3) ends) <| .obj (seen _) <| .hyp (by decide) <|
          .hyp (crosses rfl (by decide) (by decide)) .completes)
        (.both
          (.obj 6 <| .obj 5 <| .obj 7 <| .obj 0 <| .obj (machine (.lreduce 6 5 7 0) ends) <| .obj (seen _) <| .hyp (by decide) <|
            .hyp (crosses rfl (by decide) (by decide)) .completes)
          (.obj 6 <| .obj 5 <| .obj 24 <| .obj 7 <| .obj (machine (.lscan 6 5 24 7) ends) <| .obj (seen _) <| .hyp (by decide) <|
            .hyp (crosses rfl (by decide) (by decide)) .completes)))
      (.both
        (.obj 4 <| .obj 2 <| .obj (machine (.shape 4 2)) <| .obj (seen _) <| .hyp (by decide) <| .hyp (runs rfl) .completes)
        (.obj 119 <| .obj (machine (.expand 119)) <| .obj (seen _) <| .hyp (by decide) <| .hyp (runs rfl) <| .hyp (by decide) .completes)))

/-- A second group in the next slot, and the handle of it in name 8. -/
def writesAcross : State :=
  let s := machine (.rwrite 20 8 9) (alone ∘ put 8 (.u 1))
  { s with groups := s.groups ++ [(1, wordGroup 0)] }

theorem witness_RemoteRowsAndMigration : Met Obligations.RemoteRowsAndMigration :=
  .both
    (.obj 20 <| .obj 8 <| .obj 9 <| .obj writesAcross <| .obj (seen _) <| .obj 1 <| .obj 0 <| .obj (wordGroup 0) <| .hyp (by decide) <|
      .hyp ⟨inProgress rfl, names_ready rfl, .inl ⟨rfl, rfl⟩⟩ <| .hyp rfl <| .hyp (lanes (by decide)) <|
      .hyp (fun k j hk hj => (by decide : ∀ k, k < 32 → has (seen writesAcross).act k = true → ∀ j, j < 32 → has (seen writesAcross).act j = true →
        opArg (operands writesAcross (seen writesAcross) [(8, 1), (9, 1)] k) 0 = opArg (operands writesAcross (seen writesAcross) [(8, 1), (9, 1)] j) 0)
        k (lt_of_has hk) hk j (lt_of_has hj) hj) <|
      .hyp rfl <| .hyp (by decide) <| .hyp rfl <| .hyp rfl <| .hyp (by decide) <| .hyp rfl <| .hyp rfl <| .hyp (by decide) <|
      .hyp (by decide) <| .hyp rfl <| .hyp (lanes (by decide)) .completes)
    (.both
      (.both
        (.obj 4 <| .obj (machine (.rwait 4)) <| .obj (seen _) <| .hyp (runs rfl) <| .hyp (by unfold arrived; decide) .completes)
        (.both
          (.obj 4 <| .obj (machine (.rwait 4) (put 4 (.u 1))) <| .obj (seen _) <| .obj 31 <| .hyp (runs rfl) <| .hyp (by decide) <|
            .hyp rfl <| .hyp (by unfold arrived; decide) .completes)
          (.both
            (.obj 5 <| .obj (machine (.rwaitId 5)) <| .obj (seen _) <| .hyp (by decide) <| .hyp (runs rfl) .completes)
            (.obj 5 <| .obj (machine (.rwaitCnt 5)) <| .obj (seen _) <| .hyp (by decide) <| .hyp (runs rfl) .completes))))
      (.both
        (.obj 4 <| .obj (machine (.migrate 4)) <| .obj (seen _) <| .obj _ <| .obj entry <| .hyp (runs rfl) <| .hyp (by decide) <|
          .hyp rfl <| .hyp rfl <| .hyp rfl <| .hyp (fun _ h => nomatch h) <| .hyp rfl <| .hyp rfl <| .hyp (by decide) .completes)
        (.obj (staged 2 (waiting (.landing 1))) <| .obj 0 <| .obj 1 <| .obj 3132 <| .obj (waitGroup (.landing 1)) <| .hyp rfl <| .hyp rfl <|
          .hyp rfl <|
          .hyp rfl <| .hyp rfl <| .hyp rfl <| .hyp rfl .completes)))
/-! ## Memory instructions -/

/-- The page's entry with its class, Private to group 0, in the TLB of core 0. -/
def owned (s : State) : State := { s with tlbs := [(0, [{ entry with cls := some 1 }])] }
/-- Name 4 holds addresses in the page, 4 bytes apart. -/
def addressed : Group → Group := put 4 (.a 0x11000 4)
def load : State := owned (machine (.ld32 5 4 0 0) addressed)
def store : State := owned (machine (.st32 5 4 0 1) addressed)

theorem quiet {s : State} {c : Ctl} (h : (s.ctx c.gr.ctx).debug = none) : noDataComparator s c := fun d k => by simp [h] at k

theorem witness_PlacedAccessesPerformAtIssue_load : Met Obligations.PlacedAccessesPerformAtIssue :=
  .obj (.ld32 5 4 0 0) <| .obj _ <| .obj load <| .obj (seen _) <| .obj (fun _ => { entry with cls := some 1 }) <| .hyp rfl <|
    .hyp (by decide) <| .hyp ⟨inProgress rfl, names_ready rfl, .inl ⟨rfl, rfl⟩, rfl, rfl⟩ <| .hyp (quiet rfl) <|
    .hyp (by unfold permitted; decide) <| .one <| .hyp (by decide) .completes
theorem witness_PlacedAccessesPerformAtIssue_store : Met Obligations.PlacedAccessesPerformAtIssue :=
  .obj (.st32 5 4 0 1) <| .obj _ <| .obj store <| .obj (seen _) <| .obj (fun _ => { entry with cls := some 1 }) <| .hyp rfl <|
    .hyp (by decide) <| .hyp ⟨inProgress rfl, names_ready rfl, .inl ⟨rfl, rfl⟩, rfl, rfl⟩ <| .hyp (quiet rfl) <|
    .hyp (by unfold permitted; decide) <| .two <| .hyp (tidy rfl) <| .hyp (fun _ _ _ => ⟨_, rfl⟩) .completes

/-- An atomic of all lanes, and a load of lanes 0 and 31 whose addresses are one byte off. -/
theorem witness_MemoryInstructionsIssueOrFault : Met Obligations.MemoryInstructionsIssueOrFault :=
  .both
    (.obj (.atom 3 4 5 7) <| .obj _ <| .obj (machine (.atom 3 4 5 7) addressed) <| .obj (seen _) <| .obj (fun _ => entry) <| .hyp rfl <|
      .hyp (by decide) <| .hyp ⟨inProgress rfl, names_ready rfl, .inl ⟨rfl, rfl⟩, rfl, rfl⟩ <| .hyp (quiet rfl) <|
      .hyp (by unfold permitted; decide) <| .hyp (by decide) .completes)
    (.obj (.ld32 5 4 0 0) <| .obj _ <| .obj (machine (.ld32 5 4 0 0) (put 4 (.u 0x11001))) <| .obj (seen _) <| .obj (fun _ => entry) <|
      .obj 0 <| .obj 0x24 <| .obj 0x11001 <| .hyp rfl <| .hyp (by decide) <|
      .hyp ⟨inProgress rfl, names_ready rfl, .inl ⟨rfl, rfl⟩, rfl, rfl⟩ <| .hyp (by unfold permitted; decide) <|
      .hyp (by decide) <| .hyp rfl <| .hyp rfl <| .hyp (fun j h => absurd h (by omega)) .completes)

theorem pairs {a : Nat → Prop} {p : Nat → Nat → Prop} (h : ∀ l, l < 32 → a l → ∀ k, k < 32 → a k → p l k) :
    ∀ l k, l < 32 → k < 32 → a l → a k → p l k := fun l k hl hk al ak => h l hl al k hk ak

def pad (i : Instr) (base : Word) : State := machine i (put 4 (.a base 4)) id fun t => { t with scratchLen := 128 }

set_option synthInstance.maxSize 1000 in
/-- The 32 words of a scratchpad of 128 bytes, and the first word past its end. -/
theorem witness_ScratchpadAndPrefetch : Met Obligations.ScratchpadAndPrefetch :=
  .both
    (.obj (.atoms 3 4 5 0) <| .obj _ <| .obj _ <| .obj _ <| .obj _ <| .obj _ <| .obj (pad (.atoms 3 4 5 0) 0) <| .obj (seen _) <| .obj _ <|
      .hyp rfl <| .hyp (by decide) <| .hyp (inProgress rfl) <| .hyp (names_ready rfl) <| .hyp (.inl ⟨rfl, rfl⟩) <| .hyp rfl <| .hyp rfl <|
      .hyp rfl <| .one <| .hyp (by decide) <| .hyp (pairs (by decide)) .completes)
    (.obj 4 <| .obj 0 <| .obj 6 <| .obj (machine (.pref 4 0 6)) <| .obj (seen _) <| .hyp (runs rfl) .completes)
theorem witness_ScratchpadAndPrefetch_outside : Met Obligations.ScratchpadAndPrefetch :=
  .one <| .obj (.lds 3 4 0 0) <| .obj _ <| .obj _ <| .obj _ <| .obj _ <| .obj _ <| .obj (pad (.lds 3 4 0 0) 4) <| .obj (seen _) <| .obj _ <|
    .hyp rfl <| .hyp (by decide) <| .hyp (inProgress rfl) <| .hyp (names_ready rfl) <| .hyp (.inl ⟨rfl, rfl⟩) <| .hyp rfl <| .hyp rfl <|
    .hyp rfl <| .two <| .obj 31 <| .obj 0x23 <| .obj (BitVec.ofNat 64 (128 + 2 ^ 62)) <| .hyp (by decide) <| .hyp rfl <| .hyp rfl <|
    .hyp (by decide) .completes

/-! ## Accesses at their homes, barriers -/

/-- The operation `o` of the group is in progress. -/
def inFlight (o : Op) (g : Group) : Group := { g with ops := [o], issue := g.issue.map fun i => { i with op := some o.id } }
def opOf (a : Acc) (fixed : Bool) : Op := { Op.plain (wordGroup 0) 0 (some 0) 1 with left := [a], dest := [refsOf (wordGroup 0) 5], fixed := fixed }
def held (a : Acc) (fixed : Bool) : State := machine .nop (inFlight (opOf a fixed))
def heldGroup (a : Acc) (fixed : Bool) : Group := inFlight (opOf a fixed) (wordGroup 0x89FFFFF8)
def served (o : HomeAns) : State :=
  match o with
  | .ok t => t
  | _ => .reset
/-- The page's entry, to a host frame or to a frame of module 1. -/
def hostEntry : TlbEntry := { entry with host := true }
def peerEntry : TlbEntry := { entry with rmt := some 1 }
def through (e : TlbEntry) (s : State) : State := { s with tlbs := [(0, [e])] }
def atomic : Acc := ⟨0, 0x11000, 4, .atom 7 0, false⟩
def stores : Acc := ⟨0, 0x11000, 1, .store [7], false⟩

theorem witness_HomeAccessesPerform : Met Obligations.HomeAccessesPerform :=
  .obj (held atomic false) <| .obj (served (homeAccess (held atomic false) 0 0 entry 0x11000 true true)) <| .obj 0 <|
    .obj (heldGroup atomic false) <| .obj (opOf atomic false) <| .obj atomic <| .obj [] <| .obj entry <|
    .hyp ⟨rfl, rfl, rfl, rfl, rfl, fun _ => rfl⟩ <| .hyp (tidy rfl) <| .hyp rfl <| .hyp rfl <| .hyp rfl <| .hyp (fun _ _ _ => rfl) <|
    .hyp (fun _ _ h => nomatch h) <| .hyp (by decide) <| .hyp (by unfold plainBytes; decide) <| .hyp rfl <| .hyp rfl <| .hyp rfl .completes

theorem witness_OutsideAccessesPerform : Met Obligations.OutsideAccessesPerform :=
  .both
    (.obj (through hostEntry (held stores false)) <| .obj 0 <| .obj (heldGroup stores false) <| .obj (opOf stores false) <| .obj stores <|
      .obj [] <| .obj hostEntry <| .hyp ⟨rfl, rfl, rfl, rfl, rfl, fun _ => rfl⟩ <| .hyp rfl <| .hyp rfl .completes)
    (.both
      (.obj { through hostEntry (held stores false) with hostPending := [0] } <| .obj 0 <| .obj (heldGroup stores false) <|
        .obj (opOf stores false) <| .obj stores <| .obj [] <| .obj hostEntry <| .hyp ⟨rfl, rfl, rfl, rfl, rfl, fun _ => rfl⟩ <| .hyp (tidy rfl) <| .hyp rfl <|
        .hyp (by decide) <| .hyp rfl <| .hyp rfl <| .hyp (by decide) <| .hyp (by unfold plainBytes; decide) <| .hyp rfl <|
        .hyp rfl .completes)
      (.both
      (.obj { through peerEntry (held atomic false) with domain := ⟨0, 3⟩ } <| .obj 0 <| .obj 1 <| .obj (heldGroup atomic false) <|
        .obj (opOf atomic false) <| .obj atomic <| .obj [] <| .obj peerEntry <| .hyp ⟨rfl, rfl, rfl, rfl, rfl, fun _ => rfl⟩ <|
        .hyp rfl <| .hyp rfl <| .hyp rfl <| .hyp (fun h => nomatch h) <| .hyp rfl <| .hyp rfl <| .hyp (.inl rfl) .completes)
      (.both
      (.obj { through peerEntry (held stores false) with domain := ⟨0, 3⟩, messages := [⟨0, 0, 1, 0x40011, 0, false, 0⟩] } <| .obj 0 <| .obj 1 <|
        .obj (heldGroup stores false) <| .obj (opOf stores false) <| .obj stores <| .obj [] <| .obj peerEntry <|
        .hyp ⟨rfl, rfl, rfl, rfl, rfl, fun _ => rfl⟩ <| .hyp (tidy rfl) <| .hyp rfl <| .hyp rfl <| .hyp rfl <| .hyp rfl <|
        .hyp (fun _ _ h => nomatch h) <| .hyp (fun _ _ h => nomatch h) <| .hyp (by decide) <| .hyp (by unfold plainBytes; decide) <|
        .hyp rfl <| .hyp rfl <| .hyp ⟨_, rfl, rfl, rfl⟩ .completes)
      (.obj { through peerEntry (held stores false) with
          time := 1000000, domain := ⟨0, 3⟩, messages := [⟨0, 0, 1, 0x40011, 0, true, 0⟩] } <| .obj 0 <| .obj (heldGroup stores false) <|
        .obj (opOf stores false) <| .obj stores <| .obj [] <| .obj peerEntry <| .hyp ⟨rfl, rfl, rfl, rfl, rfl, fun _ => rfl⟩ <| .obj 1 <|
        .obj _ <| .hyp rfl <| .hyp rfl <| .hyp rfl <| .hyp (fun h => nomatch h) <| .hyp rfl <| .hyp (by decide) .completes))))

def spawns : Acc := ⟨0, 0x11000, 64, .spawn 0x10100 (some 0) [], false⟩
def launches : Acc := ⟨0, 0x11000, 64, .klaunch 5 1 0, false⟩
/-- A context with task queues of 16 slots from frame address 2^30 + 0x20000 on. -/
def tasked (s : State) : State := { s with contexts := tmap s.contexts fun _ c => { c with taskK := 10, taskPhys := [2 ^ 30 + 0x20000], taskVirt := [0x20000] } }
/-- A LAUNCH of the image at 0x10000 stands at 0x11000: extents 1, no arguments, no queues. -/
def launchBytes : List Byte := [1, 0, 0, 0, 0, 0, 0, 0, 0, 0, 1, 0, 0, 0, 0, 0, 1, 0, 1, 0, 1, 0] ++ List.replicate 42 0
def commanded (s : State) : State := { s with mem := mwrite s.mem (2 ^ 30 + 0x11000) launchBytes }

theorem witness_SpawnsAndLaunchesPerform : Met Obligations.SpawnsAndLaunchesPerform :=
  .both
    (.obj (tasked (held spawns true)) <| .obj (served (homeAccess (tasked (held spawns true)) 0 0 entry 0x11000 false)) <| .obj 0 <|
      .obj (heldGroup spawns true) <| .obj (opOf spawns true) <| .obj spawns <| .obj [] <| .obj entry <| .obj 0x10100 <| .obj (some 0) <| .obj 0 <| .obj [] <|
      .hyp ⟨rfl, rfl, rfl, rfl, rfl, fun _ => rfl⟩ <| .hyp (tidy rfl) <| .hyp rfl <| .hyp rfl <| .hyp rfl <| .hyp rfl <| .hyp (by unfold plainBytes; decide) <|
      .hyp (fun _ => rfl) <| .hyp rfl <| .hyp rfl <| .hyp rfl <| .hyp (fun _ h => nomatch h) .completes)
    (.obj (commanded (held launches true)) <| .obj (served (homeAccess (commanded (held launches true)) 0 0 entry 0x11000 false)) <|
      .obj 0 <|
      .obj (heldGroup launches true) <| .obj (opOf launches true) <| .obj launches <| .obj [] <| .obj entry <| .obj 5 <| .obj 1 <| .obj 0 <|
      .hyp ⟨rfl, rfl, rfl, rfl, rfl, fun _ => rfl⟩ <| .hyp rfl <| .hyp rfl <| .hyp rfl <| .hyp rfl <| .hyp (by unfold plainBytes; decide) <|
      .hyp (fun _ => rfl) <| .hyp rfl <| .hyp (fun h => nomatch h) <| .hyp (by decide) <| .hyp (by decide) <| .hyp (by decide) <|
      .hyp (by decide) .completes)

def inits : Acc := ⟨0, 0x11000, 16, .bar (.binit 32), false⟩

theorem witness_BarrierOperationsPerform : Met Obligations.BarrierOperationsPerform :=
  .obj (held inits true) <| .obj (served (homeAccess (held inits true) 0 0 entry 0x11000 true true)) <| .obj 0 <| .obj (heldGroup inits true) <|
    .obj (opOf inits true) <| .obj inits <| .obj entry <| .obj (.binit 32) <| .hyp ⟨rfl, rfl, rfl, rfl, rfl, fun _ => rfl⟩ <| .hyp rfl <|
    .hyp rfl <| .hyp rfl <| .hyp rfl <| .hyp rfl <| .hyp (by decide) <| .hyp rfl <| .hyp (by decide) <| .hyp rfl <|
    .hyp (tidy rfl) <| .hyp (by unfold plainBytes; decide) <| .hyp rfl <| .hyp rfl .completes

/-- Lane 0 waits in a BWAIT for phase 0 of the barrier at 0x11000, which is in phase `p`. -/
def bwaits (p : Byte) (ns : Nat) : State :=
  let s := machine .nop (fun g => { onThreads g 1 fun _ t => { t with wait := .bwait 0x11000 0 0 false 1 0 } with issue := none })
    fun x => { x with runNs := ns, tvec := 0x10100 }
  { s with mem := mwrite s.mem (2 ^ 30 + 0x11000) [32, 0, 0, 0, 0, 0, 0, 0, p, 0, 0, 0, 32, 0, 0, 0] }
def bwaitGroup : Group :=
  { onThreads (wordGroup 0x89FFFFF8) 1 fun _ t => { t with wait := .bwait 0x11000 0 0 false 1 0 } with issue := none }
def gathering (g : List Nat) (s : State) : State := { s with teams := tmap s.teams fun _ t => { t with groups := g } }

/-- The barrier's timeout of 100 ms has just run out. -/
theorem witness_BarrierWaitsAndTeamBarrier : Met Obligations.BarrierWaitsAndTeamBarrier :=
  .both
    (.both
      (.obj 4 <| .obj 5 <| .obj 0 <| .obj (machine (.bwait 4 5 0) (put 4 (.a 0x11000 16))) <| .obj (seen _) <| .obj (fun _ => entry) <|
        .hyp (by decide) <| .hyp (runs rfl) <| .hyp rfl <| .hyp (quiet rfl) <| .hyp (by unfold permitted; decide) .completes)
      (.both
        (.obj (bwaits 1 0) <| .obj _ <| .obj 0 <| .obj 0 <| .obj bwaitGroup <|
          .obj 0x11000 <| .obj 0 <| .obj 0 <| .obj entry <| .hyp rfl <| .hyp rfl <| .hyp rfl <|
          .hyp ⟨by decide, ⟨1, 0, rfl⟩, by decide⟩ <| .hyp rfl <| .hyp rfl <| .hyp rfl <| .hyp (by decide) <| .hyp (by decide) <|
          .hyp (by decide) <| .hyp (by decide) <| .hyp rfl .completes)
        (.obj (bwaits 0 100000000) <| .obj 0 <| .obj 0 <| .obj bwaitGroup <| .obj 0x11000 <| .obj 0 <| .obj 0 <| .obj 1 <| .obj 0 <|
          .obj entry <| .hyp rfl <| .hyp rfl <| .hyp rfl <| .hyp rfl <| .hyp (by decide) <| .hyp rfl <| .hyp rfl <| .hyp rfl <|
          .hyp (by decide) <| .hyp (by decide) <| .hyp (by decide) <| .hyp (by decide) <| .hyp (by decide) <| .hyp (by decide) <| .hyp rfl .completes)))
    (.both
      (.obj (machine .tsync) <| .obj (seen _) <| .obj _ <| .hyp (runs rfl) <| .hyp rfl <| .hyp rfl <| .hyp (by decide) <| .hyp rfl <|
        .hyp rfl <| .hyp (by decide) <| .hyp (by decide) <| .one <|
        .hyp (fun _ hm hn => absurd (List.mem_singleton.mp hm) hn) <| .hyp (fun _ h => nomatch h) .completes)
      (.both
        (.obj (machine .tsync ends handled) <| .obj (seen _) <| .hyp (runs rfl) <| .hyp (by decide) <| .hyp (by decide) <|
          .hyp (by decide) .completes)
        (.obj (machine .tsync inHandlers) <| .obj (seen _) <| .obj 31 <| .hyp (runs rfl) <| .hyp (by decide) <| .hyp rfl <|
          .hyp rfl .completes)))
/-- The other group of the team has not arrived. -/
def twoGroups : State :=
  let s := gathering [0, 1] (machine .tsync)
  { s with groups := s.groups ++ [(1, { wordGroup 0 with gid := 1 })] }
theorem witness_BarrierWaitsAndTeamBarrier_waits : Met Obligations.BarrierWaitsAndTeamBarrier :=
  .two <| .one <| .obj twoGroups <| .obj (seen _) <| .obj _ <| .hyp (runs rfl) <| .hyp rfl <| .hyp rfl <| .hyp (by decide) <| .hyp rfl <|
    .hyp rfl <| .hyp (by decide) <| .hyp (by decide) <| .two <|
    .hyp ⟨1, by decide, by decide, _, rfl, by decide, rfl, by decide⟩ .completes
/-! ## Copies -/

theorem copies_ready {s : State} {d a b : Reg} {m : BitVec 3} {tm : Team} (h : progresses s = true)
    (k : namesFree (seen s) (allNames [(a, 4), (b, 4)] d) = true)
    (r : flagFull (seen s).gr (if m.getLsbD 0 then (seen s).hd.fb else (seen s).hd.fa) = false)
    (t : s.team? (seen s).gr.team = some tm) : CopyReady s (seen s) d a b m tm := ⟨inProgress h, names_ready k, r, t⟩

/-- Engine 0 is the coordinate's, with ring 0 of 64 KiB and what `f` makes of it. -/
def engined (s : State) (f : Engine → Engine := id) : State :=
  { s with
    teams := tmap s.teams fun _ t => { t with engine := some 0 }
    engines := [(0, f { Engine.reset with
      bound := some (0, 0), state := .idle, rings := Vector.ofFn fun i => if i.val = 0 then some ⟨1, [], 0⟩ else none })] }

def engineTeam : Team := newTeam 0 0 false 0 0 0 0 0 0 [0] 0 (some 0)

/-- Both ends of a copy are in the page, 4 KiB apart. -/
def underway (x : Copy) : State := { machine .nop with copies := [(5, x)] }
def aCopy : Copy := newCopy 0 0 0x11000 (.mem 0x12000) 32 0 (.lane 0 1 0) 0
/-- A barrier at 0x13000 that expects 32 bytes. -/
def barriered (s : State) : State := { s with mem := mwrite s.mem (2 ^ 30 + 0x13000) [32, 0, 0, 0, 32, 0, 0, 0, 0, 0, 0, 0, 32, 0, 0, 0] }
def arriving : Copy := { aCopy with pos := 32, bar := 0x13000 }
def loaded : Copy := { aCopy with buf := List.replicate 16 7 }
def ontoPad : Copy := { aCopy with dst := .scratch 0 0, buf := List.replicate 16 7 }

/-- The operation of the lane whose copy it is stands in no group. -/
theorem no_status {s : State} {x : Copy} {g o l : Nat} (hx : x.origin = .lane g o l)
    (h : ((s.group? g).bind fun gr => gr.ops.find? (·.id == o)) = none) : statusOnChip s x := by
  intro g' o' l' gr op e hg hf
  rw [hx] at e
  cases e
  simp [hg, hf] at h

theorem witness_CopiesStartAndMove : Met Obligations.CopiesStartAndMove :=
  .both
    (.both
      (.obj 12 <| .obj 16 <| .obj 20 <| .obj 0 <| .obj (machine (.cpy 12 16 20 0) ends) <| .obj (seen _) <| .obj _ <| .hyp (by decide) <|
        .hyp (copies_ready rfl rfl rfl rfl) <| .hyp (by decide) <| .one <| .hyp rfl <| .hyp (by decide) .completes)
      (.obj 12 <| .obj 16 <| .obj 20 <| .obj 0 <| .obj (engined (machine (.cpyr 12 16 20 0) ends)) <| .obj (seen _) <| .obj _ <| .obj 0 <|
        .hyp (by decide) <| .hyp (copies_ready rfl rfl rfl rfl) <| .hyp rfl <| .hyp (by decide) <| .hyp rfl <| .hyp rfl <| .one <|
        .hyp rfl <| .hyp (by decide) .completes))
    (.both
      (.obj (underway aCopy) <| .obj (served (homeAccess (underway aCopy) 192 (copyParty (underway aCopy) aCopy) entry 0x11000 false)) <|
        .obj 5 <| .obj aCopy <| .obj entry <| .hyp ⟨rfl, rfl, rfl, .inl rfl⟩ <| .hyp (by decide) <| .hyp rfl <| .hyp rfl <| .hyp (by decide) <|
        .hyp ⟨rfl, rfl, rfl, rfl⟩ <| .hyp rfl <| .hyp ⟨entry, rfl, rfl, rfl, rfl⟩ <| .hyp rfl <| .hyp (by decide) .completes)
      (.both
        (.obj (underway loaded) <|
          .obj (served (homeAccess (underway loaded) 192 (copyParty (underway loaded) loaded) entry 0x12000 true)) <|
          .obj 5 <| .obj loaded <| .obj 0x12000 <| .obj entry <| .hyp ⟨rfl, rfl, rfl, .inl rfl⟩ <| .hyp (tidy rfl) <| .hyp (by decide) <| .hyp rfl <| .hyp rfl <|
          .hyp ⟨rfl, rfl, rfl, rfl⟩ <| .hyp rfl <| .hyp rfl .completes)
        (.both
          (.obj (underway ontoPad) <| .obj 5 <| .obj ontoPad <| .obj 0 <| .obj 0 <| .obj _ <| .hyp ⟨rfl, rfl, rfl, .inl rfl⟩ <|
            .hyp (by decide) <| .hyp rfl <| .hyp rfl <| .hyp rfl .completes)
          (.both
            (.obj (underway { aCopy with pos := 32 }) <| .obj 5 <| .obj { aCopy with pos := 32 } <| .hyp ⟨rfl, rfl, rfl, .inl rfl⟩ <|
              .hyp (by decide) <| .hyp rfl <| .hyp (no_status rfl rfl) .completes)
            (.obj (barriered (underway arriving)) <|
              .obj (served (homeAccess (barriered (underway arriving)) 192 (copyParty (underway arriving) arriving) entry 0x13000 true true)) <|
              .obj 5 <| .obj arriving <| .obj entry <| .obj (32, 0, 0, 32) <| .hyp ⟨rfl, rfl, rfl, .inl rfl⟩ <| .hyp (tidy rfl) <| .hyp (by decide) <|
              .hyp (by decide) <| .hyp (no_status rfl rfl) <| .hyp rfl <| .hyp ⟨rfl, rfl, rfl, rfl⟩ <| .hyp rfl <| .hyp rfl <| .hyp rfl <| .hyp (by decide) <|
              .hyp (by decide) .completes)))))
set_option maxRecDepth 4000 in
theorem witness_CopiesStartAndMove_held : Met Obligations.CopiesStartAndMove :=
  .one <| .both
    (.obj 12 <| .obj 16 <| .obj 20 <| .obj 2 <| .obj (machine (.cpy 12 16 20 2) ends) <| .obj (seen _) <| .obj _ <| .hyp (by decide) <|
      .hyp (copies_ready rfl rfl rfl rfl) <| .hyp (by decide) <| .two <| .hyp rfl <| .hyp (by decide) .completes)
    (.obj 12 <| .obj 16 <| .obj 20 <| .obj 2 <| .obj (engined (machine (.cpyr 12 16 20 2) ends)) <| .obj (seen _) <| .obj _ <| .obj 0 <|
      .hyp (by decide) <| .hyp (copies_ready rfl rfl rfl rfl) <| .hyp rfl <| .hyp (by decide) <| .hyp rfl <| .hyp rfl <| .two <| .hyp rfl <|
      .hyp (by decide) .completes)

/-! ## Queues and bins -/

/-- Port 0 (field 120) holds an end of queue 5; the launch's queue table gives stage 0 the producer end of queue 0. -/
def ported (i : Instr) (producer : Bool) (bound : Bool := true) (f : Group → Group := id) : State :=
  let s := machine i (fun g => f { g with ports := Vector.ofFn fun n => if n.val = 0 ∧ bound then some ⟨5, 0x60000000, producer⟩ else none })
    fun x => { x with images := [{ plainImage with stages := 2 }] }
  { s with
    launches := [(0, { plainLaunch with qtab := [⟨3, 0, 1, 4, true⟩] })]
    queues := [(5, ⟨0, 0, 0, ⟨3, 0, 1, 4, true⟩, .bound, 1, 0, false, [[7]], 0, true⟩)] }
/-- Held commands 0 and 31 of the team. -/
def holding (i : Instr) (f : Group → Group) : State :=
  machine i f id fun t => { t with held := [(0, .cpy 0 0 1 0 0 false 4 0 0), (31, .mma 0 0 [] 0)] }
theorem lane0 {p : Nat → Prop} {m : Mask} (e : ∀ l, l < 32 → has m l = true → l = 0) (h : p 0) :
    ∀ l, l < 32 → has m l = true → p l := fun l a b => e l a b ▸ h

set_option synthInstance.maxSize 1000 in
theorem witness_QueueAndBinInstructions : Met Obligations.QueueAndBinInstructions :=
  .both
    (.both
      (.obj 120 <| .obj 4 <| .obj 1 <| .obj { ported (.qbind 120 4 1) true false (put 4 (.u 0x60000000)) with queues := [] } <|
        .obj (seen _) <|
        .obj _ <| .obj _ <| .obj ⟨3, 0, 1, 4, true⟩ <| .hyp (by decide) <| .hyp (runs rfl) <| .hyp rfl <| .hyp rfl <| .hyp rfl <|
          .hyp rfl <|
        .hyp rfl <| .hyp (.inl rfl) <| .hyp (by decide) <| .hyp rfl <| .hyp (by decide) <| .hyp rfl <|
          .hyp (fun _ h => nomatch h) .completes)
      (.both
        (.obj 120 <| .obj 4 <| .obj 1 <| .obj (ported (.qbind 120 4 1) true) <| .obj (seen _) <| .obj _ <| .hyp (by decide) <|
          .hyp (runs rfl) <| .hyp rfl <| .hyp (.inr (by decide)) .completes)
        (.both
          (.obj 120 <| .obj (ported (.qclose 120) true) <| .obj (seen _) <| .obj _ <| .obj _ <| .hyp (by decide) <| .hyp (runs rfl) <|
            .hyp rfl <| .hyp rfl .completes)
          (.both
            (.obj 125 <| .obj (ported (.qclose 125) true) <| .obj (seen _) <| .hyp (by decide) <| .hyp (runs rfl) <| .hyp rfl .completes)
            (.both
              (.obj 5 <| .obj 120 <| .obj (ported (.qstat 5 120) false) <| .obj (seen _) <| .hyp (by decide) <| .hyp (runs rfl) .completes)
              (.obj 6 <| .obj 120 <| .obj (ported (.qtry 6 120) false) <| .obj (seen _) <| .obj _ <| .obj _ <| .hyp (by decide) <|
                .hyp ⟨inProgress rfl, names_ready rfl, .inl ⟨rfl, rfl⟩⟩ <| .hyp ⟨by decide, by decide⟩ <| .hyp rfl <| .hyp rfl <|
                  .hyp rfl <|
                .hyp rfl .completes))))))
    (.both
      (.obj 6 <| .obj 4 <| .obj 5 <| .obj 1 <| .obj (machine (.bincnt 6 4 5 1)) <| .obj (seen _) <| .obj _ <| .hyp (by decide) <|
        .hyp (runs rfl) <| .hyp rfl .completes)
      (.both
        (.obj 4 <| .obj 5 <| .obj (holding (.binpatch 4 5 1) ends) <| .obj (seen _) <| .obj _ <| .hyp (by decide) <| .hyp (runs rfl) <|
          .hyp rfl <| .hyp (fun _ => Nat.zero_le 256) <| .hyp (by decide) .completes)
        (.both
          (.obj 4 <| .obj 5 <| .obj (holding (.binpatch 4 5 0) alone) <| .obj (seen _) <| .obj _ <| .hyp (by decide) <| .hyp (runs rfl) <|
            .hyp rfl <| .hyp (fun _ => Nat.zero_le 256) <| .hyp rfl <| .hyp (by decide) <|
            .hyp (lane0 (by decide) ⟨by decide, _, _, _, _, _, _, _, _, _, rfl⟩) <| .hyp (pairs (by decide)) .completes)
          (.obj 4 <| .obj 5 <| .obj 0 <| .obj (machine (.binpatch 4 5 0)) <| .obj (seen _) <| .obj _ <| .obj 0 <| .hyp (by decide) <|
            .hyp (runs rfl) <| .hyp rfl <| .hyp (by decide) <| .hyp rfl <| .hyp (.inr rfl) <|
              .hyp (fun k h => absurd h (by omega)) .completes))))
/-! ## Matrix engines -/

theorem engine_ready {s : State} {fs : List Src} {d : Reg} {tm : Team} {e : Nat} (h : progresses s = true)
    (k : namesFree (seen s) (allNames fs d) = true) (p : srcPorts fs = []) (w : (seen s).act = liveMask (seen s).gr)
    (t : s.team? (seen s).gr.team = some tm) (g : teamEngine s tm = .ok e) (o : orderedOut (seen s).gr = false)
    (r : (s.engine e).queue.length < 256) : EngineReady s (seen s) fs d tm e :=
  ⟨inProgress h, names_ready k, .inl ⟨p, rfl⟩, w, t, g, o, r⟩

theorem witness_MatrixInstructionsQueueCommands : Met Obligations.MatrixInstructionsQueueCommands :=
  .both
    (.obj 4 <| .obj 5 <| .obj 0 <| .obj (engined (machine (.mma 4 5 0))) <| .obj (seen _) <| .obj _ <| .obj 0 <| .hyp (by decide) <|
      .hyp (engine_ready rfl rfl rfl rfl rfl rfl rfl (by decide)) <| .hyp (fun _ => by unfold votesAgree; decide) <| .one <|
      .hyp rfl .completes)
    (.both
      (.obj 3 <| .obj 4 <| .obj 8 <| .obj 1 <| .obj (engined (machine (.mdrain 3 4 8 1))) <| .obj (seen _) <| .obj _ <| .obj 0 <|
        .hyp (by decide) <| .hyp (engine_ready rfl rfl rfl rfl rfl rfl rfl (by decide)) <| .hyp (by unfold votesAgree; decide) <|
        .hyp rfl .completes)
      (.both
        (.obj 6 <| .obj (engined (machine (.mzero 6))) <| .obj (seen _) <| .obj _ <| .obj 0 <| .hyp (by decide) <|
          .hyp (engine_ready rfl rfl rfl rfl rfl rfl rfl (by decide)) <| .hyp (by unfold votesAgree; decide) .completes)
        (.obj (.mma 4 5 0) <| .obj _ <| .obj _ <| .obj _ <| .obj (engined (machine (.mma 4 5 0) ends handled)) <| .obj (seen _) <| .obj engineTeam <|
          .obj 0 <| .hyp rfl <| .hyp (by decide) <| .hyp (inProgress rfl) <| .hyp (names_ready rfl) <| .hyp (.inl ⟨rfl, rfl⟩) <| .hyp (by decide) <|
          .hyp (by decide) <| .one <| .hyp (by decide) .completes)))
set_option maxRecDepth 4000 in
theorem witness_MatrixInstructionsQueueCommands_held : Met Obligations.MatrixInstructionsQueueCommands :=
  .one <| .obj 4 <| .obj 5 <| .obj 1 <| .obj (engined (machine (.mma 4 5 1))) <| .obj (seen _) <| .obj _ <| .obj 0 <| .hyp (by decide) <|
    .hyp (engine_ready rfl rfl rfl rfl rfl rfl rfl (by decide)) <| .hyp (fun _ => by unfold votesAgree; decide) <| .two <|
    .obj 0 <| .obj ((List.range 255).map (· + 1)) <| .hyp rfl <| .hyp (by decide) .completes
theorem witness_MatrixInstructionsQueueCommands_split : Met Obligations.MatrixInstructionsQueueCommands :=
  .two <| .two <| .two <| .obj (.mdrain 3 4 8 1) <| .obj _ <| .obj _ <| .obj _ <| .obj (engined (machine (.mdrain 3 4 8 1) (put 8 (.a 0 1)) handled)) <|
    .obj (seen _) <| .obj _ <| .obj 0 <| .hyp rfl <| .hyp (by decide) <| .hyp (inProgress rfl) <| .hyp (names_ready rfl) <| .hyp (.inl ⟨rfl, rfl⟩) <|
    .hyp (by decide) <| .hyp (by decide) <| .two <| .hyp rfl <| .hyp rfl <| .hyp rfl <| .hyp rfl <| .hyp (by unfold votesAgree; decide) .completes
theorem witness_MatrixInstructionsQueueCommands_zero : Met Obligations.MatrixInstructionsQueueCommands :=
  .two <| .two <| .two <| .obj (.mzero 6) <| .obj _ <| .obj _ <| .obj _ <| .obj (engined (machine (.mzero 6) (put 6 (.a 0 1)) handled)) <|
    .obj (seen _) <| .obj _ <| .obj 0 <| .hyp rfl <| .hyp (by decide) <| .hyp (inProgress rfl) <| .hyp (names_ready rfl) <| .hyp (.inl ⟨rfl, rfl⟩) <|
    .hyp (by decide) <| .hyp (by decide) <| .two <| .hyp rfl <| .hyp rfl <| .hyp rfl <| .hyp rfl <| .hyp (by unfold votesAgree; decide) .completes

/-- The last word of the code, and the word past it. -/
theorem witness_RestartLabelsAndRings : Met Obligations.RestartLabelsAndRings :=
  .both
    (.obj 8 <| .obj (machine (.mrestart 8) (put 8 (.u 0x10104))) <| .obj (seen _) <| .obj _ <| .obj _ <| .hyp (by decide) <|
      .hyp (runs rfl) <| .hyp rfl <| .hyp rfl <| .one <| .hyp (by decide) <| .hyp (.inr (by decide)) .completes)
    (.obj 3 <| .obj 4 <| .obj (engined (machine (.ringset 3 4) (put 4 (.u 0x8000)))) <| .obj (seen _) <| .obj _ <| .obj 0 <|
      .hyp (by decide) <| .hyp (runs rfl) <| .hyp rfl <| .hyp rfl <| .one <| .hyp (by decide) <| .hyp (by decide) <| .hyp (by decide) <|
      .one <| .hyp (by decide) <|
      .hyp (fun h => h.elim (by decide) fun ⟨_, e, k⟩ => k (Option.some.inj e ▸ rfl)) <| .hyp (by decide) .completes)
theorem witness_RestartLabelsAndRings_bad : Met Obligations.RestartLabelsAndRings :=
  .both
    (.obj 8 <| .obj (machine (.mrestart 8) (put 8 (.u 0x10108))) <| .obj (seen _) <| .obj _ <| .obj _ <| .hyp (by decide) <|
      .hyp (runs rfl) <| .hyp rfl <| .hyp rfl <| .two <| .hyp (.inr (by decide)) .completes)
    (.obj 3 <| .obj 4 <| .obj (engined (machine (.ringset 3 4) (put 4 (.u 0x8100)))) <| .obj (seen _) <| .obj _ <| .obj 0 <|
      .hyp (by decide) <| .hyp (runs rfl) <| .hyp rfl <| .hyp rfl <| .two <| .hyp (by decide) .completes)
theorem witness_RestartLabelsAndRings_busy : Met Obligations.RestartLabelsAndRings :=
  .two <| .obj 3 <| .obj 4 <|
    .obj (engined (machine (.ringset 3 4) (put 4 (.u 0x8000))) fun x =>
      { x with rings := Vector.ofFn fun i => if i.val = 0 then some ⟨1, [⟨0, 16, []⟩], 0⟩ else none }) <|
    .obj (seen _) <| .obj _ <| .obj 0 <| .hyp (by decide) <| .hyp (runs rfl) <| .hyp rfl <| .hyp rfl <| .one <| .hyp (by decide) <|
    .hyp (by decide) <| .hyp (by decide) <| .two <| .one <| .hyp (by decide) <| .hyp (.inr ⟨_, rfl, fun h => nomatch h⟩) .completes
/-- Ring 1 holds 1,921 units, so that 128 more are one too many. -/
theorem witness_RestartLabelsAndRings_full : Met Obligations.RestartLabelsAndRings :=
  .two <| .obj 3 <| .obj 4 <|
    .obj (engined (machine (.ringset 3 4) (put 4 (.u 0x8000))) fun x =>
      { x with rings := Vector.ofFn fun i => if i.val = 1 then some ⟨1921, [], 0⟩ else none }) <|
    .obj (seen _) <| .obj _ <| .obj 0 <| .hyp (by decide) <| .hyp (runs rfl) <| .hyp rfl <| .hyp rfl <| .one <| .hyp (by decide) <|
    .hyp (by decide) <| .hyp (by decide) <| .two <| .two <| .hyp (by decide) <|
    .hyp (fun h => h.elim (by decide) fun ⟨_, e, _⟩ => nomatch e) <| .hyp (by decide) .completes

/-- Engine 0 with one command at its head. -/
def command (kind : Nat) (ctl : Word) : EngCmd :=
  { kind := kind, fmt := 0, ctl := ctl, dest := 0x12000, bar := 0, status := some (0, 1), team := 0, table := [], word := 0, seq := none, skipCmp := [] }
/-- An MMA of INT8 operands from rings 0 and 1 into INT32, of no panel. -/
def multiply : EngCmd := { command 1 0x20 with fmt := 0x166 }
def engineAt (st : EngState) (k : EngCmd) (drain : Nat := 0) : State :=
  engined (machine .nop fun g => addOp g (finished g)) fun x => { x with state := st, queue := [k], drainPos := drain }
theorem goes {s : State} {e : Nat} {k : EngCmd} {tm : Team} (h : (s.engine e).queue = [k]) (t : s.team? k.team = some tm)
    (c : (s.ctx tm.ctx).state = .running) (l : lineAsserted s tm.ctx = false) : EngineGoes s e k tm := ⟨⟨[], h⟩, t, .inl c, l⟩
/-- The address of the last chunk of a drain with rows 512 bytes apart. -/
def lastDrain : State := engineAt .running (command 2 0x20000) 4095

theorem witness_EngineEvents : Met Obligations.EngineEvents :=
  .both
    (.obj (engineAt .idle (command 3 0)) <| .obj 0 <| .obj (command 3 0) <| .obj engineTeam <| .hyp (goes rfl rfl rfl rfl) <| .hyp rfl <|
      .hyp rfl <| .hyp rfl .completes)
    (.both
      (.obj (engineAt .idle (command 3 0xFFFFFFFF)) <| .obj 0 <| .obj (command 3 0xFFFFFFFF) <| .obj engineTeam <| .obj _ <| .obj _ <|
        .obj _ <| .hyp (goes rfl rfl rfl rfl) <| .hyp rfl <| .hyp rfl .completes)
      (.both
        (.obj (engineAt .waiting (command 3 0)) <| .obj 0 <| .obj (command 3 0) <| .obj engineTeam <| .hyp (goes rfl rfl rfl rfl) <| .hyp rfl <|
          .hyp rfl <| .hyp (fun _ h => nomatch h) <| .hyp (.inr (.inl (by decide))) <| .hyp rfl .completes)
        (.both
          (.obj lastDrain <| .obj (served (homeAccess lastDrain 224 (engineParty lastDrain 0 engineTeam) entry
              (0x12000 + 512 * 127 + 16 * 31) true)) <| .obj 0 <| .obj (command 2 0x20000) <| .obj engineTeam <| .obj entry <|
            .hyp (goes rfl rfl rfl rfl) <| .hyp (tidy rfl) <| .hyp rfl <| .hyp rfl <| .hyp (by decide) <| .hyp (by decide) <| .hyp rfl <| .hyp rfl <|
            .hyp rfl <| .hyp rfl <| .hyp rfl <| .hyp rfl .completes)
          (.both
            (.obj (engineAt .running (command 3 12)) <| .obj 0 <| .obj (command 3 12) <| .obj engineTeam <| .hyp (goes rfl rfl rfl rfl) <|
              .hyp rfl <| .hyp rfl .completes)
            (.both
              (.obj (engineAt .running multiply) <| .obj 0 <| .obj multiply <| .obj engineTeam <| .hyp (goes rfl rfl rfl rfl) <|
                .hyp rfl <| .hyp rfl <| .hyp rfl <| .hyp rfl <| .hyp (fun _ _ h e => by
                  cases h with
                  | inl h => subst h; cases Option.some.inj e; exact ⟨by decide, fun _ h => nomatch h⟩
                  | inr h => subst h; exact nomatch e) .completes)
              (.both
                (.obj (engineAt .running (command 2 0x20000) 4096) <| .obj 0 <| .obj 0 <| .obj 1 <| .obj (command 2 0x20000) <|
                  .obj engineTeam <| .obj _ <| .obj _ <| .hyp (goes rfl rfl rfl rfl) <| .hyp rfl <| .hyp rfl <| .hyp rfl <| .hyp rfl <|
                  .hyp rfl <| .hyp rfl <| .hyp rfl .completes)
                (.obj (engined (machine .nop) fun x => { x with bound := some (7, 0) }) <| .obj 0 <| .obj 7 <| .obj 0 <| .hyp rfl <|
                  .hyp rfl <| .hyp rfl <| .hyp rfl <| .hyp (fun _ h => nomatch h) .completes)))))))

/-! ## Streams -/

/-- The group holds a slot, and each stream register holds a stream of 256 bits with one ancestor, its own. -/
def streaming (g : Group) : Group :=
  { threads (fun t => { t with streams := Vector.ofFn fun i => ⟨BitVec.ofNat 64 (3 + 2 ^ (16 + i.val)), 5⟩ }) g with streamSlot := true }
theorem stream_ready {s : State} {fs : List Src} {d : Reg} {qs : List Reg} (h : progresses s = true)
    (k : namesFree (seen s) (allNames fs d) = true) (p : srcPorts fs = []) (o : (seen s).gr.ops = [])
    (r : (seen s).gr.streamSlot = true) (f : (s.core (coreOf (seen s).g)).streamBusy = false)
    (u : streamRecorded s (coreOf (seen s).g) (seen s).gr.ctx = false) : StreamReady s (seen s) fs d qs :=
  ⟨inProgress h, names_ready k, .inl ⟨p, rfl⟩, fun l _ q _ => by simp [pendingStream, o], r, f, u⟩
def stream (i : Instr) : State := machine i streaming

theorem witness_StreamInstructions : Met Obligations.StreamInstructions :=
  .both
    (.obj (.smux 2 0 1) <| .obj _ <| .obj _ <| .obj _ <| .obj _ <| .obj _ <| .obj (stream (.smux 2 0 1)) <| .obj (seen _) <| .hyp rfl <|
      .hyp (by decide) <| .hyp (stream_ready rfl rfl rfl rfl rfl rfl rfl) <| .hyp (by decide) .completes)
    (.both
      (.obj (.smux 2 0 2) <| .obj _ <| .obj _ <| .obj _ <| .obj _ <| .obj _ <| .obj _ <| .obj _ <| .obj (machine (.smux 2 0 2) streaming handled) <|
        .obj (seen _) <| .hyp rfl <| .hyp (by decide) <| .hyp (stream_ready rfl rfl rfl rfl rfl rfl rfl) <| .hyp rfl <| .hyp trivial <|
        .hyp (by decide) <| .hyp (by decide) <| .hyp (by decide) .completes)
    (.both
      (.obj 5 <| .obj 7 <| .obj 3 <| .obj (stream (.scnt 5 7 3)) <| .obj (seen _) <| .hyp (by decide) <|
        .hyp (stream_ready rfl rfl rfl rfl rfl rfl rfl) <| .hyp rfl <| .hyp (by decide) .completes)
      (.both
        (.obj 5 <| .obj 7 <| .obj (stream (.scls 5 7)) <| .obj (seen _) <| .hyp (by decide) <| .hyp (runs rfl) <|
          .hyp (fun _ _ => rfl) .completes)
        (.both
          (.obj 1 <| .obj 8 <| .obj 1 <| .obj (stream (.sld 1 8 1)) <| .obj (seen _) <| .obj (fun _ => entry) <| .hyp (by decide) <|
            .hyp (stream_ready rfl rfl rfl rfl rfl rfl rfl) <| .hyp rfl <| .hyp (quiet rfl) <| .hyp (by unfold permitted; decide) .completes)
          (.both
            (.obj 1 <| .obj 8 <| .obj (stream (.sst 1 8)) <| .obj (seen _) <| .obj (fun _ => entry) <| .hyp (by decide) <|
              .hyp (stream_ready rfl rfl rfl rfl rfl rfl rfl) <| .hyp (quiet rfl) <| .hyp (by unfold permitted; decide) .completes)
            (.both
              (.obj (.snot 1 2) <| .obj _ <| .obj _ <| .obj _ <| .obj (machine (.snot 1 2)) <| .obj (seen _) <| .hyp rfl <| .hyp (by decide) <|
                .hyp (inProgress rfl) <| .hyp (names_ready rfl) <| .hyp (.inl ⟨rfl, rfl⟩) <| .hyp rfl <|
                .hyp (lanes (by decide)) <| .hyp rfl <| .hyp rfl <| .hyp trivial <| .one <| .hyp (by decide) <| .hyp rfl .completes)
              (.obj { waiting .streamSlot with cores := [(0, { Core.reset with slotWait := [0, 5] })] } <| .obj 0 <| .obj 0 <| .obj [5] <|
                .obj (waitGroup .streamSlot) <| .hyp rfl <| .hyp rfl <| .hyp (by decide) .completes)))))))
/-- Four other groups of the core hold the slots. -/
def crowded : State :=
  let s := machine (.smov 1 2)
  { s with groups := s.groups ++ [1, 2, 3, 4].map fun g => (g, { wordGroup 0 with streamSlot := true }) }
theorem witness_StreamInstructions_noSlot : Met Obligations.StreamInstructions :=
  .two <| .two <| .two <| .two <| .two <| .two <| .one <| .obj (.smov 1 2) <| .obj _ <| .obj _ <| .obj _ <| .obj crowded <| .obj (seen _) <| .hyp rfl <|
    .hyp (by decide) <| .hyp (inProgress rfl) <| .hyp (names_ready rfl) <| .hyp (.inl ⟨rfl, rfl⟩) <|
    .hyp rfl <| .hyp (lanes (by decide)) <| .hyp rfl <| .hyp rfl <| .hyp trivial <| .two <| .hyp (.inl (by decide)) .completes
/-! ## Classes and outside parties -/

/-- Granule 2^18, the first of the page's frame, in class `cls` of party 7. -/
def classed (cls : Nat) : State :=
  { machine .nop with classes := [(2 ^ 18, { cls := cls, unit := 0, owner := 7, written := false, hold := 0, rhold := false, since := 0, dirty := [] })] }
theorem line {s : State} (a : s.coherenceLost = []) (b : s.poison = []) (c : sizeClash s (2 ^ 18) 0 = false) : lineClear s (2 ^ 30) 0 :=
  ⟨by simp [a], by simp [b], c⟩

theorem witness_HomesClassUnits : Met Obligations.HomesClassUnits :=
  .obj (classed 0) <| .obj 7 <| .obj (2 ^ 30) <| .obj 0 <| .obj true <| .obj none <| .hyp (by decide) <| .hyp (line rfl rfl rfl) <| .hyp ⟨rfl, rfl, rfl⟩ <|
    .hyp (.inl (by decide)) <| .one <| .hyp rfl .some_
theorem witness_HomesClassUnits_owner : Met Obligations.HomesClassUnits :=
  .obj (classed 1) <| .obj 7 <| .obj (2 ^ 30) <| .obj 0 <| .obj true <| .obj none <| .hyp (by decide) <| .hyp (line rfl rfl rfl) <| .hyp ⟨rfl, rfl, rfl⟩ <|
    .hyp (.inl (by decide)) <| .two <| .one <| .hyp rfl <| .hyp rfl .some_
theorem witness_HomesClassUnits_other : Met Obligations.HomesClassUnits :=
  .obj (classed 1) <| .obj 8 <| .obj (2 ^ 30) <| .obj 0 <| .obj false <| .obj none <| .hyp (by decide) <| .hyp (line rfl rfl rfl) <| .hyp ⟨rfl, rfl, rfl⟩ <|
    .hyp (.inl (by decide)) <| .two <| .two <| .one <| .hyp rfl <| .hyp (by decide) .some_
theorem witness_HomesClassUnits_readShared : Met Obligations.HomesClassUnits :=
  .obj (classed 2) <| .obj 8 <| .obj (2 ^ 30) <| .obj 0 <| .obj true <| .obj none <| .hyp (by decide) <| .hyp (line rfl rfl rfl) <| .hyp ⟨rfl, rfl, rfl⟩ <|
    .hyp (.inl (by decide)) <| .two <| .two <| .two <| .one <| .hyp rfl <| .hyp rfl .some_
theorem witness_HomesClassUnits_shared : Met Obligations.HomesClassUnits :=
  .obj (classed 3) <| .obj 8 <| .obj (2 ^ 30) <| .obj 0 <| .obj true <| .obj none <| .hyp (by decide) <| .hyp (line rfl rfl rfl) <| .hyp ⟨rfl, rfl, rfl⟩ <|
    .hyp (.inl (by decide)) <| .two <| .two <| .two <| .two <| .one <| .hyp (.inr (.inl rfl)) <|
    .hyp (fun _ _ h => absurd h (by decide)) .some_
theorem witness_HomesClassUnits_pinned : Met Obligations.HomesClassUnits :=
  .obj (classed 6) <| .obj 8 <| .obj (2 ^ 30) <| .obj 0 <| .obj true <| .obj none <| .hyp (by decide) <| .hyp (line rfl rfl rfl) <| .hyp ⟨rfl, rfl, rfl⟩ <|
    .hyp (.inl (by decide)) <| .two <| .two <| .two <| .two <| .two <| .two <| .hyp rfl <| .hyp rfl .some_
/-- Module 1 holds lines of a Shared-Coherent unit. -/
def peered : State :=
  { classed 3 with
    domain := ⟨0, 3⟩
    classes := [(2 ^ 18, { cls := 3, unit := 0, owner := 7, written := false, hold := 0, rhold := true, since := 0, dirty := [] })] }
theorem witness_HomesClassUnits_held : Met Obligations.HomesClassUnits :=
  .obj peered <| .obj 8 <| .obj (2 ^ 30) <| .obj 0 <| .obj true <| .obj none <| .hyp (by decide) <| .hyp (line rfl rfl rfl) <| .hyp ⟨rfl, rfl, rfl⟩ <|
    .hyp (.inl (by decide)) <| .two <| .two <| .two <| .two <| .two <| .one <| .hyp rfl <| .hyp rfl <| .hyp rfl <| .hyp (by decide) <|
    .hyp (by decide) <| .hyp (by decide) .some_

/-- A walk of page 0 for the TLB of core 0, in a context whose table is at `root`. -/
def walking (root : Nat) : State :=
  let s := machine .nop
  { s with walks := [⟨0, 0, 0, [(0, 0)], 0, 0⟩], contexts := tmap s.contexts fun _ c => { c with root := root } }
def aTransit (recalled drained : List Nat) : Transit := ⟨3, 0, 0, .policy, [0, 5], recalled, drained, 0⟩
def moving (x : Transit) (now : Nat := 0) : State := { classed 1 with transits := [(2 ^ 18, x)], time := now }

/-- The invalidation for a store of party 8 to the first line of the unit, sent to module 1 at time 0. -/
def storeAwaits : Message := ⟨8, 0, 1, 2 ^ 18, 0, false, 2 ^ 16 + 2 ^ 23⟩

theorem witness_CoherenceEvents : Met Obligations.CoherenceEvents :=
  .both (.obj (walking 0x1000) <| .obj 0 <| .obj 0 <| .obj 0x123 <| .obj _ <| .obj entry <| .hyp rfl <| .hyp rfl .completes)
    (.both (.obj (walking 0x5000) <| .obj 0 <| .obj 0 <| .obj 0x123 <| .obj _ <| .obj 0x22 <| .hyp rfl <| .hyp (by decide) <| .hyp rfl .completes)
      (.both
        (.obj (moving (aTransit [] [])) <| .obj 0 <| .obj (2 ^ 18) <| .obj _ <| .hyp rfl <| .hyp (by decide) <| .hyp (by decide) <| .hyp (by decide) .completes)
        (.both
          (.obj (moving (aTransit [0] [])) <| .obj 0 <| .obj (2 ^ 18) <| .obj _ <| .hyp rfl <| .hyp (by decide) <| .hyp (by decide) <|
            .hyp rfl .completes)
          (.both
            (.obj (moving (aTransit [0] [0])) <| .obj 0 <| .obj (2 ^ 18) <| .obj _ <| .hyp (by decide) <| .hyp rfl <| .hyp (by decide) <|
              .hyp (by decide) <| .hyp (by decide) .completes)
            (.both
              (.obj { classed 3 with time := 5000000 } <| .obj (2 ^ 18) <| .hyp (by decide) <| .hyp rfl <| .hyp rfl <| .hyp rfl <|
                .hyp (by decide) .completes)
              (.both
                (.obj (moving (aTransit [] []) 1000000) <| .obj (2 ^ 18) <| .obj _ <| .hyp (by decide) <| .hyp rfl <| .hyp (by decide) .completes)
                (.both
                  (.obj { peered with time := 1000000, messages := [storeAwaits] } <| .obj (2 ^ 18) <| .obj storeAwaits <| .hyp (by decide) <| .hyp rfl <|
                    .hyp (by decide) <| .obj (2 ^ 23) <| .hyp (by decide) <| .hyp (by decide) <| .hyp (by decide) <| .hyp (by decide) .completes)
                  (.obj peered <| .obj (2 ^ 18) <| .hyp (by decide) <| .hyp rfl <| .hyp (by decide) <| .hyp (.inl rfl) <|
                    .hyp (.inr rfl) .completes))))))))

def peer (op : PeerOp) (pa : Nat) : PeerAccess := ⟨2 ^ 23, 0, pa, op⟩

theorem witness_OutsidePartiesAccessMemory : Met Obligations.OutsidePartiesAccessMemory :=
  .both
    (.obj (staged 2 (machine .nop)) <| .obj (served (homeServe (staged 2 (machine .nop)) hostParty (2 ^ 30 + 12) 0 true true none)) <| .obj true <|
      .obj (2 ^ 30 + 12) <| .obj 4 <| .obj [1, 2, 3, 4] <| .hyp (tidy rfl) <| .hyp (by decide) <| .hyp (by decide) <| .hyp (by decide) <| .hyp rfl <|
      .hyp (by decide) <| .hyp (by decide) <| .hyp (fun h => nomatch h) <| .hyp rfl <| .hyp rfl .completes)
    (.both (.obj (machine .nop) <| .obj false <| .obj (2 ^ 39 - 3) <| .obj 4 <| .obj [] <| .hyp (by decide) .equal)
      (.both (.obj { machine .nop with snoopInv := [3] } <| .obj 3 <| .obj [] <| .hyp (tidy rfl) <| .hyp (by decide) .completes)
        (.both
          (.obj (staged 2 (machine .nop)) <| .obj (served (homeServe (staged 2 (machine .nop)) (2 ^ 23) (2 ^ 30) 0 true false none)) <|
            .obj (peer (.store [7]) (2 ^ 30)) <| .hyp (tidy rfl) <| .hyp (by decide) <| .hyp (by decide) <| .hyp rfl <| .hyp (by decide) <|
            .hyp (by decide) <| .hyp (by decide) <| .hyp (fun h => absurd rfl (h _)) <| .hyp rfl .completes)
          (.obj (machine .nop) <| .obj (peer (.load 16) (2 ^ 39 - 8)) <| .hyp (by decide) .equal))))

/-! ## Halting and pre-emption -/

/-- Context 0 in state `st`, with its halt line as given. -/
def halts (st : CtxState) (line : BitVec 8) (f : Group → Group := id) (t : Team → Team := id) : State :=
  { machine .nop f (fun x => { x with state := st }) t with haltLine := line }
def stopped (g : Group) : Group := { g with phase := .stopped, issue := none, fault := some ⟨0x24, 1, 1, 2⟩ }
theorem none_op {gr : Group} {p : Op → Prop} (h : currentOp gr = none) : ∀ o, currentOp gr = some o → p o := fun o k => by
  rw [h] at k; exact nomatch k

theorem witness_HaltingEvents : Met Obligations.HaltingEvents :=
  .both (.obj (halts .halting 0) <| .obj 0 <| .obj 0 <| .hyp (by decide) <| .hyp rfl <| .hyp rfl <| .hyp rfl <| .hyp rfl .completes)
    (.both
      (.obj (halts .halting 1) <| .obj 0 <| .obj 0 <| .obj _ <| .hyp (by decide) <| .hyp rfl <| .hyp ⟨rfl, rfl, rfl⟩ <| .hyp rfl <|
        .hyp (none_op rfl) .completes)
      (.both
        (.obj (engined (halts .halting 1)) <| .obj 0 <| .obj 0 <| .obj 0 <| .obj 0 <| .obj plainLaunch <| .hyp (by decide) <|
          .hyp (by decide) <| .hyp rfl <| .hyp rfl <| .hyp rfl <| .hyp rfl <| .hyp (by decide) .completes)
        (.both
          (.obj { halts .halting 1 with copies := [(5, aCopy)] } <| .obj 0 <| .obj 0 <| .hyp (by decide) <| .hyp (by decide) <| .hyp rfl <|
            .hyp (by decide) .completes)
          (.both
          (.obj (halts .halting 1 streaming) <| .obj 0 <| .obj 0 <| .hyp (by decide) <| .hyp (by decide) <| .hyp rfl <| .hyp rfl .completes)
          (.both
            (.obj (halts .halting 1 stopped) <| .obj _ <| .obj 0 <| .obj 0 <| .obj _ <| .obj _ <| .hyp (tidy rfl) <| .hyp rfl <| .hyp rfl <| .hyp rfl <|
              .hyp rfl <| .hyp rfl <| .hyp rfl <| .hyp rfl <| .hyp rfl <| .hyp rfl <| .hyp rfl <| .hyp rfl <| .hyp rfl <| .hyp rfl .completes)
            (.both
              (.obj { halts .halting 1 with groups := [] } <| .obj 0 <| .obj 0 <| .hyp (by decide) <| .hyp ⟨rfl, rfl, rfl⟩ <|
                .hyp rfl .completes)
              (.obj (machine .nop id fun x => { x with state := .halting, partition := none }) <| .obj 0 <| .hyp rfl <|
                .hyp rfl .completes)))))))

/-- A request has stood for the whole grace period of 20 µs. -/
def graced (f : Group → Group) (t : Team → Team := id) : State := { halts .saving 0 (fun g => f { g with preempt := some 0 }) t with time := 20000 }
def savedGroup : SavedGroup := ⟨0, wordGroup 0, none, [], [], [], []⟩
def free (st : CtxState) : State :=
  { machine .nop id (fun x => { x with state := st, partition := none }) with partCtx := Vector.replicate 8 none }

theorem witness_PreemptionEvents : Met Obligations.PreemptionEvents :=
  .both (.obj (machine .nop) <| .obj 0 <| .hyp rfl .completes)
    (.both
      (.obj (graced id) <| .obj 0 <| .obj 0 <| .obj _ <| .hyp rfl <| .hyp rfl <| .hyp rfl <| .hyp (by decide) <| .hyp rfl <|
        .hyp (by decide) .completes)
      (.both
        (.obj (graced fun g => { g with phase := .saving (some 3), issue := none }) <| .obj _ <| .obj 0 <| .obj _ <| .obj _ <| .obj (some 3) <|
          .hyp rfl <| .hyp rfl <| .hyp rfl <| .hyp rfl <| .hyp (by decide) <| .hyp rfl <| .hyp rfl <| .hyp rfl <| .hyp (.inl rfl) .completes)
        (.both
          (.obj { graced id (fun t => { t with groups := [], saved := [savedGroup] }) with groups := [] } <| .obj 0 <| .obj _ <| .hyp rfl <|
            .hyp rfl <| .hyp rfl <| .hyp rfl <| .hyp (fun h => nomatch h) <| .hyp rfl .completes)
          (.both
            (.obj (free .ready) <| .obj 0 <| .obj 0 <| .hyp (by decide) <| .hyp rfl <| .hyp (by decide) <| .hyp (.inl rfl) <| .hyp rfl <|
              .hyp rfl <| .one <| .hyp rfl .completes)
            (.both
              (.obj { halts .restoring 0 id (fun t => { t with groups := [], saved := [savedGroup] }) with groups := [] } <| .obj 0 <|
                .obj 0 <| .obj _ <| .hyp rfl <| .hyp rfl <| .hyp (by decide) <| .hyp rfl <| .hyp (fun h => nomatch h) <| .hyp (by decide) <|
                .hyp (by decide) <| .hyp rfl <| .hyp rfl <| .hyp rfl <| .hyp rfl <| .hyp (by decide) <| .hyp rfl <| .hyp (by decide) .completes)
              (.obj { machine .nop with groups := [], teams := [] } <| .obj 0 <| .obj 0 <| .hyp (by decide) <| .hyp rfl <| .hyp rfl <|
                .hyp (by decide) <| .hyp (fun _ h => nomatch h) <| .hyp (fun _ h => nomatch h) <| .hyp rfl .completes))))))
theorem witness_PreemptionEvents_saved : Met Obligations.PreemptionEvents :=
  .two <| .two <| .two <| .two <| .one <| .obj (free .saved) <| .obj 0 <| .obj 0 <| .hyp (by decide) <| .hyp rfl <| .hyp (by decide) <|
    .hyp (.inl rfl) <| .hyp rfl <| .hyp rfl <| .two <| .hyp rfl .completes

/-! ## Host queues, launches, teams -/

/-- Host queue 0 is Open for context 0 and holds the commands `ks`. -/
def queued (ks : List HostCmd) (s : State := machine .nop) (h : HostQueue := .reset) : State :=
  { s with hostQueues := [(0, { h with ctx := 0, state := .open_, cmds := ks })] }
def cmd (b : List Byte) : HostCmd := freshCmd 0 (b ++ List.replicate (64 - b.length) 0)
def begun (b : List Byte) : HostCmd := { cmd b with started := true }
theorem eq_nil_all {α : Type} {p : α → Prop} : ∀ x ∈ ([] : List α), p x := fun _ h => nomatch h

theorem witness_HostQueueRegisters : Met Obligations.HostQueueRegisters :=
  .both (.obj .reset <| .obj 0 <| .obj 0 <| .obj 65 <| .obj true <| .hyp rfl <| .obj (.hqtailWrite 0 65) <| .hyp (by simp) .equal)
    (.both (.obj (staged 1 (queued [])) <| .obj 0 <| .obj 65 <| .hyp (by decide) <| .hyp (by decide) .completes)
      (.both
        (.obj (staged 1 (queued [])) <| .obj 0 <| .hyp (by decide) <| .hyp rfl <| .hyp rfl <| .hyp rfl <| .hyp rfl <| .hyp (by decide) <|
          .hyp rfl <| .hyp rfl .completes)
        (.both (.obj (staged 1 { machine .nop with hostQueues := [(0, { HostQueue.reset with state := .bound })] }) <| .obj 0 <|
          .hyp (by decide) <| .hyp (.inl rfl) .completes)
          (.both (.obj (staged 1 (queued [])) <| .obj 0 <| .hyp (by decide) <| .hyp rfl .completes)
            (.both (.obj (staged 1 { machine .nop with hostQueues := [(0, { HostQueue.reset with state := .unbound })] }) <| .obj 0 <|
                .obj true <| .hyp (by decide) .completes)
              (.both (.obj (staged 1 (queued [])) <| .obj 0 <| .hyp (by decide) .completes)
                (.both (.obj (staged 1 .reset) <| .obj 0 <| .obj 7 <| .hyp (by decide) .completes)
                  (.both (.obj (staged 1 .reset) <| .obj 0 <| .obj true <| .hyp (by decide) .completes)
                    (.obj (machine .nop id fun x => { x with ring := { x.ring with timer := some 0 } }) <| .obj 0 <| .obj 0 <| .hyp rfl <|
                      .hyp (by decide) .completes)))))))))

/-- The command's barrier word, at 0x13000, reads `b`. -/
def barWord (b : List Byte) (s : State) : State := { s with mem := mwrite s.mem (2 ^ 30 + 0x13000) b }
/-- The fields of a command that name 0x13000 and, at byte 16, `n`. -/
def onBar (op n : Byte) : List Byte := [op, 0, 0, 0, 0, 0, 0, 0, 0, 0x30, 1, 0, 0, 0, 0, 0, n]

theorem witness_HostCommandsRun : Met Obligations.HostCommandsRun :=
  .both (.obj (queued [cmd [6]]) <| .obj 0 <| .obj 0 <| .obj _ <| .hyp rfl .completes)
    (.both
      (.obj (barWord [32, 0, 0, 0, 32, 0, 0, 0, 0, 0, 0, 0, 32] (queued [cmd (onBar 3 1)])) <|
        .obj (served (homeAccess (barWord [32, 0, 0, 0, 32, 0, 0, 0, 0, 0, 0, 0, 32] (queued [cmd (onBar 3 1)])) 256
          (cmdParty (queued []) 0) entry 0x13000 true true)) <|
        .obj 0 <| .obj 0 <| .obj (cmd (onBar 3 1)) <| .obj entry <| .obj (31, 32, 0, 32) <| .hyp (tidy rfl) <| .hyp rfl <| .hyp rfl <| .hyp rfl <|
        .hyp ⟨rfl, rfl, rfl, rfl⟩ <| .hyp rfl <| .hyp (by unfold plainBarrier plainBytes; decide) <| .hyp rfl <| .hyp rfl .completes)
      (.both (.obj (queued [cmd (onBar 3 0)]) <| .obj 0 <| .obj 0 <| .obj 3 <| .obj (.signal 0 0) <| .obj _ <| .hyp (by decide) <| .hyp rfl <|
          .hyp (.inl rfl) .completes)
        (.both (.obj (queued []) <| .obj 0 <| .obj (cmd (onBar 3 0)) .just)
        (.both (.obj (queued [cmd (onBar 4 0)]) <| .obj 0 <| .obj 0 <| .obj _ <| .hyp rfl <| .hyp rfl <| .hyp rfl .completes)
          (.both
            (.obj (barWord [32, 0, 0, 0, 32, 0, 0, 0, 1, 0, 0, 0, 32] (queued [begun (onBar 4 0)])) <|
              .obj _ <| .obj 0 <| .obj 0 <| .obj (begun (onBar 4 0)) <| .obj entry <| .hyp rfl <| .hyp rfl <| .hyp rfl <| .hyp rfl <|
              .hyp (by unfold plainBarrier plainBytes; decide) <| .hyp rfl <| .hyp rfl <| .hyp rfl <| .hyp rfl .completes)
            (.both
              (.obj (barWord [32, 0, 0, 0, 32, 0, 0, 0, 0, 0, 0, 0, 32]
                (queued [begun (onBar 4 0)] (machine .nop id fun x => { x with runNs := 10 ^ 8 }))) <| .obj 0 <| .obj 0 <|
                .obj (begun (onBar 4 0)) <| .obj entry <| .hyp rfl <| .hyp rfl <| .hyp rfl <| .hyp rfl <|
                .hyp (by unfold plainBarrier plainBytes; decide) <| .hyp rfl <| .hyp rfl <| .hyp rfl <| .hyp (.inl (by decide)) .completes)
              (.both
                (.obj (queued [cmd [2]]) <| .obj 0 <| .obj 0 <| .obj _ <| .hyp rfl <| .hyp rfl <| .hyp rfl <| .hyp rfl <|
                  .hyp (by decide) .completes)
                (.both
                  (.obj (queued [cmd [5, 0, 0, 0, 0, 0, 0, 0, 1]]) <| .obj 0 <| .obj 0 <| .obj _ <| .hyp rfl <| .hyp rfl <| .hyp rfl <|
                    .two <| .hyp rfl .completes)
                  (.obj { machine .nop with groups := [], cores := [(0, { Core.reset with testing := some (0, 0) })] } <| .obj 0 <|
                    .obj 0 <| .obj 0 <| .obj false <| .hyp rfl <| .hyp eq_nil_all .completes)))))))))
theorem witness_HostCommandsRun_slices : Met Obligations.HostCommandsRun :=
  .two <| .two <| .two <| .two <| .two <| .two <| .two <| .two <| .one <|
    .obj { queued [cmd [5, 0, 0, 0, 0, 0, 0, 0, 1]] with parts := Vector.replicate 8 ⟨2, 500⟩ } <| .obj 0 <| .obj 0 <| .obj _ <|
    .hyp rfl <| .hyp rfl <| .hyp rfl <| .one <| .hyp (by decide) .completes

theorem witness_LaunchesStartAndEnd : Met Obligations.LaunchesStartAndEnd :=
  .both
    (.obj (queued [cmd launchBytes]) <| .obj _ <| .obj _ <| .obj 0 <| .obj 0 <| .obj 0 <|
      .obj (cmd launchBytes) <| .obj plainImage <| .obj [] <| .obj [] <| .obj [] <| .obj [] <| .hyp (by decide) <| .hyp rfl <| .hyp rfl <|
      .hyp rfl <| .hyp rfl <| .hyp rfl <| .hyp (.inl rfl) <| .hyp rfl <| .hyp rfl <| .hyp rfl <| .hyp rfl <| .hyp rfl <| .hyp rfl <|
      .hyp (by decide) .completes)
    (.both (.obj (queued [cmd [1]]) <| .obj 0 <| .obj 0 <| .obj _ <| .hyp rfl <| .hyp rfl .completes)
      (.both
        (.obj (queued [{ begun [6, 1] with ended := some 0 }]) <| .obj 0 <| .obj 0 <| .obj _ <| .hyp (by decide) <| .hyp rfl <| .hyp rfl <|
          .hyp rfl <| .hyp rfl <| .hyp rfl <| .hyp rfl <| .hyp rfl <| .hyp (by decide) .completes)
        (.obj { machine .nop with launches := [(0, { plainLaunch with retired := 1 })] } <| .obj 0 <| .obj _ <| .hyp rfl <| .hyp rfl <|
          .hyp rfl <| .hyp (.inl rfl) .completes)))

/-- No team has started; core 0 holds the record of one in slot 3. -/
def bound : State :=
  { machine .nop with groups := [], teams := [], cores := [(0, { Core.reset with slots := [(3, ⟨1, 0, 0, 0, 0, 0, 0, 5, 0, 255, 0, 0⟩)] })] }
def aTask : Task := ⟨0, 0x10100, .zero, none, 0⟩
def tasks (f : TaskQueue → TaskQueue) : State :=
  let s := { machine .nop with groups := [], teams := [], contexts := tmap (machine .nop).contexts fun _ c => { c with poolLen := 2 ^ 20, poolBase := 2 ^ 20 } }
  s.modTaskQueue 0 0 f
def exited (g : Group) : Group := { threads ({ · with exited := true }) g with issue := none }

set_option maxRecDepth 4000 in
theorem witness_TeamEvents : Met Obligations.TeamEvents :=
  .both (.obj .reset <| .obj 0 <| .obj 3 <| .obj 1 <| .hyp (by decide) <| .hyp (by decide) <| .hyp rfl <| .hyp rfl <| .hyp rfl .completes)
    (.both
      (.obj { bound with contexts := tmap bound.contexts fun _ c => { c with poolLen := 2 ^ 20, poolBase := 2 ^ 20 } } <| .obj 0 <|
        .obj 3 <|
        .obj 5 <| .obj _ <| .obj plainLaunch <| .obj plainImage <| .obj 0x10200 <| .obj [] <| .hyp rfl <| .hyp rfl <| .hyp rfl <| .hyp rfl
          .completes)
      (.both (.obj bound <| .obj 0 <| .obj 3 <| .obj _ <| .hyp rfl <| .hyp rfl <| .hyp (by decide) .completes)
        (.both
          (.obj { tasks (fun q => { q with queued := [aTask], requests := [2] }) with time := 500 } <| .obj 0 <| .obj 0 <|
            .hyp (by decide) <| .hyp (by decide) <| .hyp (by decide) .completes)
          (.both
            (.obj (tasks fun q => { q with queued := [aTask] }) <| .obj 0 <| .obj 0 <| .hyp rfl <| .hyp rfl <| .hyp rfl <| .hyp rfl <|
              .hyp (by decide) <| .hyp (by decide) .completes)
            (.both
              (.obj (tasks fun q => { q with formed := [[{ aTask with entry := 0x10200 }]] }) <|
                .obj ((startTasks (tasks fun q => { q with formed := [[{ aTask with entry := 0x10200 }]] }) 0 0 [{ aTask with entry := 0x10200 }]).getD .reset) <|
                .obj 0 <| .obj 0 <| .obj _ <| .obj [] <| .hyp rfl <| .hyp rfl <| .hyp rfl <| .hyp rfl <| .hyp rfl <| .hyp rfl .completes)
              (.obj (machine .nop exited) <| .obj 0 <| .obj _ <| .obj _ <| .hyp rfl <| .hyp rfl <| .hyp rfl <| .hyp rfl <| .hyp rfl <|
                .hyp rfl <| .hyp rfl <| .hyp rfl <| .hyp rfl <| .two <| .hyp rfl <| .hyp rfl <| .hyp rfl <| .hyp rfl <| .hyp rfl <|
                  .obj plainLaunch <| .hyp rfl .completes))))))
theorem witness_TeamEvents_other : Met Obligations.TeamEvents :=
  .two <| .two <| .two <| .two <| .two <| .two <|
    .obj (gathering [0, 1] (machine .nop exited)) <| .obj 0 <| .obj _ <| .obj _ <| .hyp rfl <| .hyp rfl <| .hyp rfl <| .hyp rfl <|
      .hyp rfl <|
      .hyp rfl <| .hyp rfl <| .hyp rfl <| .hyp rfl <| .one <| .hyp (.inl (by decide)) .completes

/-! ## Management requests -/

set_option maxRecDepth 10000

/-- A request of opcode `op` whose bytes are zero but those listed. -/
def ask (op : Nat) (fs : List (Nat × Byte)) : Request :=
  ⟨0, op, 0, (List.range 128).map fun i => if i = 0 then BitVec.ofNat 8 op else ((fs.find? (·.1 == i)).map (·.2)).getD 0, false, [], [], 0⟩
/-- It has started and reached `phase`. -/
def reached (r : Request) (phase : Nat) (waiting : List Nat := []) (result : List Byte := []) : Request :=
  { r with started := true, phase := phase, waiting := waiting, result := result }
/-- It is the one request in flight, in stage 2; its completion goes to 2^21. -/
def asking (r : Request) (s : State := .reset) : State :=
  { s with boot := { s.boot with stage := 2 }, mgmt := { s.mgmt with en := true, inflight := [r], mcqbase := 2 ^ 21 } }
def flies (s : State) (op : Nat) (r : Request) : Bool :=
  s.mgmt.inflight == [r] && r.opcode == op && s.mgmt.mrqtail == s.mgmt.mrqhead && s.mem.wf && s.hostMem.wf && s.peerMem.wf
theorem inFlight_of {s : State} {op : Nat} {r : Request} (h : flies s op r = true) : InFlight s op r := by
  simp only [flies, Bool.and_eq_true, beq_iff_eq] at h
  exact ⟨h.1.1.1.1.1, h.1.1.1.1.2, h.1.1.1.2, h.1.1.2, h.1.2, h.2⟩
def zeros (r : Request) (lo hi : Nat) : Bool := (List.range hi).all fun i => decide (i < lo) || r.arg i 1 == 0
theorem zero_args {r : Request} {lo hi : Nat} (h : zeros r lo hi = true) : ZeroArgs r lo hi := fun i a b => by
  simp only [zeros, List.all_eq_true, List.mem_range, Bool.or_eq_true, decide_eq_true_eq, beq_iff_eq] at h
  exact (h i b).resolve_left (by omega)
theorem turn {s : State} {op : Nat} {r : Request} (h : flies s op r = true) (k : canStart s r = true) (z : zeros r 1 4 = true)
    (f : r.phase = 0) : Turn s op r := { inFlight_of h with start := k, zero := zero_args z, fresh := f }
theorem going {s : State} {op p : Nat} {r : Request} (h : flies s op r = true) (k : r.started = true) (z : r.phase = p)
    (f : s.mgmt.held = []) (g : (s.mgmt.mcqprod - s.mgmt.mcqcons).toNat < 2 ^ s.mgmt.mcqsize) : Going s op p r :=
  { inFlight_of h with started := k, phase := z, held := f, space := g }

/-- No request is in flight; the ring's first entry, at 2^20, has byte 0 `op`. -/
def served_ (op : Byte) : State :=
  { State.reset with
    mem := mwrite [] (2 ^ 20) [op], boot := { Boot.reset with stage := 2 }
    mgmt := { Mgmt.reset with en := true, mcqbase := 2 ^ 21, mrqbase := 2 ^ 20 } }

theorem witness_RequestRings : Met Obligations.RequestRings :=
  .both (.obj (served_ 0x40) <| .hyp rfl <| .hyp rfl <| .hyp rfl <| .hyp rfl <| .one <| .hyp (by decide) .completes)
    (.both
      (.obj (served_ 0x40) <| .obj 65 <| .hyp rfl <| .hyp rfl <| .hyp rfl <| .hyp (by decide) <| .hyp rfl <| .hyp (by decide) <|
        .hyp ⟨rfl, rfl, rfl⟩ .completes)
      (.both
        (.obj { served_ 0x40 with mgmt := { (served_ 0x40).mgmt with held := [List.replicate 32 7] } } <| .obj 0 <| .obj _ <| .hyp rfl <|
          .hyp rfl <| .hyp rfl <| .hyp (by decide) <| .hyp ⟨rfl, rfl, rfl⟩ <| .hyp rfl <| .hyp (by decide) .completes)
        (.obj (Instr.power, 0x40) <| .hyp (by simp [requestRows]) <| .obj (asking (ask 0x40 [(1, 1)])) <| .obj (ask 0x40 [(1, 1)]) <|
          .hyp (inFlight_of rfl) <|
          .hyp rfl <| .hyp (by decide) .completes)))
theorem witness_RequestRings_unknown : Met Obligations.RequestRings :=
  .one <| .obj (served_ 0x50) <| .hyp rfl <| .hyp rfl <| .hyp rfl <| .hyp rfl <| .two <| .hyp (by decide) <| .hyp rfl <| .hyp (by decide) <|
    .hyp ⟨rfl, rfl, rfl⟩ .completes

/-- Context 0 in state `st`, with its page table at 0x1000, and what `f` makes of it. -/
def one (st : CtxState) (f : Context → Context := id) : State :=
  { State.reset with contexts := [(0, f { Context.free with state := st, root := 0x1000 })], mem := tables }
/-- CREATE with one image, named at 0x60000, and a root, a stop area and task-queue storage. -/
def creates : Request :=
  ask 1 [(10, 0x20), (18, 0x50), (40, 10), (41, 1), (46, 1), (50, 6), (76, 0x20), (84, 0x40), (92, 0x60)]
/-- The page table, the name of the image at 0x60000, and at virtual address 0x10000 the image: encoding 3, eight stages of one group,
a window of 128 entries, STACKN 128, PRIVB 512, its CRC, and four bytes of code that are zero. -/
def imaged : State :=
  { one .loading with
    mem := tables ++ [(0x60002, 1)] ++
      [(0x40010000, 73), (0x40010001, 75), (0x40010002, 55), (0x40010003, 77), (0x40010004, 1), (0x40010006, 3), (0x40010007, 8),
        (0x40010009, 1), (0x4001000A, 128), (0x40010011, 16), (0x40010014, 4), (0x4001004C, 128), (0x40010051, 2), (0x40010054, 204),
        (0x40010055, 3), (0x40010056, 91), (0x40010057, 89)] }

/-- All 256 contexts are in use. -/
def full : State :=
  { State.reset with contexts := (List.range 256).map fun c => (c, { Context.free with state := .ready, stopArea := 2 ^ 30 + 2 ^ 20 * c }) }
theorem tget_each {α : Type} (f : Nat → α) : ∀ (l : List Nat) (c : Nat), c ∈ l → tget (l.map fun c => (c, f c)) c = some (f c)
  | [], _, h => nomatch h
  | x :: l, c, h => by
    simp only [List.map_cons, tget]
    split <;> rename_i k
    · rw [k]
    · exact tget_each f l c ((List.mem_cons.1 h).resolve_left fun e => k e.symm)
theorem full_busy (c : Nat) (h : c < 256) : ((asking creates full).ctx c).state ≠ .free := by
  have k : (asking creates full).ctx c = { Context.free with state := .ready, stopArea := 2 ^ 30 + 2 ^ 20 * c } := by
    show (tget full.contexts c).getD .free = _
    rw [show tget full.contexts c = _ from tget_each _ _ c (List.mem_range.2 h)]; rfl
  rw [k]; exact fun h => nomatch h

/-- Partition 0 gets every slice, and each partition 500 µs. -/
def partitions : List (Nat × Byte) := (8, 0xFF) :: (List.range 8).flatMap fun p => [(16 + 4 * p, 0xF4), (17 + 4 * p, 1)]
def profiled : Debug := ⟨0, 8, false, 0, 0, 0, 0, 2 ^ 22, [], [], [], [], 0, 0, 0, 2 ^ 20, []⟩

theorem witness_ContextRequests : Met Obligations.ContextRequests :=
  .both (.obj (asking creates) <| .obj creates <| .obj 0 <| .hyp (turn rfl rfl rfl rfl) <| .hyp rfl <| .hyp (by decide) <| .hyp rfl <|
      .hyp (fun _ h => absurd h (Nat.not_lt_zero _)) .completes)
    (.both
      (.obj (asking creates full) <|
        .obj creates <| .hyp (turn rfl rfl rfl rfl) <| .hyp rfl <| .hyp full_busy .completes)
      (.both
        (.obj (asking (reached creates 1 [] [0]) imaged) <| .obj (reached creates 1 [] [0]) <| .obj 0 <|
          .hyp (going rfl rfl rfl rfl (by decide)) <| .hyp rfl <| .hyp rfl <| .hyp (fun _ _ => rfl) <|
          .two <| .hyp (by decide +kernel) .completes)
        (.both
          (.obj (asking (reached creates 2 [2 ^ 20] [0]) { one .loading with classes := (classed 6).classes }) <|
            .obj (reached creates 2 [2 ^ 20] [0]) <| .obj 0 <|
            .hyp (going rfl rfl rfl rfl (by decide)) <| .hyp rfl <| .hyp (by decide) .completes)
          (.both
            (.obj (asking (ask 2 []) (machine .nop)) <| .obj (ask 2 []) <| .hyp (turn rfl rfl rfl rfl) <| .hyp (zero_args rfl) <|
              .hyp rfl <|
              .hyp rfl <| .hyp (by decide) <| .hyp (by decide) <| .hyp (by decide) .completes)
            (.both (.obj (one .killed) <| .obj 0 <| .hyp rfl <| .hyp rfl <| .hyp eq_nil_all .completes)
              (.both (.obj (asking (reached (ask 2 []) 2)) <| .obj (reached (ask 2 []) 2) <| .hyp (going rfl rfl rfl rfl (by decide)) <|
                .hyp rfl .completes)
                (.both
                  (.obj (asking (ask 3 []) (one .halted)) <| .obj (ask 3 []) <| .hyp (turn rfl rfl rfl rfl) <| .hyp (zero_args rfl) <|
                    .hyp rfl <|
                    .one <| .hyp rfl <| .hyp eq_nil_all .completes)
                  (.both
                    (.obj (asking (ask 3 []) (one .running)) <| .obj (ask 3 []) <| .hyp (turn rfl rfl rfl rfl) <| .hyp (zero_args rfl) <|
                      .hyp rfl .completes)
                    (.both
                      (.obj (asking (ask 4 []) (machine .nop)) <| .obj (ask 4 []) <| .hyp (turn rfl rfl rfl rfl) <| .hyp (zero_args rfl) <|
                        .hyp rfl .completes)
                      (.both
                        (.obj (asking (reached (ask 4 []) 1) (one .halted)) <| .obj (reached (ask 4 []) 1) <|
                          .hyp (going rfl rfl rfl rfl (by decide)) <|
                          .hyp rfl .completes)
                        (.both
                          (.obj (asking (ask 5 []) (one .ready)) <| .obj (ask 5 []) <| .obj 0 <| .hyp (turn rfl rfl rfl rfl) <|
                            .hyp (zero_args rfl) <| .hyp rfl <| .hyp (.inl rfl) <| .one <| .hyp (by decide) .completes)
                          (.both
                            (.obj (asking (ask 6 partitions) (one .halted)) <| .obj (ask 6 partitions) <| .hyp (turn rfl rfl rfl rfl) <|
                              .hyp (zero_args rfl) <| .hyp rfl <|
                              .hyp (fun i h => ⟨0, by decide, by revert i; decide, by revert i; decide⟩) <| .hyp (by decide) <|
                              .hyp (by unfold AtRest; decide) .completes)
                            (.both
                              (.obj (asking (ask 7 []) (one .ready)) <| .obj (ask 7 []) <| .hyp (turn rfl rfl rfl rfl) <|
                                .hyp (zero_args rfl) <|
                                .hyp (by decide) <| .one <| .hyp (by decide) <| .hyp (by decide) <| .hyp (by decide) <| .hyp rfl .completes)
                              (.both
                                (.obj (asking (ask 0x20 []) (one .saved)) <| .obj (ask 0x20 []) <| .hyp (turn rfl rfl rfl rfl) <|
                                  .hyp (zero_args rfl) <| .hyp (zero_args rfl) <| .hyp (.inr (.inl rfl)) <| .one <| .hyp rfl .completes)
                                (.obj (asking (ask 0x21 []) (one .ready fun x => { x with debug := some profiled })) <|
                                  .obj (ask 0x21 []) <|
                                  .obj profiled <| .hyp (turn rfl rfl rfl rfl) <| .hyp (zero_args rfl) <| .hyp (by decide) <|
                                  .hyp (by decide) <| .hyp rfl <| .hyp (by decide) <| .hyp (by decide) .completes)))))))))))))))
theorem witness_ContextRequests_badImage : Met Obligations.ContextRequests :=
  .two <| .two <| .one <| .obj (asking (reached creates 1 [] [0])) <| .obj (reached creates 1 [] [0]) <| .obj 0 <|
    .hyp (going rfl rfl rfl rfl (by decide)) <| .hyp rfl <| .hyp rfl <| .hyp (fun _ _ => rfl) <| .one <| .obj 0 <| .hyp (by decide) <|
    .hyp (fun _ h => absurd h (Nat.not_lt_zero _)) <| .hyp (by decide) .completes
theorem witness_ContextRequests_held : Met Obligations.ContextRequests :=
  .two <| .two <| .two <| .two <| .two <| .two <| .two <| .one <|
    .obj (asking (ask 3 []) (one .halted fun x => { x with ring := { x.ring with held := [[1]] } })) <| .obj (ask 3 []) <|
    .hyp (turn rfl rfl rfl rfl) <| .hyp (zero_args rfl) <| .hyp rfl <| .two <| .hyp (by decide) .completes
theorem witness_ContextRequests_noSlices : Met Obligations.ContextRequests :=
  .two <| .two <| .two <| .two <| .two <| .two <| .two <| .two <| .two <| .two <| .two <| .one <|
    .obj (asking (ask 5 [(9, 1)]) (one .ready)) <| .obj (ask 5 [(9, 1)]) <| .obj 1 <| .hyp (turn rfl rfl rfl rfl) <|
    .hyp (zero_args rfl) <| .hyp rfl <| .hyp (.inl rfl) <| .two <| .hyp (by decide) .completes
theorem witness_ContextRequests_unbind : Met Obligations.ContextRequests :=
  .two <| .two <| .two <| .two <| .two <| .two <| .two <| .two <| .two <| .two <| .two <| .two <| .two <| .one <|
    .obj (asking (ask 7 [(10, 255)]) { State.reset with hostQueues := [(0, { HostQueue.reset with state := .closed })] }) <|
    .obj (ask 7 [(10, 255)]) <| .hyp (turn rfl rfl rfl rfl) <| .hyp (zero_args rfl) <| .hyp (by decide) <| .two <| .hyp rfl <|
    .hyp (.inr rfl) .completes
/-- The descriptor at 2^20, whose byte 13 must be zero. -/
def describes (b : Byte) : State := asking (ask 0x20 [(18, 0x10)]) { one .ready with mem := if b = 0 then tables else tables ++ [(2 ^ 20 + 13, b)] }
theorem witness_ContextRequests_descriptor : Met Obligations.ContextRequests :=
  .two <| .two <| .two <| .two <| .two <| .two <| .two <| .two <| .two <| .two <| .two <| .two <| .two <| .two <| .one <|
    .obj (describes 0) <| .obj (ask 0x20 [(18, 0x10)]) <| .hyp (turn rfl rfl rfl rfl) <| .hyp (zero_args rfl) <| .hyp (zero_args rfl) <|
    .hyp (.inl rfl) <| .two <| .one <| .hyp (by decide) <| .hyp (by decide) <| .hyp rfl <| .hyp rfl <| .hyp rfl <| .hyp (fun _ _ => rfl) .completes
theorem witness_ContextRequests_badDescriptor : Met Obligations.ContextRequests :=
  .two <| .two <| .two <| .two <| .two <| .two <| .two <| .two <| .two <| .two <| .two <| .two <| .two <| .two <| .one <|
    .obj (describes 1) <| .obj (ask 0x20 [(18, 0x10)]) <| .hyp (turn rfl rfl rfl rfl) <| .hyp (zero_args rfl) <| .hyp (zero_args rfl) <|
    .hyp (.inl rfl) <| .two <| .two <| .hyp (by decide) <| .hyp (by decide) <| .hyp rfl <| .hyp (.inl rfl) .completes

/-- A unit of frame address 2^30 in class `cls`, with its context Ready. -/
def paged (r : Request) (cls : Nat := 1) : State := asking r { one .ready with classes := (classed cls).classes }
/-- The address at byte 16 is 2^30, the length at byte 24 one granule. -/
def granule : List (Nat × Byte) := [(19, 0x40), (25, 0x10)]

theorem flip_first {r : Request} {g : Nat} {p : Nat → Prop} (e : r.arg 16 8 / 4096 = g) : ∀ h, h < g → inFlip r h → p h :=
  fun _ a b => absurd (e ▸ b.1) (Nat.not_le.2 a)

theorem witness_PageRequests : Met Obligations.PageRequests :=
  .both
    (.obj (asking (ask 0x10 [(18, 0x10), (26, 0x10)]) { one .ready with tlbs := [(0, [entry])] }) <|
      .obj (ask 0x10 [(18, 0x10), (26, 0x10)]) <|
      .hyp (turn rfl rfl rfl rfl) <| .hyp (zero_args rfl) <| .hyp (zero_args rfl) <| .hyp rfl <| .hyp rfl <| .hyp (by decide) <|
      .hyp (by decide) <| .hyp (by decide) <| .hyp rfl .completes)
    (.both
      (.obj (paged (ask 0x12 [(19, 0x40), (24, 6)])) <| .obj (ask 0x12 [(19, 0x40), (24, 6)]) <| .hyp (turn rfl rfl rfl rfl) <|
        .hyp (zero_args rfl) <|
        .hyp (zero_args rfl) <| .hyp ⟨by decide, rfl⟩ <| .hyp (by decide) <| .hyp (by decide) <| .hyp (by decide) <| .hyp rfl <|
        .hyp ⟨rfl, rfl⟩ .completes)
      (.both
        (.obj (paged (ask 0x13 [(19, 0x40)]) 4) <| .obj (ask 0x13 [(19, 0x40)]) <| .hyp (turn rfl rfl rfl rfl) <| .hyp (zero_args rfl) <|
          .hyp (zero_args rfl) <|
          .hyp ⟨by decide, rfl⟩ <| .hyp ⟨rfl, rfl⟩ <| .one <| .hyp (by decide) .completes)
        (.both
          (.obj (paged (ask 0x11 [(19, 0x40)]) 3) <| .obj (ask 0x11 [(19, 0x40)]) <| .hyp (turn rfl rfl rfl rfl) <| .hyp (zero_args rfl) <|
            .hyp (zero_args rfl) <| .hyp ⟨by decide, rfl⟩ <| .hyp ⟨rfl, rfl⟩ <| .one <| .hyp (by decide) .completes)
          (.both
            (.obj (Instr.pin, 0x12) <| .hyp (by simp) <| .obj (paged (reached (ask 0x12 []) 2 [2 ^ 18])) <|
              .obj (reached (ask 0x12 []) 2 [2 ^ 18]) <|
              .hyp (going rfl rfl rfl rfl (by decide)) <| .hyp rfl .completes)
            (.both
              (.obj (paged (ask 0x14 granule)) <| .obj (ask 0x14 granule) <| .hyp (turn rfl rfl rfl rfl) <| .hyp (zero_args rfl) <|
                .hyp (zero_args rfl) <|
                .hyp ⟨by decide, rfl⟩ <| .hyp rfl <| .hyp rfl <| .hyp (by decide) <| .hyp rfl <| .hyp (by decide) <|
                .hyp (.inl rfl) .completes)
              (.both
                (.obj (paged (reached (ask 0x14 ((32, 1) :: granule)) 1)) <|
                  .obj (reached (ask 0x14 ((32, 1) :: granule)) 1) <| .obj (2 ^ 18) <|
                  .hyp (going rfl rfl rfl rfl (by decide)) <| .hyp rfl <| .hyp ⟨by decide, by decide⟩ <| .hyp (by decide) <|
                  .hyp (flip_first (by decide)) <| .hyp (by decide) <| .hyp ⟨rfl, rfl⟩ <| .hyp rfl <| .hyp rfl <|
                  .one <| .hyp rfl .completes)
                (.both
                  (.obj { paged (reached (ask 0x14 granule) 1 [2 ^ 18]) with snoop := [2 ^ 24] } <|
                    .obj (reached (ask 0x14 granule) 1 [2 ^ 18]) <| .obj (2 ^ 18) <| .hyp (going rfl rfl rfl rfl (by decide)) <|
                    .hyp rfl <| .hyp (by decide) <| .hyp (by decide) <| .one <| .hyp ⟨2 ^ 24, .head _, by decide, by decide⟩ .completes)
                  (.both
                    (.obj (paged (reached (ask 0x14 granule) 2 [2 ^ 18])) <| .obj (reached (ask 0x14 granule) 2 [2 ^ 18]) <|
                      .obj (2 ^ 18) <| .hyp (going rfl rfl rfl rfl (by decide)) <| .hyp rfl <| .hyp rfl .completes)
                    (.both
                      (.obj (paged (reached (ask 0x14 granule) 1)) <| .obj (reached (ask 0x14 granule) 1) <|
                        .hyp (going rfl rfl rfl rfl (by decide)) <| .hyp rfl <| .hyp (fun _ _ => rfl) .completes)
                      (.both
                        (.obj (paged (ask 0x15 [(19, 0x40)])) <| .obj (ask 0x15 [(19, 0x40)]) <|
                          .hyp (.inl ⟨turn rfl rfl rfl rfl, zero_args rfl, zero_args rfl, by decide, rfl⟩) <|
                          .one <| .hyp rfl <| .hyp eq_nil_all .completes)
                        (.both
                          (.obj (paged (ask 0x16 [(19, 0x40)])) <| .obj (ask 0x16 [(19, 0x40)]) <| .hyp (turn rfl rfl rfl rfl) <|
                            .hyp (zero_args rfl) <|
                            .hyp (zero_args rfl) <| .hyp ⟨by decide, rfl⟩ <| .hyp rfl .completes)
                          (.obj (asking (ask 0x17 [(24, 2)]) { State.reset with retired := [5] }) <| .obj (ask 0x17 [(24, 2)]) <|
                            .hyp (turn rfl rfl rfl rfl) <| .hyp (zero_args rfl) <| .hyp (zero_args rfl) <| .hyp rfl <|
                            .hyp (.inr (by decide)) .completes))))))))))))
theorem witness_PageRequests_noPin : Met Obligations.PageRequests :=
  .two <| .two <| .one <| .obj (paged (ask 0x13 [(19, 0x40)])) <| .obj (ask 0x13 [(19, 0x40)]) <| .hyp (turn rfl rfl rfl rfl) <|
    .hyp (zero_args rfl) <|
    .hyp (zero_args rfl) <| .hyp ⟨by decide, rfl⟩ <| .hyp ⟨rfl, rfl⟩ <| .two <| .hyp (by decide) .completes
theorem witness_PageRequests_pinned : Met Obligations.PageRequests :=
  .two <| .two <| .two <| .one <| .obj (paged (ask 0x11 [(19, 0x40)]) 4) <| .obj (ask 0x11 [(19, 0x40)]) <|
    .hyp (turn rfl rfl rfl rfl) <| .hyp (zero_args rfl) <|
    .hyp (zero_args rfl) <| .hyp ⟨by decide, rfl⟩ <| .hyp ⟨rfl, rfl⟩ <| .two <| .hyp (by decide) .completes
theorem witness_PageRequests_deviceBias : Met Obligations.PageRequests :=
  .two <| .two <| .two <| .two <| .two <| .two <| .one <|
    .obj { paged (reached (ask 0x14 granule) 1) with bias := [2 ^ 18] } <| .obj (reached (ask 0x14 granule) 1) <|
      .obj (2 ^ 18) <|
    .hyp (going rfl rfl rfl rfl (by decide)) <| .hyp rfl <| .hyp ⟨by decide, by decide⟩ <| .hyp (by decide) <|
    .hyp (flip_first (by decide)) <| .hyp (by decide) <| .hyp ⟨rfl, rfl⟩ <| .hyp rfl <| .hyp rfl <| .two <| .hyp (by decide) .completes
theorem witness_PageRequests_drained : Met Obligations.PageRequests :=
  .two <| .two <| .two <| .two <| .two <| .two <| .two <| .one <|
    .obj (paged (reached (ask 0x14 ((33, 4) :: granule)) 1 [2 ^ 18])) <| .obj (reached (ask 0x14 ((33, 4) :: granule)) 1 [2 ^ 18]) <|
    .obj (2 ^ 18) <| .hyp (going rfl rfl rfl rfl (by decide)) <| .hyp rfl <| .hyp (by decide) <| .hyp (by decide) <| .two <|
    .hyp eq_nil_all <| .hyp rfl <| .hyp rfl <| .hyp rfl .completes
theorem witness_PageRequests_transition : Met Obligations.PageRequests :=
  .two <| .two <| .two <| .two <| .two <| .two <| .two <| .two <| .two <| .two <| .one <|
    .obj { paged (reached (ask 0x15 [(19, 0x40)]) 1) with transits := [(2 ^ 18, ⟨0, 0, 0, .request 0, [], [], [], 0⟩)] } <|
    .obj (reached (ask 0x15 [(19, 0x40)]) 1) <| .hyp (.inr (going rfl rfl rfl rfl (by decide))) <| .two <| .hyp (by decide) .completes

/-- ATTEST with a buffer as long as its field can say. -/
def reports : Request := ask 0x31 [(32, 255), (33, 255), (34, 255), (35, 255)]
/-- One image has been accepted. -/
def attested : State := asking reports { State.reset with boot := { Boot.reset with digests := [(7, 1)] } }
theorem gap_short (t k : Nat) : (reportGap t k).length < 65536 := by
  simpa [reportGap] using (Config.attestLength (t + 64 * k)).isLt
theorem reports_length : (attestation attested ((reports.args.drop 8).take 16)).length ≤ 2 ^ 20 := by
  have l (n : Nat) : ∀ v, (leBytes n v).length = n := by
    induction n with
    | zero => intro v; rfl
    | succ n ih => intro v; simp [leBytes, ih]
  have c : (capacityBytes attested).length = 16 := by simp [capacityBytes, l]
  have n : ((reports.args.drop 8).take 16).length = 16 := by decide
  have p : reportParts attested ((reports.args.drop 8).take 16) = [(reports.args.drop 8).take 16, leBytes 8 Config.serial.toNat,
      [Config.stepping], leBytes 32 7, [1], capacityBytes attested] := rfl
  unfold attestation
  rw [p]
  simp only [List.zipIdx, List.flatMap_cons, List.flatMap_nil, List.length_append, List.length_cons, List.length_nil, l, c, n]
  have g := gap_short attested.tick
  have := g 0; have := g 1; have := g 2; have := g 3; have := g 4; have := g 5; have := g 6
  simp only [Nat.zero_add, Nat.reduceAdd] at *
  omega
theorem reports_fit : (attestation attested ((reports.args.drop 8).take 16)).length ≤ reports.arg 32 4 :=
  Nat.le_trans reports_length (by decide)
theorem reports_short : reports.arg 24 8 + (attestation attested ((reports.args.drop 8).take 16)).length ≤ completionAt attested := by
  rw [show reports.arg 24 8 = 0 by decide, show completionAt attested = 2 ^ 21 by decide]
  have := reports_length
  omega

theorem witness_ModuleRequests : Met Obligations.ModuleRequests :=
  .both
    (.obj (asking (ask 0x30 [(8, 191)])) <| .obj (ask 0x30 [(8, 191)]) <| .hyp (turn rfl rfl rfl rfl) <| .hyp (by decide) <|
      .hyp (by decide) <|
      .hyp (zero_args rfl) <| .hyp (zero_args rfl) <| .hyp rfl <| .hyp (by decide) <| .hyp rfl .completes)
    (.both
      (.obj attested <| .obj reports <| .hyp (turn rfl rfl rfl rfl) <| .hyp (zero_args rfl) <| .hyp rfl <|
        .hyp reports_fit <| .hyp (.inr reports_short) <| .both .completes <| .both .part <| .both .part <|
        .both (.obj (7, 1) <| .hyp (by decide) <| .both .part .part) .part)
      (.both
        (.obj (asking (ask 0x40 [(8, 0x78), (9, 5)])) <| .obj (ask 0x40 [(8, 0x78), (9, 5)]) <| .hyp (turn rfl rfl rfl rfl) <|
          .hyp (zero_args rfl) <| .one <|
          .hyp (by decide) <| .hyp (by decide) .completes)
        (.both
          (.obj (asking (ask 0x41 [(12, 255), (13, 255)])) <| .obj (ask 0x41 [(12, 255), (13, 255)]) <| .hyp (turn rfl rfl rfl rfl) <|
            .hyp (zero_args rfl) <|
            .hyp (zero_args rfl) <| .one <| .hyp rfl <| .hyp (by decide) .completes)
          (.obj (asking (ask 0x42 [(8, 63), (23, 128)])) <| .obj (ask 0x42 [(8, 63), (23, 128)]) <| .hyp (turn rfl rfl rfl rfl) <|
            .hyp (zero_args rfl) <|
            .hyp (zero_args rfl) <| .hyp rfl <| .hyp (by decide) <| .hyp (by decide) <| .hyp (fun _ _ => rfl) .completes))))
theorem witness_ModuleRequests_limit : Met Obligations.ModuleRequests :=
  .two <| .two <| .one <| .obj (asking (ask 0x40 [])) <| .obj (ask 0x40 []) <| .hyp (turn rfl rfl rfl rfl) <| .hyp (zero_args rfl) <|
    .two <|
    .hyp (by decide) .completes
theorem witness_ModuleRequests_quiet : Met Obligations.ModuleRequests :=
  .two <| .two <| .two <| .one <| .obj (asking (ask 0x41 [(8, 1), (12, 100)])) <| .obj (ask 0x41 [(8, 1), (12, 100)]) <|
    .hyp (turn rfl rfl rfl rfl) <|
    .hyp (zero_args rfl) <| .hyp (zero_args rfl) <| .two <| .hyp rfl <| .hyp (by decide) <| .hyp (by decide) .completes

/-! ## The module -/

def strait (f : Link → Link) : State := { State.reset with links := Vector.replicate 18 (f Link.reset) }
def up (l : Link) : Link := { l with up := true, en := true }

def dialogues : State := { State.reset with timeBlock := { TimeBlock.reset with ptmen := true } }
/-- Marks are traced into a ring at 2^22, and the program counter is sampled. -/
def marked : Debug := { profiled with trbase := 2 ^ 22, trmask := 2, samplog := 10 }
/-- An issue slot that has already been compared, in a context with debug state. -/
def traced (i : Instr) (d : Debug := marked) : State :=
  machine i (fun g => { g with issue := g.issue.map fun i => { i with checked := true } }) fun x => { x with debug := some d }

theorem witness_LinksAndDeviceTime : Met Obligations.LinksAndDeviceTime :=
  .both
    (.both (.obj (strait up) <| .obj 17 <| .obj 0 <| .obj true <| .obj true <| .hyp rfl <| .hyp rfl .completes)
      (.both (.obj (strait up) <| .obj 17 <| .obj 0 <| .obj true <| .hyp rfl <| .hyp rfl .completes)
       (.both (.obj (strait id) <| .obj 17 <| .obj 0 <| .obj true <| .obj true <| .hyp rfl .equal)
        (.both (.obj (strait fun l => { up l with sent := [0] }) <| .obj 17 <| .obj 0 <| .hyp rfl <| .hyp rfl <| .hyp (by decide) .completes)
          (.both
            (.obj (strait up) <| .obj 17 <| .obj 0 <| .obj 0 <| .obj false <| .hyp rfl <| .hyp rfl <| .hyp rfl <| .hyp (by decide) <|
              .hyp (by decide) .completes)
            (.both
              (.obj { strait (fun l => { up l with replayAt := some 0 }) with time := 10000 } <| .obj 17 <| .obj 0 <| .obj 0 <| .obj false <|
                .obj true <| .hyp rfl <| .hyp (.inl rfl) <| .hyp (by decide) <| .obj (.replayRequest 17 0) <| .hyp (by simp) .completes)
              (.both (.obj (strait id) <| .obj 17 <| .hyp (by decide) .equal)
                (.both (.obj (staged 2 (strait id)) <| .obj 17 <| .hyp (by decide) .completes)
                  (.obj { strait (fun l => { l with en := true }) with boot := { Boot.reset with stage := 2 } } <| .obj 17 <| .obj 5 <|
                    .hyp rfl <| .hyp rfl <| .hyp rfl <| .hyp rfl .completes)))))))))
    (.both (.obj (staged 1 .reset) <| .obj true <| .hyp (by decide) .completes)
      (.both (.obj dialogues <| .obj (-(2 ^ 31)) <| .hyp rfl <| .hyp (by decide) .completes)
        (.obj dialogues <| .obj 0 <| .hyp rfl <| .hyp (by decide) .completes)))

theorem witness_BreakpointsMarksAndSamples : Met Obligations.BreakpointsMarksAndSamples :=
  .both (.obj 0x1FFFF <| .obj (machine (.bkpt 0x1FFFF)) <| .obj (seen _) <| .hyp (inProgress rfl) .completes)
    (.both
      (.both (.obj 127 <| .obj 1 <| .obj (machine (.tmark 127 1)) <| .obj (seen _) <| .hyp (runs rfl) .completes)
        (.both
          (.obj 127 <| .obj 1 <| .obj (traced (.tmark 127 1)) <| .obj (seen _) <| .obj marked <| .hyp (runs rfl) <|
            .hyp (fun h => nomatch h) <| .hyp rfl <| .hyp (by decide) <| .hyp rfl <| .hyp (.inr (by decide)) .completes)
          (.obj 127 <| .obj 1 <| .obj (traced (.tmark 127 1) { marked with trcount := 2 ^ 16 }) <| .obj (seen _) <| .obj { marked with trcount := 2 ^ 16 } <|
            .hyp (runs rfl) <| .hyp (fun h => nomatch h) <| .hyp rfl <| .hyp (by decide) <| .hyp rfl <| .hyp rfl <| .hyp (by decide) .completes)))
      (.obj (traced .nop) <| .obj 0 <| .obj 0 <| .obj 0 <| .obj 0 <| .obj ((traced .nop).ctx 0) <| .obj marked <| .hyp rfl <|
        .hyp (fun p h _ => by obtain rfl := List.mem_singleton.1 h; rfl) <| .hyp rfl <| .hyp rfl <| .hyp (by decide) <|
        .hyp (fun p h k => by obtain rfl := List.mem_singleton.1 h; exact absurd rfl k) <| .hyp (by decide) <| .hyp (by decide) <|
        .hyp (.inl ⟨by decide, by decide⟩) .completes))

def firmware (ok : Bool) (v : BitVec 8) (t : BitVec 8) : FirmwareImage := ⟨ok, v, 5, 0, t⟩
def booting (f : Boot → Boot := id) (t : Nat := 0) : State := { State.reset with boot := f Boot.reset, time := t }
/-- An image whose signature verifies, of the fused minimum's version; one whose signature does not. -/
def good (s : State) (test : BitVec 8 := 0) : FirmwareImage := firmware true (svnMin s) test
def unsigned : FirmwareImage := firmware false 0 0
theorem good_verifies (s : State) (test : BitVec 8 := 0) : Verifies s (good s test) := ⟨rfl, BitVec.le_refl _⟩
theorem not_late (f : Boot → Boot) (h : (f Boot.reset).resetAt = 0) : startLate (booting f) = false := by
  simp [startLate, State.realTime, booting, h]
theorem unsigned_fails (s : State) : ¬ Verifies s unsigned := fun h => nomatch h.1

theorem witness_StartUp : Met Obligations.StartUp :=
  .both (.obj .reset <| .obj false <| .hyp (.inl rfl) <| .hyp rfl .completes)
    (.both
      (.obj (booting) <| .obj (good (booting)) <| .obj unsigned <| .obj (good (booting)) <| .hyp (by decide) <| .hyp rfl <| .hyp (not_late id rfl) <|
        .hyp (.inl ⟨good_verifies _, rfl⟩) <| .hyp rfl <| .hyp rfl .completes)
      (.both
        (.obj (booting id 30000000000) <| .obj unsigned <| .obj unsigned <| .hyp (by decide) <| .hyp rfl <| .hyp rfl <|
          .one <| .hyp (by simp [startLate, State.realTime, booting, Boot.reset]) .completes)
        (.both (.obj (booting id 30000000000) <| .hyp (by decide) <| .hyp rfl <| .hyp (by decide) <| .hyp rfl .completes)
          (.obj .reset .equal))))
theorem witness_StartUp_backup : Met Obligations.StartUp :=
  .two <| .one <| .obj (booting) <| .obj unsigned <| .obj (good (booting)) <| .obj (good (booting)) <| .hyp (by decide) <| .hyp rfl <|
    .hyp (not_late id rfl) <| .hyp (.inr ⟨unsigned_fails _, good_verifies _, rfl⟩) <| .hyp rfl <| .hyp rfl .completes
theorem witness_StartUp_unsigned : Met Obligations.StartUp :=
  .two <| .two <| .one <| .obj (booting) <| .obj unsigned <| .obj unsigned <| .hyp (by decide) <| .hyp rfl <| .hyp rfl <|
    .two <| .one <| .hyp (not_late _ rfl) <| .hyp (unsigned_fails _) <| .hyp rfl .completes
theorem svn_one : (0 : BitVec 8) < svnMin (booting fun b => { b with svnmin := 1 }) := by
  unfold svnMin
  show (0 : BitVec 8) < if (1 : BitVec 8) < Config.fusedMinimum then Config.fusedMinimum else 1
  split
  · rename_i h; exact BitVec.lt_trans (by decide) h
  · decide
theorem witness_StartUp_old : Met Obligations.StartUp :=
  .two <| .two <| .one <| .obj (booting fun b => { b with svnmin := 1 }) <| .obj unsigned <| .obj (firmware true 0 0) <|
    .hyp (by decide) <| .hyp rfl <| .hyp rfl <| .two <| .two <| .one <| .hyp (not_late _ rfl) <| .hyp (unsigned_fails _) <| .hyp rfl <|
    .hyp svn_one .completes
theorem witness_StartUp_shared : Met Obligations.StartUp :=
  .two <| .two <| .one <| .obj (booting fun b => { b with sharedBad := true }) <| .obj (good (booting fun b => { b with sharedBad := true })) <|
    .obj unsigned <| .hyp (by decide) <| .hyp rfl <| .hyp rfl <| .two <| .two <| .two <|
    .obj (good (booting fun b => { b with sharedBad := true })) <| .hyp (not_late _ rfl) <| .hyp (.inl ⟨good_verifies _, rfl⟩) <| .one <|
    .hyp rfl .completes
theorem witness_StartUp_test : Met Obligations.StartUp :=
  .two <| .two <| .one <| .obj (booting) <| .obj (good (booting) 4) <| .obj unsigned <| .hyp (by decide) <| .hyp rfl <| .hyp rfl <|
    .two <| .two <| .two <| .obj (good (booting) 4) <| .hyp (not_late _ rfl) <| .hyp (.inl ⟨good_verifies _ 4, rfl⟩) <| .two <| .hyp rfl <|
    .hyp (by decide) .completes

/-- An error in bank `n`, with the severity `v` and code 7, in context 0. -/
def report (n : Nat) (v : BitVec 2) (line : Bool := false) (met : Victim := .none) : ErrorReport := ⟨n, v, 7, 0, 0, 0, met, line⟩
/-- Bank `n` waits for the test of block `b`. -/
def testing (n : Nat) (x : Bank) (b : Block) (waits : Bool := false) : State :=
  { State.reset with banks := [(n, { x with valid := true })], tests := [⟨n, b, waits, false⟩] }
/-- Stage 2, with `f` the fatal error met before. -/
def stage2 (s : State) (f : Option (Nat × Nat) := none) : State := { s with boot := { Boot.reset with stage := 2 }, fatal := f }

theorem witness_ErrorEvents : Met Obligations.ErrorEvents :=
  .both (.obj .reset <| .obj (report 145 1) <| .hyp (by decide) <| .hyp (by decide) <| .hyp rfl <| .hyp (fun _ => rfl) .completes)
    (.both
      (.obj (stage2 (machine .nop)) <| .obj (report 0 3) <| .hyp rfl <| .hyp rfl <| .hyp (by decide) <| .hyp rfl <|
        .hyp ⟨rfl, rfl, rfl⟩ <| .one <| .hyp rfl .completes)
      (.both
        (.obj (testing 0 { Bank.reset with sev := 1 } (.core 0) true) <| .obj 0 <| .obj false <|
          .hyp (by decide) .completes)
        (.obj .reset <| .obj 2801 <| .one <| .hyp (by decide) <| .hyp (by decide) .completes)))
/-- A Contained error of a line, and one of a Running context's core. -/
theorem witness_ErrorEvents_poison : Met Obligations.ErrorEvents :=
  .one <| .obj .reset <| .obj (report 17 2) <| .hyp (by decide) <| .hyp (by decide) <| .hyp rfl <| .hyp (fun h => nomatch h) .completes
theorem witness_ErrorEvents_contained : Met Obligations.ErrorEvents :=
  .one <| .obj (machine .nop) <| .obj (report 0 2) <| .hyp (by decide) <| .hyp (by decide) <| .hyp rfl <| .hyp (fun h => nomatch h) .completes
/-- A Contained error that the instruction in progress of group 0 meets. -/
theorem witness_ErrorEvents_met : Met Obligations.ErrorEvents :=
  .one <| .obj (machine .nop) <| .obj (report 0 2 true (.group 0 none)) <| .hyp (by decide) <| .hyp (by decide) <| .hyp rfl <|
    .hyp (fun h => nomatch h) .completes
/-- A Fatal error with no context Running, and a second one. -/
theorem witness_ErrorEvents_dump : Met Obligations.ErrorEvents :=
  .two <| .one <| .obj (stage2 .reset) <| .obj (report 0 3) <| .hyp rfl <| .hyp rfl <| .hyp (by decide) <| .hyp rfl <|
    .hyp ⟨rfl, rfl, rfl⟩ <| .one <| .hyp rfl .completes
theorem witness_ErrorEvents_second : Met Obligations.ErrorEvents :=
  .two <| .one <| .obj (stage2 (machine .nop) (some (145, 5))) <| .obj (report 0 3) <| .hyp rfl <| .hyp rfl <| .hyp (by decide) <|
    .hyp rfl <| .hyp ⟨rfl, rfl, rfl⟩ <| .two <| .hyp (fun h => nomatch h) .completes
/-- The test of a granule fails, in the record's block. -/
theorem witness_ErrorEvents_granule : Met Obligations.ErrorEvents :=
  .two <| .two <| .one <| .obj (testing 17 { Bank.reset with sev := 1, addr := 0x5000 } (.granule 5)) <| .obj 17 <|
    .obj false <| .hyp (by decide) .completes
theorem witness_ErrorEvents_lowest : Met Obligations.ErrorEvents :=
  .two <| .two <| .two <| .obj { State.reset with power := ⟨1400, 1800⟩ } <| .obj 1401 <| .two <| .one <| .hyp (by decide) <|
    .hyp (by decide) .completes
theorem witness_ErrorEvents_up : Met Obligations.ErrorEvents :=
  .two <| .two <| .two <| .obj { State.reset with power := ⟨1400, 1800⟩ } <| .obj 1399 <| .two <| .two <| .hyp (by decide) <|
    .hyp (by decide) .completes

/-- Queue 0 is not bound, queue 1 is. -/
def queues : State :=
  { State.reset with boot := { Boot.reset with stage := 2 }, hostQueues := [(1, { HostQueue.reset with state := .bound })] }

theorem witness_RegisterAccess : Met Obligations.RegisterAccess :=
  .both (.obj .reset <| .obj 0x1040 <| .hyp (.inl ⟨by decide, by decide⟩) <| .both .equal (.obj 7 .equal))
    (.both (.obj .reset <| .obj 4 <| .obj true <| .obj 7 <| .hyp (by decide) .equal)
      (.both
        (.obj queues <| .obj 8 <| .hyp (by decide) <|
          .both (.obj 255 <| .hyp (by decide) .equal) <|
          .both (.obj 0 <| .hyp (by decide) <| .hyp (by decide) <| .hyp (by decide) <| .both .equal .equal) <|
          .both (.obj 255 <| .hyp (by decide) <| .both .equal .equal) <| .both .equal <| .both .equal <| .both (.hyp rfl .equal) <|
          .both (.obj 1 <| .hyp (by decide) <| .hyp (.inl rfl) .completes) <|
          .both (.obj 1 <| .hyp (by decide) <| .hyp (.inl rfl) .completes) <|
          .both (.obj 255 <| .hyp (by decide) .completes) <| .both (.obj 0 <| .hyp (by decide) .completes) <|
          .both .completes <| .both .completes (.obj 17 <| .hyp (by decide) .completes))
        (.obj .reset <| .both .equal <| .both .equal <| .both .equal <| .both .equal <| .both .equal .equal)))

/-! ## Words and steps -/

theorem witness_YieldAndNop : Met Obligations.YieldAndNop :=
  .both (.obj (machine .nop) <| .obj (seen _) <| .hyp (runs rfl) .completes)
    (.obj (machine .yield) <| .obj (seen _) <| .hyp (runs rfl) .completes)
theorem witness_SlenWritesDlen : Met Obligations.SlenWritesDlen :=
  .obj 3 <| .obj (machine (.slen 3)) <| .obj (seen _) <| .hyp rfl <| .hyp (runs rfl) .completes

theorem witness_IllegalClauses : Met Obligations.IllegalClauses :=
  .both
    (.obj (fetching 0x1000 0 0) <| .obj _ <| .obj 0 <| .obj 31 <| .obj waitingGroup <| .obj 0x1000 <| .hyp (by decide) <|
      .hyp ⟨rfl, rfl, rfl, rfl, by decide, _, rfl, fun _ => rfl, rfl⟩ <| .hyp (.inl rfl) .completes)
    (.both (.obj 3 <| .obj 0xFFFFBFFC <| .hyp (by decide) <| .hyp (by decide) <| .hyp rfl <| .hyp (.inr rfl) <|
      .hyp (.inl (by decide)) .some_)
      (.both
        (.obj (fetching 0x1200 0x86FFFFF8 0x89FFFFF8) <| .obj _ <| .obj _ <| .obj 0 <| .obj 31 <| .obj waitingGroup <| .obj 0x1200 <|
          .obj ⟨0, some 0, some 1, 2, none, false⟩ <| .obj [0x86FFFFF8, 0x89FFFFF8] <| .obj [] <| .obj [.nop] <| .obj .exit <|
          .hyp ⟨rfl, rfl, rfl, rfl, by decide, _, rfl, fun _ => rfl, rfl⟩ <| .hyp rfl <| .hyp ⟨_, rfl, fun _ => rfl, rfl⟩ <| .hyp rfl <| .hyp rfl <| .hyp (by decide) <|
          .hyp eq_nil_all .completes)
        (.obj (fetching 0x1200 0x89FFFFF8 0x86FFFFF8) <| .obj _ <| .obj _ <| .obj 0 <| .obj 31 <| .obj waitingGroup <| .obj 0x1200 <|
          .obj ⟨0, some 0, some 1, 2, none, false⟩ <| .obj [0x89FFFFF8, 0x86FFFFF8] <| .obj [.nop] <| .obj .exit <|
          .hyp ⟨rfl, rfl, rfl, rfl, by decide, _, rfl, fun _ => rfl, rfl⟩ <| .hyp rfl <| .hyp ⟨_, rfl, fun _ => rfl, rfl⟩ <| .hyp rfl <|
            .hyp (fun _ h => by obtain rfl := List.mem_singleton.1 h; rfl) .completes)))
theorem witness_IllegalClauses_flag : Met Obligations.IllegalClauses :=
  .one <| .obj (fetching 0xC1100 0 0) <| .obj _ <| .obj 0 <| .obj 31 <| .obj waitingGroup <| .obj 0xC1100 <| .hyp (by decide) <|
    .hyp ⟨rfl, rfl, rfl, rfl, by decide, _, rfl, fun _ => rfl, rfl⟩ <| .hyp (.inr (.inr (.inl (by decide)))) .completes

theorem witness_EncodeThenDecode : Met Obligations.EncodeThenDecode :=
  .obj 3 <| .obj (.iadd 5 4 6 0) <| .obj 0x000A1030 <| .hyp rfl <| .hyp rfl .equal
theorem witness_DecodeThenEncode : Met Obligations.DecodeThenEncode :=
  .obj 3 <| .obj (.iadd 5 4 6 0) <| .obj 0x000A1030 <| .hyp rfl <| .both .equal .equal

theorem witness_StepRunsMove : Met Obligations.StepRunsMove :=
  .both (.obj { State.reset with agenda := [.event .nop] } <| .obj .nop <| .obj [] <| .hyp rfl .equal)
    (.both
      (.obj { machine .nop with agenda := [.issue 0] } <| .obj 0 <| .obj [] <| .obj (seen (machine .nop)) <| .obj .nop <| .hyp rfl <|
        .hyp rfl <| .hyp rfl <| .hyp rfl .equal)
      (.both
        (.obj { State.reset with agenda := [.hostStores 5 [7]] } <| .obj 5 <| .obj [7] <| .obj [] <| .hyp (by decide) <|
          .hyp (.inl rfl) .some_)
      (.both (.obj { State.reset with agenda := [.hdmProgram (2 ^ 40 + 5)] } <| .obj (2 ^ 40 + 5) <| .obj [] <| .hyp rfl .some_)
      (.both
        (.obj { State.reset with hdmBase := 2 ^ 40, agenda := [.hostAddress false (2 ^ 40 + 16) 4 []] } <| .obj false <| .obj 16 <| .obj 4 <|
          .obj [] <| .obj [] <| .hyp rfl <| .hyp (by decide) .equal)
      (.both
        (.obj { halts .saved 0 id (fun t => { t with groups := [], saved := [{ savedGroup with bytes := [1, 2, 3] }] }) with
            agenda := [.imageStores 0 (some 0) 1 [7]] } <| .obj 0 <| .obj 0 <| .obj 1 <| .obj [7] <| .obj [] <| .obj _ <| .obj _ <|
          .hyp rfl <| .hyp rfl <| .hyp rfl <| .hyp (by decide) .some_)
      (.both
        (.obj (barWord [32, 0, 0, 0, 32, 0, 0, 0, 0, 0, 0, 0, 32]
          (queued [begun (onBar 4 0)] (machine .nop id fun x => { x with runNs := 101000000 }))) <| .hyp rfl <| .hyp (by decide) .some_)
        (.both (.obj (machine .nop) <| .hyp rfl <| .hyp (by decide) <| .hyp (by decide) .some_)
          (.both (.obj .reset <| .obj 0x89FFFFF8 <| .obj .nop <| .hyp rfl .equal)
            (.obj (.next .reset) <| .obj .reset <| .hyp rfl .some_)))))))))
theorem witness_StepRunsMove_peer : Met Obligations.StepRunsMove :=
  .two <| .two <| .one <| .obj { State.reset with agenda := [.peerStores 5 [7]] } <| .obj 5 <| .obj [7] <| .obj [] <|
    .hyp (by decide) <| .hyp (.inr rfl) .some_

theorem witness_StepKeepsMemoryForm : Met Obligations.StepKeepsMemoryForm :=
  .obj { machine .nop with agenda := [.issue 0] } <| .obj (after (step { machine .nop with agenda := [.issue 0] })) <|
    .hyp ⟨rfl, rfl, rfl⟩ <| .hyp rfl .formed
theorem witness_PoisonStays : Met Obligations.PoisonStays :=
  .obj { machine .nop with poison := [5], coherenceLost := [6] } <|
    .obj (after (exec .nop { machine .nop with poison := [5], coherenceLost := [6] })) <| .obj .nop <| .hyp (by decide) <| .hyp rfl <|
    .both (.obj 5 <| .hyp (by decide) .member) (.obj 6 <| .hyp (by decide) .member)

/-! ## Words -/

/-- The word decodes to the instruction. -/
def reads (p : Word × Instr) : Bool := (decode 3 p.1).toOption == some p.2

/-! Each word is written out from the row of Table 2-8 and the field places of Table 2-2. -/

theorem test_decode_integer :
    [(0x00283041, .iadd 20 12 8 1), (0x01283045, .iaddc 20 12 8 5), (0x02283041, .isub 20 12 8 1), (0x03283045, .isubb 20 12 8 5),
      (0x04283041, .imul 20 12 8 1), (0x05283041, .imulh 20 12 8 1), (0x06283041, .imad 20 12 8 1), (0x07283041, .imin 20 12 8 1),
      (0x08283041, .imax 20 12 8 1), (0x092833F9, .iabs 20 12 1), (0x0A283040, .and 20 12 8), (0x0B283040, .or 20 12 8),
      (0x0C283040, .xor 20 12 8), (0x0D283040, .andn 20 12 8), (0x0E283041, .shl 20 12 8 1), (0x0F283041, .shr 20 12 8 1),
      (0x10283041, .sar 20 12 8 1), (0x11283040, .rotl 20 12 8), (0x12283041, .bfx 20 12 8 1), (0x13283040, .bfi 20 12 8),
      (0x142833F8, .popc 20 12), (0x152833F8, .clz 20 12), (0x162833F8, .ctz 20 12), (0x172833F8, .brev 20 12),
      (0x186A3041, .iset 6 5 12 8 1), (0x19283045, .sel 20 12 8 5), (0x1A5A1000, .plog 5 5 4 0), (0x1B29FFF8, .pmovToReg 20),
      (0x1BFE33F9, .pmovToPred 12), (0x1C283040, .clmul 20 12 8), (0x1D283040, .clmulh 20 12 8)].all reads = true := by decide

theorem test_decode_packed :
    [(0x20283041, .padd2 20 12 8 1), (0x21283041, .psub2 20 12 8 1), (0x22283041, .pmac2 20 12 8 1), (0x23283041, .pdot4 20 12 8 1),
      (0x24283041, .pdot8 20 12 8 1), (0x25283041, .pshr2 20 12 8 1), (0x26283041, .psat2 20 12 8 1), (0x27283041, .ppack 20 12 8 1),
      (0x28283041, .punpk 20 12 8 1), (0x29283041, .pmin2 20 12 8 1), (0x2A283041, .pmax2 20 12 8 1)].all reads = true := by decide

theorem test_decode_immediate :
    [(0x302832A5, .addi 20 12 677), (0x312832A5, .andi 20 12 677), (0x322832A5, .ori 20 12 677), (0x332832A5, .xori 20 12 677),
      (0x34283013, .shli 20 12 19), (0x35283013, .shri 20 12 19), (0x36283013, .sari 20 12 19), (0x376A32A5, .iseti 6 5 12 677),
      (0x3828AAA5, .movi 20 0xAAA5), (0x3928AAA5, .lui 20 0xAAA5), (0x3A28AAA5, .orl 20 0xAAA5)].all reads = true := by decide

theorem test_decode_float :
    [(0x40283041, .fadd 20 12 8 1), (0x41283041, .fsub 20 12 8 1), (0x42283041, .fmul 20 12 8 1), (0x43283041, .ffma 20 12 8 1),
      (0x44283041, .fmin 20 12 8 1), (0x45283041, .fmax 20 12 8 1), (0x466A3041, .fset 6 5 12 8 1), (0x472833F9, .frcp 20 12 1),
      (0x482833F9, .frsq 20 12 1), (0x492833F9, .fsqrt 20 12 1), (0x4A2833F9, .fex2 20 12 1), (0x4B2833F9, .flg2 20 12 1),
      (0x4C2833F9, .fsin 20 12 1), (0x4D2833F9, .fcos 20 12 1), (0x4E2833F9, .frnd 20 12 1), (0x4F2833F8, .fcls 20 12),
      (0x50283041, .hadd2 20 12 8 1), (0x51283041, .hmul2 20 12 8 1), (0x52283041, .hfma2 20 12 8 1), (0x53283041, .fcvt 20 12 8 1),
      (0x54283041, .f2i 20 12 8 1), (0x55283041, .i2f 20 12 8 1), (0x56283041, .qcvt 20 12 8 1), (0x57283041, .qdeq 20 12 8 1),
      (0x5829FFF8, .fpxr 20), (0x592833F9, .fpxc 20 12 1), (0x5A2833F8, .frm 20 12)].all reads = true := by decide

theorem test_decode_memory :
    [(0x60283129, .ld8 20 12 37 1), (0x61283129, .ld16 20 12 37 1), (0x62283129, .ld32 20 12 37 1), (0x63283129, .ld64 20 12 37 1),
      (0x64283129, .ld128 20 12 37 1), (0x65303129, .st8 24 12 37 1), (0x66303129, .st16 24 12 37 1), (0x67303129, .st32 24 12 37 1),
      (0x68303129, .st64 24 12 37 1), (0x69303129, .st128 24 12 37 1), (0x6A283129, .lds 20 12 37 1), (0x6B303129, .sts 24 12 37 1),
      (0x6C283129, .ldp 20 12 37 1), (0x6D303129, .stp 24 12 37 1), (0x6E283129, .ldc 20 12 37 1), (0x6F283041, .atom 20 12 8 1),
      (0x70283041, .atoms 20 12 8 1), (0x71283041, .cas 20 12 8 1), (0x72FE3128, .pref 12 37 0), (0x73283041, .cpy 20 12 8 1),
      (0x74283041, .cpyr 20 12 8 1)].all reads = true := by decide

theorem test_decode_control :
    [(0x806AAAA5, .bra 6 0xAAAA5), (0x81FE33F8, .brx 12), (0x824AAAA5, .call 37 0xAAA5), (0x834A33F8, .callx 37 12), (0x84FFFFF8, .ret),
      (0x856AAAA5, .meet 6 0xAAAA5), (0x86FFFFF8, .exit), (0x87FFFEA5, .wbase 677), (0x88FFFFF8, .yield), (0x89FFFFF8, .nop),
      (0x8AFE3013, .sleep 12 19)].all reads = true := by decide

theorem test_decode_crossLane :
    [(0x90283041, .lshfl 20 12 8 1), (0x91283041, .lslide 20 12 8 1), (0x92283041, .lbcast 20 12 8 1), (0x932833F9, .vote 20 12 1),
      (0x94283041, .lreduce 20 12 8 1), (0x95283041, .lscan 20 12 8 1), (0x962833F8, .shape 20 12), (0x9729FFF8, .expand 20),
      (0x98283040, .rwrite 20 12 8), (0x99FE33F8, .rwait 12), (0x9929FFF9, .rwaitId 20), (0x9929FFFA, .rwaitCnt 20),
      (0x9AFE33F8, .migrate 12)].all reads = true := by decide

theorem test_decode_queue :
    [(0xA0F433F9, .qbind 122 12 1), (0xA1FFF7F8, .qclose 125), (0xA229F7F8, .qstat 20 125), (0xA329E3F8, .qtry 20 120),
      (0xA4FE3041, .tspawn 12 8 1), (0xA52833F8, .klaunch 20 12), (0xA6283041, .bincnt 20 12 8 1), (0xA7FE3041, .binpatch 12 8 1)].all reads = true := by decide

theorem test_decode_barrier :
    [(0xA8283041, .binit 20 12 8 1), (0xA9283041, .barv 20 12 8 1), (0xAA283041, .bexp 20 12 8 1), (0xABFE3041, .bwait 12 8 1),
      (0xAC283041, .btest 20 12 8 1), (0xADFFFFF8, .tsync)].all reads = true := by decide

theorem test_decode_matrix :
    [(0xB0FE3041, .mma 12 8 1), (0xB1283041, .mdrain 20 12 8 1), (0xB2FFFC40, .mzero 8), (0xB3FE33F8, .mrestart 12),
      (0xB42833F8, .ringset 20 12)].all reads = true := by decide

theorem test_decode_stream :
    [(0xC00C1041, .sgen 6 4 8 1), (0xC10C1418, .sand 6 5 3), (0xC20C1418, .sxnor 6 5 3), (0xC30C1418, .smux 6 5 3),
      (0xC40C17F8, .snot 6 5), (0xC50C17F9, .scnt 6 5 1), (0xC60C1441, .sregen 6 5 8 1), (0xC7FFFFF9, .slen 1), (0xC80C17F8, .scls 6 5),
      (0xC90C23F9, .sld 6 8 1), (0xCA0223F8, .sst 1 8), (0xCB0C17F8, .smov 6 5)].all reads = true := by decide

theorem test_decode_system :
    [(0xD0FEAAA5, .trap 0xAAA5), (0xD1FFFFF8, .tret), (0xD2FEAAA5, .phint 0xAAA5), (0xD329FC41, .sysr 20 65), (0xD4FE3008, .sysw 12 8),
      (0xD529FFF8, .time 20), (0xD6FEAAA5, .bkpt 0xAAA5), (0xD7FE32A5, .tmark 12 677)].all reads = true := by decide

/-- One more than each of these limits, or one less, is not legal; the second list holds the limits themselves (R35 to R39, Table 6-3). -/
theorem test_ill_formed :
    [(3, Instr.iadd 126 4 6 0), (1, .iadd 64 4 6 0), (2, .iadd 5 96 6 0), (3, .iadd 5 4 6 3), (3, .imad 120 4 6 0), (3, .iset 12 0 4 6 0),
      (3, .fset 8 0 4 6 0), (3, .ld64 5 4 0 0), (3, .ld128 6 4 0 0), (3, .ld32 120 4 0 0), (3, .st128 118 4 0 0), (3, .pshr2 5 3 6 0),
      (3, .pdot4 5 4 6 3), (3, .cas 5 4 7 0), (3, .pref 4 0 1), (2, .cpy 12 16 20 2), (3, .cpyr 12 16 20 4), (3, .brx 5), (3, .call 120 1),
      (3, .callx 120 4), (3, .lshfl 121 4 6 2), (3, .lshfl 5 4 6 3), (3, .vote 5 4 4), (3, .lreduce 5 4 11 0), (3, .lreduce 5 4 0 1),
      (3, .lscan 5 4 32 0), (3, .rwrite 120 8 9), (2, .rwrite 20 8 9), (3, .qbind 126 4 0), (3, .qclose 119), (3, .qtry 7 120),
      (3, .qstat 5 126), (2, .tspawn 8 10 0), (3, .tspawn 7 10 0), (3, .binit 120 4 8 0), (3, .bwait 4 8 2), (2, .mma 4 127 0),
      (3, .mdrain 5 6 8 0), (3, .mrestart 5), (3, .ringset 120 4), (3, .sgen 8 2 4 1), (2, .sgen 0 2 4 1), (3, .slen 0), (3, .slen 4),
      (3, .sst 8 8), (3, .sysr 5 0x0D), (3, .sysw 5 0x42), (3, .time 7)].all (fun p => !wellFormed p.1 p.2) = true := by decide
theorem test_well_formed :
    [(3, Instr.iadd 125 4 6 2), (1, .iadd 63 63 120 0), (2, .iadd 95 95 126 0), (3, .imad 127 119 126 1), (3, .iset 11 0 4 6 2),
      (3, .fset 7 0 4 6 5), (3, .ld64 118 4 0 0), (3, .ld128 116 4 0 0), (3, .ld128 127 4 0 0), (3, .lshfl 125 4 6 1), (3, .lreduce 5 4 10 1),
      (3, .lreduce 5 4 8 7), (3, .lscan 5 4 26 1), (3, .rwrite 119 8 9), (3, .qbind 120 4 0), (3, .qtry 6 125), (2, .mma 127 4 0),
      (2, .cpy 12 16 20 1), (3, .sgen 7 2 4 6), (3, .slen 3), (3, .sysr 5 0x41), (3, .sysw 5 0x10), (3, .call 119 1)].all
        (fun p => wellFormed p.1 p.2) = true := by decide

/-- Words that are no instruction: an unassigned major, an unused field that is not at its fixed value, vlane as a destination, a port where none may
stand, and under N2 an instruction of N3. -/
theorem test_decode_refuses :
    [(3, 0xFF000000), (3, 0x0A000001), (3, 0x00FC0000), (3, 0x06F00000), (2, 0xC0000821), (3, 0x00000003)].all
      (fun (p : Nat × Word) => (decode p.1 p.2).toOption.isNone) = true := by decide

/-- A header of N3 (Table 2-1): W 0x801, FA 3, FB none, L 13, guard !p5, yield. -/
theorem test_decode_header : (decodeHeader 3 0x8013FDDC).toOption = some ⟨0x801, some 3, none, 13, some (5, true), true⟩ := by decide
theorem test_decode_header_refuses :
    [0x00001000, 0x00001101, 0x00001102, 0x000C1100, 0x0000E100].all (fun h => (decodeHeader 3 h).toOption.isNone) = true := by decide

/-- What an instruction and the host's two readings of a word agree on. -/
theorem test_decode_table_word : decodeTableWord 32 0x000A1030 = some (.iadd 5 4 6 0) ∧ decodeTableWord 32 0xFF000000 = none := by decide
theorem test_step_runs_word :
    ((after (step (State.reset.withFetchWord 32 0x3806002A))).group? 0).map (fun g => (rowAt g (.stack 3)).get 31) = some 42 := rfl

/-! ## Results that the manual works out -/

/-- What lane `l` holds in name `n` after the instruction. -/
def gives (i : Instr) (f : Group → Group) (n l : Nat) : Word :=
  nameIn (after (exec i (machine i f))) (seen (machine i f)) n l
def three (a b c : Word) (g : Group) : Group := put 8 (.u a) (put 9 (.u b) (put 6 (.u c) g))

/-- The kernel intdemo: its three roundings of 10 / 4 and −10 / 4, its saturating narrow and its carry chain. -/
theorem test_pshr2_floor : gives (.pshr2 12 8 6 0) (three 10 0xFFFFFFF6 2) 12 31 = 0xFFFD0002 := by decide
theorem test_pshr2_ties_up : gives (.pshr2 13 8 6 1) (three 10 0xFFFFFFF6 2) 13 0 = 0xFFFE0003 := by decide
theorem test_pshr2_ties_even : gives (.pshr2 14 8 6 2) (three 10 0xFFFFFFF6 2) 14 0 = 0xFFFE0002 := by decide
theorem test_pshr2_saturates : gives (.pshr2 18 8 6 5) (three 200000 0 2) 18 0 = 0x00007FFF := by decide
def carried : State := after (exec (.iaddc 10 8 9 3) (machine (.iaddc 10 8 9 3) (three 1 0xFFFFFFFF 0)))
theorem test_iaddc : nameIn carried (seen (machine .nop)) 10 7 = 0 ∧
    (threadIn carried (seen (machine .nop)) 7).preds.getLsbD 3 = true := by decide
/-- R226's examples. -/
theorem test_clmul : gives (.clmul 5 8 9) (three 5 3 0) 5 0 = 0xF ∧ gives (.clmul 5 8 9) (three 0x80000000 0x80000000 0) 5 0 = 0 := by decide
theorem test_clmulh : gives (.clmulh 5 8 9) (three 0x80000000 0x80000000 0) 5 0 = 0x40000000 := by decide
/-- The reduction of "A reduction worked through": lane 0 holds 2^24, lane 1 holds 2. -/
theorem test_lreduce_fadd :
    gives (.lreduce 6 5 8 0) (put 5 (.g (Vector.ofFn fun l => if l.val = 0 then 0x4B800000 else if l.val = 1 then 0x40000000 else 0))) 6 9 =
      0x4B800001 := by decide +kernel

/-- R60's examples: 464 and 470 as E4M3. -/
theorem test_round_464 : roundF e4m3 0 (.fin false 464 1) = (0x7E, fNX) := by decide +kernel
theorem test_round_470 : roundF e4m3 0 (.fin false 470 1) = (0x7E, fOF ||| fNX) := by decide +kernel
/-- R244's examples, in RNE and RUP: FSQRT of 2, FEX2 of 0.5, FEX2 of 128. -/
theorem test_fsqrt : special .sqrt 0 0x40000000 = (0x3FB504F3, fNX) ∧ special .sqrt 2 0x40000000 = (0x3FB504F4, fNX) := by decide +kernel
theorem test_fex2 : special .ex2 0 0x3F000000 = (0x3FB504F3, fNX) ∧ special .ex2 2 0x3F000000 = (0x3FB504F4, fNX) := by decide +kernel
theorem test_fex2_overflow : special .ex2 0 0x43000000 = (0x7F800000, fOF ||| fNX) ∧ special .ex2 1 0x43000000 = (0x7F7FFFFF, fOF ||| fNX) := by
  decide +kernel
/-- Table 3-8: three K-steps of an E4M3 command with P = 2. -/
theorem test_accumulation :
    floatSteps { command 1 0 with fmt := 0x100033 } ([0x38, 1, 1] ++ List.replicate 5 0 ++ [0xB8] ++ List.replicate 7 0 ++ [0x7E] ++ List.replicate 15 0)
      ([0x38, 1, 1] ++ List.replicate 5 0 ++ [0x38] ++ List.replicate 7 0 ++ [0x7E] ++ List.replicate 15 0) 0 0 2 3 0 0 0 0 = (0x48440000, fNX) := by
  decide +kernel
/-- The example of R320: A[3][37] of a dense E4M3 command is byte 4,197. -/
theorem test_element : elemA 0x33 (List.replicate 4197 0 ++ [7]) 3 37 = some 7 := by decide +kernel

/-- Table 13-5, and the two cases in which both copies come before BEXP. -/
theorem test_barrier_phase :
    (barUpdate (barPack 1 0 5 1) 0 96).toOption = some (barPack 1 96 5 1) ∧ (barUpdate (barPack 1 96 5 1) 1 0).toOption = some (barPack 0 96 5 1) ∧
    (barUpdate (barPack 0 96 5 1) 0 (-48)).toOption = some (barPack 0 48 5 1) ∧
    (barUpdate (barPack 0 48 5 1) 0 (-48)).toOption = some (barPack 1 0 6 1) := by decide
theorem test_barrier_early_copies :
    (barUpdate (barPack 1 (-48) 5 1) 0 (-48)).toOption = some (barPack 1 (-96) 5 1) ∧ (barUpdate (barPack 1 (-96) 5 1) 1 0).toOption = none := by decide

/-- R283's example: offset 8 of lane 5 lies at PBASE + 276. -/
theorem test_private_address : (privateReq { wordGroup 0 with pbase := 0x20000 } 5 8 .load).acc.va = 0x20000 + 276 := by decide
/-- The example of R188: with BUDGET 160, a CALL with shift 100 raises trap 0x01 with TVAL 100. -/
theorem test_call_window :
    ((threadIn (after (exec (.call 100 1) (machine (.call 100 1) (fun g => { g with budget := 160 }) handled))) (seen (machine .nop)) 4).tcause,
      (threadIn (after (exec (.call 100 1) (machine (.call 100 1) (fun g => { g with budget := 160 }) handled))) (seen (machine .nop)) 4).tval) =
      (1, 100) := by decide
/-- R102's example: a forced save with 120 names, 40 of them General, takes 7,936 bytes. -/
theorem test_image_length :
    (imageBytes (machine .nop) 0 { wordGroup 0 with
      budget := 120, rows := (List.range 40).map fun n => (n, .g (Vector.replicate 32 1)) } none 0).length = 7936 := by decide +kernel
/-- The record of "A launch worked through", with CTXID 0xCC and launch index 0xABCDEF, its last byte first. -/
theorem test_bind_record :
    parseBind 0xABCDEFFF00030000000000020001CC01 9 = ⟨1, 0xCC, 1, 0, 2, 0, 0, 3, 0, 255, 0xABCDEF, 9⟩ := by decide
/-- Group 5 of that launch: v1 of lane 3. -/
theorem test_argument_rows : ((tget (argRows [⟨false, 0, 0, 0⟩, ⟨true, 0x10000000, 4, 128⟩] 5) 1).map (Row.get · 3)) = some 0x1000028C := by decide
/-- The check value of the CRC that IEEE 802.3 uses, over the digits 1 to 9. -/
theorem test_crc : crc32 [0x31, 0x32, 0x33, 0x34, 0x35, 0x36, 0x37, 0x38, 0x39] = 0xCBF43926 := by decide +kernel

end Sys2Proof.Tests
end

/-! # Illegal headers and clauses (R22, R27)

What a fetch leaves of the groups, which words `decodeHeader` and `clauseFault` refuse, and what CLAUSE_ISSUE then does. -/
namespace Sys2Proof.Machine

/-! ## Fetches leave the groups as they are -/

theorem State.group?_congr {s t : State} (h : t.groups = s.groups) (g : Nat) : t.group? g = s.group? g := by
  rw [State.group?, State.group?, h]

@[simp] theorem tlbInsert_groups (s : State) (t : Nat) (e : TlbEntry) : (tlbInsert s t e).groups = s.groups := rfl

@[simp] theorem copyEntry_groups (s : State) (t : Nat) (e : TlbEntry) : (copyEntry s t e).2.groups = s.groups := by
  simp only [copyEntry, tlbInsert_groups, apply_ite State.groups, holdClass, ite_self]

@[simp] theorem readBytes_groups (s : State) (e : TlbEntry) (va n : Nat) : (readBytes s e va n).2.groups = s.groups := by
  simp only [readBytes, readOver]
  split <;> rfl

theorem translate_hit_groups {s s' : State} {t die c va : Nat} {p : Word} {e : TlbEntry}
    (h : translate s t die c va p = .hit e s') : s'.groups = s.groups := by
  simp only [translate] at h
  split at h
  · split at h <;> cases h
    rfl
  · split at h
    · split at h <;> cases h
      exact copyEntry_groups ..
    · split at h <;> cases h

theorem fetchWord_ok_groups {s s' : State} {g : Nat} {gr : Group} {set : Mask} {va : VA} {ws : List Word}
    (h : fetchWord s g gr set va = .ok ws s') : s'.groups = s.groups := by
  unfold fetchWord at h
  split at h
  · cases h
  · cases h
  · next htr =>
    split at h
    · cases h
    · split at h
      · cases h
      · split at h <;> cases h
        exact (readBytes_groups ..).trans (translate_hit_groups htr)

theorem fetchWords_ok_groups {s s' : State} {g : Nat} {gr : Group} {set : Mask} {va : VA} {n : Nat} {ws : List Word}
    (h : fetchWords s g gr set va n = .ok ws s') : s'.groups = s.groups := by
  induction n generalizing s va ws with
  | zero => cases h; rfl
  | succ n ih =>
    rw [fetchWords] at h
    split at h
    · next hword =>
      split at h
      · next hrest =>
        cases h
        exact (ih hrest).trans (fetchWord_ok_groups hword)
      · next hno => exact absurd h (hno _ _)
    · next hno => exact absurd h (hno _ _)

/-! ## Headers (Table 2-1, R27) -/

theorem flagField_reserved {lim v : Nat} (hlo : lim ≤ v) (hhi : v ≤ 14) : flagField lim v = .error .illegalHeader := by
  rw [flagField, if_neg (by omega), if_neg (by omega)]

theorem flagField_legal {lim v : Nat} (h : v < lim ∨ v = 15) :
    flagField lim v = .ok (if v = 15 then none else some v) := by
  unfold flagField
  split
  · rfl
  · rw [if_pos (by omega)]

theorem decodeHeader_illegal {e : Nat} {w : Word} (he : e ≠ 1)
    (h : w.toNat / 2 ^ 8 % 16 = 0 ∨ w.toNat % 4 ≠ 0 ∨ (12 ≤ w.toNat / 2 ^ 16 % 16 ∧ w.toNat / 2 ^ 16 % 16 ≤ 14) ∨
      (12 ≤ w.toNat / 2 ^ 12 % 16 ∧ w.toNat / 2 ^ 12 % 16 ≤ 14)) :
    decodeHeader e w = .error .illegalHeader := by
  rw [decodeHeader, if_neg he]
  obtain hlen | hlow | ⟨hlo, hhi⟩ | ⟨hlo, hhi⟩ := h
  · rw [if_pos (.inr hlen)]
  · rw [if_pos (.inl hlow)]
  · rw [flagField_reserved hlo hhi]
    split <;> rfl
  · rw [flagField_reserved hlo hhi]
    split
    · rfl
    · cases flagField 12 (w.toNat / 2 ^ 16 % 16) <;> rfl

theorem decodeHeader_legal {e : Nat} {w : Word} (he : e ≠ 1) (hlen : w.toNat / 2 ^ 8 % 16 ≠ 0) (hlow : w.toNat % 4 = 0)
    (hfa : w.toNat / 2 ^ 16 % 16 < 12 ∨ w.toNat / 2 ^ 16 % 16 = 15) (hfb : w.toNat / 2 ^ 12 % 16 < 12 ∨ w.toNat / 2 ^ 12 % 16 = 15) :
    decodeHeader e w = .ok
      { wait := BitVec.ofNat 12 (w.toNat / 2 ^ 20)
        fa := if w.toNat / 2 ^ 16 % 16 = 15 then none else some (w.toNat / 2 ^ 16 % 16)
        fb := if w.toNat / 2 ^ 12 % 16 = 15 then none else some (w.toNat / 2 ^ 12 % 16)
        len := w.toNat / 2 ^ 8 % 16
        guard := if w.getLsbD 7 then some (w.toNat / 2 ^ 4 % 8, w.getLsbD 3) else none
        yield := w.getLsbD 2 } := by
  rw [decodeHeader, if_neg he, if_neg (not_or.mpr ⟨not_not_intro hlow, hlen⟩), flagField_legal hfa, flagField_legal hfb]
  simp only [BitVec.getLsbD, Nat.testBit_eq_decide_div_mod_eq, decide_eq_true_eq]
  rfl

/-! ## The words of a clause (R22) -/

theorem clauseFault_cons {e : Nat} {w : Word} {i : Instr} (h : decode e w = .ok i) (set : Mask) (va : VA) (ws : List Word) :
    clauseFault e set va (w :: ws) =
      if clauseTerminal i && !ws.isEmpty then some ⟨0x21, set, va.setWidth 64, w⟩ else clauseFault e set (va + 4) ws := by
  rw [clauseFault, h]

/-! ## Stops and issues -/

theorem stopHere_of_issue_none {gr : Group} (h : gr.issue = none) : stopHere gr = gr := by
  rw [stopHere, h]

@[simp] theorem countWaits_fault (s : State) (g : Nat) (gr : Group) (set : Mask) : (countWaits s g gr set).fault = gr.fault := by
  rw [countWaits, onThreads]
@[simp] theorem countWaits_phase (s : State) (g : Nat) (gr : Group) (set : Mask) : (countWaits s g gr set).phase = gr.phase := by
  rw [countWaits, onThreads]

@[simp] theorem startClause_fault (gr : Group) (hd : Header) (h : Word) (ws : List Word) (a : CodePos) (set : Mask) :
    (startClause gr hd h ws a set).fault = gr.fault := rfl
@[simp] theorem startClause_phase (gr : Group) (hd : Header) (h : Word) (ws : List Word) (a : CodePos) (set : Mask) :
    (startClause gr hd h ws a set).phase = gr.phase := rfl

theorem exec_clauseIssue (g l : Nat) (s : State) : exec (.clauseIssue g l) s = execClauseIssue g l s := rfl

end Sys2Proof.Machine

namespace Sys2Proof.Claims
open Sys2Proof.Machine

theorem clauseTerminal_eq_endsClause (i : Instr) : clauseTerminal i = endsClause i := by
  cases i <;> rfl

theorem decodesTo_cons {e : Nat} {ws : List Word} {i : Instr} {is : List Instr} (h : decodesTo e ws (i :: is)) :
    ∃ w ws', ws = w :: ws' ∧ decode e w = .ok i ∧ decodesTo e ws' is :=
  List.map_eq_cons_iff.mp h

/-- Words before which no instruction ends the clause are passed over: the fault is that of the words after them. -/
theorem clauseFault_skip {e : Nat} {front rest : List Instr} (hfront : ∀ j ∈ front, endsClause j = false) (set : Mask) (va : VA)
    {ws : List Word} (hws : decodesTo e ws (front ++ rest)) :
    ∃ va' ws', decodesTo e ws' rest ∧ clauseFault e set va ws = clauseFault e set va' ws' := by
  induction front generalizing va ws with
  | nil => exact ⟨va, ws, hws, rfl⟩
  | cons j front ih =>
    obtain ⟨w, ws, rfl, hw, hws⟩ := decodesTo_cons hws
    have hj : clauseTerminal j = false := by rw [clauseTerminal_eq_endsClause, hfront j List.mem_cons_self]
    obtain ⟨va', ws', hrest, heq⟩ := ih (fun k hk => hfront k (List.mem_cons_of_mem _ hk)) (va + 4) hws
    exact ⟨va', ws', hrest, by rw [clauseFault_cons hw, hj, Bool.false_and, if_neg Bool.false_ne_true, heq]⟩

theorem clauseFault_of_terminal_before_end {e : Nat} {front back : List Instr} {i : Instr}
    (hfront : ∀ j ∈ front, endsClause j = false) (hi : endsClause i = true) (hback : back ≠ []) (set : Mask) (va : VA)
    {ws : List Word} (hws : decodesTo e ws (front ++ i :: back)) :
    ∃ f, clauseFault e set va ws = some f ∧ f.cause = 0x21 := by
  obtain ⟨va', ws', hrest, heq⟩ := clauseFault_skip hfront set va hws
  obtain ⟨w, ws', rfl, hw, hws'⟩ := decodesTo_cons hrest
  obtain ⟨k, back, rfl⟩ := List.exists_cons_of_ne_nil hback
  obtain ⟨w', ws', rfl, -, -⟩ := decodesTo_cons hws'
  rw [heq, clauseFault_cons hw, clauseTerminal_eq_endsClause, hi]
  exact ⟨_, rfl, rfl⟩

theorem clauseFault_eq_none {e : Nat} {front : List Instr} {i : Instr} (hfront : ∀ j ∈ front, endsClause j = false)
    (set : Mask) (va : VA) {ws : List Word} (hws : decodesTo e ws (front ++ [i])) : clauseFault e set va ws = none := by
  obtain ⟨va', ws', hrest, heq⟩ := clauseFault_skip hfront set va hws
  obtain ⟨w, ws', rfl, hw, hnil⟩ := decodesTo_cons hrest
  obtain rfl : ws' = [] := List.map_eq_nil_iff.mp hnil
  rw [heq, clauseFault_cons hw, List.isEmpty_nil, Bool.not_true, Bool.and_false, clauseFault]
  rfl

/-! ## CLAUSE_ISSUE with the words fetched -/

theorem headerFetched.groups {s s₁ : State} {g l : Nat} {gr : Group} {h : Word} (hf : headerFetched s s₁ g l gr h) :
    s₁.groups = s.groups := by
  obtain ⟨-, -, -, -, -, s₀, hs₀, -, hword⟩ := hf
  exact (fetchWord_ok_groups hword).trans hs₀

theorem restFetched.groups {s s₂ : State} {g : Nat} {gr : Group} {set : Mask} {hdr : VA} {n : Nat} {ws : List Word}
    (hr : restFetched s s₂ g gr set hdr n ws) : s₂.groups = s.groups := by
  obtain ⟨s₁, hs₁, -, hwords⟩ := hr
  exact (fetchWords_ok_groups hwords).trans hs₁

theorem clauseIssue_of_illegalHeader {s s₁ : State} {g l : Nat} {gr : Group} {h : Word} {r : DecodeError}
    (hf : headerFetched s s₁ g l gr h) (hd : decodeHeader gr.enc h = .error r) :
    exec (.clauseIssue g l) s =
      .next (groupFault s₁ g ⟨0x21, convergenceSet gr l, (lane gr.threads l).at_.hdr.setWidth 64, h⟩) := by
  obtain ⟨hgr, hissue, hphase, hctx, hset, s₀, -, hlink, hword⟩ := hf
  simp only [exec_clauseIssue, execClauseIssue, hgr, hissue, hphase, hctx, hset, hlink, hword, hd, List.headD_cons]
  exact if_neg (by simp)

theorem clauseIssue_of_fetched {s s₁ s₂ : State} {g l : Nat} {gr : Group} {h : Word} {hd : Header} {ws : List Word}
    (hf : headerFetched s s₁ g l gr h) (hdec : decodeHeader gr.enc h = .ok hd)
    (hr : restFetched s₁ s₂ g gr (convergenceSet gr l) (lane gr.threads l).at_.hdr hd.len ws) :
    exec (.clauseIssue g l) s = .next
      ((clauseFault gr.enc (convergenceSet gr l) ((lane gr.threads l).at_.hdr + 4) ws).elim
        (if (lane gr.threads l).at_.pos = 0 && !flagsClear gr hd.wait then s₂
          else s₂.setGroup g
            (startClause (countWaits s₂ g gr (convergenceSet gr l)) hd h ws (lane gr.threads l).at_ (convergenceSet gr l)))
        (groupFault s₂ g)) := by
  obtain ⟨hgr, hissue, hphase, hctx, hset, s₀, -, hlink, hword⟩ := hf
  obtain ⟨s₃, -, hnext, hwords⟩ := hr
  simp only [exec_clauseIssue, execClauseIssue, hgr, hissue, hphase, hctx, hset, hlink, hword, hdec, hnext, hwords,
    List.headD_cons]
  cases clauseFault gr.enc (convergenceSet gr l) ((lane gr.threads l).at_.hdr + 4) ws <;> exact if_neg (by simp)

/-- A group that runs with no clause in issue stops for an illegal clause when it raises that fault. -/
theorem illegalClause_groupFault {s : State} {g : Nat} {gr : Group} {f : FaultInfo} (hgr : s.group? g = some gr)
    (hissue : gr.issue = none) (hphase : gr.phase = .running) (hcause : f.cause = 0x21) : illegalClause g (groupFault s g f) := by
  refine ⟨faulted gr f s.time, f, groupFault_group hgr f, ?_⟩
  rw [faulted_running hphase (by rw [hissue]; rfl), stopHere_of_issue_none hissue]
  exact ⟨rfl, hissue, rfl, hcause⟩

theorem illegalHeader_stops {s s₁ : State} {g l : Nat} {gr : Group} {h : Word} {r : DecodeError}
    (hf : headerFetched s s₁ g l gr h) (hd : decodeHeader gr.enc h = .error r) :
    Completes (exec (.clauseIssue g l) s) (illegalClause g) := by
  obtain ⟨hgr, hissue, hphase, -⟩ := id hf
  refine ⟨_, clauseIssue_of_illegalHeader hf hd, illegalClause_groupFault ?_ hissue hphase rfl⟩
  rw [State.group?_congr hf.groups, hgr]

theorem clauseFault_stops {s s₁ s₂ : State} {g l : Nat} {gr : Group} {h : Word} {hd : Header} {ws : List Word} {f : FaultInfo}
    (hf : headerFetched s s₁ g l gr h) (hdec : decodeHeader gr.enc h = .ok hd)
    (hr : restFetched s₁ s₂ g gr (convergenceSet gr l) (lane gr.threads l).at_.hdr hd.len ws)
    (hfault : clauseFault gr.enc (convergenceSet gr l) ((lane gr.threads l).at_.hdr + 4) ws = some f) (hcause : f.cause = 0x21) :
    Completes (exec (.clauseIssue g l) s) (illegalClause g) := by
  obtain ⟨hgr, hissue, hphase, -⟩ := id hf
  refine ⟨groupFault s₂ g f, by rw [clauseIssue_of_fetched hf hdec hr, hfault]; rfl, illegalClause_groupFault ?_ hissue hphase hcause⟩
  rw [State.group?_congr (hr.groups.trans hf.groups), hgr]

theorem legalClause_runs_on {s s₁ s₂ : State} {g l : Nat} {gr : Group} {h : Word} {hd : Header} {ws : List Word}
    (hf : headerFetched s s₁ g l gr h) (hdec : decodeHeader gr.enc h = .ok hd)
    (hr : restFetched s₁ s₂ g gr (convergenceSet gr l) (lane gr.threads l).at_.hdr hd.len ws)
    (hlegal : clauseFault gr.enc (convergenceSet gr l) ((lane gr.threads l).at_.hdr + 4) ws = none) :
    Completes (exec (.clauseIssue g l) s) fun t => ∃ gr', t.group? g = some gr' ∧ gr'.fault = gr.fault ∧ gr'.phase = .running := by
  obtain ⟨hgr, -, hphase, -⟩ := id hf
  refine ⟨_, clauseIssue_of_fetched hf hdec hr, ?_⟩
  rw [hlegal, Option.elim_none]
  split
  · exact ⟨gr, by rw [State.group?_congr (hr.groups.trans hf.groups), hgr], rfl, hphase⟩
  · exact ⟨_, State.group?_setGroup .., by simp, by simp [hphase]⟩

/-- Settles O53: an illegal header does not decode, the words before the first clause-terminal one raise nothing, and that one
raises the fault exactly when words follow it. -/
theorem illegalClauses : Obligations.IllegalClauses := by
  refine ⟨?_, ?_, ?_, ?_⟩
  · intro s s₁ g l gr h he hf hillegal
    exact illegalHeader_stops hf (decodeHeader_illegal he hillegal)
  · intro e h he hlen hlow hfa hfb
    refine ⟨_, decodeHeader_legal he hlen hlow hfa hfb, rfl, rfl, rfl, rfl, ?_, rfl⟩
    intro hguard
    rw [hguard, if_neg Bool.false_ne_true]
  · intro s s₁ s₂ g l gr h hd ws front back i hf hdec hr hws hi hback hfront
    obtain ⟨f, hfault, hcause⟩ := clauseFault_of_terminal_before_end hfront hi hback _ _ hws
    exact clauseFault_stops hf hdec hr hfault hcause
  · intro s s₁ s₂ g l gr h hd ws front i hf hdec hr hws hfront
    exact legalClause_runs_on hf hdec hr (clauseFault_eq_none hfront _ _ hws)

end Sys2Proof.Claims

/-! # Window moves, YIELD and NOP (R184, R185, R197, R199)

What an instruction of no operands starts from, what the end of an issue, a fault and the eviction of rows leave of the threads of
every group, and what a window move and the traps that it raises do to a lane. -/
namespace Sys2Proof.Machine
open Sys2Proof.Claims

/-! ## Lanes and masks -/

theorem lane_perLane {α : Type} (f : Nat → α) {l : Nat} (hl : l < 32) : lane (perLane f) l = f l := by
  simp [lane, perLane, Nat.mod_eq_of_lt hl]

theorem lane_modLanes {α : Type} (v : Lanes α) (m : Mask) (f : Nat → α → α) {l : Nat} (hl : l < 32) :
    lane (modLanes v m f) l = if has m l then f l (lane v l) else lane v l :=
  lane_perLane _ hl

theorem has_or (a b : Mask) (l : Nat) : has (a ||| b) l = (has a l || has b l) := BitVec.getLsbD_or

theorem has_andNot (a b : Mask) {l : Nat} (hl : l < 32) : has (a &&& ~~~b) l = (has a l && !has b l) := by
  simp [has, hl]

theorem has_bit (i : Nat) {l : Nat} (hl : l < 32) : has (BitVec.ofNat 32 (1 <<< i)) l = decide (i = l) := by
  rw [has, BitVec.getLsbD_ofNat, decide_eq_true hl, Bool.true_and, Nat.one_shiftLeft, Nat.testBit_two_pow]

/-- Or-ing in the lanes of a list that satisfy `p`. -/
theorem has_foldl_bits (p : Nat → Bool) {l : Nat} (hl : l < 32) (ls : List Nat) (m : Mask) :
    has (ls.foldl (fun m i => if p i then m ||| (1 <<< i : Mask) else m) m) l = (has m l || decide (l ∈ ls) && p l) := by
  induction ls generalizing m with
  | nil => simp
  | cons i ls ih =>
    have hstep : has (if p i then m ||| (1 <<< i : Mask) else m) l = (has m l || p i && decide (i = l)) := by
      cases p i
      · simp
      · exact (has_or ..).trans (congrArg _ (has_bit i hl))
    rw [List.foldl_cons, ih, hstep, Bool.or_assoc]
    by_cases h : i = l
    · subst h
      cases p i <;> simp
    · simp [h, Ne.symm h]

theorem has_maskOf (p : Nat → Bool) {l : Nat} (hl : l < 32) : has (maskOf p) l = p l := by
  rw [maskOf, has_foldl_bits p hl]
  simp [has, hl]

/-! ## What the end of an issue leaves -/

/-- The thread without what the end of an issue sets: its place, and whether it is held at its meeting address. -/
def Thread.unplaced (t : Thread) : Thread := { t with at_ := .zero, meeting := 0, held := false }

/-- Two states of a group that differ in its clause in issue, in where its threads stand, in which rows are on chip and in its
stop alone. -/
structure SameButPlaces (g h : Group) : Prop where
  rest : groupRest h = groupRest g
  rows : h.rows = g.rows
  bank : h.bank = g.bank
  threads : ∀ l, l < 32 → (lane h.threads l).unplaced = (lane g.threads l).unplaced

theorem SameButPlaces.refl (g : Group) : SameButPlaces g g := ⟨rfl, rfl, rfl, fun _ _ => rfl⟩

theorem SameButPlaces.trans {g h k : Group} (p : SameButPlaces g h) (q : SameButPlaces h k) : SameButPlaces g k :=
  ⟨q.rest.trans p.rest, q.rows.trans p.rows, q.bank.trans p.bank, fun l hl => (q.threads l hl).trans (p.threads l hl)⟩

theorem SameButPlaces.place {g : Group} {ts : Lanes Thread} (i : Option Issue) (tch : List Nat)
    (h : ∀ l, l < 32 → (lane ts l).unplaced = (lane g.threads l).unplaced) :
    SameButPlaces g { g with threads := ts, issue := i, touched := tch } :=
  ⟨rfl, rfl, rfl, h⟩

/-- Some lanes' threads move to other places. -/
theorem SameButPlaces.moveLanes (g : Group) (m : Mask) (p : Nat → CodePos) (i : Option Issue) (tch : List Nat) :
    SameButPlaces g { g with
      threads := modLanes g.threads m fun l t => { t with at_ := p l }, issue := i, touched := tch } := by
  refine .place i tch fun l hl => ?_
  rw [lane_modLanes _ _ _ hl]
  split <;> rfl

theorem Thread.hold_ite (b : Bool) (t : Thread) :
    (if b then { t with held := true } else t).at_ = t.at_ ∧ (if b then { t with held := true } else t).unplaced = t.unplaced := by
  cases b <;> exact ⟨rfl, rfl⟩

theorem Thread.release_ite (b : Bool) (t : Thread) :
    (if b then { t with held := false, meeting := 0 } else t).at_ = t.at_ ∧
      (if b then { t with held := false, meeting := 0 } else t).unplaced = t.unplaced := by
  cases b <;> exact ⟨rfl, rfl⟩

theorem settle_eq (g : Group) : settle g = { g with threads := (settle g).threads } := rfl

theorem lane_settle (g : Group) {l : Nat} (hl : l < 32) :
    (lane (settle g).threads l).at_ = (lane g.threads l).at_ ∧
      (lane (settle g).threads l).unplaced = (lane g.threads l).unplaced := by
  simp only [settle, lane_perLane _ hl]
  exact ⟨(Thread.release_ite ..).1.trans (Thread.hold_ite ..).1, (Thread.release_ite ..).2.trans (Thread.hold_ite ..).2⟩

theorem settle_same (g : Group) : SameButPlaces g (settle g) := .place g.issue g.touched fun _ hl => (lane_settle g hl).2

theorem endIssue_of_issue {g : Group} {i : Issue} (h : g.issue = some i) (p : Nat → CodePos) :
    endIssue g p = settle { g with
      threads := modLanes g.threads i.set fun l t => { t with at_ := p l }, issue := none, touched := [] } := by
  rw [endIssue, h]

theorem endIssue_same (g : Group) (p : Nat → CodePos) : SameButPlaces g (endIssue g p) := by
  rw [endIssue]
  split
  · exact .refl g
  · exact (SameButPlaces.moveLanes ..).trans (settle_same _)

theorem lane_endIssue_at {g : Group} {i : Issue} (h : g.issue = some i) (p : Nat → CodePos) {l : Nat} (hl : l < 32)
    (hset : has i.set l = true) : (lane (endIssue g p).threads l).at_ = p l := by
  rw [endIssue_of_issue h, (lane_settle _ hl).1, lane_modLanes _ _ _ hl, if_pos hset]

theorem endIssue_issue {g : Group} {i : Issue} (h : g.issue = some i) (p : Nat → CodePos) : (endIssue g p).issue = none := by
  rw [endIssue_of_issue h, settle_eq]

theorem advance_same (g : Group) : SameButPlaces g (advance g) := by
  rw [advance]
  split
  · exact .refl g
  · split
    · exact ⟨rfl, rfl, rfl, fun _ _ => rfl⟩
    · exact endIssue_same ..

theorem faulted_same (g : Group) (f : FaultInfo) (now : Nat) : SameButPlaces g (faulted g f now) := by
  have hstop : SameButPlaces g (if (g.issue.bind (·.op)).isSome then g else stopHere g) := by
    split
    · exact .refl g
    · rw [stopHere]
      split
      · exact .refl g
      · exact endIssue_same ..
  exact ⟨hstop.rest, hstop.rows, hstop.bank, hstop.threads⟩

theorem leaveIssue_same (g : Group) (m : Mask) (p : Nat → CodePos) : SameButPlaces g (leaveIssue g m p) := by
  rw [leaveIssue]
  split
  · exact .refl g
  · exact .moveLanes ..

/-! ## What these operations leave of every group of a state -/

/-- Every group of `s` is in `t`, with no more changed of it than `SameButPlaces` lets. -/
structure KeepsGroups (s t : State) : Prop where
  group : ∀ g gr, s.group? g = some gr → ∃ gr', t.group? g = some gr' ∧ SameButPlaces gr gr'

theorem KeepsGroups.of_groups {s t : State} (h : t.groups = s.groups) : KeepsGroups s t :=
  ⟨fun g gr hgr => ⟨gr, by rw [State.group?_congr h, hgr], .refl gr⟩⟩

theorem KeepsGroups.refl (s : State) : KeepsGroups s s := .of_groups rfl

theorem KeepsGroups.trans {s t u : State} (h : KeepsGroups s t) (k : KeepsGroups t u) : KeepsGroups s u := by
  refine ⟨fun g gr hgr => ?_⟩
  obtain ⟨gr₁, h₁, same₁⟩ := h.group g gr hgr
  obtain ⟨gr₂, h₂, same₂⟩ := k.group g gr₁ h₁
  exact ⟨gr₂, h₂, same₁.trans same₂⟩

theorem KeepsGroups.setGroup {s : State} {g : Nat} {x y : Group} (hx : s.group? g = some x) (h : SameButPlaces x y) :
    KeepsGroups s (s.setGroup g y) := by
  refine ⟨fun k gr hgr => ?_⟩
  by_cases hk : k = g
  · subst hk
    obtain rfl : x = gr := Option.some.inj (hx.symm.trans hgr)
    exact ⟨y, State.group?_setGroup .., h⟩
  · exact ⟨gr, by rw [State.group?_setGroup_ne _ _ hk, hgr], .refl gr⟩

theorem KeepsGroups.modGroup (s : State) (g : Nat) {f : Group → Group} (h : ∀ x, SameButPlaces x (f x)) :
    KeepsGroups s (s.modGroup g f) := by
  refine ⟨fun k gr hgr => ?_⟩
  by_cases hk : k = g
  · subst hk
    exact ⟨f gr, State.group?_modGroup f hgr, h gr⟩
  · exact ⟨gr, by rw [State.group?_modGroup_ne _ _ hk, hgr], .refl gr⟩

theorem groupFault_keepsGroups (s : State) (g : Nat) (f : FaultInfo) : KeepsGroups s (groupFault s g f) := by
  rw [groupFault]
  split
  · exact .refl s
  · next gr hgr =>
    rw [haltContext_eq]
    exact (KeepsGroups.setGroup hgr (faulted_same ..)).trans (.of_groups rfl)

theorem frameWrite_groups (s : State) (e : TlbEntry) (va : Nat) (b : List Byte) : (frameWrite s e va b).groups = s.groups := by
  rw [frameWrite]
  split
  · rfl
  · split <;> rfl

theorem storeRow_keepsGroups (s : State) (k : Nat) (gr : Group) (e : Nat) (sel : Nat → TlbEntry → Bool) :
    KeepsGroups s (storeRow s k gr e sel) :=
  foldl_keeps KeepsGroups.refl (fun _ _ _ => .trans) (fun s l => by
    split
    · exact .refl s
    · split
      · exact .of_groups (frameWrite_groups ..)
      · exact .refl s) _ s

theorem sendMessages_groups (p : State → Word) (xs : List (Nat × Nat × Nat)) (s : State) :
    (xs.foldl (fun s x => sendMessage s (p s) x.1 x.2.1 x.2.2) s).groups = s.groups :=
  foldl_keeps (P := fun s t => t.groups = s.groups) (fun _ => rfl) (by intro _ _ _ h k; exact k.trans h)
    (fun s x => by rw [sendMessage_eq]) xs s

theorem evictRow_keepsGroups (s : State) (g e : Nat) : KeepsGroups s (evictRow s g e) := by
  rw [evictRow]
  split
  · exact .refl s
  · next gr hgr =>
    split
    · exact groupFault_keepsGroups ..
    · refine .trans ?_ (storeRow_keepsGroups ..)
      refine .trans (.of_groups (sendMessages_groups ..)) (.setGroup (x := gr) ?_ ?_)
      · rw [State.group?_congr (sendMessages_groups ..), hgr]
      · exact ⟨rfl, rfl, rfl, fun _ _ => rfl⟩

theorem evictRows_keepsGroups (g : Nat) (ns : List Nat) (n : Nat) (st : List (Nat × Nat)) (s : State) :
    KeepsGroups s (evictRows g ns n st s) := by
  induction n generalizing s st with
  | zero => exact .refl s
  | succ n ih =>
    rw [evictRows]
    split
    · exact .refl s
    · split
      · exact .refl s
      · exact (evictRow_keepsGroups ..).trans (ih ..)

theorem profile_groups (s : State) (c : Ctl) (scalar joins : Bool) : (profile s c scalar joins).groups = s.groups := by
  rw [profile]
  split <;> rfl

theorem takeTurn_eq (s : State) (g : Nat) (scalar : Bool) : takeTurn s g scalar = { s with turns := (takeTurn s g scalar).turns } := by
  unfold takeTurn
  dsimp only
  split <;> rfl

theorem takeIssue_keepsGroups (s : State) (c : Ctl) (scalar : Bool) : KeepsGroups s (takeIssue s c scalar) := by
  rw [takeIssue]
  split
  · exact .refl s
  · refine KeepsGroups.trans (.of_groups ?_) (.modGroup _ _ fun x => ⟨rfl, rfl, rfl, fun _ _ => rfl⟩)
    rw [profile_groups, takeTurn_eq]

theorem issued_keepsGroups (s : State) (c : Ctl) (scalar : Bool) : KeepsGroups s (issued s c scalar) :=
  (takeIssue_keepsGroups ..).trans (.modGroup _ _ fun _ => ⟨rfl, rfl, rfl, fun _ _ => rfl⟩)

theorem finish_keepsGroups (s : State) (c : Ctl) (scalar : Bool) : KeepsGroups s (finish s c scalar) :=
  (issued_keepsGroups ..).trans (.modGroup _ _ advance_same)

/-! ## The trap vector stays -/

/-- The handler address of every group is the same. -/
structure SameVectors (s t : State) : Prop where
  eq : ∀ gr, trapVector t gr = trapVector s gr

theorem SameVectors.of_contexts {s t : State} (h : t.contexts = s.contexts) : SameVectors s t :=
  ⟨fun gr => by simp only [trapVector, State.image?, State.ctx, h]⟩

theorem SameVectors.trans {s t u : State} (h : SameVectors s t) (k : SameVectors t u) : SameVectors s u :=
  ⟨fun gr => (k.eq gr).trans (h.eq gr)⟩

theorem SameVectors.modGroup {s t : State} (h : SameVectors s t) (g : Nat) (f : Group → Group) : SameVectors s (t.modGroup g f) :=
  h.trans (.of_contexts rfl)

/-- A new debug state of a context leaves the images and the vectors. -/
theorem SameVectors.modDebug {s t : State} (h : SameVectors s t) (c : Nat) (f : Context → Option Debug) :
    SameVectors s (t.modCtx c fun x => { x with debug := f x }) := by
  refine h.trans ⟨fun gr => ?_⟩
  by_cases hc : gr.ctx = c
  · subst hc
    simp only [trapVector, State.image?, State.ctx_modCtx]
  · simp only [trapVector, State.image?, State.ctx_modCtx_ne _ _ hc]

theorem tryTurn_sameVectors (s : State) (g : Nat) : SameVectors s (tryTurn s g) := .of_contexts rfl

theorem withDebug_sameVectors {s : State} {c : Ctl} (h : InProgress s c) : SameVectors s (withDebug (tryTurn s c.g) c id) := by
  rw [withDebug]
  split
  · exact tryTurn_sameVectors ..
  · next hnew =>
    have hpass := Or.resolve_left h.debug hnew
    dsimp only
    split
    · next d t hd ht =>
      rw [show (s.ctx c.gr.ctx).debug = some d from hd, show s.team? c.gr.team = some t from ht] at hpass
      rw [show (checkICmp c.gr t c.act c.pc.toNat 0 d.icmp).1 = none from hpass]
      exact ((tryTurn_sameVectors ..).modDebug ..).modGroup ..
    · exact (tryTurn_sameVectors ..).modGroup ..

theorem profile_sameVectors (s : State) (c : Ctl) (scalar joins : Bool) : SameVectors s (profile s c scalar joins) := by
  rw [profile]
  split
  · exact .of_contexts rfl
  · exact .modDebug (.of_contexts rfl) _ _

theorem takeIssue_sameVectors (s : State) (c : Ctl) (scalar : Bool) : SameVectors s (takeIssue s c scalar) := by
  rw [takeIssue]
  split
  · exact .of_contexts rfl
  · refine .modGroup (.trans (.of_contexts ?_) (profile_sameVectors ..)) _ _
    rw [takeTurn_eq]

/-! ## An instruction without operands -/

/-- An instruction without operands comes to its effect in a state that differs in bookkeeping alone. -/
theorem runControl_starts {s : State} {c : Ctl} (h : InProgress s c) :
    ∃ s', Begun s c s' ∧ SameVectors s s' ∧
      ∀ k : Ctl → State → List Row → State, runControl [] [] k s = .next (k c s' []) := by
  obtain ⟨s₁, b₁, e₁⟩ := withIssue_completes h
  obtain ⟨s₂, b₂, e₂⟩ := withRows_clear (ns := []) b₁ rfl
  refine ⟨s₂, b₂, ?_, fun k => ?_⟩
  · have hdebug : withDebug (tryTurn s c.g) c id = s₁ := by
      have hissue := e₁ fun _ => id
      simp only [withIssue, h.ctl, h.fresh, Option.isSome_none, Bool.false_eq_true, if_false, if_neg h.active] at hissue
      exact Host.Outcome.next.inj hissue
    have hrows : withRows s₁ c [] id = s₂ := e₂ id
    rw [← hrows, ← hdebug]
    exact (withDebug_sameVectors h).modGroup ..
  · rw [runControl, e₁, withDeps_clear (p := fun l => pendingName c.gr l []) fun _ _ => rfl, e₂]
    rfl

/-- Taking an issue cycle is bookkeeping. -/
theorem Begun.takeIssue {s s' : State} {c : Ctl} (b : Begun s c s') (scalar : Bool) : Begun s c (takeIssue s' c scalar) := by
  have hturn : Begun s c (takeTurn s' c.g scalar) := by
    rw [takeTurn_eq]
    exact ⟨b.group, b.others, b.queues, b.quiet, b.same⟩
  have hprofile (joins : Bool) : Begun s c (profile (takeTurn s' c.g scalar) c scalar joins) := by
    rw [profile]
    split
    · exact hturn
    · next d hd =>
      refine hturn.debug _ fun hnone => ?_
      rw [State.ctx, hturn.quiet hnone, ← State.ctx, hnone] at hd
      simp at hd
  rw [Machine.takeIssue]
  split
  · exact b
  · exact (hprofile _).modGroup fun i u hpos hwords hhdr hset hguard =>
      ⟨{ i with taken := true }, u, rfl, hpos, hwords, hhdr, hset, hguard⟩

/-- The group of an instruction that has issued, before it goes on. -/
theorem Begun.issued_group {s s' : State} {c : Ctl} (b : Begun s c s') (scalar : Bool) :
    ∃ i u x, (issued s' c scalar).group? c.g = some { c.gr with issue := some i, use := u, skipCmp := x } ∧
      i.pos = c.iss.pos ∧ i.words = c.iss.words ∧ i.hdr = c.iss.hdr ∧ i.set = c.iss.set ∧ i.guard = c.iss.guard := by
  obtain ⟨i, u, hgr, hi⟩ := (b.takeIssue scalar).group
  exact ⟨i, u, _, State.group?_modGroup _ hgr, hi⟩

theorem Begun.sameButPlaces {s s' : State} {c : Ctl} (b : Begun s c s') : ∃ gr, s'.group? c.g = some gr ∧ SameButPlaces c.gr gr := by
  obtain ⟨i, u, hgr, -⟩ := b.group
  exact ⟨_, hgr, rfl, rfl, rfl, fun _ _ => rfl⟩

end Sys2Proof.Machine

namespace Sys2Proof.Claims
open Sys2Proof.Machine

theorem threadIn_of_group {t : State} {c : Ctl} {gr : Group} (h : t.group? c.g = some gr) (l : Nat) :
    threadIn t c l = lane gr.threads l := by
  rw [threadIn, h]

/-! ## YIELD and NOP -/

theorem exec_nop (s : State) : exec .nop s = runControl [] [] (fun c s _ => finish s c false) s := rfl
theorem exec_yield (s : State) : exec .yield s = runControl [] [] (fun c s _ => yieldAfter s c) s := rfl

/-- Passing an instruction that has issued, in a way that changes places only, changes no architected value. -/
theorem architectedSame_of_issued {s s' : State} {c : Ctl} (b : Begun s c s') {f : Group → Group} (hf : ∀ g, SameButPlaces g (f g)) :
    architectedSame s ((issued s' c false).modGroup c.g f) c := by
  obtain ⟨gr, hgr, hsame⟩ := b.sameButPlaces
  obtain ⟨gr', hgr', hsame'⟩ := ((issued_keepsGroups s' c false).trans (.modGroup _ c.g hf)).group _ _ hgr
  have hall := hsame.trans hsame'
  have hlane (l : Nat) (hl : l < 32) : (lane gr'.threads l).unplaced = (c.thread l).unplaced := hall.threads l hl
  refine ⟨⟨gr', hgr', hall.rest, hall.rows, hall.bank, fun l hl => ⟨?_, ?_, ?_, ?_⟩⟩, (b.takeIssue false).same,
    (b.takeIssue false).queues, ?_⟩
  · exact (congrArg threadRest (hlane l hl) :)
  · exact (congrArg Thread.preds (hlane l hl) :)
  · exact (congrArg Thread.fpx (hlane l hl) :)
  · exact (congrArg Thread.rm (hlane l hl) :)
  · obtain ⟨-, -, -, -, -, -, -, -, -, -, hclasses, -⟩ := (b.takeIssue false).same
    exact hclasses

theorem finish_goesOn {s s' : State} {c : Ctl} (b : Begun s c s') : goesOnAfter (finish s' c false) c := by
  obtain ⟨i, u, x, hgr, hpos, hwords, hhdr, hset, -⟩ := b.issued_group false
  have hadv : (finish s' c false).group? c.g = some (advance { c.gr with issue := some i, use := u, skipCmp := x }) :=
    State.group?_modGroup _ hgr
  rw [goesOnAfter]
  rw [advance] at hadv
  simp only [hpos, hwords] at hadv
  split
  · next hmore =>
    rw [if_pos hmore] at hadv
    exact ⟨_, _, hadv, rfl, hhdr, rfl, hset, rfl⟩
  · next hlast =>
    rw [if_neg hlast] at hadv
    refine ⟨⟨_, hadv, endIssue_issue rfl _⟩, fun l hl hl' => ?_⟩
    rw [standsAt, threadIn_of_group hadv, lane_endIssue_at rfl _ hl (hset ▸ hl'), Issue.next, hhdr, hwords]
    rfl

theorem yieldAfter_stands {s s' : State} {c : Ctl} (b : Begun s c s') : setAfter (yieldAfter s' c) c := by
  obtain ⟨i, u, x, hgr, -, -, -, hset, -⟩ := b.issued_group false
  have hend : (yieldAfter s' c).group? c.g = some (endIssue { c.gr with issue := some i, use := u, skipCmp := x } c.iss.after) :=
    State.group?_modGroup _ hgr
  refine ⟨⟨_, hend, endIssue_issue rfl _⟩, fun l hl hl' => ?_⟩
  rw [threadIn_of_group hend, lane_endIssue_at rfl _ hl (hset ▸ hl')]
  rfl

/-- Settles O51: both come to their effect with bookkeeping alone changed; then NOP passes on and YIELD ends the issue, which
changes places only. -/
theorem yieldAndNop : Obligations.YieldAndNop := by
  refine ⟨fun s c h => ?_, fun s c h => ?_⟩
  · obtain ⟨s', b, -, hrun⟩ := runControl_starts h.toInProgress
    exact ⟨_, (exec_nop s).trans (hrun _), finish_goesOn b, architectedSame_of_issued b advance_same⟩
  · obtain ⟨s', b, -, hrun⟩ := runControl_starts h.toInProgress
    exact ⟨_, (exec_yield s).trans (hrun _), yieldAfter_stands b, architectedSame_of_issued b fun _ => endIssue_same ..⟩

end Sys2Proof.Claims

/-! ## Traps of some lanes (R90) -/
namespace Sys2Proof.Machine
open Sys2Proof.Claims

theorem balanceRows_keepsGroups (s : State) (g : Nat) (ns : List Nat) : KeepsGroups s (balanceRows s g ns) :=
  evictRows_keepsGroups ..

/-- Thread `u` is `t` in its handler, which it has entered with this cause and this value: its base is kept, and names count from
it in the handler too. -/
def Entered (t u : Thread) (cause : BitVec 8) (val : BitVec 64) : Prop :=
  u.inHandler = true ∧ u.tcause = cause ∧ u.tval = val ∧ u.wb = t.wb ∧ u.hwb = t.wb.toNat

theorem Entered.congr {t u u' : Thread} {cause : BitVec 8} {val : BitVec 64} (h : Entered t u cause val)
    (hu : u'.unplaced = u.unplaced) : Entered t u' cause val := by
  change Entered t u'.unplaced cause val
  rw [hu]
  exact h

theorem entered_enterHandler {t t' : Thread} (ht : t'.unplaced = t.unplaced) (v : VA) (here next : CodePos) (cause : BitVec 8)
    (val : BitVec 64) : Entered t (enterHandler t' v here next cause val) cause val :=
  have hwb : t'.wb = t.wb := (congrArg Thread.wb ht :)
  ⟨rfl, rfl, rfl, hwb, congrArg (fun w : Word => (w.toNat : Int)) hwb⟩

/-- Lanes outside handlers, with a trap vector set, all enter their handlers, each with its own cause and value. -/
theorem trapLanes_enters {s : State} {g : Nat} {gr : Group} {m : Mask} (hgr : s.group? g = some gr)
    (hout : ∀ j, j < 32 → has m j = true → (lane gr.threads j).inHandler = false) (hvec : trapVector s gr ≠ 0)
    (cause : Nat → BitVec 8) (val : Nat → BitVec 64) (here next : Nat → CodePos) (word : Word) :
    ∃ gr', (trapLanes s g m cause val here next word).group? g = some gr' ∧
      ∀ l, l < 32 → has m l = true → Entered (lane gr.threads l) (lane gr'.threads l) (cause l) (val l) := by
  have hinside : (maskOf fun l => has m l && (lane gr.threads l).inHandler) = 0 := maskOf_false fun j hj => by
    cases hm : has m j with
    | false => rfl
    | true => exact hout j hj hm
  simp only [trapLanes, hgr, hinside, hvec, ne_eq, not_true_eq_false, if_false]
  obtain ⟨gr', hgr', hsame⟩ := (balanceRows_keepsGroups ..).group g _ (State.group?_setGroup s g _)
  refine ⟨gr', hgr', fun l hl hm => ?_⟩
  refine Entered.congr ?_ ((hsame.threads l hl).trans (lane_settle _ hl).2)
  rw [lane_modLanes _ _ _ hl, if_pos hm]
  exact entered_enterHandler ((leaveIssue_same ..).threads l hl) ..

theorem trapIssue_eq {s : State} {g : Nat} {gr : Group} {i : Issue} (hgr : s.group? g = some gr) (hi : gr.issue = some i) (m : Mask)
    (cause : Nat → BitVec 8) (val : Nat → BitVec 64) :
    trapIssue s g m cause val = trapLanes s g m cause val i.here i.after (i.words.getD i.pos 0) := by
  simp only [trapIssue, hgr, hi]

theorem spendExempt_group {s : State} {g : Nat} {gr : Group} (hgr : s.group? g = some gr) (m : Mask) :
    (spendExempt s g m).group? g = some { gr with skipCmp := dropExempt gr.skipCmp m } := State.group?_modGroup _ hgr

theorem spendExempt_sameVectors (s : State) (g : Nat) (m : Mask) : SameVectors s (spendExempt s g m) := .of_contexts rfl

theorem trapSome_enters {s s' : State} {c : Ctl} {m : Mask} (b : Begun s c s') (hsame : SameVectors s s')
    (hout : ∀ j, j < 32 → has m j = true → (c.thread j).inHandler = false) (hvec : trapVector s c.gr ≠ 0)
    (cause : Nat → BitVec 8) (val : Nat → BitVec 64) :
    ∃ gr', (trapSome s' c.g m cause val).group? c.g = some gr' ∧
      ∀ l, l < 32 → has m l = true → Entered (c.thread l) (lane gr'.threads l) (cause l) (val l) := by
  obtain ⟨i, u, hgr, -⟩ := b.group
  have hspent := spendExempt_group hgr m
  rw [trapSome, trapIssue_eq (i := i) hspent rfl]
  refine trapLanes_enters hspent hout ?_ ..
  rw [(hsame.trans (spendExempt_sameVectors ..)).eq]
  exact hvec

/-! ## Window moves (R184, R185) -/

theorem movedTo_moveTo (t : Thread) (b : Int) : movedTo t (t.moveTo b) b := by
  cases h : t.inHandler <;> simp [movedTo, Thread.moveTo, wrap32, h]

theorem movedTo_congr {t u u' : Thread} {b : Int} (h : movedTo t u b) (hu : u'.unplaced = u.unplaced) : movedTo t u' b := by
  change movedTo t u'.unplaced b
  rw [hu]
  exact h

/-- The active lanes whose move traps. -/
def trappedMoves (c : Ctl) (nb : Nat → Int) : Mask := maskOf fun l => has c.act l && (moveTrap c.gr (c.thread l) (nb l)).isSome

theorem has_trappedMoves (c : Ctl) (nb : Nat → Int) {l : Nat} (hl : l < 32) :
    has (trappedMoves c nb) l = (has c.act l && (moveTrap c.gr (c.thread l) (nb l)).isSome) := has_maskOf _ hl

theorem trappedMoves_eq_zero {c : Ctl} {nb : Nat → Int}
    (h : ∀ l, l < 32 → has c.act l = true → moveTrap c.gr (c.thread l) (nb l) = none) : trappedMoves c nb = 0 := maskOf_false fun l hl => by
  cases hact : has c.act l with
  | false => rfl
  | true => rw [h l hl hact]; rfl

theorem ne_zero_of_has {m : Mask} {l : Nat} (h : has m l = true) : m ≠ 0 := by
  rintro rfl
  simp [has] at h

/-- The state in which the windows of the lanes `act` have moved. -/
def moveWindows (s : State) (g : Nat) (act : Mask) (nb : Nat → Int) : State :=
  s.modGroup g fun x => onThreads x act fun l t => t.moveTo (nb l)

/-- The lanes left move their windows and go on, unless a row that the traps evicted has stopped their group. -/
def moveOthers (s : State) (c : Ctl) (act : Mask) (nb : Nat → Int) (k : State → Ctl → State) : State :=
  match s.group? c.g with
  | none => s
  | some gr =>
    if act = 0 then s
    else if gr.phase ≠ .running then takeIssue s c false
    else k (moveWindows s c.g act nb) { c with act := act, gr := ((moveWindows s c.g act nb).group? c.g).getD gr }

/-- The traps that a window move raises: the instruction issues for the lanes that trap, unless others of its lanes are left. -/
def trapMoves (s : State) (c : Ctl) (nb : Nat → Int) : State :=
  if trappedMoves c nb = 0 then s
  else (if c.act &&& ~~~trappedMoves c nb = 0 then trapHere s c else trapSome s c.g) (trappedMoves c nb)
    (fun l => (moveTrap c.gr (c.thread l) (nb l)).getD 0) fun l => BitVec.ofInt 64 (nb l)

theorem withMove_eq (s : State) (c : Ctl) (nb : Nat → Int) (k : State → Ctl → State) :
    withMove s c nb k = moveOthers (trapMoves s c nb) c (c.act &&& ~~~trappedMoves c nb) nb k := rfl

theorem trapMoves_eq_self {c : Ctl} {nb : Nat → Int} (h : trappedMoves c nb = 0) (s : State) : trapMoves s c nb = s := if_pos h

/-- With some move trapping, no active lane in its handler and a trap vector set, every lane that traps enters its handler. -/
theorem trapMoves_enters {s s' : State} {c : Ctl} {nb : Nat → Int} (b : Begun s c s') (hsame : SameVectors s s')
    (hvec : trapVector s c.gr ≠ 0) (hout : ∀ j, j < 32 → has c.act j = true → (c.thread j).inHandler = false)
    (hsome : trappedMoves c nb ≠ 0) :
    ∃ gr', (trapMoves s' c nb).group? c.g = some gr' ∧ ∀ l, l < 32 → has (trappedMoves c nb) l = true →
      Entered (c.thread l) (lane gr'.threads l) ((moveTrap c.gr (c.thread l) (nb l)).getD 0) (BitVec.ofInt 64 (nb l)) := by
  have hout' : ∀ j, j < 32 → has (trappedMoves c nb) j = true → (c.thread j).inHandler = false := fun j hj h => by
    rw [has_trappedMoves c nb hj, Bool.and_eq_true] at h
    exact hout j hj h.1
  rw [trapMoves, if_neg hsome]
  split
  · exact trapSome_enters (b.takeIssue false) (hsame.trans (takeIssue_sameVectors ..)) hout' hvec ..
  · exact trapSome_enters b hsame hout' hvec ..

section Moves
variable {s s' : State} {c : Ctl} {nb : Nat → Int} {k : State → Ctl → State} (hk : ∀ t c', c'.g = c.g → KeepsGroups t (k t c'))
include hk

/-- The group after `k`, once the windows of the lanes `act` have moved. -/
theorem moveWindows_then {gr : Group} (hgr : s.group? c.g = some gr) (act : Mask) (gr₁ : Group) :
    ∃ gr', (k (moveWindows s c.g act nb) { c with act := act, gr := gr₁ }).group? c.g = some gr' ∧
      ∀ l, l < 32 → (lane gr'.threads l).unplaced = (if has act l then (lane gr.threads l).moveTo (nb l) else lane gr.threads l).unplaced := by
  have hmoved := State.group?_modGroup (fun g => onThreads g act fun l t => t.moveTo (nb l)) hgr
  obtain ⟨gr', hgr', hsame⟩ := (hk (moveWindows s c.g act nb) { c with act := act, gr := gr₁ } rfl).group _ _ hmoved
  refine ⟨gr', hgr', fun l hl => ?_⟩
  rw [hsame.threads l hl, onThreads, lane_modLanes _ _ _ hl]

/-- Where every move fits, the active lanes' windows are moved in the group that `k` leaves. -/
theorem withMove_moves (b : Begun s c s') (hphase : c.gr.phase = .running) (hact : c.act ≠ 0)
    (hfit : ∀ l, l < 32 → has c.act l = true → moveTrap c.gr (c.thread l) (nb l) = none) :
    ∃ gr', (withMove s' c nb k).group? c.g = some gr' ∧
      ∀ l, l < 32 → has c.act l = true → movedTo (c.thread l) (lane gr'.threads l) (nb l) := by
  obtain ⟨i, u, hgr, -⟩ := b.group
  have hall : c.act &&& ~~~(0 : Mask) = c.act := by
    rw [show ~~~(0 : Mask) = BitVec.allOnes 32 from BitVec.not_zero, BitVec.and_allOnes]
  rw [withMove_eq, trapMoves_eq_self (trappedMoves_eq_zero hfit), trappedMoves_eq_zero hfit, hall, moveOthers, hgr]
  dsimp only
  rw [if_neg hact, if_neg (not_not_intro hphase)]
  obtain ⟨gr', hgr', hlane⟩ := moveWindows_then (nb := nb) hk hgr c.act _
  refine ⟨gr', hgr', fun l hl hl' => movedTo_congr (movedTo_moveTo (c.thread l) (nb l)) ((hlane l hl).trans ?_)⟩
  rw [if_pos hl']
  rfl

/-- What the lanes left do keeps the other lanes' threads but for where they stand. -/
theorem moveOthers_keeps {gr : Group} {act : Mask} {l : Nat} (hgr : s.group? c.g = some gr) (hl : l < 32) (hact : has act l = false) :
    ∃ gr', (moveOthers s c act nb k).group? c.g = some gr' ∧ (lane gr'.threads l).unplaced = (lane gr.threads l).unplaced := by
  simp only [moveOthers, hgr]
  split
  · exact ⟨gr, hgr, rfl⟩
  · split
    · obtain ⟨gr', hgr', hsame⟩ := (takeIssue_keepsGroups s c false).group _ _ hgr
      exact ⟨gr', hgr', hsame.threads l hl⟩
    · obtain ⟨gr', hgr', hlane⟩ := moveWindows_then (nb := nb) hk hgr act _
      refine ⟨gr', hgr', (hlane l hl).trans ?_⟩
      rw [hact, if_neg Bool.false_ne_true]

/-- A lane whose move traps is in its handler afterwards, whatever the other lanes do. -/
theorem withMove_enters (b : Begun s c s') (hsame : SameVectors s s') (hvec : trapVector s c.gr ≠ 0)
    (hout : ∀ j, j < 32 → has c.act j = true → (c.thread j).inHandler = false) {l : Nat} (hl : l < 32) (hact : has c.act l = true)
    {cause : BitVec 8} (htrap : moveTrap c.gr (c.thread l) (nb l) = some cause) :
    ∃ gr', (withMove s' c nb k).group? c.g = some gr' ∧ Entered (c.thread l) (lane gr'.threads l) cause (BitVec.ofInt 64 (nb l)) := by
  have hin : has (trappedMoves c nb) l = true := by rw [has_trappedMoves c nb hl, hact, htrap]; rfl
  have hleft : has (c.act &&& ~~~trappedMoves c nb) l = false := by rw [has_andNot _ _ hl, hin, Bool.not_true, Bool.and_false]
  obtain ⟨gr₁, hgr₁, hent⟩ := trapMoves_enters b hsame hvec hout (ne_zero_of_has hin)
  obtain ⟨gr₂, hgr₂, hkept⟩ := moveOthers_keeps (nb := nb) hk hgr₁ hl hleft
  have henters := (hent l hl hin).congr hkept
  rw [htrap] at henters
  rw [withMove_eq]
  exact ⟨gr₂, hgr₂, henters⟩

end Moves

theorem exec_wbase (i : BitVec 10) (s : State) : exec (.wbase i) s =
    runControl [] [] (fun c s _ => withMove s c (fun l => (c.thread l).base + i.toInt) fun s c => finish s c false) s := rfl

end Sys2Proof.Machine

namespace Sys2Proof.Claims
open Sys2Proof.Machine

/-- Settles O12: where every move fits the active lanes move; a lane that traps enters its handler, and what the other lanes then
do leaves it there. -/
theorem wbaseMovesOrTraps : Obligations.WbaseMovesOrTraps := by
  have hfinish (c : Ctl) (t : State) (c' : Ctl) (_ : c'.g = c.g) : KeepsGroups t (finish t c' false) := finish_keepsGroups ..
  refine ⟨fun i s c h hfit => ?_, fun i s c l cause h hl hact hvec hout htrap => ?_, fun i => rfl⟩
  · obtain ⟨s', b, -, hrun⟩ := runControl_starts h.toInProgress
    obtain ⟨-, -, -, hphase⟩ := currentCtl_eq h.ctl
    obtain ⟨gr, hgr, hmoved⟩ := withMove_moves (nb := fun l => (c.thread l).base + i.toInt) (hfinish c) b hphase h.active hfit
    refine ⟨_, (exec_wbase i s).trans (hrun _), fun l hl hact => ?_⟩
    rw [threadIn_of_group hgr]
    exact hmoved l hl hact
  · obtain ⟨s', b, hsame, hrun⟩ := runControl_starts h.toInProgress
    obtain ⟨gr, hgr, hentered⟩ :=
      withMove_enters (nb := fun l => (c.thread l).base + i.toInt) (hfinish c) b hsame hvec hout hl hact htrap
    refine ⟨_, (exec_wbase i s).trans (hrun _), ?_⟩
    change Entered (c.thread l) (threadIn _ c l) cause _
    rw [threadIn_of_group hgr]
    exact hentered

end Sys2Proof.Claims

/-! # The default stream length (R344, R360)

What a stream instruction without operands starts from, and what the end of an issue keeps of an effect on the group before it: that
end reads no more of the group than its context and which of its threads are present and live. -/
namespace Sys2Proof.Machine
open Sys2Proof.Claims

/-! ## An effect on the group before the end of the issue -/

theorem goesOnAfter_withGroup (t : State) (c : Ctl) (gr : Group) : goesOnAfter t { c with gr := gr } = goesOnAfter t c := by
  simp only [goesOnAfter, standsAt, threadIn]

theorem finish_architectedSame {s s' : State} {c : Ctl} (b : Begun s c s') : architectedSame s (finish s' c false) c :=
  architectedSame_of_issued b advance_same

section Effect
variable {s s' : State} {c : Ctl} {f : Group → Group} {gr : Group}

/-- After an effect on the group, the state differs in bookkeeping alone from that of the instruction with the group changed. -/
theorem Begun.withGroup (b : Begun s c s')
    (hf : ∀ i u, f { c.gr with issue := some i, use := u } = { gr with issue := some i, use := u }) (hctx : gr.ctx = c.gr.ctx) :
    Begun s { c with gr := gr } (s'.modGroup c.g f) := by
  obtain ⟨i, u, hgr, hi⟩ := b.group
  refine ⟨⟨i, u, (State.group?_modGroup f hgr).trans (congrArg some (hf i u)), hi⟩,
    fun h hne => (State.group?_modGroup_ne _ _ hne).trans (b.others h hne), b.queues, fun hnone => b.quiet ?_, b.same⟩
  rw [← hctx]
  exact hnone

variable (hctx : gr.ctx = c.gr.ctx) (hlive : liveMask gr = liveMask c.gr)
  (hpresent : ∀ l, (lane gr.threads l).present = (lane c.gr.threads l).present)
include hctx hlive hpresent

theorem profile_withGroup (s : State) (scalar joins : Bool) : profile s { c with gr := gr } scalar joins = profile s c scalar joins := by
  unfold profile
  simp only [activeMask, hctx, hlive, hpresent]

theorem finish_withGroup (s : State) (scalar : Bool) : finish s { c with gr := gr } scalar = finish s c scalar := by
  have htake : takeIssue s { c with gr := gr } scalar = takeIssue s c scalar := by
    simp only [takeIssue, profile_withGroup hctx hlive hpresent]
  simp only [finish, issued, htake]

/-- An instruction that has changed its group and passes goes on, and the changed group alone differs. -/
theorem finish_after_effect (b : Begun s c s')
    (hf : ∀ i u, f { c.gr with issue := some i, use := u } = { gr with issue := some i, use := u }) :
    goesOnAfter (finish (s'.modGroup c.g f) c false) c ∧
      architectedSame s (finish (s'.modGroup c.g f) c false) { c with gr := gr } := by
  have hbegun := b.withGroup hf hctx
  rw [← finish_withGroup hctx hlive hpresent, ← goesOnAfter_withGroup _ c gr]
  exact ⟨finish_goesOn hbegun, finish_architectedSame hbegun⟩

end Effect

/-! ## A stream instruction without operands -/

/-- A stream instruction without operands comes to its effect in a state that differs in bookkeeping alone. -/
theorem runStream_starts {s : State} {c : Ctl} (h : InProgress s c) :
    ∃ s', Begun s c s' ∧ ∀ k : Ctl → State → State → List Row → State, runStream 127 [] [] k s = .next (k c s' s' []) := by
  obtain ⟨s₁, b₁, hissue⟩ := withIssue_completes h
  obtain ⟨s₂, b₂, hrows⟩ := withRows_clear (ns := []) b₁ rfl
  refine ⟨s₂, b₂, fun k => ?_⟩
  rw [runStream, hissue]
  exact congrArg Host.Outcome.next ((withDeps_clear fun _ _ => rfl).trans (hrows _))

/-! ## SLEN (R360) -/

/-- What SLEN does to an active thread. -/
def Thread.withDlen (m : BitVec 3) (t : Thread) : Thread := { t with dlen := m.setWidth 2 }

/-- What SLEN does to its group. -/
def Group.withDlen (m : BitVec 3) (act : Mask) (g : Group) : Group := onThreads g act fun _ t => t.withDlen m

theorem Group.withDlen_placed (m : BitVec 3) (act : Mask) (g : Group) (i : Issue) (u : Tab Nat) :
    Group.withDlen m act { g with issue := some i, use := u } = { g.withDlen m act with issue := some i, use := u } := by
  simp only [Group.withDlen, onThreads]

theorem Group.withDlen_ctx (m : BitVec 3) (act : Mask) (g : Group) : (g.withDlen m act).ctx = g.ctx := by
  simp only [Group.withDlen, onThreads]

theorem Group.withDlen_streamSlot (m : BitVec 3) (act : Mask) (g : Group) : (g.withDlen m act).streamSlot = g.streamSlot := by
  simp only [Group.withDlen, onThreads]

theorem Group.lane_withDlen (m : BitVec 3) (act : Mask) (g : Group) {l : Nat} (hl : l < 32) :
    lane (g.withDlen m act).threads l = if has act l then (lane g.threads l).withDlen m else lane g.threads l := by
  rw [Group.withDlen, onThreads, lane_modLanes _ _ _ hl]

/-- SLEN keeps every property of a lane's thread that the default length is no part of. -/
theorem Group.lane_withDlen_congr {α : Type} {p : Thread → α} (m : BitVec 3) (hp : ∀ t, p (t.withDlen m) = p t) (act : Mask) (g : Group)
    (l : Nat) : p (lane (g.withDlen m act).threads l) = p (lane g.threads l) := by
  have hmod (w : Lanes Thread) : lane w l = lane w (l % 32) := by simp only [lane, Nat.mod_mod]
  rw [hmod, hmod g.threads, Group.lane_withDlen _ _ _ (Nat.mod_lt l (by decide))]
  split
  · exact hp _
  · rfl

theorem Group.liveMask_withDlen (m : BitVec 3) (act : Mask) (g : Group) : liveMask (g.withDlen m act) = liveMask g := by
  have hlive (l : Nat) : (lane (g.withDlen m act).threads l).live = (lane g.threads l).live :=
    Group.lane_withDlen_congr m (fun _ => rfl) act g l
  simp only [liveMask, hlive]

theorem exec_slen (m : BitVec 3) (s : State) : exec (.slen m) s =
    runStream 127 [] [] (fun c _ s _ => finish (s.modGroup c.g (Group.withDlen m c.act)) c false) s := rfl

end Sys2Proof.Machine

namespace Sys2Proof.Claims
open Sys2Proof.Machine

theorem architectedSame.dlen {s t : State} {c : Ctl} (h : architectedSame s t c) {l : Nat} (hl : l < 32) :
    (threadIn t c l).dlen = (c.thread l).dlen := by
  obtain ⟨⟨gr, hgr, -, -, -, hthreads⟩, -⟩ := h
  obtain ⟨hrest, -⟩ := hthreads l hl
  rw [threadIn_of_group hgr]
  exact (congrArg Thread.dlen hrest :)

theorem architectedSame.streamSlot {s t : State} {c : Ctl} (h : architectedSame s t c) :
    (t.group? c.g).map (·.streamSlot) = some c.gr.streamSlot := by
  obtain ⟨⟨gr, hgr, hrest, -⟩, -⟩ := h
  rw [hgr]
  exact congrArg some (congrArg Group.streamSlot hrest :)

theorem architectedSame.cores {s t : State} {c : Ctl} (h : architectedSame s t c) : t.cores = s.cores := by
  obtain ⟨-, ⟨-, -, -, -, -, -, hcores, -⟩, -⟩ := h
  exact hcores

theorem threadIn_withGroup (t : State) (c : Ctl) (gr : Group) (l : Nat) : threadIn t { c with gr := gr } l = threadIn t c l := by
  simp only [threadIn]

/-- Settles O52: SLEN writes its group's active threads and goes on; neither step changes a core or a slot. -/
theorem slenWritesDlen : Obligations.SlenWritesDlen := by
  intro m s c _ h
  obtain ⟨s', b, hrun⟩ := runStream_starts h.toInProgress
  obtain ⟨hgoes, hsame⟩ := finish_after_effect (c.gr.withDlen_ctx m c.act) (c.gr.liveMask_withDlen m c.act)
    (c.gr.lane_withDlen_congr m (fun _ => rfl) c.act) b (c.gr.withDlen_placed m c.act)
  refine ⟨_, (exec_slen m s).trans (hrun _), fun l hl => ?_, ?_, hsame.cores, hgoes⟩
  · rw [← threadIn_withGroup _ c (c.gr.withDlen m c.act), hsame.dlen hl, Ctl.thread, Group.lane_withDlen _ _ _ hl]
    split <;> rfl
  · rw [← Group.withDlen_streamSlot m c.act]
    exact hsame.streamSlot

end Sys2Proof.Claims
